-- ==== Sys2Proof/Word.lean ====
section
/-! DEFINITION. The word types of the model and its one container shape: a byte, a line's byte enables, and a sparse
table from numbers to entries, kept as a list. -/

namespace Sys2Proof

/-- One byte of the page store, of a frame or of a field. -/
abbrev Byte := BitVec 8

/-- A sparse table: entries by number. The operations of Machine/Table.lean keep the numbers strictly rising. -/
abbrev Table (α : Type) := List (Nat × α)

/-- A window-relative byte address of the archive link (R1: 45 bits). -/
abbrev Address := BitVec 45

/-- The byte enables of a LINE WRITE, bit k for byte k of the line (§1.1). -/
abbrev Enables := BitVec 64

end Sys2Proof
end

