-- ==== Sys2Proof/Syntax.lean ====
section
/-! DEFINITION. The commands of the block: one constructor for each row of spec/opcode_table.json. Operands of the archive
link, the engine and the banks have the width of what carries them; the fields of a management command are the numbers
that its field bytes spell (R194), so that a rule's range checks are made on them. -/

namespace Sys2Proof

/-- One command sent to the block. -/
inductive Instr where
  /-- POWER_ON (R149): the RESET pin is released; `pins` is what the store size pins read. -/
  | powerOn (pins : Fin 4)
  /-- RESET_PIN_ASSERT (R182). -/
  | resetPinAssert
  /-- INIT_BUILD_APPEND (R48). -/
  | initBuildAppend
  /-- LINE_READ (R1): tag, window-relative byte address, critical beat. -/
  | lineRead (tag : Fin 32) (address : Address) (beat : Fin 8)
  /-- LINE_WRITE (R2): address, the line's 64 bytes, one enable for each byte. -/
  | lineWrite (address : Address) (data : List Byte) (enables : Enables)
  /-- READ_DECODE (R19): the read holding `tag` is decoded. -/
  | readDecode (tag : Fin 32)
  /-- WRITE_DISPOSAL (R21): the buffer attempts the disposal of its head. -/
  | writeDisposal
  /-- ARCHIVE_LINK_DOWN (R8). -/
  | archiveLinkDown
  /-- ARCHIVE_LINK_UP (R9). -/
  | archiveLinkUp
  /-- READ_DATA_START (R4): the READY entry `tag` enters SENDING. -/
  | readDataStart (tag : Fin 32)
  /-- READ_DATA_END (R3): the last beat of the READ DATA on the return path is sent. -/
  | readDataEnd
  /-- COPY_SEGMENT_ISSUE (R63): copy slot `slot` issues its next segment. -/
  | copySegmentIssue (slot : Fin 4)
  /-- COMMIT_SEGMENT_ISSUE (R97): the commit sequencer issues its next segment. -/
  | commitSegmentIssue
  /-- ARBITER_ISSUE (R155). -/
  | arbiterIssue
  /-- QUIET_TIMER_EXPIRY (R156). -/
  | quietTimerExpiry
  /-- AGING_CLOCK_EXPIRY (R157). -/
  | agingClockExpiry
  /-- BANK_OPEN_START (R158). -/
  | bankOpenStart (bank : Fin 8)
  /-- ROW_CYCLE_EXPIRY (R158). -/
  | rowCycleExpiry (bank : Fin 8)
  /-- OPEN_DELAY_EXPIRY (R158). -/
  | openDelayExpiry (bank : Fin 8)
  /-- BANK_CLOSE_START (R160). -/
  | bankCloseStart (bank : Fin 8)
  /-- MINIMUM_OPEN_EXPIRY (R158). -/
  | minimumOpenExpiry (bank : Fin 8)
  /-- WRITE_RECOVERY_EXPIRY (R158). -/
  | writeRecoveryExpiry (bank : Fin 8)
  /-- CLOSE_DELAY_EXPIRY (R158). -/
  | closeDelayExpiry (bank : Fin 8)
  /-- TURNAROUND_EXPIRY (R161). -/
  | turnaroundExpiry
  /-- TRANSFER_START (R161). -/
  | transferStart
  /-- TRANSFER_END (R162). -/
  | transferEnd
  /-- MANAGEMENT_TRANSACTION_START (R183): the chip select is asserted; `direction` is the direction byte. -/
  | managementTransactionStart (direction : Byte)
  /-- COMMAND_FRAME (R184): a command transaction ends; `bytes` followed the direction byte. -/
  | commandFrame (bytes : List Byte)
  /-- RESPONSE_TRANSACTION (R187): a response transaction ends; `clocked` bytes were clocked out after the direction byte. -/
  | responseTransaction (clocked : Nat)
  /-- OTHER_TRANSACTION (R183): a transaction of another direction ends; `clocked` bytes followed the direction byte. -/
  | otherTransaction (clocked : Nat)
  /-- IDENTIFY (R190). -/
  | identify
  /-- READ_STATUS (R191). -/
  | readStatus
  /-- RESET_ENGINE (R192). -/
  | resetEngine
  /-- SET_LINK_ORDER (R7). -/
  | setLinkOrder (order : Nat)
  /-- SET_APERTURE (R11): aperture number, then the fields of R10. -/
  | setAperture (aperture state kind selector restored job fill : Nat)
  /-- READ_APERTURE (R14). -/
  | readAperture (aperture : Nat)
  /-- CREATE_PAGE (R36). -/
  | createPage (page kind rateClass day edition loading : Nat)
  /-- FINISH_LOAD (R38). -/
  | finishLoad (page : Nat)
  /-- SET_EMBARGO (R39): a day, or 16,777,215 for NONE (R194). -/
  | setEmbargo (page day : Nat)
  /-- SET_RATE_CLASS (R40). -/
  | setRateClass (page rateClass : Nat)
  /-- DISCARD_VERSION (R41). -/
  | discardVersion (page version : Nat)
  /-- RETIRE_PAGE (R43). -/
  | retirePage (page : Nat)
  /-- READ_PAGE (R45). -/
  | readPage (page : Nat)
  /-- SET_STORE_RESERVE (R49). -/
  | setStoreReserve (reserve : Nat)
  /-- OPEN_EDITION (R52). -/
  | openEdition (edition : Nat)
  /-- CLOSE_EDITION (R53). -/
  | closeEdition
  /-- WRITE_RESTORATION (R75): page, W, P, H, K, Wt, curve number. -/
  | writeRestoration (page width pitch height black white curve : Nat)
  /-- ADD_DEFECT (R77): page, x0, y0, x1, y1, fill. -/
  | addDefect (page x0 y0 x1 y1 fill : Nat)
  /-- CLEAR_DEFECTS (R78). -/
  | clearDefects (page : Nat)
  /-- DETACH_RESTORATION (R79). -/
  | detachRestoration (page : Nat)
  /-- LOAD_CURVE (R80): curve, quarter, and the values; the value count is their number. -/
  | loadCurve (curve quarter : Nat) (values : List Byte)
  /-- READ_RESTORATION (R81). -/
  | readRestoration (page : Nat)
  /-- COMMIT_RESTORATION (R91). -/
  | commitRestoration (page : Nat)
  /-- ABORT_COMMIT (R101). -/
  | abortCommit
  /-- OPEN_ACCOUNT (R107). -/
  | openAccount (account : Nat)
  /-- CREDIT_ACCOUNT (R108). -/
  | creditAccount (account amount : Nat)
  /-- SUSPEND_ACCOUNT (R109). -/
  | suspendAccount (account : Nat)
  /-- RESUME_ACCOUNT (R109). -/
  | resumeAccount (account : Nat)
  /-- SET_DISCOUNT (R110): account, T1, T2, d1, d2. -/
  | setDiscount (account t1 t2 d1 d2 : Nat)
  /-- READ_ACCOUNT (R112). -/
  | readAccount (account : Nat)
  /-- CLOSE_ACCOUNT (R111). -/
  | closeAccount (account : Nat)
  /-- OPEN_JOB (R115): job, account, ceiling. -/
  | openJob (job account ceiling : Nat)
  /-- CLOSE_JOB (R116). -/
  | closeJob (job : Nat)
  /-- FREE_JOB (R117). -/
  | freeJob (job : Nat)
  /-- READ_JOB (R118): job, portion. -/
  | readJob (job portion : Nat)
  /-- SET_DATE (R128). -/
  | setDate (day : Nat)
  /-- SET_BANDS (R131). -/
  | setBands (a1 a2 a3 : Nat)
  /-- SET_RATE (R132): rate class and its four rates in band order. -/
  | setRate (rateClass r0 r1 r2 r3 : Nat)
  /-- SET_SURCHARGE (R133). -/
  | setSurcharge (surcharge : Nat)
  /-- READ_TARIFF (R139). -/
  | readTariff (rateClass : Nat)
  /-- READ_CHARGES (R143): the most records wanted. -/
  | readCharges (most : Nat)
  /-- SET_LOG_MODE (R145): threshold, clear mode. -/
  | setLogMode (threshold mode : Nat)
  /-- SET_STORE_TIMING (R163): the six timings in the order of its table. -/
  | setStoreTiming (openDelay closeDelay minimumOpen rowCycle writeRecovery turnaround : Nat)
  /-- SET_PAGE_POLICY (R164). -/
  | setPagePolicy (policy : Nat)
  /-- SET_ARBITER (R165): quiet time in ns, aging limit in µs. -/
  | setArbiter (quietTime agingLimit : Nat)
  /-- READ_STORE_SETTINGS (R166). -/
  | readStoreSettings
  /-- READ_FAULTS (R172). -/
  | readFaults
  /-- ACK_EVENTS (R175): the event mask. -/
  | ackEvents (mask : Nat)
  /-- ENABLE_EVENTS (R176): the ten enables as an event mask. -/
  | enableEvents (mask : Nat)
  /-- ENABLE_JOB_EVENTS (R178): job, per-job mask. -/
  | enableJobEvents (job mask : Nat)
  /-- ACK_JOB_EVENTS (R178): job, per-job mask. -/
  | ackJobEvents (job mask : Nat)
  /-- READ_EVENTS (R181). -/
  | readEvents
  deriving DecidableEq, Repr

end Sys2Proof
end

