-- ==== Sys2Proof/Config.lean ====
section
/-! DEFINITION. What is fixed for the part: its identification, the capacities of its collections (R190), and the
values and orders that the manual leaves open: the contents of the store DRAM after power-on (R149), and whether an event
that may follow its cause at once or later does so (R54, R65, R69, R87, R95). -/

namespace Sys2Proof.Config

/-- The contents of the store DRAM are undefined after power-on (R149). The free value of the byte at an address, after
the given power-on: no definition stands behind it, so nothing can be proved of it (assumption 7). -/
opaque storePowerOn : (powerOns : Nat) → (address : Nat) → Byte

/-- Other commands may come between a cause and an event of the restoration unit: the arrival of data (R87), or the
sequencer's test of the reserve with its allocation (R69, R95). The free choice, at each such occasion, whether the event
falls later than its cause (assumption 36). -/
opaque restorationFallsLater : (occasion : Nat) → Bool

/-- The end of CLOSING is tested after a copy slot becomes IDLE, in no fixed order with what else follows (R65). The free
choice, at each such occasion, whether the test falls later than its cause (assumption 38). -/
opaque closingTestFallsLater : (occasion : Nat) → Bool

/-- N for each value of the store size pins (R149). -/
def stripsOfPins (pins : Fin 4) : Nat := 32768 * 2 ^ pins.val

abbrev vendorCode : Nat := 5841
abbrev partCode : Nat := 740
abbrev revision : Nat := 1

/-! Capacities, in the order in which IDENTIFY reports them (R190). -/

abbrev apertureCount : Nat := 16
abbrev pageCount : Nat := 65536
abbrev versionCount : Nat := 8192
abbrev copySlotCount : Nat := 4
abbrev holdCapacity : Nat := 16
abbrev recordCount : Nat := 1024
abbrev curveCount : Nat := 8
abbrev accountCount : Nat := 256
abbrev jobCount : Nat := 64
abbrev chargedSetCapacity : Nat := 128
abbrev logCapacity : Nat := 1024
abbrev faultCapacity : Nat := 32
abbrev writeBufferCapacity : Nat := 32
abbrev tagCount : Nat := 32

/-! Capacities that other rules give. -/

/-- Strips of a page frame (00_scope.md §4). -/
abbrev frameStrips : Nat := 512
/-- Lines of a strip (00_scope.md §4). -/
abbrev stripLines : Nat := 1024
/-- Linked versions of a page, the building one counted (R31). -/
abbrev chainCapacity : Nat := 16
/-- Entries of a defect list (R73). -/
abbrev defectCapacity : Nat := 32
/-- Places of the issue list (R155). -/
abbrev issueCapacity : Nat := 8
/-- Places of the link-side queue for writes carried from the write buffer (R152). -/
abbrev carriedCapacity : Nat := 64

/-! Bounds of named fields. -/

abbrev maxDay : Nat := 131071
abbrev maxEdition : Nat := 16777215
abbrev maxUnits : Nat := 4294967295

end Sys2Proof.Config
end

