-- ==== Sys2Proof/Machine/State.lean ====
section
/-! DEFINITION. The state of the block, as plain data: every register, table, queue, counter, mode, timer and pin that the
manual gives the part, grouped by its block (00_scope.md §3), and the queue of waiting commands. A table lists the entries
that differ from their value after power-on (apertures, tags, accounts, jobs, rates, curves, banks, per-job events) or
that exist at all (pages, versions, strips, slots, records, store bytes). -/

namespace Sys2Proof.Machine

/-! ### Stops -/

/-- What stops the machine. No command of this block stops it: a dropped write makes a fault RECORD (R169) and a refused
command a status (R185), both of which are state. So the type has no constructor. -/
inductive Fault where
  deriving DecidableEq, Repr

/-- Why a command has no meaning in the model. -/
inductive Refusal where
  /-- Raised by `exec` for a row not modelled yet (safe: the model stops). No arm raises it. -/
  | notModelled (mnemonic : String)
  deriving DecidableEq, Repr

/-! ### Link interface (chapter 1) -/

/-- The wrap orders of R6, in the order of their codes. -/
inductive WrapOrder where
  | sequential | interleaved
  deriving DecidableEq, Repr

/-- The data notes of R5. -/
inductive DataNote where
  | data | blank | withheld | unmapped
  deriving DecidableEq, Repr

/-- The answer of a read, once it is known: its note and the line's 64 bytes (R5). -/
structure Answer where
  note : DataNote
  bytes : List Byte
  deriving DecidableEq, Repr

/-- The states of a read tag table entry (§1.1). DECODING is the model's: the read has passed its read-after-write wait
and stands at the translation unit for READ_DECODE (assumption 8). -/
inductive TagState where
  | free | waiting | decoding | queued | ready | sending
  deriving DecidableEq, Repr

/-- One entry of the read tag table (§1.1). -/
structure TagEntry where
  state : TagState := .free
  address : Address := 0
  beat : Fin 8 := 0
  answer : Option Answer := none
  deriving DecidableEq, Repr

/-- The READ DATA on the return path: its eight beats in the order in which they are sent (R4, R6). -/
structure ReadData where
  tag : Fin 32
  note : DataNote
  beats : List (List Byte)
  deriving DecidableEq, Repr

/-- A LINE WRITE as the write buffer and the hold queue keep it (§1.1, R66). -/
structure HostWrite where
  address : Address
  data : List Byte
  enables : Enables
  deriving DecidableEq, Repr

/-- The key of a request: page id, strip index and line (R16). -/
structure Key where
  page : Nat
  strip : Nat
  line : Nat
  deriving DecidableEq, Repr

/-- The link interface. -/
structure Link where
  linkUp : Bool := false
  wrapOrder : WrapOrder := .sequential
  tags : Table TagEntry := []
  /-- The READY entries in the order of R4; entries that became READY together stand in one group. -/
  readyOrder : List (List (Fin 32)) := []
  sending : Option ReadData := none
  writeBuffer : List HostWrite := []
  /-- An attempt at the head of the write buffer is owed (R21, R153). -/
  attemptDue : Bool := true
  readCredits : Nat := 0
  writeCredits : Nat := 0
  deriving DecidableEq, Repr

/-! ### Translation unit (R10) -/

inductive ApertureState where
  | disabled | enabled
  deriving DecidableEq, Repr

inductive ApertureKind where
  | edition | load | historic | restored | reprint
  deriving DecidableEq, Repr

/-- One aperture descriptor with its reset values (R10); selector `none` is LATEST. -/
structure Aperture where
  state : ApertureState := .disabled
  kind : ApertureKind := .edition
  selector : Option Nat := none
  restored : Bool := false
  job : Nat := 0
  fill : Byte := 224
  deriving DecidableEq, Repr

/-! ### Edition store controller (chapters 2 and 3) -/

inductive PageState where
  | absent | loading | live
  deriving DecidableEq, Repr

inductive PageKind where
  | page | photo
  deriving DecidableEq, Repr

/-- One page directory entry, with the values of an ABSENT page (R24). -/
structure Page where
  state : PageState := .absent
  kind : PageKind := .page
  rateClass : Nat := 0
  day : Nat := 0
  edition : Nat := 0
  embargo : Option Nat := none
  chain : List Nat := []
  building : Option Nat := none
  record : Option Nat := none
  pins : Nat := 0
  committing : Bool := false
  copies : Nat := 0
  deriving DecidableEq, Repr

inductive Origin where
  | edition | load | restored
  deriving DecidableEq, Repr

inductive LockState where
  | openLock | locked | building
  deriving DecidableEq, Repr

/-- One version record in use (R27); the delta list gives the store strip of each strip index. -/
structure Version where
  page : Nat
  origin : Origin
  edition : Nat
  lock : LockState
  delta : Table Nat
  deriving DecidableEq, Repr

/-- A unit that fills strips and issues segments: a copy slot or the commit sequencer (R46, R154). -/
inductive Engine where
  | slot (slot : Fin 4)
  | sequencer
  deriving DecidableEq, Repr

/-- The state of a store strip that is not FREE (R46). -/
inductive StripState where
  | filling (filler : Engine)
  | ready
  deriving DecidableEq, Repr

/-- One strip table entry that is not FREE: its state, owning version and strip index (R46). -/
structure StripEntry where
  state : StripState
  owner : Nat
  index : Nat
  deriving DecidableEq, Repr

/-- The edition machine's state (R51). -/
inductive EditionState where
  | none
  | opened (edition : Nat)
  | closing (edition : Nat)
  deriving DecidableEq, Repr

/-- Whether a segment request of the engine is queued or in progress (R63, R89). -/
inductive SegmentPhase where
  | none | read | write
  deriving DecidableEq, Repr

/-- A COPYING slot (R62); source `none` is BLANK. `held` is the 256 bytes a slot holds after its read segment, and
`blocked` that it waits for a link-side write to its source (R63). -/
structure Copy where
  source : Option Nat
  target : Nat
  page : Nat
  index : Nat
  nextLine : Nat := 0
  phase : SegmentPhase := .none
  held : Option (List Byte) := none
  blocked : Bool := false
  deriving DecidableEq, Repr

/-- One entry of the hold queue (R66). -/
structure HeldWrite where
  write : HostWrite
  slot : Fin 4
  released : Bool
  deriving DecidableEq, Repr

/-- The edition store controller. -/
structure Store where
  pages : Table Page := []
  versions : Table Version := []
  strips : Table StripEntry := []
  freeQueue : List Nat := []
  reserve : Nat
  edition : EditionState := .none
  lastEdition : Nat := 0
  copies : Table Copy := []
  startOrder : List (Fin 4) := []
  holdQueue : List HeldWrite := []
  /-- Held writes carried out whose strip is still FILLING: they count for the read-after-write wait (R17). -/
  settling : List (Fin 4 × Key) := []
  /-- The model's own: how often the test of the end of CLOSING has fallen due with a slot's becoming IDLE. Each such
  occasion takes its own free choice (assumption 38). -/
  closingTests : Nat := 0
  deriving DecidableEq, Repr

/-! ### Restoration unit (chapters 4 and 5) -/

/-- One entry of a defect list (R73). -/
structure Defect where
  x0 : Nat
  y0 : Nat
  x1 : Nat
  y1 : Nat
  fill : Byte
  deriving DecidableEq, Repr

/-- A restoration record in use (R72). -/
structure Restoration where
  owner : Nat
  width : Nat
  pitch : Nat
  height : Nat
  black : Nat
  white : Nat
  curve : Nat
  defects : List Defect
  deriving DecidableEq, Repr

inductive SequencerState where
  | idle | running | waiting | aborting
  deriving DecidableEq, Repr

/-- How the most recent commit ended (R89). -/
inductive CommitOutcome where
  | none
  | completed (page version : Nat)
  | aborted (page : Nat)
  deriving DecidableEq, Repr

/-- The commit sequencer (R89). `held` is the 256 transformed bytes between read and write segment, and `blocked` that it
waits for a link-side write to its source (R97). -/
structure Sequencer where
  state : SequencerState := .idle
  page : Nat := 0
  snapshot : Nat := 0
  building : Nat := 0
  cursor : Nat := 0
  source : Nat := 0
  target : Nat := 0
  nextLine : Nat := 0
  inProgress : Bool := false
  phase : SegmentPhase := .none
  held : Option (List Byte) := none
  blocked : Bool := false
  outcome : CommitOutcome := .none
  deriving DecidableEq, Repr

/-- The data of an eligible read that has been carried out, on its way to the restoration unit (R82, R87): the read's tag
and the line's 64 bytes as stored. -/
structure Arrival where
  tag : Fin 32
  bytes : List Byte
  deriving DecidableEq, Repr

/-- The restoration unit. `curves` lists the curve entries that are not the identity, entry t of table c under number
256 × c + t (R74); `arriving` is in the order in which the reads were carried out. -/
structure Restore where
  records : Table Restoration := []
  curves : Table Byte := []
  sequencer : Sequencer := {}
  arriving : List Arrival := []
  /-- The model's own: how often the rules let an event of the unit fall with its cause or later. Each such occasion takes
  its own free choice (assumption 36). -/
  occasions : Nat := 0
  deriving DecidableEq, Repr

/-! ### Reprint meter (chapters 6 and 7) -/

inductive AccountState where
  | closed | active | suspended
  deriving DecidableEq, Repr

/-- One account, with its values after reset (R105). -/
structure Account where
  state : AccountState := .closed
  balance : Nat := 0
  credited : Nat := 0
  charged : Nat := 0
  t1 : Nat := 64
  t2 : Nat := 128
  d1 : Nat := 0
  d2 : Nat := 0
  jobs : Nat := 0
  deriving DecidableEq, Repr

inductive JobState where
  | free | opened | closed
  deriving DecidableEq, Repr

/-- The reasons of R120, in their order, after NONE (R113). -/
inductive Reason where
  | none | jobClosed | noPage | embargo | account | setFull | ceiling | balance | logFull
  deriving DecidableEq, Repr

/-- One entry of a charged set (R119). -/
structure Purchase where
  page : Nat
  fee : Nat
  ordinal : Nat
  deriving DecidableEq, Repr

/-- One job, with its values when FREE (R113). -/
structure Job where
  state : JobState := .free
  account : Nat := 0
  ceiling : Nat := 0
  total : Nat := 0
  purchases : List Purchase := []
  withheld : Nat := 0
  reason : Reason := .none
  openingDay : Nat := 0
  deriving DecidableEq, Repr

/-- The age thresholds (R130). -/
structure Bands where
  a1 : Nat := 1
  a2 : Nat := 25
  a3 : Nat := 75
  deriving DecidableEq, Repr

/-- The reprint meter. `rates` lists the rates that are not 65,535, band b of class c under number 4 × c + b (R132). -/
structure Meter where
  accounts : Table Account := []
  jobs : Table Job := []
  date : Nat := 0
  bands : Bands := {}
  rates : Table Nat := []
  surcharge : Nat := 0
  deriving DecidableEq, Repr

/-! ### Charge log (chapter 8) -/

/-- One charge record (R140). -/
structure ChargeRecord where
  sequence : BitVec 32
  day : Nat
  job : Nat
  account : Nat
  page : Nat
  fee : Nat
  ordinal : Nat
  surcharged : Bool
  tier : Nat
  deriving DecidableEq, Repr

/-- The clear modes of LOG READY (R144). -/
inductive ClearMode where
  | auto | explicit
  deriving DecidableEq, Repr

/-- The charge log. -/
structure ChargeLog where
  charges : List ChargeRecord := []
  nextSequence : BitVec 32 := 0
  threshold : Nat := 1
  mode : ClearMode := .auto
  deriving DecidableEq, Repr

/-! ### Store port (chapter 9) -/

/-- One access of the store port (R151). -/
inductive Access where
  /-- A line read of tag `tag`; `abandoned` when its bytes are to be discarded (R8, R22). -/
  | lineRead (tag : Fin 32) (strip line : Nat) (eligible abandoned : Bool)
  /-- A line write; `holder` is the slot of a released held write, `none` for a write carried from the buffer. -/
  | lineWrite (strip line : Nat) (data : List Byte) (enables : Enables) (holder : Option (Fin 4))
  /-- A read segment of four lines; `dropped` when its result is not used (R104, R168). -/
  | readSegment (engine : Engine) (strip line : Nat) (dropped : Bool)
  /-- A write segment of four lines. -/
  | writeSegment (engine : Engine) (strip line : Nat) (data : List Byte) (dropped : Bool)
  deriving DecidableEq, Repr

/-- The states of a bank machine (R158). -/
inductive BankState where
  | idle
  | opening (row : Nat)
  | opened (row : Nat)
  | closing
  deriving DecidableEq, Repr

/-- What made a close of an OPEN bank due: the end of a transfer (R160) or SET PAGE POLICY (R164). A close for an access
for another row at the front of the wait list needs no mark. -/
inductive CloseDue where
  | none | byTransfer | byPolicy
  deriving DecidableEq, Repr

/-- One bank machine (R158). Each `…Until` is the end of a period that began under the timing then in force (R163). -/
structure Bank where
  state : BankState := .idle
  lastOpen : Option Nat := none
  lastWrite : Option Nat := none
  minimumOpenUntil : Nat := 0
  rowCycleUntil : Nat := 0
  writeRecoveryUntil : Nat := 0
  /-- The end of the open or close delay in progress. -/
  delayUntil : Nat := 0
  closeDue : CloseDue := .none
  deriving DecidableEq, Repr

/-- The six store timings in nanoseconds, with their values after power-on (R163). -/
structure StoreTiming where
  openDelay : Nat := 15
  closeDelay : Nat := 15
  minimumOpen : Nat := 40
  rowCycle : Nat := 60
  writeRecovery : Nat := 15
  turnaround : Nat := 8
  deriving DecidableEq, Repr

inductive PagePolicy where
  | keepOpen | closeAfter
  deriving DecidableEq, Repr

/-- The direction of a transfer (R161). -/
inductive Direction where
  | read | write
  deriving DecidableEq, Repr

/-- The quiet timer (R156). -/
inductive QuietTimer where
  | stopped
  | running (since : Nat)
  | expired
  deriving DecidableEq, Repr

/-- The aging clock of the engine side (R157). -/
inductive AgingClock where
  | stopped
  | running (since : Nat)
  | aged
  deriving DecidableEq, Repr

/-- The store port. -/
structure Port where
  linkQueue : List Access := []
  engineQueue : List Access := []
  issueList : List Access := []
  transferring : Bool := false
  lastDirection : Option Direction := none
  turnaroundUntil : Nat := 0
  banks : Table Bank := []
  /-- The banks are being closed after an engine reset (R168). -/
  resetClosing : Bool := false
  timing : StoreTiming := {}
  policy : PagePolicy := .keepOpen
  quietTime : Nat := 500
  agingLimit : Nat := 50
  quiet : QuietTimer := .stopped
  aging : AgingClock := .stopped
  lastIssueEngine : Bool := false
  deriving DecidableEq, Repr

/-! ### Reports (chapter 10) -/

/-- The kinds of fault, in the order of their codes (R169, §11.7). -/
inductive FaultKind where
  | unmapped | protect | noEdition | lateWrite | noPage | pageState | chainFull | poolEmpty | storeFull | reserve
  deriving DecidableEq, Repr

/-- One fault record (R169). -/
structure FaultRecord where
  kind : FaultKind
  aperture : Nat
  page : Nat
  strip : Nat
  line : Nat
  edition : Nat
  repeats : Nat
  deriving DecidableEq, Repr

/-- The nine device statuses that are stored; JOB's is derived (R174, R179). -/
structure Statuses where
  initDone : Bool := false
  editionClosed : Bool := false
  commitDone : Bool := false
  commitWaiting : Bool := false
  storeLow : Bool := false
  fault : Bool := false
  faultsLost : Bool := false
  logReady : Bool := false
  logFull : Bool := false
  deriving DecidableEq, Repr

/-- The ten device enables (R174). -/
structure DeviceEnables where
  initDone : Bool := false
  editionClosed : Bool := false
  commitDone : Bool := false
  commitWaiting : Bool := false
  storeLow : Bool := false
  fault : Bool := false
  faultsLost : Bool := false
  logReady : Bool := false
  logFull : Bool := false
  job : Bool := false
  deriving DecidableEq, Repr

/-- The three statuses and three enables of one job (R177). -/
structure JobEvents where
  charged : Bool := false
  withheld : Bool := false
  limit : Bool := false
  enableCharged : Bool := false
  enableWithheld : Bool := false
  enableLimit : Bool := false
  deriving DecidableEq, Repr

/-- The reports block. -/
structure Reports where
  faults : List FaultRecord := []
  statuses : Statuses := {}
  enables : DeviceEnables := {}
  jobEvents : Table JobEvents := []
  deriving DecidableEq, Repr

/-! ### Management link (chapter 11) -/

/-- The response statuses, in the order of their codes (§11.7). -/
inductive Status where
  | ok | accepted | notReady | busy | state | order | range | absent | present | pinned | bound | full | overflow
  | notEmpty | emptyPage | chainFull | poolEmpty | malformed
  deriving DecidableEq, Repr

/-- The phases of the management link (R182); TAKING holds the command in progress. -/
inductive Phase where
  | idle
  | taking (command : Instr)
  | pending
  deriving DecidableEq, Repr

/-- A phase as the link byte shows it (§11.7). -/
inductive PhaseName where
  | idle | taking | pending
  deriving DecidableEq, Repr

/-- A transaction in progress: its direction byte and the phase at its start (R183). -/
structure Transaction where
  direction : Byte
  phase : PhaseName
  deriving DecidableEq, Repr

/-- The management link. `shiftOut` is what the part has shifted out in the present or last transaction. -/
structure Management where
  phase : Phase := .idle
  buffer : List Byte := []
  transaction : Option Transaction := none
  shiftOut : List Byte := []
  deriving DecidableEq, Repr

/-! ### The whole part -/

/-- The pins, the store size, INIT and the model's clock. -/
structure Chip where
  /-- The model's clock, in nanoseconds. -/
  now : Nat := 0
  /-- How many times the part has been powered on; selects the free value of the store's contents (R149). -/
  powerOns : Nat := 0
  /-- The RESET pin is held (R182). -/
  resetPin : Bool := false
  /-- N, the number of store strips (R149). -/
  strips : Nat
  /-- The part is in INIT (R48). -/
  inInit : Bool := true
  deriving DecidableEq, Repr

/-- The bytes of the store DRAM: address and byte, addresses strictly rising. An address that is not listed has no value
of its own: nothing has written it since power-on (R149, assumption 7). -/
abbrev Memory := List Host.Cell

/-- The state of the block. -/
structure State where
  chip : Chip
  link : Link
  apertures : Table Aperture
  store : Store
  restore : Restore
  meter : Meter
  log : ChargeLog
  port : Port
  memory : Memory
  reports : Reports
  management : Management
  /-- The commands that wait, first in first out. -/
  pending : List Instr
  deriving DecidableEq, Repr

/-- The state in which the part stands after power-on with `n` store strips: INIT entered, the archive link down (R9), the
quiet timer running from `now` (R156), the reserve at N/16 (R49), and every other item at its power-on value. -/
def State.powerOn (n now powerOns : Nat) : State where
  chip := { now := now, powerOns := powerOns, strips := n }
  link := {}
  apertures := []
  store := { reserve := n / 16 }
  restore := {}
  meter := {}
  log := {}
  port := { quiet := .running now }
  memory := []
  reports := {}
  management := {}
  pending := []

/-- The machine right after reset: power-on with the store size pins at 0, so N = 32,768 (R149; DESIGN CHOICE,
assumption 5). -/
def State.reset : State := State.powerOn (Config.stripsOfPins 0) 0 0

/-! ### Named updates: one for each block -/

@[reducible] def State.setChip (s : State) (x : Chip) : State := { s with chip := x }
@[reducible] def State.setLink (s : State) (x : Link) : State := { s with link := x }
@[reducible] def State.setApertures (s : State) (x : Table Aperture) : State := { s with apertures := x }
@[reducible] def State.setStore (s : State) (x : Store) : State := { s with store := x }
@[reducible] def State.setRestore (s : State) (x : Restore) : State := { s with restore := x }
@[reducible] def State.setMeter (s : State) (x : Meter) : State := { s with meter := x }
@[reducible] def State.setLog (s : State) (x : ChargeLog) : State := { s with log := x }
@[reducible] def State.setPort (s : State) (x : Port) : State := { s with port := x }
@[reducible] def State.setMemory (s : State) (x : Memory) : State := { s with memory := x }
@[reducible] def State.setReports (s : State) (x : Reports) : State := { s with reports := x }
@[reducible] def State.setManagement (s : State) (x : Management) : State := { s with management := x }
@[reducible] def State.setPending (s : State) (x : List Instr) : State := { s with pending := x }

/-- The result of a command. -/
abbrev Result := Host.Outcome State Fault Refusal

end Sys2Proof.Machine
end

