-- ==== Sys2Proof/Machine/Table.lean ====
section
/-! DEFINITION. The operations on sparse tables. A table keeps its numbers strictly rising (`Table.wf`); a table of
entries with a power-on value keeps no entry equal to it (`Table.put`), so that equal contents are equal lists. -/

namespace Sys2Proof

/-- The numbers stand in strictly rising order. -/
abbrev Table.wf {α : Type} (t : Table α) : Prop := (t.map Prod.fst).Pairwise (· < ·)

/-- The entry under number `k`, if there is one. -/
def Table.read {α : Type} (t : Table α) (k : Nat) : Option α :=
  match t with
  | [] => none
  | (j, a) :: rest => if j = k then some a else Table.read rest k

/-- Whether an entry stands under number `k`. -/
def Table.has {α : Type} (t : Table α) (k : Nat) : Bool := (Table.read t k).isSome

/-- Write entry `a` under number `k`, at its place in rising order. -/
def Table.write {α : Type} (t : Table α) (k : Nat) (a : α) : Table α :=
  match t with
  | [] => [(k, a)]
  | (j, b) :: rest =>
    if k < j then (k, a) :: (j, b) :: rest
    else if j = k then (k, a) :: rest
    else (j, b) :: Table.write rest k a

/-- Remove the entry under number `k`. -/
def Table.remove {α : Type} (t : Table α) (k : Nat) : Table α := t.filter fun e => e.1 != k

/-- Change the entry under number `k` by `f`, if there is one. -/
def Table.adjust {α : Type} (t : Table α) (k : Nat) (f : α → α) : Table α :=
  t.map fun e => if e.1 = k then (e.1, f e.2) else e

/-- The entry under number `k`, or the value `d` that an unlisted entry has. -/
def Table.get {α : Type} (t : Table α) (d : α) (k : Nat) : α := (Table.read t k).getD d

/-- Write `a` under number `k` in a table whose unlisted entries have the value `d`: `d` itself is not listed. -/
def Table.put {α : Type} [DecidableEq α] (t : Table α) (d : α) (k : Nat) (a : α) : Table α :=
  if a = d then Table.remove t k else Table.write t k a

/-- The lowest number from `k` on that holds no entry, among `fuel` numbers (R27, R71). -/
def Table.lowestFree {α : Type} (t : Table α) (fuel k : Nat) : Option Nat :=
  match fuel with
  | 0 => none
  | fuel + 1 => if Table.has t k then Table.lowestFree t fuel (k + 1) else some k

end Sys2Proof
end

