-- ==== Sys2Proof/Machine/Operands.lean ====
section
/-! DEFINITION. The forms in which a command's operands name things: the parts of an address (R15), the key of a request
(R16), the enumerations, selectors and days of a command's fields and their codes in a report (R194), and the big-endian
bytes of a number (R194). -/

namespace Sys2Proof.Machine

/-! ### Addresses (R15, R16) -/

/-- The aperture of an address (R15). -/
def addressAperture (a : Address) : Nat := a.toNat / 2 ^ 41

/-- The page id, strip index and line of an address (R15, R16). -/
def addressKey (a : Address) : Key where
  page := a.toNat % 2 ^ 41 / 2 ^ 25
  strip := a.toNat % 2 ^ 25 / 2 ^ 16
  line := a.toNat % 2 ^ 16 / 64

/-- The byte address in the store DRAM of the first byte of line `line` of store strip `strip`. -/
def lineAddress (strip line : Nat) : Nat := strip * 65536 + line * 64

/-- The bank of a line (R150). -/
def bankOf (line : Nat) : Nat := line / 4 % 8

/-- The row position of a line in its bank (R150). -/
def rowPositionOf (line : Nat) : Nat := line / 32 * 4 + line % 4

/-! ### Fields of commands (R194) -/

def apertureStateOf : Nat → Option ApertureState
  | 0 => some .disabled | 1 => some .enabled | _ => none

def apertureKindOf : Nat → Option ApertureKind
  | 0 => some .edition | 1 => some .load | 2 => some .historic | 3 => some .restored | 4 => some .reprint | _ => none

def pageKindOf : Nat → Option PageKind
  | 0 => some .page | 1 => some .photo | _ => none

/-- A set-or-clear value, and a yes-or-no one (assumption 14). -/
def flagOf : Nat → Option Bool
  | 0 => some false | 1 => some true | _ => none

def wrapOrderOf : Nat → Option WrapOrder
  | 0 => some .sequential | 1 => some .interleaved | _ => none

def clearModeOf : Nat → Option ClearMode
  | 0 => some .auto | 1 => some .explicit | _ => none

def pagePolicyOf : Nat → Option PagePolicy
  | 0 => some .keepOpen | 1 => some .closeAfter | _ => none

/-- A selector: 0 is LATEST, then an edition number; `none` when it is neither (R11, R194). -/
def selectorOf (v : Nat) : Option (Option Nat) :=
  if v = 0 then some none else if v ≤ Config.maxEdition then some (some v) else none

/-- The 3-byte value of an absent day (R194). -/
def absentDay : Nat := 16777215

/-- An embargo day: NONE, or a day of its range; `none` when it is neither (R39, R194). -/
def embargoOf (v : Nat) : Option (Option Nat) :=
  if v = absentDay then some none else if v ≤ Config.maxDay then some (some v) else none

/-! ### Fields of reports (R194) -/

/-- `v` as `n` bytes, most significant first. -/
def bytesOf (n v : Nat) : List Byte :=
  match n with
  | 0 => []
  | n + 1 => BitVec.ofNat 8 (v / 256 ^ n) :: bytesOf n v

/-- The number that bytes spell, most significant first. -/
def numberOf (bytes : List Byte) : Nat := bytes.foldl (fun n b => n * 256 + b.toNat) 0

def flagCode (b : Bool) : Nat := if b then 1 else 0

def ApertureState.code : ApertureState → Nat
  | .disabled => 0 | .enabled => 1

def ApertureKind.code : ApertureKind → Nat
  | .edition => 0 | .load => 1 | .historic => 2 | .restored => 3 | .reprint => 4

def PageState.code : PageState → Nat
  | .absent => 0 | .loading => 1 | .live => 2

def PageKind.code : PageKind → Nat
  | .page => 0 | .photo => 1

def Origin.code : Origin → Nat
  | .edition => 0 | .load => 1 | .restored => 2

def LockState.code : LockState → Nat
  | .openLock => 0 | .locked => 1 | .building => 2

def EditionState.code : EditionState → Nat
  | .none => 0 | .opened _ => 1 | .closing _ => 2

/-- The open or closing edition's number; 0 when the state is NONE (R61, R191). -/
def EditionState.number : EditionState → Nat
  | .none => 0 | .opened n => n | .closing n => n

def SequencerState.code : SequencerState → Nat
  | .idle => 0 | .running => 1 | .waiting => 2 | .aborting => 3

def CommitOutcome.code : CommitOutcome → Nat
  | .none => 0 | .completed _ _ => 1 | .aborted _ => 2

/-- The outcome's page, 0 where it does not apply (R191). -/
def CommitOutcome.page : CommitOutcome → Nat
  | .none => 0 | .completed p _ => p | .aborted p => p

/-- The outcome's version, 0 where it does not apply (R191). -/
def CommitOutcome.version : CommitOutcome → Nat
  | .none => 0 | .completed _ v => v | .aborted _ => 0

def AccountState.code : AccountState → Nat
  | .closed => 0 | .active => 1 | .suspended => 2

def JobState.code : JobState → Nat
  | .free => 0 | .opened => 1 | .closed => 2

def Reason.code : Reason → Nat
  | .none => 0 | .jobClosed => 1 | .noPage => 2 | .embargo => 3 | .account => 4 | .setFull => 5 | .ceiling => 6
  | .balance => 7 | .logFull => 8

def ClearMode.code : ClearMode → Nat
  | .auto => 0 | .explicit => 1

def PagePolicy.code : PagePolicy → Nat
  | .keepOpen => 0 | .closeAfter => 1

def BankState.code : BankState → Nat
  | .idle => 0 | .opening _ => 1 | .opened _ => 2 | .closing => 3

def FaultKind.code : FaultKind → Nat
  | .unmapped => 0 | .protect => 1 | .noEdition => 2 | .lateWrite => 3 | .noPage => 4 | .pageState => 5
  | .chainFull => 6 | .poolEmpty => 7 | .storeFull => 8 | .reserve => 9

def Status.code : Status → Nat
  | .ok => 0 | .accepted => 1 | .notReady => 2 | .busy => 3 | .state => 4 | .order => 5 | .range => 6 | .absent => 7
  | .present => 8 | .pinned => 9 | .bound => 10 | .full => 11 | .overflow => 12 | .notEmpty => 13 | .emptyPage => 14
  | .chainFull => 15 | .poolEmpty => 16 | .malformed => 17

/-- A response frame: status code, field length, fields (§11.7). -/
def responseFrame (status : Status) (fields : List Byte) : List Byte :=
  bytesOf 1 status.code ++ bytesOf 2 fields.length ++ fields

end Sys2Proof.Machine
end

