-- ==== Sys2Proof/Machine/Flags.lean ====
section
/-! DEFINITION. The status flags of the block: the JOB status (R179), ALERT (R180), the event masks and per-job masks
(§11.7), and the link byte (R183). -/

namespace Sys2Proof.Machine

/-- A job has a per-job status set whose per-job enable is set (R179). -/
def JobEvents.raised (e : JobEvents) : Bool :=
  e.charged && e.enableCharged || e.withheld && e.enableWithheld || e.limit && e.enableLimit

/-- The JOB status: some job has such a pair (R179). -/
def Reports.job (r : Reports) : Bool := r.jobEvents.any fun e => e.2.raised

/-- Some device event has both its status and its enable set (R180). -/
def Reports.alert (r : Reports) : Bool :=
  r.statuses.initDone && r.enables.initDone || r.statuses.editionClosed && r.enables.editionClosed ||
  r.statuses.commitDone && r.enables.commitDone || r.statuses.commitWaiting && r.enables.commitWaiting ||
  r.statuses.storeLow && r.enables.storeLow || r.statuses.fault && r.enables.fault ||
  r.statuses.faultsLost && r.enables.faultsLost || r.statuses.logReady && r.enables.logReady ||
  r.statuses.logFull && r.enables.logFull || r.job && r.enables.job

/-- The ALERT output: deasserted while the RESET pin is held, and otherwise asserted while some event has both its status
and its enable set (R180). -/
def State.alert (s : State) : Bool := !s.chip.resetPin && s.reports.alert

/-- The ten device statuses as an event mask (§11.7). -/
def Reports.statusMask (r : Reports) : Nat :=
  flagCode r.statuses.initDone + 2 * flagCode r.statuses.editionClosed + 4 * flagCode r.statuses.commitDone +
  8 * flagCode r.statuses.commitWaiting + 16 * flagCode r.statuses.storeLow + 32 * flagCode r.statuses.fault +
  64 * flagCode r.statuses.faultsLost + 128 * flagCode r.statuses.logReady + 256 * flagCode r.statuses.logFull +
  512 * flagCode r.job

/-- The ten device enables as an event mask (§11.7). -/
def DeviceEnables.mask (e : DeviceEnables) : Nat :=
  flagCode e.initDone + 2 * flagCode e.editionClosed + 4 * flagCode e.commitDone + 8 * flagCode e.commitWaiting +
  16 * flagCode e.storeLow + 32 * flagCode e.fault + 64 * flagCode e.faultsLost + 128 * flagCode e.logReady +
  256 * flagCode e.logFull + 512 * flagCode e.job

/-- The ten enables that an event mask names (R176); its six highest bits are not read. -/
def enablesOfMask (mask : Nat) : DeviceEnables where
  initDone := mask.testBit 0
  editionClosed := mask.testBit 1
  commitDone := mask.testBit 2
  commitWaiting := mask.testBit 3
  storeLow := mask.testBit 4
  fault := mask.testBit 5
  faultsLost := mask.testBit 6
  logReady := mask.testBit 7
  logFull := mask.testBit 8
  job := mask.testBit 9

/-- ACK EVENTS: the statuses that a mask names are cleared, but LOG READY only in EXPLICIT mode (R144, R175). -/
def Statuses.acknowledge (st : Statuses) (mask : Nat) (mode : ClearMode) : Statuses where
  initDone := st.initDone && !mask.testBit 0
  editionClosed := st.editionClosed && !mask.testBit 1
  commitDone := st.commitDone && !mask.testBit 2
  commitWaiting := st.commitWaiting && !mask.testBit 3
  storeLow := st.storeLow && !mask.testBit 4
  fault := st.fault && !mask.testBit 5
  faultsLost := st.faultsLost && !mask.testBit 6
  logReady := st.logReady && !(mask.testBit 7 && mode = .explicit)
  logFull := st.logFull && !mask.testBit 8

/-- A job's statuses in the low three bits and its enables in the three above them (§11.7). The two bits above these, of
which §11.7 says nothing, are 0: the model's choice (assumption 37). -/
def JobEvents.mask (e : JobEvents) : Nat :=
  flagCode e.charged + 2 * flagCode e.withheld + 4 * flagCode e.limit + 8 * flagCode e.enableCharged +
  16 * flagCode e.enableWithheld + 32 * flagCode e.enableLimit

/-- ENABLE JOB EVENTS: the three enables as the mask gives them (R178); its higher bits are not read (assumption 37). -/
def JobEvents.enable (e : JobEvents) (mask : Nat) : JobEvents :=
  { e with enableCharged := mask.testBit 0, enableWithheld := mask.testBit 1, enableLimit := mask.testBit 2 }

/-- ACK JOB EVENTS: the statuses that the mask names are cleared (R178); its higher bits are not read (assumption 37). -/
def JobEvents.acknowledge (e : JobEvents) (mask : Nat) : JobEvents :=
  { e with
    charged := e.charged && !mask.testBit 0
    withheld := e.withheld && !mask.testBit 1
    limit := e.limit && !mask.testBit 2 }

/-- The name of a phase. -/
def Phase.name : Phase → PhaseName
  | .idle => .idle
  | .taking _ => .taking
  | .pending => .pending

/-- The direction byte of a command transaction (§11.7). -/
def commandDirection : Byte := 1

/-- The direction byte of a response transaction (§11.7). -/
def responseDirection : Byte := 2

/-- The link byte: in a command transaction OK or BUSY, in any other the phase itself (R183, §11.7). -/
def linkByte (direction : Byte) (phase : PhaseName) : Byte :=
  if direction = commandDirection then
    match phase with
    | .idle => BitVec.ofNat 8 Status.ok.code
    | .taking => BitVec.ofNat 8 Status.busy.code
    | .pending => BitVec.ofNat 8 Status.busy.code
  else
    match phase with
    | .idle => 0
    | .taking => 1
    | .pending => 2

end Sys2Proof.Machine
end

