-- ==== Sys2Proof/Machine/Ops.lean ====
section
/-! DEFINITION. The named operations over the block's state that several commands share: the store DRAM, the walk of a
chain (R32), the free strip queue (R47, R50), the release of a version (R29), the queues of the store port (R152 to R157),
the read tag table and the read-after-write wait (R16, R17), the fault queue (R171), the charge log's status rules (R144),
and the taking of a management command (R182, R184, R189). -/

namespace Sys2Proof.Machine

/-- Run `k` unless the RESET pin is held, when nothing but POWER ON acts (R182; assumption 6). -/
def State.live (s : State) (k : State → State) : State := if s.chip.resetPin then s else k s

/-- Time reaches `t` at the latest (assumption 2). -/
def State.reach (s : State) (t : Nat) : State := s.setChip { s.chip with now := max s.chip.now t }

/-! ### The store DRAM -/

/-- The form of the memory: addresses strictly rising. -/
abbrev Memory.wf (m : Memory) : Prop := Table.wf m

/-- The byte at an address, if one has been written since power-on. -/
def Memory.read (m : Memory) (address : Nat) : Option Byte := Table.read m address

/-- The byte that the store gives at an address: the one written there, or the free value of R149. -/
def Memory.byteAt (m : Memory) (powerOns address : Nat) : Byte :=
  (Memory.read m address).getD (Config.storePowerOn powerOns address)

/-- The cells of `count` addresses from an address on. -/
def Memory.window (m : Memory) (address count : Nat) : Memory :=
  m.filter fun e => decide (address ≤ e.1) && decide (e.1 < address + count)

/-- `count` bytes from an address on. -/
def Memory.bytesAt (m : Memory) (powerOns address count : Nat) : List Byte :=
  let cells := Memory.window m address count
  (List.range count).map fun k => Memory.byteAt cells powerOns (address + k)

/-- The cells of consecutive bytes from an address on. -/
def cellsFrom (address : Nat) (bytes : List Byte) : Memory :=
  match bytes with
  | [] => []
  | b :: rest => (address, b) :: cellsFrom (address + 1) rest

/-- Write consecutive bytes from an address on: the cells below it stay before them, those beyond their end after them. -/
def Memory.store (m : Memory) (address : Nat) (bytes : List Byte) : Memory :=
  match m with
  | [] => cellsFrom address bytes
  | (j, b) :: rest =>
    if j < address then (j, b) :: Memory.store rest address bytes
    else
      cellsFrom address bytes ++
        ((j, b) :: rest).filter fun e => decide (e.1 < address) || decide (address + bytes.length ≤ e.1)

/-- Write those bytes of a line whose enables are set, from byte `k` of the line on (R151). -/
def Memory.storeEnabled (m : Memory) (address k : Nat) (enables : Enables) (bytes : List Byte) : Memory :=
  match bytes with
  | [] => m
  | b :: rest =>
    Memory.storeEnabled (if enables.getLsbD k then Table.write m (address + k) b else m) address (k + 1) enables rest

/-! ### The walk of a chain (R32) -/

/-- What a walk finds: the version that holds the strip index, its origin, and the store strip (R32). -/
structure Hit where
  version : Nat
  origin : Origin
  strip : Nat
  deriving DecidableEq, Repr

/-- Whether a view of selector `e` and prefer-restored flag `p` considers a version (R32). -/
def considers (e : Option Nat) (p : Bool) (v : Version) : Bool :=
  (v.origin != .restored || p) &&
    match e with
    | none => true
    | some e => decide (v.edition ≤ e)

/-- The walk for strip index `index` along a chain (R32); `none` is BLANK. -/
def walk (versions : Table Version) (e : Option Nat) (p : Bool) (index : Nat) (chain : List Nat) : Option Hit :=
  match chain with
  | [] => none
  | n :: rest =>
    match Table.read versions n with
    | none => walk versions e p index rest
    | some v =>
      match considers e p v, Table.read v.delta index with
      | true, some strip => some ⟨n, v.origin, strip⟩
      | _, _ => walk versions e p index rest

/-- The directory entry of a page id (R24). -/
def Store.page (st : Store) (p : Nat) : Page := Table.get st.pages {} p

/-- Write the directory entry of a page id. -/
def Store.setPage (st : Store) (p : Nat) (pg : Page) : Store := { st with pages := Table.put st.pages {} p pg }

/-- The version at the head of a page's chain (§2.3). -/
def Store.head (st : Store) (p : Nat) : Option Version := (st.page p).chain.head?.bind (Table.read st.versions)

/-- The page's chain holds a linked version of origin RESTORED (R134). -/
def Store.hasRestored (st : Store) (p : Nat) : Bool :=
  (st.page p).chain.any fun n =>
    match Table.read st.versions n with
    | some v => v.origin = .restored
    | none => false

/-- The number of linked versions, the building one counted (R31). -/
def Page.versionCount (pg : Page) : Nat := pg.chain.length + if pg.building.isSome then 1 else 0

/-- The version pool's free count (R27). -/
def Store.freeVersions (st : Store) : Nat := Config.versionCount - st.versions.length

/-! ### The free strip queue (R47, R50) and the release of a version (R29) -/

/-- The free count (R47). -/
abbrev Store.freeCount (st : Store) : Nat := st.freeQueue.length

/-- STORE LOW after a change of the free count or the reserve: set when the count was above the reserve before and is at
or below it now (R50). -/
def State.judgeStoreLow (s : State) (wasAbove : Bool) : State :=
  if wasAbove && decide (s.store.freeCount ≤ s.store.reserve) then
    s.setReports { s.reports with statuses := { s.reports.statuses with storeLow := true } }
  else s

/-- Whether the free count is above the reserve. -/
def Store.aboveReserve (st : Store) : Bool := decide (st.reserve < st.freeCount)

/-- Allocation: the strip number at the head of the free strip queue is removed (R47). -/
def Store.allocate (st : Store) : Store := { st with freeQueue := st.freeQueue.tail }

/-- The release of version `n`: its strips are set FREE and appended at the tail of the free strip queue in delta list
order, and its record becomes free (R27, R29, R47). -/
def Store.release (st : Store) (n : Nat) : Store :=
  match Table.read st.versions n with
  | none => st
  | some v =>
    { st with
      strips := v.delta.foldl (fun t e => Table.remove t e.2) st.strips
      freeQueue := st.freeQueue ++ v.delta.map Prod.snd
      versions := Table.remove st.versions n }

/-! ### The store port's accesses and queues (chapter 9) -/

def Access.strip : Access → Nat
  | .lineRead _ strip _ _ _ => strip
  | .lineWrite strip _ _ _ _ => strip
  | .readSegment _ strip _ _ => strip
  | .writeSegment _ strip _ _ _ => strip

def Access.line : Access → Nat
  | .lineRead _ _ line _ _ => line
  | .lineWrite _ line _ _ _ => line
  | .readSegment _ _ line _ => line
  | .writeSegment _ _ line _ _ => line

/-- The bank of an access (R150); a segment lies in the bank of its first line. -/
def Access.bank (a : Access) : Nat := bankOf a.line

/-- The direction of an access (R161). -/
def Access.direction : Access → Direction
  | .lineRead .. => .read
  | .lineWrite .. => .write
  | .readSegment .. => .read
  | .writeSegment .. => .write

def Access.isRead : Access → Bool
  | .lineRead .. => true
  | _ => false

/-- The engine unit that issued a segment. -/
def Access.engine : Access → Option Engine
  | .lineRead .. => none
  | .lineWrite .. => none
  | .readSegment e .. => some e
  | .writeSegment e .. => some e

/-- A segment whose result is not used (R104, R168). -/
def Access.isDropped : Access → Bool
  | .readSegment _ _ _ dropped => dropped
  | .writeSegment _ _ _ _ dropped => dropped
  | _ => false

def Access.isSegment (a : Access) : Bool := a.engine.isSome

/-- A write carried from the write buffer (R152). -/
def Access.isCarried : Access → Bool
  | .lineWrite _ _ _ _ none => true
  | _ => false

/-- The number of places in use for writes carried from the write buffer (R152). -/
def Port.carriedCount (p : Port) : Nat := p.linkQueue.countP Access.isCarried

/-- The access writes one of the four lines from `line` on of store strip `strip`. -/
def Access.writesSegment (strip line : Nat) : Access → Bool
  | .lineWrite t l _ _ _ => t == strip && decide (line ≤ l) && decide (l < line + 4)
  | _ => false

/-- The link-side queue holds a write for those four lines (R63, R97). -/
def Port.linkWrites (p : Port) (strip line : Nat) : Bool := p.linkQueue.any (Access.writesSegment strip line)

/-- The store port holds a queued or in-progress access to the store strip (R41, R43, R151). -/
def Port.holds (p : Port) (strip : Nat) : Bool :=
  (p.linkQueue ++ p.engineQueue ++ p.issueList).any fun a => a.strip == strip

/-- An access joins the link-side queue, which cancels the quiet timer (R152, R156). -/
def Port.joinLink (p : Port) (a : Access) : Port :=
  { p with linkQueue := p.linkQueue ++ [a], quiet := .stopped }

/-- The quiet timer starts; with a quiet time of 0 it has expired at once (R156). -/
def Port.startQuiet (p : Port) (now : Nat) : Port :=
  { p with quiet := if p.quietTime = 0 then .expired else .running now }

/-- The place of an engine unit in the engine-side queue: the slots in start order, then the sequencer (R154). -/
def engineRank (order : List (Fin 4)) : Engine → Nat
  | .slot k => order.idxOf k
  | .sequencer => order.length + 1

/-- The place of a request in the engine-side queue. -/
def Access.rank (order : List (Fin 4)) (a : Access) : Nat :=
  match a.engine with
  | some e => engineRank order e
  | none => order.length + 2

/-- A request takes its place in the engine-side queue (R154). -/
def insertRequest (order : List (Fin 4)) (a : Access) (queue : List Access) : List Access :=
  match queue with
  | [] => [a]
  | b :: rest => if a.rank order < b.rank order then a :: b :: rest else b :: insertRequest order a rest

/-- An engine segment has been issued and has not ended its transfer (R157). -/
def Port.segmentInProgress (p : Port) : Bool := p.issueList.any Access.isSegment

/-- A request joins the engine-side queue; the aging clock starts when the queue was empty, unless a segment is in
progress (R154, R157). -/
def Port.joinEngine (p : Port) (order : List (Fin 4)) (now : Nat) (a : Access) : Port :=
  { p with
    engineQueue := insertRequest order a p.engineQueue
    aging := if p.engineQueue.isEmpty && !p.segmentInProgress then .running now else p.aging }

/-- The requests of an engine unit are withdrawn; an empty queue stops the aging clock (R101, R154, R157). -/
def Port.withdraw (p : Port) (e : Engine) : Port :=
  let queue := p.engineQueue.filter fun a => a.engine != some e
  { p with engineQueue := queue, aging := if queue.isEmpty then .stopped else p.aging }

/-- A bank machine (R158). -/
def Port.bank (p : Port) (b : Nat) : Bank := Table.get p.banks {} b

/-- Write a bank machine. -/
def Port.setBank (p : Port) (b : Nat) (k : Bank) : Port := { p with banks := Table.put p.banks {} b k }

/-- A bank's wait list: the part of the issue list that concerns it, in the same order (R155). -/
def Port.waitList (p : Port) (b : Nat) : List Access := p.issueList.filter fun a => a.bank == b

/-- The front of the bank's wait list is an access for a row other than `row` (R160). -/
def Port.frontElsewhere (p : Port) (b row : Nat) : Bool :=
  match p.waitList b with
  | [] => false
  | a :: _ => a.strip != row

/-- All eight banks are IDLE (R168). -/
def Port.allIdle (p : Port) : Bool := (List.range 8).all fun b => (p.bank b).state = .idle

/-- The store port after an engine reset is as after power-on once the issue list is empty and all banks are IDLE (R168). -/
def Port.settleReset (p : Port) : Port :=
  { p with resetClosing := p.resetClosing && !(p.issueList.isEmpty && p.allIdle) }

/-! ### The read tag table (chapter 1) -/

/-- The entry of a tag. -/
def Link.tag (l : Link) (t : Fin 32) : TagEntry := Table.get l.tags {} t.val

/-- Write the entry of a tag. -/
def Link.setTag (l : Link) (t : Fin 32) (e : TagEntry) : Link := { l with tags := Table.put l.tags {} t.val e }

/-- The answer of tag `t` is known: the entry becomes READY, last in the order of R4. -/
def Link.answer (l : Link) (t : Fin 32) (a : Answer) : Link :=
  { l.setTag t { l.tag t with state := .ready, answer := some a } with readyOrder := l.readyOrder ++ [[t]] }

/-- A fill answer: the note and 64 equal bytes (R5). -/
def fillAnswer (note : DataNote) (b : Byte) : Answer := ⟨note, List.replicate 64 b⟩

def unmappedAnswer : Answer := fillAnswer .unmapped 0
def blankAnswer : Answer := fillAnswer .blank 255

/-- A write with the key is pending: in the write buffer, in the hold queue, or carried out from the hold queue with its
strip still FILLING (R16, R17; assumption 9). -/
def State.keyPending (s : State) (k : Key) : Bool :=
  s.link.writeBuffer.any (fun w => addressKey w.address == k) ||
  s.store.holdQueue.any (fun h => addressKey h.write.address == k) ||
  s.store.settling.any (fun e => e.2 == k)

/-- The read-after-write check made afresh: each WAITING read without a pending write leaves its wait (R17). -/
def State.releaseReads (s : State) : State :=
  s.setLink { s.link with
    tags := s.link.tags.map fun e =>
      if e.2.state = .waiting ∧ s.keyPending (addressKey e.2.address) = false then
        (e.1, { e.2 with state := .decoding })
      else e }

/-- The archive link goes down (R8, R167): every tag becomes FREE, nothing is sent, the credits are void, line reads leave
the link-side queue, the bytes of those in the issue list are to be discarded, and those on their way to the restoration
unit are. -/
def State.linkDown (s : State) : State :=
  let queue := s.port.linkQueue.filter fun a => !a.isRead
  let port := { s.port with
    linkQueue := queue
    issueList := s.port.issueList.map fun
      | .lineRead t r l e _ => .lineRead t r l e true
      | a => a }
  ((s.setLink { s.link with
    linkUp := false, tags := [], readyOrder := [], sending := none, readCredits := 0, writeCredits := 0 }).setPort
    (if queue.isEmpty && !s.port.linkQueue.isEmpty then port.startQuiet s.chip.now else port)).setRestore
    { s.restore with arriving := [] }

/-- An attempt at the head of the write buffer falls due (R21, R153). -/
def State.attemptHead (s : State) : State := s.setLink { s.link with attemptDue := true }

/-! ### Reports -/

/-- The fault queue takes an offer: merge, append or loss (R171). -/
def Reports.offer (r : Reports) (f : FaultRecord) : Reports :=
  let appended :=
    if r.faults.length < Config.faultCapacity then
      { r with faults := r.faults ++ [f], statuses := { r.statuses with fault := true } }
    else { r with statuses := { r.statuses with faultsLost := true } }
  match r.faults.getLast? with
  | none => appended
  | some newest =>
    if newest.kind = f.kind ∧ newest.aperture = f.aperture ∧ newest.page = f.page then
      { r with faults := r.faults.dropLast ++ [{ newest with repeats := min 65535 (newest.repeats + 1) }] }
    else appended

/-- The per-job events of a job (R177). -/
def Reports.jobOf (r : Reports) (j : Nat) : JobEvents := Table.get r.jobEvents {} j

/-- Write the per-job events of a job. -/
def Reports.setJob (r : Reports) (j : Nat) (e : JobEvents) : Reports :=
  { r with jobEvents := Table.put r.jobEvents {} j e }

/-! ### The taking of a management command -/

/-- What a command's rule answers: status, fields of the response, and the state after it. -/
structure Reply where
  status : Status
  fields : List Byte
  state : State

/-- A command refused: nothing changes but the answer (R185). -/
def State.refuse (s : State) (status : Status) : Reply := ⟨status, [], s⟩

/-- A command taken with no fields to report. -/
def State.ok (s : State) : Reply := ⟨.ok, [], s⟩

/-- A report: OK with its fields, and nothing changes. -/
def State.report (s : State) (fields : List Byte) : Reply := ⟨.ok, fields, s⟩

/-- The response is placed in the buffer and the phase becomes PENDING (R182, R184). -/
def State.respond (s : State) (status : Status) (fields : List Byte) : State :=
  s.setManagement { s.management with phase := .pending, buffer := responseFrame status fields }

/-- The command can be taken now: it is the command in progress, or the link is IDLE with no transaction under way and the
row stands for its frame as well (R182; assumption 4). -/
def State.takes (s : State) (c : Instr) : Bool :=
  !s.chip.resetPin &&
    match s.management.phase with
    | .idle => s.management.transaction.isNone
    | .taking d => d == c
    | .pending => false

/-- The taking of command `c` by the rule `body`. During INIT a command is answered BUSY unless it is one of the four of
R189. -/
def State.take (s : State) (c : Instr) (duringInit : Bool) (body : State → Reply) : State :=
  if s.takes c then
    if s.chip.inInit && !duringInit then s.respond .busy []
    else
      let r := body s
      r.state.respond r.status r.fields
  else s

end Sys2Proof.Machine
end

