-- ==== Sys2Proof/Machine/Metering.lean ====
section
/-! DEFINITION. The reprint meter's shared operations: the fee (R129 to R136), the metering decision (R120), and what a
withheld and a charged read do (R122, R123, R142). -/

namespace Sys2Proof.Machine

/-! ### The fee (chapter 7) -/

/-- The age in fee years (R129); a publication day after the archive date gives 0. -/
def feeAge (date day : Nat) : Nat := (date - day) / 365

/-- The age band (R130). -/
def Bands.band (b : Bands) (age : Nat) : Nat :=
  if age < b.a1 then 0 else if age < b.a2 then 1 else if age < b.a3 then 2 else 3

/-- The rate of a class and band (R132). -/
def Meter.rate (m : Meter) (rateClass band : Nat) : Nat := Table.get m.rates 65535 (4 * rateClass + band)

/-- Write the rate of a class and band. -/
def Meter.setRate (m : Meter) (rateClass band v : Nat) : Meter :=
  { m with rates := Table.put m.rates 65535 (4 * rateClass + band) v }

/-- The discount tier of an ordinal (R135). -/
def Account.tier (a : Account) (ordinal : Nat) : Nat := if ordinal ≤ a.t1 then 0 else if ordinal ≤ a.t2 then 1 else 2

/-- The discount percent of an ordinal (R135). -/
def Account.discount (a : Account) (ordinal : Nat) : Nat :=
  if ordinal ≤ a.t1 then 0 else if ordinal ≤ a.t2 then a.d1 else a.d2

/-- The fee of a base rate, a surcharge percent and a discount percent, rounded once, a half up (R134, R136). -/
def feeOf (base surcharge discount : Nat) : Nat := (base * (100 + surcharge) * (100 - discount) + 5000) / 10000

/-- The account of a number (R105). -/
def Meter.account (m : Meter) (a : Nat) : Account := Table.get m.accounts {} a

/-- Write an account. -/
def Meter.setAccount (m : Meter) (a : Nat) (x : Account) : Meter :=
  { m with accounts := Table.put m.accounts {} a x }

/-- The job of a number (R113). -/
def Meter.job (m : Meter) (j : Nat) : Job := Table.get m.jobs {} j

/-- Write a job. -/
def Meter.setJob (m : Meter) (j : Nat) (x : Job) : Meter := { m with jobs := Table.put m.jobs {} j x }

/-- The page is restorable: it names a record, or its chain holds a RESTORED version (R134). -/
def Store.restorable (st : Store) (p : Nat) : Bool := (st.page p).record.isSome || st.hasRestored p

/-- What a charge carries: the fee, the ordinal, whether the surcharge was applied, and the tier (R121). -/
structure Charge where
  fee : Nat
  ordinal : Nat
  surcharged : Bool
  tier : Nat
  deriving DecidableEq, Repr

/-- The fee computation for page `p` and job `j` under the aperture's restored flag (R121, R129 to R136). -/
def State.chargeFor (s : State) (restored : Bool) (j p : Nat) : Charge :=
  let page := s.store.page p
  let job := s.meter.job j
  let account := s.meter.account job.account
  let ordinal := job.purchases.length + 1
  let surcharged := restored && s.store.restorable p
  let base := s.meter.rate page.rateClass (s.meter.bands.band (feeAge s.meter.date page.day))
  { fee := feeOf base (if surcharged then s.meter.surcharge else 0) (account.discount ordinal)
    ordinal := ordinal
    surcharged := surcharged
    tier := account.tier ordinal }

/-! ### The decision (R120) -/

/-- The three outcomes of a metering decision (R120). -/
inductive Verdict where
  | withheld (reason : Reason)
  | served
  | charged (charge : Charge)
  deriving DecidableEq, Repr

/-- The page's embargo holds: its day is present and the archive date is at or before it (R120, R127). -/
def Page.embargoed (pg : Page) (date : Nat) : Bool :=
  match pg.embargo with
  | none => false
  | some day => decide (date ≤ day)

/-- The ten checks of the metering decision, in order (R120). -/
def State.meterDecision (s : State) (restored : Bool) (j p : Nat) : Verdict :=
  let job := s.meter.job j
  let account := s.meter.account job.account
  let page := s.store.page p
  let charge := s.chargeFor restored j p
  if job.state ≠ .opened then .withheld .jobClosed
  else if page.state = .absent then .withheld .noPage
  else if job.purchases.any (fun e => e.page == p) then .served
  else if page.embargoed s.meter.date then .withheld .embargo
  else if account.state = .suspended then .withheld .account
  else if Config.chargedSetCapacity ≤ job.purchases.length then .withheld .setFull
  else if job.ceiling < job.total + charge.fee then .withheld .ceiling
  else if account.balance < charge.fee then .withheld .balance
  else if Config.logCapacity ≤ s.log.charges.length then .withheld .logFull
  else .charged charge

/-- LIMIT is set for these reasons (R122). -/
def Reason.limits : Reason → Bool
  | .setFull => true
  | .ceiling => true
  | _ => false

/-- What a withheld read does to its job (R122). -/
def State.withhold (s : State) (j : Nat) (reason : Reason) : State :=
  let job := s.meter.job j
  let events := s.reports.jobOf j
  (s.setMeter (s.meter.setJob j { job with withheld := min Config.maxUnits (job.withheld + 1), reason := reason })).setReports
    (s.reports.setJob j { events with withheld := true, limit := events.limit || reason.limits })

/-- The log's part of a charge: the record takes the next sequence number and joins the tail (R142). -/
def ChargeLog.append (l : ChargeLog) (record : ChargeRecord) : ChargeLog :=
  { l with charges := l.charges ++ [{ record with sequence := l.nextSequence }], nextSequence := l.nextSequence + 1 }

/-- The status rules after an append (R142, R144, R146). -/
def Statuses.afterAppend (st : Statuses) (l : ChargeLog) : Statuses :=
  { st with
    logReady := st.logReady || decide (l.threshold ≤ l.charges.length)
    logFull := st.logFull || l.charges.length == Config.logCapacity }

/-- LOG READY after a drain (R144). -/
def Statuses.afterDrain (st : Statuses) (l : ChargeLog) : Statuses :=
  { st with
    logReady := if l.mode = .auto ∧ l.charges.length < l.threshold then false else st.logReady }

/-- LOG READY after SET LOG MODE (R145). -/
def Statuses.afterMode (st : Statuses) (l : ChargeLog) : Statuses :=
  { st with
    logReady :=
      if l.threshold ≤ l.charges.length then true else if l.mode = .auto then false else st.logReady }

/-- The charge record of a charge (R123, R140), but for its sequence number. -/
def State.recordFor (s : State) (j p : Nat) (c : Charge) : ChargeRecord where
  sequence := 0
  day := s.meter.date
  job := j
  account := (s.meter.job j).account
  page := p
  fee := c.fee
  ordinal := c.ordinal
  surcharged := c.surcharged
  tier := c.tier

/-- What a charge does: debit, charged set, pin, charge record and CHARGED, as one act (R123). -/
def State.charge (s : State) (j p : Nat) (c : Charge) : State :=
  let job := s.meter.job j
  let account := s.meter.account job.account
  let page := s.store.page p
  let meter :=
    (s.meter.setAccount job.account
      { account with balance := account.balance - c.fee, charged := account.charged + c.fee }).setJob j
      { job with total := job.total + c.fee, purchases := job.purchases ++ [⟨p, c.fee, c.ordinal⟩] }
  let log := s.log.append (s.recordFor j p c)
  let reports := s.reports.setJob j { s.reports.jobOf j with charged := true }
  (((s.setMeter meter).setStore (s.store.setPage p { page with pins := page.pins + 1 })).setLog log).setReports
    { reports with statuses := reports.statuses.afterAppend log }

end Sys2Proof.Machine
end

