-- ==== Sys2Proof/Machine/AccountCommands.lean ====
section
/-! DEFINITION. The commands on accounts (R107 to R112) and jobs (R115 to R118). Each checks its account or job number
before anything else (§6.1.1, §6.2.1). -/

namespace Sys2Proof.Machine

/-- Write an account's record. -/
def State.setAccount (s : State) (a : Nat) (x : Account) : State := s.setMeter (s.meter.setAccount a x)

/-- Write a job's record. -/
def State.setJob (s : State) (j : Nat) (x : Job) : State := s.setMeter (s.meter.setJob j x)

/-- OPEN ACCOUNT (R107). -/
def execOpenAccount (account : Nat) (s : State) : Result :=
  .next (s.take (.openAccount account) false fun s =>
    if Config.accountCount ≤ account then s.refuse .range
    else if (s.meter.account account).state ≠ .closed then s.refuse .state
    else (s.setAccount account { state := .active }).ok)

/-- The greatest credited total (R105). -/
def maxTotal : Nat := 2 ^ 64 - 1

/-- CREDIT ACCOUNT (R108). -/
def execCreditAccount (account amount : Nat) (s : State) : Result :=
  .next (s.take (.creditAccount account amount) false fun s =>
    let a := s.meter.account account
    if Config.accountCount ≤ account then s.refuse .range
    else if amount < 1 ∨ Config.maxUnits < amount then s.refuse .range
    else if a.state = .closed then s.refuse .state
    else if Config.maxUnits < a.balance + amount ∨ maxTotal < a.credited + amount then s.refuse .overflow
    else
      (s.setAccount account { a with balance := a.balance + amount, credited := a.credited + amount }).ok)

/-- SUSPEND ACCOUNT (R109). -/
def execSuspendAccount (account : Nat) (s : State) : Result :=
  .next (s.take (.suspendAccount account) false fun s =>
    let a := s.meter.account account
    if Config.accountCount ≤ account then s.refuse .range
    else if a.state ≠ .active then s.refuse .state
    else (s.setAccount account { a with state := .suspended }).ok)

/-- RESUME ACCOUNT (R109). -/
def execResumeAccount (account : Nat) (s : State) : Result :=
  .next (s.take (.resumeAccount account) false fun s =>
    let a := s.meter.account account
    if Config.accountCount ≤ account then s.refuse .range
    else if a.state ≠ .suspended then s.refuse .state
    else (s.setAccount account { a with state := .active }).ok)

/-- SET DISCOUNT (R110): a discount above 100 is stored as 100. -/
def execSetDiscount (account t1 t2 d1 d2 : Nat) (s : State) : Result :=
  .next (s.take (.setDiscount account t1 t2 d1 d2) false fun s =>
    let a := s.meter.account account
    if Config.accountCount ≤ account then s.refuse .range
    else if t1 < 1 ∨ 128 < t1 ∨ t2 < 1 ∨ 128 < t2 then s.refuse .range
    else if t2 ≤ t1 then s.refuse .range
    else if a.state = .closed then s.refuse .state
    else
      (s.setAccount account { a with t1 := t1, t2 := t2, d1 := min 100 d1, d2 := min 100 d2 }).ok)

/-- The report of READ ACCOUNT (R112). -/
def Account.fields (a : Account) : List Byte :=
  bytesOf 1 a.state.code ++ bytesOf 4 a.balance ++ bytesOf 8 a.credited ++ bytesOf 8 a.charged ++ bytesOf 1 a.t1 ++
  bytesOf 1 a.t2 ++ bytesOf 1 a.d1 ++ bytesOf 1 a.d2 ++ bytesOf 1 a.jobs

/-- READ ACCOUNT (R112). -/
def execReadAccount (account : Nat) (s : State) : Result :=
  .next (s.take (.readAccount account) false fun s =>
    if Config.accountCount ≤ account then s.refuse .range else s.report (s.meter.account account).fields)

/-- CLOSE ACCOUNT (R111): the figures are kept for reading. -/
def execCloseAccount (account : Nat) (s : State) : Result :=
  .next (s.take (.closeAccount account) false fun s =>
    let a := s.meter.account account
    if Config.accountCount ≤ account then s.refuse .range
    else if a.state = .closed then s.refuse .state
    else if a.jobs ≠ 0 then s.refuse .bound
    else (s.setAccount account { a with state := .closed }).ok)

/-! ### Jobs -/

/-- OPEN JOB (R115). -/
def execOpenJob (job account ceiling : Nat) (s : State) : Result :=
  .next (s.take (.openJob job account ceiling) false fun s =>
    let a := s.meter.account account
    if Config.jobCount ≤ job then s.refuse .range
    else if Config.accountCount ≤ account ∨ Config.maxUnits < ceiling then s.refuse .range
    else if (s.meter.job job).state ≠ .free then s.refuse .state
    else if a.state = .closed then s.refuse .absent
    else if a.state = .suspended then s.refuse .state
    else
      ((s.setJob job { state := .opened, account := account, ceiling := ceiling, openingDay := s.meter.date }).setAccount
        account { a with jobs := a.jobs + 1 }).ok)

/-- CLOSE JOB (R116). -/
def execCloseJob (job : Nat) (s : State) : Result :=
  .next (s.take (.closeJob job) false fun s =>
    let j := s.meter.job job
    if Config.jobCount ≤ job then s.refuse .range
    else if j.state ≠ .opened then s.refuse .state
    else (s.setJob job { j with state := .closed }).ok)

/-- An aperture names the job: it is of kind REPRINT and holds the job's number, ENABLED or not (R10, R117). -/
def State.jobNamed (s : State) (job : Nat) : Bool := s.apertures.any fun e => e.2.kind = .reprint && e.2.job == job

/-- One pin of a page is lowered (R117). -/
def Store.unpin (st : Store) (e : Purchase) : Store :=
  st.setPage e.page { st.page e.page with pins := (st.page e.page).pins - 1 }

/-- FREE JOB clears the three statuses of the job and keeps its enables (R117). -/
def JobEvents.freed (e : JobEvents) : JobEvents := { e with charged := false, withheld := false, limit := false }

/-- FREE JOB (R117). -/
def execFreeJob (job : Nat) (s : State) : Result :=
  .next (s.take (.freeJob job) false fun s =>
    let j := s.meter.job job
    let a := s.meter.account j.account
    if Config.jobCount ≤ job then s.refuse .range
    else if j.state ≠ .closed then s.refuse .state
    else if s.jobNamed job then s.refuse .bound
    else
      ((((s.setStore (j.purchases.foldl Store.unpin s.store)).setAccount j.account { a with jobs := a.jobs - 1 }).setJob job
        {}).setReports (s.reports.setJob job (s.reports.jobOf job).freed)).ok)

/-- A charged set entry as READ JOB reports it (R118). -/
def Purchase.fields (e : Purchase) : List Byte := bytesOf 2 e.page ++ bytesOf 3 e.fee ++ bytesOf 1 e.ordinal

/-- The report of READ JOB for a portion of the charged set (R118). -/
def Job.fields (j : Job) (portion : Nat) : List Byte :=
  bytesOf 1 j.state.code ++ bytesOf 1 j.account ++ bytesOf 4 j.ceiling ++ bytesOf 4 j.total ++ bytesOf 3 j.openingDay ++
  bytesOf 4 j.withheld ++ bytesOf 1 j.reason.code ++ bytesOf 1 j.purchases.length ++
  ((j.purchases.drop (16 * portion)).take 16).flatMap Purchase.fields

/-- READ JOB (R118). -/
def execReadJob (job portion : Nat) (s : State) : Result :=
  .next (s.take (.readJob job portion) false fun s =>
    if Config.jobCount ≤ job then s.refuse .range
    else if 8 ≤ portion then s.refuse .range
    else s.report ((s.meter.job job).fields portion))

end Sys2Proof.Machine
end

