-- ==== Sys2Proof/Machine/ArchiveLink.lean ====
section
/-! DEFINITION. The archive link's commands: LINE_READ (R1), LINE_WRITE (R2), ARCHIVE_LINK_DOWN (R8), ARCHIVE_LINK_UP (R9),
READ_DATA_START (R4, R6) and READ_DATA_END (R3). -/

namespace Sys2Proof.Machine

/-- LINE_READ: accepted into its FREE tag, and WAITING when a pending write has its key; a tag that is not FREE takes the
link down. While the link is down the request is not seen (R1, R9, R16). -/
def execLineRead (tag : Fin 32) (address : Address) (beat : Fin 8) (s : State) : Result :=
  .next (s.live fun s =>
    if s.link.linkUp then
      if (s.link.tag tag).state = .free then
        let state : TagState := if s.keyPending (addressKey address) then .waiting else .decoding
        s.setLink { s.link.setTag tag { state := state, address := address, beat := beat } with
          readCredits := s.link.readCredits - 1 }
      else s.linkDown
    else s)

/-- LINE_WRITE: appended at the tail of the write buffer, whose head is attempted at once when it is new; with the buffer
full the write is discarded and the link is taken down (R2, R9, R21). -/
def execLineWrite (address : Address) (data : List Byte) (enables : Enables) (s : State) : Result :=
  .next (s.live fun s =>
    if s.link.linkUp then
      if s.link.writeBuffer.length < Config.writeBufferCapacity then
        s.setLink { s.link with
          writeBuffer := s.link.writeBuffer ++ [⟨address, data, enables⟩]
          attemptDue := s.link.attemptDue || s.link.writeBuffer.isEmpty
          writeCredits := s.link.writeCredits - 1 }
      else s.linkDown
    else s)

/-- ARCHIVE_LINK_DOWN (R8, R167). -/
def execArchiveLinkDown (s : State) : Result := .next (s.live fun s => if s.link.linkUp then s.linkDown else s)

/-- ARCHIVE_LINK_UP: training ends; 32 read credits and one write credit for each free entry of the write buffer are
granted (R3, R9). -/
def execArchiveLinkUp (s : State) : Result :=
  .next (s.live fun s =>
    if s.link.linkUp then s
    else
      s.setLink { s.link with
        linkUp := true
        readCredits := Config.tagCount
        writeCredits := Config.writeBufferCapacity - s.link.writeBuffer.length })

/-- The beat sent at position `i` from critical beat `c` (R6). -/
def WrapOrder.beatAt (order : WrapOrder) (c i : Nat) : Nat :=
  match order with
  | .sequential => (c + i) % 8
  | .interleaved => c ^^^ i

/-- Beat `k` of a line: its bytes 8k to 8k + 7 (R6). -/
def beatOf (bytes : List Byte) (k : Nat) : List Byte := (bytes.drop (8 * k)).take 8

/-- The eight beats of a line in the order in which they are sent (R6). -/
def WrapOrder.beats (order : WrapOrder) (c : Nat) (bytes : List Byte) : List (List Byte) :=
  (List.range 8).map fun i => beatOf bytes (order.beatAt c i)

/-- The order of R4 without a tag of its first group; a group left empty goes. -/
def takeFromFront (t : Fin 32) (order : List (List (Fin 32))) : List (List (Fin 32)) :=
  match order with
  | [] => []
  | group :: rest =>
    match group.filter fun u => u != t with
    | [] => rest
    | left => left :: rest

/-- READ_DATA_START: with the return path free, a READY entry that stands first in the order of R4, or first together with
others, enters SENDING under the wrap order in force (R4, R6). -/
def execReadDataStart (tag : Fin 32) (s : State) : Result :=
  .next (s.live fun s =>
    let e := s.link.tag tag
    match s.link.sending, s.link.readyOrder.head?, e.answer with
    | none, some first, some answer =>
      if first.contains tag = true ∧ e.state = .ready then
        s.setLink { s.link.setTag tag { e with state := .sending } with
          readyOrder := takeFromFront tag s.link.readyOrder
          sending := some ⟨tag, answer.note, s.link.wrapOrder.beats e.beat.val answer.bytes⟩ }
      else s
    | _, _, _ => s)

/-- READ_DATA_END: the last beat is sent; the tag becomes FREE and a read credit returns (R3, R4). -/
def execReadDataEnd (s : State) : Result :=
  .next (s.live fun s =>
    match s.link.sending with
    | none => s
    | some d =>
      s.setLink { s.link.setTag d.tag {} with sending := none, readCredits := s.link.readCredits + 1 })

end Sys2Proof.Machine
end

