-- ==== Sys2Proof/Machine/Restoring.lean ====
section
/-! DEFINITION. The restoration unit's transform of bytes (R83 to R85) and the commit sequencer's shared operations: the
examination of the cursor (R94), the taking of a strip (R96), the end of a commit (R100) and of an abort (R102). -/

namespace Sys2Proof.Machine

/-! ### The transform (chapter 4) -/

/-- Entry `tone` of curve table `curve` (R74). -/
def Restore.curveEntry (r : Restore) (curve tone : Nat) : Byte :=
  Table.get r.curves (BitVec.ofNat 8 tone) (256 * curve + tone)

/-- Write entry `tone` of curve table `curve`; an entry equal to the identity is not listed. -/
def Restore.setCurveEntry (r : Restore) (curve tone : Nat) (v : Byte) : Restore :=
  { r with curves := Table.put r.curves (BitVec.ofNat 8 tone) (256 * curve + tone) v }

/-- Write values to consecutive entries of a curve table. -/
def Restore.setCurve (r : Restore) (curve tone : Nat) (values : List Byte) : Restore :=
  match values with
  | [] => r
  | v :: rest => Restore.setCurve (r.setCurveEntry curve tone v) curve (tone + 1) rest

/-- The tone of a stored value (R85). -/
def Restoration.tone (rec : Restoration) (v : Nat) : Nat :=
  let d := rec.white - rec.black
  if v ≤ rec.black then 0
  else if rec.white ≤ v then 255
  else ((v - rec.black) * 255 + d / 2) / d

/-- The defect entry covers column `x` of row `y` (R84). -/
def Defect.covers (e : Defect) (x y : Nat) : Bool :=
  decide (e.x0 ≤ x) && decide (x ≤ e.x1) && decide (e.y0 ≤ y) && decide (y ≤ e.y1)

/-- The output for a stored byte at page byte offset `offset` (R83, R84, R85). -/
def Restore.transformByte (r : Restore) (rec : Restoration) (offset : Nat) (b : Byte) : Byte :=
  let y := offset / rec.pitch
  let x := offset % rec.pitch
  if rec.height ≤ y ∨ rec.width ≤ x then 255
  else
    match rec.defects.find? fun e => e.covers x y with
    | some e => e.fill
    | none => r.curveEntry rec.curve (rec.tone b.toNat)

/-- The outputs for consecutive bytes from page byte offset `offset` on. -/
def Restore.transform (r : Restore) (rec : Restoration) (offset : Nat) (bytes : List Byte) : List Byte :=
  match bytes with
  | [] => []
  | b :: rest => r.transformByte rec offset b :: Restore.transform r rec (offset + 1) rest

/-- The page byte offset of a line (R83). -/
def pageOffset (strip line : Nat) : Nat := strip * 65536 + line * 64

/-- The restoration record that a page's directory entry names (R82). -/
def State.recordOf (s : State) (p : Nat) : Option Restoration :=
  (s.store.page p).record.bind (Table.read s.restore.records)

/-- The bytes as the restoration unit hands them on: transformed by the page's record, or as stored when it has none (R82,
R87, R98). -/
def State.restoreBytes (s : State) (p strip line : Nat) (bytes : List Byte) : List Byte :=
  match s.recordOf p with
  | none => bytes
  | some rec => s.restore.transform rec (pageOffset strip line) bytes

/-- An event of the restoration unit that the rules let fall with its cause or later: it falls now, unless the free choice
puts it off (assumption 36). -/
def State.nowOrLater (s : State) (event : State → State) : State :=
  let t := s.setRestore { s.restore with occasions := s.restore.occasions + 1 }
  if Config.restorationFallsLater s.restore.occasions then t else event t

/-! ### The commit sequencer (chapter 5) -/

@[reducible] def State.setSequencer (s : State) (q : Sequencer) : State := s.setRestore { s.restore with sequencer := q }

/-- The chain from the snapshot head on (R33). -/
def chainFrom (snapshot : Nat) (chain : List Nat) : List Nat := chain.dropWhile fun n => n != snapshot

/-- The store strip that strip index `index` of page `p` resolves to in the snapshot (R93). -/
def Store.resolveFrom (st : Store) (p snapshot index : Nat) : Option Nat :=
  (walk st.versions none false index (chainFrom snapshot (st.page p).chain)).map Hit.strip

/-- A sequencer that is IDLE, with its last outcome (R89). -/
def idleSequencer (outcome : CommitOutcome) : Sequencer := { outcome := outcome }

@[reducible] def State.setStatuses (s : State) (st : Statuses) : State := s.setReports { s.reports with statuses := st }

/-- The finished version is linked directly above the snapshot head (R100). -/
def linkAbove (new snapshot : Nat) (chain : List Nat) : List Nat :=
  match chain with
  | [] => []
  | n :: rest => if n = snapshot then new :: n :: rest else n :: linkAbove new snapshot rest

/-- The commit completes (R100). -/
def State.completeCommit (s : State) : State :=
  let q := s.restore.sequencer
  let page := s.store.page q.page
  let st := { s.store with
    versions := Table.adjust s.store.versions q.building fun v => { v with lock := .locked } }
  ((s.setStore (st.setPage q.page
    { page with chain := linkAbove q.building q.snapshot page.chain, building := none, committing := false })).setSequencer
    (idleSequencer (.completed q.page q.building))).setStatuses { s.reports.statuses with commitDone := true }

/-- The abort ends: the building version is released (R102). -/
def State.endAbort (s : State) : State :=
  let q := s.restore.sequencer
  let st := s.store.release q.building
  let page := st.page q.page
  ((s.setStore (st.setPage q.page { page with building := none, committing := false })).setSequencer
    (idleSequencer (.aborted q.page))).setStatuses { s.reports.statuses with commitDone := true }

/-- The sequencer takes a strip for its cursor, with its source (R96). -/
def State.takeCommitStrip (s : State) (source : Nat) : State :=
  let q := s.restore.sequencer
  match s.store.freeQueue with
  | [] => s
  | strip :: _ =>
    let st := s.store.allocate
    let st := { st with
      versions := Table.adjust st.versions q.building fun v => { v with delta := Table.write v.delta q.cursor strip }
      strips := Table.write st.strips strip ⟨.filling .sequencer, q.building, q.cursor⟩ }
    ((s.setStore st).judgeStoreLow s.store.aboveReserve).setSequencer
      { q with source := source, target := strip, nextLine := 0, inProgress := true, phase := .none, held := none,
               blocked := false }

/-- The sequencer enters WAITING (R94). -/
def State.waitCommit (s : State) : State :=
  (s.setSequencer { s.restore.sequencer with state := .waiting }).setStatuses
    { s.reports.statuses with commitWaiting := true }

/-- The first strip index from the cursor on that resolves in the snapshot, with its source; `none` when the cursor passes
over all that are left (R94). -/
def Store.nextStrip (st : Store) (q : Sequencer) : Option (Nat × Nat) :=
  (List.range Config.frameStrips).findSome? fun i =>
    if q.cursor ≤ i then (st.resolveFrom q.page q.snapshot i).map fun source => (i, source) else none

/-- The sequencer, RUNNING with no strip in progress, examines its cursor and the strip indices after it until it takes a
strip, waits, or has examined them all (R94, R100). -/
def State.examine (s : State) : State :=
  match s.store.nextStrip s.restore.sequencer with
  | none => s.completeCommit
  | some (index, source) =>
    let s := s.setSequencer { s.restore.sequencer with cursor := index }
    if s.store.aboveReserve then s.takeCommitStrip source else s.waitCommit

/-- The sequencer's examination falls due. It passes over what does not resolve, and completes the commit when nothing is left,
at once (R94, R100); only the test of the reserve and the allocation that follows it may come later, for write disposal
may allocate before (R69, R95; assumption 28). -/
def State.examineDue (s : State) : State :=
  let q := s.restore.sequencer
  match s.store.nextStrip q with
  | none => s.completeCommit
  | some (index, _) => (s.setSequencer { q with cursor := index }).nowOrLater State.examine

/-- The sequencer, RUNNING with no strip in progress, owes the allocation for a strip index that resolves. -/
def State.owesStrip (s : State) : Bool :=
  let q := s.restore.sequencer
  q.state = .running && !q.inProgress && (s.store.nextStrip q).isSome

/-- The allocation that the sequencer owes is made (R94). -/
def State.settleStrip (s : State) : State := if s.owesStrip then s.examine else s

/-- A WAITING sequencer goes on when the free count is above the reserve (R95). -/
def State.resumeCommit (s : State) : State :=
  if s.restore.sequencer.state = .waiting ∧ s.store.aboveReserve = true then
    (s.setSequencer { s.restore.sequencer with state := .running }).examineDue
  else s

/-- The building of the current strip ends: the strip is READY and the cursor goes on (R99). -/
def State.finishCommitStrip (s : State) : State :=
  let q := s.restore.sequencer
  let st := { s.store with strips := Table.adjust s.store.strips q.target fun e => { e with state := .ready } }
  ((s.setStore st).setSequencer
    { q with cursor := q.cursor + 1, nextLine := 1024, inProgress := false, phase := .none, held := none }).examineDue

end Sys2Proof.Machine
end

