-- ==== Sys2Proof/Machine/Requests.lean ====
section
/-! DEFINITION. READ_DECODE (R19) and WRITE_DISPOSAL (R21): what becomes of a read that no pending write holds back, and
of the write at the head of the write buffer. -/

namespace Sys2Proof.Machine

/-- The aperture descriptor of a number (R10). -/
def State.aperture (s : State) (a : Nat) : Aperture := Table.get s.apertures {} a

/-! ### READ_DECODE -/

/-- The selector and prefer-restored flag of a view (R33). -/
def Aperture.view (ap : Aperture) : Option Nat × Bool :=
  match ap.kind with
  | .edition => (none, false)
  | .load => (none, false)
  | .historic => (ap.selector, false)
  | .restored => (ap.selector, true)
  | .reprint => (ap.selector, ap.restored)

/-- The view makes a hit of that origin eligible for the live transform (R20). -/
def Aperture.eligible (ap : Aperture) (origin : Origin) : Bool :=
  (ap.kind = .restored || ap.kind = .reprint && ap.restored) && origin != .restored

/-- Where a walk's strip is read from: the strip itself when READY, the copy source when a slot fills it (R19, R67); `none`
is BLANK. A strip that no slot fills and that is not READY is met in no run (assumption 19). -/
def Store.readSource (st : Store) (strip : Nat) : Option Nat :=
  match Table.read st.strips strip with
  | some ⟨.ready, _, _⟩ => some strip
  | some ⟨.filling (.slot k), _, _⟩ => (Table.read st.copies k.val).bind Copy.source
  | some ⟨.filling .sequencer, _, _⟩ => none
  | none => none

/-- A read's answer is known at once. -/
def State.answerRead (s : State) (t : Fin 32) (a : Answer) : State := s.setLink (s.link.answer t a)

/-- A read is placed at the tail of the link-side queue and its entry becomes QUEUED (R19, R20). -/
def State.queueRead (s : State) (t : Fin 32) (strip line : Nat) (eligible : Bool) : State :=
  (s.setLink (s.link.setTag t { s.link.tag t with state := .queued })).setPort
    (s.port.joinLink (.lineRead t strip line eligible false))

/-- Step 4 of the decode: the walk and what follows from it (R19, R20, R67). -/
def State.walkRead (s : State) (t : Fin 32) (ap : Aperture) (k : Key) : State :=
  match walk s.store.versions ap.view.1 ap.view.2 k.strip (s.store.page k.page).chain with
  | none => s.answerRead t blankAnswer
  | some hit =>
    match s.store.readSource hit.strip with
    | none => s.answerRead t blankAnswer
    | some strip => s.queueRead t strip k.line (ap.eligible hit.origin)

/-- The decode of the read that holds tag `t` (R19). -/
def State.decodeRead (s : State) (t : Fin 32) : State :=
  let address := (s.link.tag t).address
  let ap := s.aperture (addressAperture address)
  let k := addressKey address
  if s.chip.inInit then s.answerRead t unmappedAnswer
  else if ap.state = .disabled then s.answerRead t unmappedAnswer
  else if ap.kind = .reprint then
    match s.meterDecision ap.restored ap.job k.page with
    | .withheld reason => (s.withhold ap.job reason).answerRead t (fillAnswer .withheld ap.fill)
    | .served => s.walkRead t ap k
    | .charged c => (s.charge ap.job k.page c).walkRead t ap k
  else s.walkRead t ap k

/-- READ_DECODE: the read holding the tag, past its read-after-write wait, is decoded (R19). -/
def execReadDecode (tag : Fin 32) (s : State) : Result :=
  .next (s.live fun s => if (s.link.tag tag).state = .decoding then s.decodeRead tag else s)

/-! ### WRITE_DISPOSAL -/

/-- The head leaves the write buffer: its credit returns while the link is up, the next write's first attempt falls due,
and reads behind it are looked at again (R3, R17, R21). -/
def State.headLeaves (s : State) : State :=
  (s.setLink { s.link with
    writeBuffer := s.link.writeBuffer.tail
    attemptDue := true
    writeCredits := if s.link.linkUp then s.link.writeCredits + 1 else s.link.writeCredits }).releaseReads

/-- The head is dropped with a fault, which is offered to the fault queue (R56, R61). -/
def State.dropHead (s : State) (w : HostWrite) (kind : FaultKind) : State :=
  let k := addressKey w.address
  (s.setReports (s.reports.offer
    { kind := kind, aperture := addressAperture w.address, page := k.page, strip := k.strip, line := k.line
      edition := s.store.edition.number, repeats := 1 })).headLeaves

/-- The head is carried to the store strip (R57). -/
def State.carryHead (s : State) (w : HostWrite) (strip : Nat) : State :=
  (s.setPort (s.port.joinLink (.lineWrite strip (addressKey w.address).line w.data w.enables none))).headLeaves

/-- The head joins the hold queue for slot `k`, whose target is `strip`; when the slot has written its last segment the
write is released as soon as it is placed (R57, R64, R66). -/
def State.holdHead (s : State) (w : HostWrite) (k : Fin 4) (strip : Nat) (released : Bool) : State :=
  let s := s.setStore { s.store with holdQueue := s.store.holdQueue ++ [⟨w, k, released⟩] }
  (if released then
      s.setPort (s.port.joinLink (.lineWrite strip (addressKey w.address).line w.data w.enables (some k)))
    else s).headLeaves

/-- The head waits: nothing is created, and no attempt is due until a slot becomes IDLE, the hold queue gives up an entry
or a place frees (R21, R58, R153). -/
def State.headWaits (s : State) : State := s.setLink { s.link with attemptDue := false }

/-- The hold queue has a free entry (R66). -/
def Store.holdFree (st : Store) : Bool := decide (st.holdQueue.length < Config.holdCapacity)

/-- The lowest-numbered IDLE copy slot (R59). -/
def Store.idleSlot (st : Store) : Option (Fin 4) := (List.finRange 4).find? fun k => !Table.has st.copies k.val

/-- A new OPEN version is needed: the chain is empty or its head is not OPEN (R58). -/
def Store.needsVersion (st : Store) (p : Nat) : Bool :=
  match st.head p with
  | some v => v.lock != .openLock
  | none => true

/-- The record that a new version takes: the lowest-numbered free one (R27). -/
def Store.freeVersion (st : Store) : Option Nat := Table.lowestFree st.versions Config.versionCount 0

/-- A write of the kind EDITION makes an EDITION version of the open edition, one of the kind LOAD a LOAD version of the
page's publication edition (R59). -/
def Store.newVersion (st : Store) (kind : ApertureKind) (p : Nat) : Version :=
  match kind with
  | .load => ⟨p, .load, (st.page p).edition, .openLock, []⟩
  | _ => ⟨p, .edition, st.edition.number, .openLock, []⟩

/-- The copy source of a fresh strip: BLANK for a LOAD write, and for an EDITION write what the walk finds with selector
LATEST and the prefer-restored flag clear (R60). -/
def Store.copySource (st : Store) (kind : ApertureKind) (p index : Nat) : Option Nat :=
  match kind with
  | .load => none
  | _ => (walk st.versions none false index (st.page p).chain).map Hit.strip

/-- The page's new OPEN version is linked at the head of its chain (R59, step 1). -/
def Store.linkVersion (st : Store) (kind : ApertureKind) (p n : Nat) : Store :=
  let page := st.page p
  { st with versions := Table.write st.versions n (st.newVersion kind p) }.setPage p { page with chain := n :: page.chain }

/-- A fresh strip is started for the head: version, source, strip, delta list entry, slot and held write, as one action
(R59). `n` is the version to create, if one is needed; `slot` the IDLE slot; `strip` the head of the free strip queue. -/
def State.startFresh (s : State) (w : HostWrite) (kind : ApertureKind) (n : Option Nat) (slot : Fin 4) (strip : Nat) : State :=
  let k := addressKey w.address
  let source := s.store.copySource kind k.page k.strip
  let st := match n with
    | some n => s.store.linkVersion kind k.page n
    | none => s.store
  let page := st.page k.page
  let owner := page.chain.headD 0
  let st := { st.allocate with
    versions := Table.adjust st.versions owner fun v => { v with delta := Table.write v.delta k.strip strip }
    strips := Table.write st.strips strip ⟨.filling (.slot slot), owner, k.strip⟩
    copies := Table.write st.copies slot.val { source := source, target := strip, page := k.page, index := k.strip }
    startOrder := st.startOrder ++ [slot] }
  (((s.setStore (st.setPage k.page { page with copies := page.copies + 1 })).judgeStoreLow
    s.store.aboveReserve)).holdHead w slot strip false

/-- The seventh check: the needs of a fresh strip, in order (R58). -/
def State.disposeFresh (s : State) (w : HostWrite) (kind : ApertureKind) : State :=
  let k := addressKey w.address
  let need := s.store.needsVersion k.page
  if need ∧ Config.chainCapacity ≤ (s.store.page k.page).versionCount then s.dropHead w .chainFull
  else
    match (if need then s.store.freeVersion.map some else some none) with
    | none => s.dropHead w .poolEmpty
    | some n =>
      match s.store.freeQueue with
      | [] => s.dropHead w .storeFull
      | strip :: _ =>
        if kind = .load ∧ s.store.aboveReserve = false then s.dropHead w .reserve
        else
          match s.store.idleSlot, s.store.holdFree with
          | some slot, true => s.startFresh w kind n slot strip
          | _, _ => s.headWaits

/-- The sixth check: the OPEN head holds the strip index at store strip `strip` (R57). Its filler, while it is FILLING, is
a copy slot; any other target is met in no run, and the write waits (assumption 19). -/
def State.disposeHeld (s : State) (w : HostWrite) (strip : Nat) : State :=
  match Table.read s.store.strips strip with
  | some ⟨.ready, _, _⟩ => s.carryHead w strip
  | some ⟨.filling (.slot k), _, _⟩ =>
    match Table.read s.store.copies k.val, s.store.holdFree with
    | some c, true => s.holdHead w k strip (c.nextLine == Config.stripLines)
    | _, _ => s.headWaits
  | some ⟨.filling .sequencer, _, _⟩ => s.headWaits
  | none => s.headWaits

/-- Checks 5 to 7 of write disposal (R57, R58). -/
def State.disposeTarget (s : State) (w : HostWrite) (kind : ApertureKind) : State :=
  let k := addressKey w.address
  if w.enables = 0 then s.headLeaves
  else
    match s.store.head k.page with
    | none => s.disposeFresh w kind
    | some v =>
      match decide (v.lock = .openLock), Table.read v.delta k.strip with
      | true, some strip => s.disposeHeld w strip
      | _, _ => s.disposeFresh w kind

/-- Check 4: the page's state against the aperture's kind (R56). -/
def State.disposePage (s : State) (w : HostWrite) (kind : ApertureKind) : State :=
  match (s.store.page (addressKey w.address).page).state, kind with
  | .absent, _ => s.dropHead w .noPage
  | .loading, .edition => s.dropHead w .pageState
  | .live, .load => s.dropHead w .pageState
  | _, _ => s.disposeTarget w kind

/-- The ordered checks of write disposal for the head `w` (R56 to R59). -/
def State.disposeHead (s : State) (w : HostWrite) : State :=
  let ap := s.aperture (addressAperture w.address)
  if ap.state = .disabled then s.dropHead w .unmapped
  else
    match ap.kind, s.store.edition with
    | .historic, _ => s.dropHead w .protect
    | .restored, _ => s.dropHead w .protect
    | .reprint, _ => s.dropHead w .protect
    | .edition, .none => s.dropHead w .noEdition
    | .edition, .closing _ => s.dropHead w .lateWrite
    | .edition, .opened _ => s.disposePage w .edition
    | .load, _ => s.disposePage w .load

/-- WRITE_DISPOSAL: the buffer attempts the disposal of its head, when an attempt is due and the 64 places for carried
writes are not all in use (R21, R153). -/
def execWriteDisposal (s : State) : Result :=
  .next (s.live fun s =>
    match s.link.writeBuffer with
    | [] => s
    | w :: _ =>
      if s.link.attemptDue = true ∧ s.port.carriedCount < Config.carriedCapacity then s.disposeHead w else s)

end Sys2Proof.Machine
end

