-- ==== Sys2Proof/Machine/EngineWork.lean ====
section
/-! DEFINITION. The engine's commands: COPY_SEGMENT_ISSUE (R63) and COMMIT_SEGMENT_ISSUE (R97), and what the end of a
segment or of a link-side write does to the copy slots and the sequencer (R54, R64, R65, R99). -/

namespace Sys2Proof.Machine

/-- Write the record of copy slot `k`. -/
def State.setCopy (s : State) (k : Fin 4) (c : Copy) : State :=
  s.setStore { s.store with copies := Table.write s.store.copies k.val c }

/-- A request of the engine joins the engine-side queue (R154). -/
def State.joinEngine (s : State) (a : Access) : State :=
  s.setPort (s.port.joinEngine s.store.startOrder s.chip.now a)

/-- The 256 bytes of a BLANK segment (R63). -/
def blankSegment : List Byte := List.replicate 256 255

/-- Slot `k`, with no request outstanding, issues its next segment: the write of the bytes it holds or of blank bytes, or
the read of the next four source lines when no link-side write to them is queued (R63). -/
def State.issueCopy (s : State) (k : Fin 4) (c : Copy) : State :=
  match c.source, c.held with
  | none, _ =>
    (s.setCopy k { c with phase := .write }).joinEngine (.writeSegment (.slot k) c.target c.nextLine blankSegment false)
  | some _, some bytes =>
    (s.setCopy k { c with phase := .write, held := none }).joinEngine
      (.writeSegment (.slot k) c.target c.nextLine bytes false)
  | some source, none =>
    if s.port.linkWrites source c.nextLine then s.setCopy k { c with blocked := true }
    else (s.setCopy k { c with phase := .read }).joinEngine (.readSegment (.slot k) source c.nextLine false)

/-- COPY_SEGMENT_ISSUE: a COPYING slot issues its next segment (R63). -/
def execCopySegmentIssue (slot : Fin 4) (s : State) : Result :=
  .next (s.live fun s =>
    match Table.read s.store.copies slot.val with
    | none => s
    | some c =>
      if c.phase = .none ∧ c.blocked = false ∧ c.nextLine < Config.stripLines then s.issueCopy slot c else s)

/-- The sequencer, with a strip in progress and no segment outstanding, issues its next segment (R97). -/
def State.issueCommit (s : State) : State :=
  let q := s.restore.sequencer
  match q.held with
  | some bytes =>
    (s.setSequencer { q with phase := .write, held := none }).joinEngine
      (.writeSegment .sequencer q.target q.nextLine bytes false)
  | none =>
    if s.port.linkWrites q.source q.nextLine then s.setSequencer { q with blocked := true }
    else (s.setSequencer { q with phase := .read }).joinEngine (.readSegment .sequencer q.source q.nextLine false)

/-- COMMIT_SEGMENT_ISSUE: the RUNNING sequencer issues the next segment of its strip (R97); with no strip in progress it
makes the examination whose allocation it owes (R94; assumption 28). -/
def execCommitSegmentIssue (s : State) : Result :=
  .next (s.live fun s =>
    let q := s.restore.sequencer
    if q.state ≠ .running then s
    else if q.inProgress = false then s.examine
    else if q.phase = .none ∧ q.blocked = false then s.issueCommit
    else s)

/-! ### When a link-side write has been carried out -/

/-- A slot or sequencer that waits on a link-side write to its source tries again (R63, R97, R162). -/
def State.unblock (s : State) : State :=
  let s := s.setStore { s.store with copies := s.store.copies.map fun e => (e.1, { e.2 with blocked := false }) }
  s.setSequencer { s.restore.sequencer with blocked := false }

/-- The store strip belongs to an OPEN EDITION version (R54). -/
def Store.openEditionStrip (st : Store) (strip : Nat) : Bool :=
  match Table.read st.strips strip with
  | none => false
  | some e =>
    match Table.read st.versions e.owner with
    | none => false
    | some v => v.lock = .openLock && v.origin = .edition

/-- No copy slot is COPYING into a strip of an OPEN EDITION version, and no held write remains for such a strip (R54). -/
def Store.editionQuiet (st : Store) : Bool :=
  (st.copies.all fun e => !st.openEditionStrip e.2.target) &&
    st.holdQueue.all fun h =>
      match Table.read st.copies h.slot.val with
      | none => true
      | some c => !st.openEditionStrip c.target

/-- Every OPEN EDITION version becomes LOCKED (R54). -/
def lockEditions (versions : Table Version) : Table Version :=
  versions.map fun e =>
    if e.2.lock = .openLock ∧ e.2.origin = .edition then (e.1, { e.2 with lock := .locked }) else e

/-- The end of CLOSING is tested (R54). -/
def State.testClosing (s : State) : State :=
  match s.store.edition with
  | .closing _ =>
    if s.store.editionQuiet then
      (s.setStore { s.store with versions := lockEditions s.store.versions, edition := .none }).setStatuses
        { s.reports.statuses with editionClosed := true }
    else s
  | _ => s

/-- The test of the end of CLOSING that a slot's becoming IDLE brings: it is made now, unless the free choice puts it off.
R65 gives no fixed order between it and the attempt at the write buffer's head (assumption 38). -/
def State.testClosingDue (s : State) : State :=
  let t := s.setStore { s.store with closingTests := s.store.closingTests + 1 }
  if Config.closingTestFallsLater s.store.closingTests then t else t.testClosing

/-- A slot whose last held write has been carried out: its strip becomes READY, the slot IDLE, the page's copies in flight
fall by one, and the waits of reads on the strip end; an attempt at the write buffer's head falls due (R65). -/
def State.freeSlot (s : State) (k : Fin 4) (c : Copy) : State :=
  let st := s.store
  let page := st.page c.page
  let st := { st.setPage c.page { page with copies := page.copies - 1 } with
    strips := Table.adjust st.strips c.target fun e => { e with state := .ready }
    copies := Table.remove st.copies k.val
    startOrder := st.startOrder.filter fun j => j != k
    settling := st.settling.filter fun e => e.1 != k }
  (s.setStore st).attemptHead.releaseReads

/-- A slot becomes IDLE, and the test of the end of CLOSING falls due (R65). -/
def State.slotIdle (s : State) (k : Fin 4) (c : Copy) : State := (s.freeSlot k c).testClosingDue

/-- The released held write at the front of slot `k`'s entries leaves the hold queue (R64, R66). -/
def removeHeld (k : Fin 4) (queue : List HeldWrite) : List HeldWrite :=
  match queue with
  | [] => []
  | h :: rest => if h.slot = k ∧ h.released = true then rest else h :: removeHeld k rest

/-- The key of the held write that `removeHeld` removes. -/
def removedKey (k : Fin 4) (queue : List HeldWrite) : Option Key :=
  (queue.find? fun h => h.slot = k ∧ h.released = true).map fun h => addressKey h.write.address

/-- The store port has carried out a released held write of slot `k` (R64, R65). -/
def State.heldCarriedOut (s : State) (k : Fin 4) : State :=
  let st := s.store
  let settling := match removedKey k st.holdQueue with
    | some key => st.settling ++ [(k, key)]
    | none => st.settling
  let st := { st with holdQueue := removeHeld k st.holdQueue, settling := settling }
  let s := (s.setStore st).attemptHead
  match Table.read st.copies k.val with
  | none => s
  | some c =>
    if c.nextLine = Config.stripLines ∧ st.holdQueue.all (fun h => h.slot != k) = true then s.slotIdle k c else s

/-! ### When a segment has been carried out -/

/-- The link-side access of a held write for store strip `strip`. -/
def HeldWrite.access (h : HeldWrite) (strip : Nat) : Access :=
  .lineWrite strip (addressKey h.write.address).line h.write.data h.write.enables (some h.slot)

/-- After its last write segment the slot releases its held writes, in hold queue order (R64). -/
def State.releaseHeld (s : State) (k : Fin 4) (strip : Nat) : State :=
  let mine := s.store.holdQueue.filter fun h => h.slot = k && !h.released
  (s.setStore { s.store with
    holdQueue := s.store.holdQueue.map fun h => if h.slot = k then { h with released := true } else h }).setPort
    (mine.foldl (fun p h => p.joinLink (h.access strip)) s.port)

/-- A write segment of slot `k` has been carried out (R63, R64). -/
def State.copyWritten (s : State) (k : Fin 4) : State :=
  match Table.read s.store.copies k.val with
  | none => s
  | some c =>
    let s := s.setCopy k { c with nextLine := c.nextLine + 4, phase := .none }
    if c.nextLine + 4 = Config.stripLines then s.releaseHeld k c.target else s

/-- A read segment of slot `k` has been carried out: the slot holds its bytes (R63). -/
def State.copyRead (s : State) (k : Fin 4) (bytes : List Byte) : State :=
  match Table.read s.store.copies k.val with
  | none => s
  | some c => s.setCopy k { c with phase := .none, held := some bytes }

/-- A write segment of the sequencer has been carried out (R97, R99, R101). An IDLE or WAITING sequencer has no segment (R90,
R94). -/
def State.commitWritten (s : State) : State :=
  let q := s.restore.sequencer
  match q.state with
  | .idle => s
  | .waiting => s
  | .aborting => s.endAbort
  | .running =>
    if q.nextLine + 4 = Config.stripLines then s.finishCommitStrip
    else s.setSequencer { q with nextLine := q.nextLine + 4, phase := .none }

/-- A read segment of the sequencer has been carried out: its bytes are transformed with the record and curves as they
stand, unless an abort is under way (R97, R98, R101). -/
def State.commitRead (s : State) (bytes : List Byte) : State :=
  let q := s.restore.sequencer
  match q.state with
  | .idle => s
  | .waiting => s
  | .aborting => s.endAbort
  | .running => s.setSequencer { q with phase := .none, held := some (s.restoreBytes q.page q.cursor q.nextLine bytes) }

end Sys2Proof.Machine
end

