-- ==== Sys2Proof/Machine/EditionCommands.lean ====
section
/-! DEFINITION. SET STORE RESERVE (R49), OPEN EDITION (R52) and CLOSE EDITION (R53). -/

namespace Sys2Proof.Machine

/-- SET STORE RESERVE (R49, R50, R95). -/
def execSetStoreReserve (reserve : Nat) (s : State) : Result :=
  .next (s.take (.setStoreReserve reserve) false fun s =>
    if s.chip.strips / 2 < reserve then s.refuse .range
    else
      (((s.setStore { s.store with reserve := reserve }).judgeStoreLow s.store.aboveReserve).resumeCommit).ok)

/-- OPEN EDITION (R52). -/
def execOpenEdition (edition : Nat) (s : State) : Result :=
  .next (s.take (.openEdition edition) false fun s =>
    if edition < 1 ∨ Config.maxEdition < edition then s.refuse .range
    else if s.store.edition ≠ .none then s.refuse .busy
    else if edition ≤ s.store.lastEdition then s.refuse .order
    else (s.setStore { s.store with edition := .opened edition, lastEdition := edition }).ok)

/-- CLOSE EDITION (R53): the state becomes CLOSING, whose end is tested at once (R54). -/
def execCloseEdition (s : State) : Result :=
  .next (s.take .closeEdition false fun s =>
    match s.store.edition with
    | .opened n => ⟨.accepted, [], (s.setStore { s.store with edition := .closing n }).testClosing⟩
    | _ => s.refuse .state)

end Sys2Proof.Machine
end

