-- ==== Sys2Proof/Machine/Frames.lean ====
section
/-! DEFINITION. Command frames (R184, R194): the command index (§11.5), the split of a frame's fields, the command that a
frame carries, and the frame of a command. -/

namespace Sys2Proof.Machine

/-- The widths in bytes of a command's fields, in the order of its rule; none for a code that is no number of the command
index. LOAD CURVE's three leading fields; its values follow (§11.5, R194). -/
def fieldWidths : Nat → Option (List Nat)
  | 1 => some []
  | 2 => some []
  | 3 => some []
  | 4 => some [1]
  | 5 => some [1, 1, 1, 3, 1, 1, 1]
  | 6 => some [1]
  | 7 => some [2, 1, 1, 3, 3, 1]
  | 8 => some [2]
  | 9 => some [2, 3]
  | 10 => some [2, 1]
  | 11 => some [2, 2]
  | 12 => some [2]
  | 13 => some [2]
  | 14 => some [3]
  | 15 => some [3]
  | 16 => some []
  | 17 => some [2, 3, 3, 3, 1, 1, 1]
  | 18 => some [2, 2, 3, 2, 3, 1]
  | 19 => some [2]
  | 20 => some [2]
  | 21 => some [1, 1, 1]
  | 22 => some [2]
  | 23 => some [2]
  | 24 => some []
  | 25 => some [1]
  | 26 => some [1, 4]
  | 27 => some [1]
  | 28 => some [1]
  | 29 => some [1, 1, 1, 1, 1]
  | 30 => some [1]
  | 31 => some [1]
  | 32 => some [1, 1, 4]
  | 33 => some [1]
  | 34 => some [1]
  | 35 => some [1, 1]
  | 36 => some [3]
  | 37 => some [1, 1, 1]
  | 38 => some [1, 2, 2, 2, 2]
  | 39 => some [2]
  | 40 => some [1]
  | 41 => some [1]
  | 42 => some [2, 1]
  | 43 => some [2, 2, 2, 2, 2, 2]
  | 44 => some [1]
  | 45 => some [2, 2]
  | 46 => some []
  | 47 => some []
  | 48 => some [2]
  | 49 => some [2]
  | 50 => some [1, 1]
  | 51 => some [1, 1]
  | 52 => some []
  | _ => none

/-- The numbers that the fields spell, by their widths (R194). -/
def splitFields (widths : List Nat) (bytes : List Byte) : List Nat :=
  match widths with
  | [] => []
  | w :: rest => numberOf (bytes.take w) :: splitFields rest (bytes.drop w)

/-- The command of a code and its field numbers; `values` are LOAD CURVE's. -/
def commandOf (code : Nat) (fields : List Nat) (values : List Byte) : Option Instr :=
  match code, fields with
  | 1, [] => some .identify
  | 2, [] => some .readStatus
  | 3, [] => some .resetEngine
  | 4, [a] => some (.setLinkOrder a)
  | 5, [a, b, c, d, e, f, g] => some (.setAperture a b c d e f g)
  | 6, [a] => some (.readAperture a)
  | 7, [a, b, c, d, e, f] => some (.createPage a b c d e f)
  | 8, [a] => some (.finishLoad a)
  | 9, [a, b] => some (.setEmbargo a b)
  | 10, [a, b] => some (.setRateClass a b)
  | 11, [a, b] => some (.discardVersion a b)
  | 12, [a] => some (.retirePage a)
  | 13, [a] => some (.readPage a)
  | 14, [a] => some (.setStoreReserve a)
  | 15, [a] => some (.openEdition a)
  | 16, [] => some .closeEdition
  | 17, [a, b, c, d, e, f, g] => some (.writeRestoration a b c d e f g)
  | 18, [a, b, c, d, e, f] => some (.addDefect a b c d e f)
  | 19, [a] => some (.clearDefects a)
  | 20, [a] => some (.detachRestoration a)
  | 21, [a, b, _] => some (.loadCurve a b values)
  | 22, [a] => some (.readRestoration a)
  | 23, [a] => some (.commitRestoration a)
  | 24, [] => some .abortCommit
  | 25, [a] => some (.openAccount a)
  | 26, [a, b] => some (.creditAccount a b)
  | 27, [a] => some (.suspendAccount a)
  | 28, [a] => some (.resumeAccount a)
  | 29, [a, b, c, d, e] => some (.setDiscount a b c d e)
  | 30, [a] => some (.readAccount a)
  | 31, [a] => some (.closeAccount a)
  | 32, [a, b, c] => some (.openJob a b c)
  | 33, [a] => some (.closeJob a)
  | 34, [a] => some (.freeJob a)
  | 35, [a, b] => some (.readJob a b)
  | 36, [a] => some (.setDate a)
  | 37, [a, b, c] => some (.setBands a b c)
  | 38, [a, b, c, d, e] => some (.setRate a b c d e)
  | 39, [a] => some (.setSurcharge a)
  | 40, [a] => some (.readTariff a)
  | 41, [a] => some (.readCharges a)
  | 42, [a, b] => some (.setLogMode a b)
  | 43, [a, b, c, d, e, f] => some (.setStoreTiming a b c d e f)
  | 44, [a] => some (.setPagePolicy a)
  | 45, [a, b] => some (.setArbiter a b)
  | 46, [] => some .readStoreSettings
  | 47, [] => some .readFaults
  | 48, [a] => some (.ackEvents a)
  | 49, [a] => some (.enableEvents a)
  | 50, [a, b] => some (.enableJobEvents a b)
  | 51, [a, b] => some (.ackJobEvents a b)
  | 52, [] => some .readEvents
  | _, _ => none

/-- The code of LOAD CURVE (§11.5). -/
def loadCurveCode : Nat := 21

/-- The field length that a frame's command needs: that of the command index, and for LOAD CURVE three plus the value count
in its own third field, if it has one (R184). -/
def fieldLength (code : Nat) (widths : List Nat) (fields : List Byte) : Nat :=
  if code = loadCurveCode then
    match fields with
    | _ :: _ :: count :: _ => 3 + count.toNat
    | _ => 3
  else widths.foldl (· + ·) 0

/-- The command that the bytes of a command frame carry; `none` is MALFORMED. The four checks of R184, in order. -/
def frameCommand (bytes : List Byte) : Option Instr :=
  match bytes with
  | code :: high :: low :: fields =>
    let length := numberOf [high, low]
    if fields.length ≠ length then none
    else if 512 < length then none
    else
      match fieldWidths code.toNat with
      | none => none
      | some widths =>
        if length ≠ fieldLength code.toNat widths fields then none
        else commandOf code.toNat (splitFields widths fields) (fields.drop 3)
  | _ => none

/-- The code and the field numbers of a management command, and LOAD CURVE's values; `none` for the other rows. -/
def commandParts : Instr → Option (Nat × List Nat × List Byte)
  | .identify => some (1, [], [])
  | .readStatus => some (2, [], [])
  | .resetEngine => some (3, [], [])
  | .setLinkOrder a => some (4, [a], [])
  | .setAperture a b c d e f g => some (5, [a, b, c, d, e, f, g], [])
  | .readAperture a => some (6, [a], [])
  | .createPage a b c d e f => some (7, [a, b, c, d, e, f], [])
  | .finishLoad a => some (8, [a], [])
  | .setEmbargo a b => some (9, [a, b], [])
  | .setRateClass a b => some (10, [a, b], [])
  | .discardVersion a b => some (11, [a, b], [])
  | .retirePage a => some (12, [a], [])
  | .readPage a => some (13, [a], [])
  | .setStoreReserve a => some (14, [a], [])
  | .openEdition a => some (15, [a], [])
  | .closeEdition => some (16, [], [])
  | .writeRestoration a b c d e f g => some (17, [a, b, c, d, e, f, g], [])
  | .addDefect a b c d e f => some (18, [a, b, c, d, e, f], [])
  | .clearDefects a => some (19, [a], [])
  | .detachRestoration a => some (20, [a], [])
  | .loadCurve a b vs => some (21, [a, b, vs.length], vs)
  | .readRestoration a => some (22, [a], [])
  | .commitRestoration a => some (23, [a], [])
  | .abortCommit => some (24, [], [])
  | .openAccount a => some (25, [a], [])
  | .creditAccount a b => some (26, [a, b], [])
  | .suspendAccount a => some (27, [a], [])
  | .resumeAccount a => some (28, [a], [])
  | .setDiscount a b c d e => some (29, [a, b, c, d, e], [])
  | .readAccount a => some (30, [a], [])
  | .closeAccount a => some (31, [a], [])
  | .openJob a b c => some (32, [a, b, c], [])
  | .closeJob a => some (33, [a], [])
  | .freeJob a => some (34, [a], [])
  | .readJob a b => some (35, [a, b], [])
  | .setDate a => some (36, [a], [])
  | .setBands a b c => some (37, [a, b, c], [])
  | .setRate a b c d e => some (38, [a, b, c, d, e], [])
  | .setSurcharge a => some (39, [a], [])
  | .readTariff a => some (40, [a], [])
  | .readCharges a => some (41, [a], [])
  | .setLogMode a b => some (42, [a, b], [])
  | .setStoreTiming a b c d e f => some (43, [a, b, c, d, e, f], [])
  | .setPagePolicy a => some (44, [a], [])
  | .setArbiter a b => some (45, [a, b], [])
  | .readStoreSettings => some (46, [], [])
  | .readFaults => some (47, [], [])
  | .ackEvents a => some (48, [a], [])
  | .enableEvents a => some (49, [a], [])
  | .enableJobEvents a b => some (50, [a, b], [])
  | .ackJobEvents a b => some (51, [a, b], [])
  | .readEvents => some (52, [], [])
  | .powerOn _ => none
  | .resetPinAssert => none
  | .initBuildAppend => none
  | .lineRead _ _ _ => none
  | .lineWrite _ _ _ => none
  | .readDecode _ => none
  | .writeDisposal => none
  | .archiveLinkDown => none
  | .archiveLinkUp => none
  | .readDataStart _ => none
  | .readDataEnd => none
  | .copySegmentIssue _ => none
  | .commitSegmentIssue => none
  | .arbiterIssue => none
  | .quietTimerExpiry => none
  | .agingClockExpiry => none
  | .bankOpenStart _ => none
  | .rowCycleExpiry _ => none
  | .openDelayExpiry _ => none
  | .bankCloseStart _ => none
  | .minimumOpenExpiry _ => none
  | .writeRecoveryExpiry _ => none
  | .closeDelayExpiry _ => none
  | .turnaroundExpiry => none
  | .transferStart => none
  | .transferEnd => none
  | .managementTransactionStart _ => none
  | .commandFrame _ => none
  | .responseTransaction _ => none
  | .otherTransaction _ => none

/-- The row is a management command of the command index (§11.5). -/
def isManagementCommand (c : Instr) : Bool := (commandParts c).isSome

/-- The bytes of field numbers by their widths (R194). -/
def joinFields (widths fields : List Nat) : List Byte :=
  match widths, fields with
  | w :: ws, f :: fs => bytesOf w f ++ joinFields ws fs
  | _, _ => []

/-- The command frame that carries a management command (§11.7). -/
def commandFrameOf (c : Instr) : Option (List Byte) :=
  match commandParts c with
  | none => none
  | some (code, fields, values) =>
    match fieldWidths code with
    | none => none
    | some widths =>
      let body := joinFields widths fields ++ values
      some (bytesOf 1 code ++ bytesOf 2 body.length ++ body)

end Sys2Proof.Machine
end

