-- ==== Sys2Proof/Machine/ManagementLink.lean ====
section
/-! DEFINITION. The SPI transactions of the management link (R182 to R187): MANAGEMENT_TRANSACTION_START, COMMAND_FRAME,
RESPONSE_TRANSACTION and OTHER_TRANSACTION. A row that ends a transaction, with none in progress, stands for the whole
transaction, its start included (assumption 18). -/

namespace Sys2Proof.Machine

/-- The phase at the start of the transaction that ends now, when its direction byte satisfies `is`: that of the
transaction in progress, or the present phase when the row stands for the whole transaction. -/
def State.phaseAtStart (s : State) (is : Byte → Bool) : Option PhaseName :=
  match s.management.transaction with
  | none => some s.management.phase.name
  | some t => if is t.direction then some t.phase else none

/-- The transaction ends, and `bytes` are all that the part has shifted out in it. -/
def Management.endTransaction (m : Management) (bytes : List Byte) : Management :=
  { m with transaction := none, shiftOut := bytes }

/-- While the RESET pin is held the part shifts out zero bytes (R182). -/
def State.heldShift (s : State) (count : Nat) : State :=
  s.setManagement { s.management with shiftOut := List.replicate count 0 }

/-- MANAGEMENT_TRANSACTION_START: the chip select is asserted and the part shifts out the link byte of the present phase
(R183). -/
def execManagementTransactionStart (direction : Byte) (s : State) : Result :=
  .next (if s.chip.resetPin then s.heldShift 1
    else
      match s.management.transaction with
      | some _ => s
      | none =>
        let phase := s.management.phase.name
        s.setManagement { s.management with
          transaction := some ⟨direction, phase⟩
          shiftOut := [linkByte direction phase] })

/-- COMMAND_FRAME: a command transaction ends. Begun in phase IDLE with at least one frame byte, the frame is judged:
MALFORMED, or its command is being taken. Begun in another phase, the frame is discarded (R183, R184, R186). While the
RESET pin is held no frame is taken (R182). -/
def execCommandFrame (bytes : List Byte) (s : State) : Result :=
  .next (if s.chip.resetPin then s.heldShift (bytes.length + 1)
    else
      match s.phaseAtStart (· == commandDirection) with
      | none => s
      | some phase =>
        let s := s.setManagement (s.management.endTransaction [linkByte commandDirection phase])
        match phase, bytes with
        | .idle, _ :: _ =>
          match frameCommand bytes with
          | none => s.respond .malformed []
          | some c => s.setManagement { s.management with phase := .taking c }
        | _, _ => s)

/-- The frame that a response transaction shifts out (R187). -/
def Management.responseBytes (m : Management) (phase : PhaseName) : List Byte :=
  match phase with
  | .pending => m.buffer
  | .idle => responseFrame .notReady []
  | .taking => responseFrame .notReady []

/-- `count` bytes of a frame as they are clocked out: zero beyond its end (R187). -/
def clockOut (count : Nat) (frame : List Byte) : List Byte :=
  frame.take count ++ List.replicate (count - frame.length) 0

/-- RESPONSE_TRANSACTION: a response transaction ends having clocked out `clocked` bytes after the direction byte; a
response read in full leaves the buffer (R187). -/
def execResponseTransaction (clocked : Nat) (s : State) : Result :=
  .next (if s.chip.resetPin then s.heldShift (clocked + 1)
    else
      match s.phaseAtStart (· == responseDirection) with
      | none => s
      | some phase =>
        let frame := s.management.responseBytes phase
        let m := s.management.endTransaction (linkByte responseDirection phase :: clockOut clocked frame)
        if phase = .pending ∧ frame.length ≤ clocked then
          s.setManagement { m with phase := .idle, buffer := [] }
        else s.setManagement m)

/-- OTHER_TRANSACTION: a transaction whose direction byte is neither command nor response changes nothing; the part shifts
out zero bytes after the link byte (R183). -/
def execOtherTransaction (clocked : Nat) (s : State) : Result :=
  .next (if s.chip.resetPin then s.heldShift (clocked + 1)
    else
      match s.phaseAtStart (fun d => d != commandDirection && d != responseDirection) with
      | none => s
      | some phase =>
        s.setManagement (s.management.endTransaction (linkByte 0 phase :: List.replicate clocked 0)))

end Sys2Proof.Machine
end

