-- ==== Sys2Proof/Machine/PageCommands.lean ====
section
/-! DEFINITION. The commands on apertures and pages: SET APERTURE (R11), READ APERTURE (R14), CREATE PAGE (R36), FINISH LOAD
(R38), SET EMBARGO (R39), SET RATE CLASS (R40), DISCARD VERSION (R41, R42), RETIRE PAGE (R43, R44) and READ PAGE (R45). -/

namespace Sys2Proof.Machine

/-- The canonical form of a descriptor for its kind (R11). -/
def Aperture.canonical (ap : Aperture) : Aperture :=
  match ap.kind with
  | .edition => { state := ap.state, kind := .edition }
  | .load => { state := ap.state, kind := .load }
  | .historic => { state := ap.state, kind := .historic, selector := ap.selector }
  | .restored => { state := ap.state, kind := .restored, selector := ap.selector, restored := true }
  | .reprint => ap

/-- The descriptor that SET APERTURE's fields give; `none` when one is outside its values (R11, check 1). -/
def apertureOf (state kind selector restored job fill : Nat) : Option Aperture :=
  match apertureStateOf state, apertureKindOf kind, selectorOf selector, flagOf restored with
  | some st, some k, some sel, some r =>
    if job < Config.jobCount then some ⟨st, k, sel, r, job, BitVec.ofNat 8 fill⟩ else none
  | _, _, _, _ => none

/-- SET APERTURE (R11). -/
def execSetAperture (aperture state kind selector restored job fill : Nat) (s : State) : Result :=
  .next (s.take (.setAperture aperture state kind selector restored job fill) false fun s =>
    if Config.apertureCount ≤ aperture then s.refuse .range
    else
      match apertureOf state kind selector restored job fill with
      | none => s.refuse .range
      | some ap =>
        if ap.kind = .reprint ∧ (s.meter.job ap.job).state ≠ .opened then s.refuse .state
        else (s.setApertures (Table.put s.apertures {} aperture ap.canonical)).ok)

/-- A selector's field value: 0 for LATEST (R194). -/
def selectorCode (e : Option Nat) : Nat := e.getD 0

/-- The six fields of a descriptor as READ APERTURE reports them (R14). -/
def Aperture.fields (ap : Aperture) : List Byte :=
  bytesOf 1 ap.state.code ++ bytesOf 1 ap.kind.code ++ bytesOf 3 (selectorCode ap.selector) ++
  bytesOf 1 (flagCode ap.restored) ++ bytesOf 1 ap.job ++ bytesOf 1 ap.fill.toNat

/-- READ APERTURE (R14). -/
def execReadAperture (aperture : Nat) (s : State) : Result :=
  .next (s.take (.readAperture aperture) false fun s =>
    if Config.apertureCount ≤ aperture then s.refuse .range else s.report (s.aperture aperture).fields)

/-- The kind and start-LOADING flag of CREATE PAGE, when every field is in its range (R36, check 1). -/
def pageFieldsOf (page kind rateClass day edition loading : Nat) : Option (PageKind × Bool) :=
  if page < Config.pageCount ∧ rateClass < 32 ∧ day ≤ Config.maxDay ∧ 1 ≤ edition ∧ edition ≤ Config.maxEdition then
    match pageKindOf kind, flagOf loading with
    | some k, some l => some (k, l)
    | _, _ => none
  else none

/-- The publication edition could meet or pass a later edition's number (R36, check 3). -/
def Store.loadsTooLate (st : Store) (edition : Nat) : Bool :=
  decide (st.lastEdition < edition) || edition == st.lastEdition && st.edition != .none

/-- CREATE PAGE (R36). -/
def execCreatePage (page kind rateClass day edition loading : Nat) (s : State) : Result :=
  .next (s.take (.createPage page kind rateClass day edition loading) false fun s =>
    match pageFieldsOf page kind rateClass day edition loading with
    | none => s.refuse .range
    | some (k, l) =>
      if (s.store.page page).state ≠ .absent then s.refuse .present
      else if l && s.store.loadsTooLate edition then s.refuse .order
      else
        (s.setStore (s.store.setPage page
          { state := if l then .loading else .live, kind := k, rateClass := rateClass, day := day, edition := edition })).ok)

/-- The page's OPEN LOAD version, at the head of its chain, becomes LOCKED (R38). -/
def lockHead (versions : Table Version) (chain : List Nat) : Table Version :=
  match chain with
  | [] => versions
  | n :: _ => Table.adjust versions n fun v => if v.lock = .openLock then { v with lock := .locked } else v

/-- FINISH LOAD (R38). -/
def execFinishLoad (page : Nat) (s : State) : Result :=
  .next (s.take (.finishLoad page) false fun s =>
    let pg := s.store.page page
    if Config.pageCount ≤ page then s.refuse .range
    else if pg.state ≠ .loading then s.refuse .state
    else if pg.copies ≠ 0 then s.refuse .busy
    else
      (s.setStore ({ s.store with versions := lockHead s.store.versions pg.chain }.setPage page
        { pg with state := .live })).ok)

/-- SET EMBARGO (R39). -/
def execSetEmbargo (page day : Nat) (s : State) : Result :=
  .next (s.take (.setEmbargo page day) false fun s =>
    let pg := s.store.page page
    if Config.pageCount ≤ page then s.refuse .range
    else
      match embargoOf day with
      | none => s.refuse .range
      | some e =>
        if pg.state = .absent then s.refuse .absent
        else (s.setStore (s.store.setPage page { pg with embargo := e })).ok)

/-- SET RATE CLASS (R40). -/
def execSetRateClass (page rateClass : Nat) (s : State) : Result :=
  .next (s.take (.setRateClass page rateClass) false fun s =>
    let pg := s.store.page page
    if Config.pageCount ≤ page ∨ 32 ≤ rateClass then s.refuse .range
    else if pg.state = .absent then s.refuse .absent
    else (s.setStore (s.store.setPage page { pg with rateClass := rateClass })).ok)

/-- The store port holds an access to a store strip of the version (R41, R43). -/
def Port.holdsVersion (p : Port) (v : Version) : Bool := v.delta.any fun e => p.holds e.2

/-- The effect of DISCARD VERSION: the version is released and leaves the chain, and a commit that waits for the reserve may
go on (R42, R95). -/
def State.discard (s : State) (page version : Nat) : State :=
  let st := s.store.release version
  let pg := st.page page
  (s.setStore (st.setPage page { pg with chain := pg.chain.filter fun n => n != version })).resumeCommit

/-- DISCARD VERSION (R41, R42). -/
def execDiscardVersion (page version : Nat) (s : State) : Result :=
  .next (s.take (.discardVersion page version) false fun s =>
    let pg := s.store.page page
    if Config.pageCount ≤ page ∨ Config.versionCount ≤ version then s.refuse .range
    else if pg.state = .absent then s.refuse .absent
    else
      match Table.read s.store.versions version with
      | none => s.refuse .absent
      | some v =>
        if v.page ≠ page then s.refuse .absent
        else if v.lock ≠ .locked then s.refuse .state
        else if pg.pins ≠ 0 ∨ pg.committing = true then s.refuse .pinned
        else if pg.copies ≠ 0 ∨ s.port.holdsVersion v = true then s.refuse .busy
        else (s.discard page version).ok)

/-- The chain holds an OPEN EDITION version (R43, check 3). -/
def Store.hasOpenEdition (st : Store) (pg : Page) : Bool :=
  pg.chain.any fun n =>
    match Table.read st.versions n with
    | some v => v.lock = .openLock && v.origin = .edition
    | none => false

/-- The store port holds an access to a store strip of any of the page's versions (R43, check 5). -/
def State.portHoldsPage (s : State) (pg : Page) : Bool :=
  pg.chain.any fun n =>
    match Table.read s.store.versions n with
    | some v => s.port.holdsVersion v
    | none => false

/-- The effect of RETIRE PAGE: every version is released from head to tail, the restoration record is freed, and the entry
becomes ABSENT; a commit of another page that waits for the reserve may go on (R44, R95). -/
def State.retire (s : State) (page : Nat) : State :=
  let pg := s.store.page page
  let st := pg.chain.foldl Store.release s.store
  let records := match pg.record with
    | some r => Table.remove s.restore.records r
    | none => s.restore.records
  ((s.setStore (st.setPage page {})).setRestore { s.restore with records := records }).resumeCommit

/-- RETIRE PAGE (R43, R44). -/
def execRetirePage (page : Nat) (s : State) : Result :=
  .next (s.take (.retirePage page) false fun s =>
    let pg := s.store.page page
    if Config.pageCount ≤ page then s.refuse .range
    else if pg.state = .absent then s.refuse .absent
    else if s.store.hasOpenEdition pg then s.refuse .state
    else if pg.pins ≠ 0 ∨ pg.committing = true then s.refuse .pinned
    else if pg.copies ≠ 0 ∨ s.portHoldsPage pg = true then s.refuse .busy
    else (s.retire page).ok)

/-- The five items that READ PAGE reports of a version: number, origin, edition number, lock state and delta list length
(R45). -/
def Store.versionFields (st : Store) (n : Nat) : List Byte :=
  match Table.read st.versions n with
  | none => []
  | some v => bytesOf 2 n ++ bytesOf 1 v.origin.code ++ bytesOf 3 v.edition ++ bytesOf 1 v.lock.code ++ bytesOf 2 v.delta.length

/-- The report of READ PAGE (R45). -/
def Store.pageFields (st : Store) (pg : Page) : List Byte :=
  bytesOf 1 pg.state.code ++ bytesOf 1 pg.kind.code ++ bytesOf 1 pg.rateClass ++ bytesOf 3 pg.day ++ bytesOf 3 pg.edition ++
  bytesOf 3 (pg.embargo.getD absentDay) ++ bytesOf 1 (flagCode pg.record.isSome) ++ bytesOf 2 (pg.record.getD 0) ++
  bytesOf 1 pg.pins ++ bytesOf 1 (flagCode pg.committing) ++ bytesOf 1 pg.copies ++ bytesOf 1 pg.chain.length ++
  pg.chain.flatMap st.versionFields ++
  (match pg.building with
   | none => []
   | some n => st.versionFields n)

/-- READ PAGE (R45). -/
def execReadPage (page : Nat) (s : State) : Result :=
  .next (s.take (.readPage page) false fun s =>
    if Config.pageCount ≤ page then s.refuse .range else s.report (s.store.pageFields (s.store.page page)))

end Sys2Proof.Machine
end

