-- ==== Sys2Proof/Machine/PartCommands.lean ====
section
/-! DEFINITION. The commands on the part as a whole: IDENTIFY (R190), READ STATUS (R191), RESET ENGINE (R192) and SET LINK
ORDER (R7). -/

namespace Sys2Proof.Machine

/-- The fields of IDENTIFY's response (R190). -/
def identifyFields (strips : Nat) : List Byte :=
  bytesOf 2 Config.vendorCode ++ bytesOf 2 Config.partCode ++ bytesOf 1 Config.revision ++ bytesOf 3 strips ++
  bytesOf 1 Config.apertureCount ++ bytesOf 3 Config.pageCount ++ bytesOf 2 Config.versionCount ++
  bytesOf 1 Config.copySlotCount ++ bytesOf 1 Config.holdCapacity ++ bytesOf 2 Config.recordCount ++
  bytesOf 1 Config.curveCount ++ bytesOf 2 Config.accountCount ++ bytesOf 1 Config.jobCount ++
  bytesOf 1 Config.chargedSetCapacity ++ bytesOf 2 Config.logCapacity ++ bytesOf 1 Config.faultCapacity ++
  bytesOf 1 Config.writeBufferCapacity ++ bytesOf 1 Config.tagCount

/-- IDENTIFY (R190). -/
def execIdentify (s : State) : Result := .next (s.take .identify true fun s => s.report (identifyFields s.chip.strips))

/-- The restoration record pool's free count (R71). -/
def Restore.freeRecords (r : Restore) : Nat := Config.recordCount - r.records.length

/-- The fields of READ STATUS's response (R191); the sequencer's page and cursor read 0 while it is IDLE. -/
def State.statusFields (s : State) : List Byte :=
  let q := s.restore.sequencer
  let idle : Bool := q.state = .idle
  bytesOf 1 (flagCode s.chip.inInit) ++ bytesOf 3 s.chip.strips ++
  bytesOf 1 s.store.edition.code ++ bytesOf 3 s.store.edition.number ++ bytesOf 3 s.store.lastEdition ++
  bytesOf 3 s.store.freeCount ++ bytesOf 3 s.store.reserve ++ bytesOf 2 s.store.freeVersions ++
  bytesOf 2 Config.recordCount ++ bytesOf 2 s.restore.freeRecords ++
  bytesOf 1 q.state.code ++ bytesOf 2 (if idle then 0 else q.page) ++ bytesOf 2 (if idle then 0 else q.cursor) ++
  bytesOf 1 q.outcome.code ++ bytesOf 2 q.outcome.page ++ bytesOf 2 q.outcome.version ++
  bytesOf 2 s.log.charges.length ++ bytesOf 4 s.log.nextSequence.toNat ++ bytesOf 1 s.reports.faults.length

/-- READ STATUS (R191). -/
def execReadStatus (s : State) : Result := .next (s.take .readStatus true fun s => s.report s.statusFields)

/-! ### RESET ENGINE -/

/-- The read's READ DATA has not begun, and its entry is not READY yet (R22). -/
def TagState.undecided : TagState → Bool
  | .waiting => true
  | .decoding => true
  | .queued => true
  | _ => false

/-- A tag entry at engine reset: answered UNMAPPED unless it is FREE or SENDING (R22). -/
def TagEntry.atReset (e : TagEntry) : TagEntry :=
  match e.state with
  | .free => e
  | .sending => e
  | _ => { e with state := .ready, answer := some unmappedAnswer }

/-- The link interface at engine reset: undisposed writes are abandoned and their credits return, outstanding reads are
answered UNMAPPED, those that become READY now together (R22). -/
def Link.atReset (l : Link) : Link :=
  let becomeReady := (List.finRange 32).filter fun t => (l.tag t).state.undecided
  { l with
    tags := l.tags.map fun e => (e.1, e.2.atReset)
    readyOrder := if becomeReady.isEmpty then l.readyOrder else l.readyOrder ++ [becomeReady]
    writeBuffer := []
    attemptDue := true
    writeCredits := if l.linkUp then l.writeCredits + l.writeBuffer.length else l.writeCredits }

/-- A started access at engine reset: it is carried out, and what it reads is discarded (R168). -/
def Access.atReset : Access → Access
  | .lineRead t strip line e _ => .lineRead t strip line e true
  | .lineWrite strip line d e _ => .lineWrite strip line d e none
  | .readSegment g strip line _ => .readSegment g strip line true
  | .writeSegment g strip line d _ => .writeSegment g strip line d true

/-- The store port at engine reset: both queues are emptied, the issue list is carried out, the quiet timer starts, and the
banks are closed; the settings are kept (R156, R168). -/
def Port.atReset (p : Port) (now : Nat) : Port :=
  let p := { p with
    linkQueue := []
    engineQueue := []
    issueList := p.issueList.map Access.atReset
    aging := .stopped
    resetClosing := true }
  (p.startQuiet now).settleReset

/-- The part after an engine reset (R192): every block as its own rule lays down. N, the wrap order, the store's settings
and contents, the next sequence number and the management link are kept. -/
def State.engineReset (s : State) : State :=
  { s with
    chip := { s.chip with inInit := true }
    link := s.link.atReset
    apertures := []
    store := { reserve := s.chip.strips / 16, closingTests := s.store.closingTests }
    restore := { occasions := s.restore.occasions }
    meter := {}
    log := { s.log with threshold := 1, mode := .auto }
    port := s.port.atReset s.chip.now
    reports := {} }

/-- RESET ENGINE (R192): refused with NOT EMPTY while the charge log holds a record. -/
def execResetEngine (s : State) : Result :=
  .next (s.take .resetEngine false fun s =>
    if s.log.charges.isEmpty then ⟨.accepted, [], s.engineReset⟩ else s.refuse .notEmpty)

/-- SET LINK ORDER (R7). -/
def execSetLinkOrder (order : Nat) (s : State) : Result :=
  .next (s.take (.setLinkOrder order) false fun s =>
    match wrapOrderOf order with
    | none => s.refuse .range
    | some o => (s.setLink { s.link with wrapOrder := o }).ok)

end Sys2Proof.Machine
end

