-- ==== Sys2Proof/Machine/PortCommands.lean ====
section
/-! DEFINITION. The store port's settings (R163 to R166) and the commands on faults and events (R172, R175, R176, R178,
R181). -/

namespace Sys2Proof.Machine

/-- The nearer end of a range (R163). -/
def clamp (low high v : Nat) : Nat := max low (min high v)

/-- The six timings as stored: clamped, and the row cycle raised to the minimum open time plus the close delay (R163). -/
def storedTiming (openDelay closeDelay minimumOpen rowCycle writeRecovery turnaround : Nat) : StoreTiming :=
  let close := clamp 5 100 closeDelay
  let minimum := clamp 10 200 minimumOpen
  { openDelay := clamp 5 100 openDelay
    closeDelay := close
    minimumOpen := minimum
    rowCycle := max (clamp 20 300 rowCycle) (minimum + close)
    writeRecovery := clamp 5 100 writeRecovery
    turnaround := clamp 1 50 turnaround }

/-- SET STORE TIMING (R163). -/
def execSetStoreTiming (openDelay closeDelay minimumOpen rowCycle writeRecovery turnaround : Nat) (s : State) : Result :=
  .next (s.take (.setStoreTiming openDelay closeDelay minimumOpen rowCycle writeRecovery turnaround) false fun s =>
    (s.setPort { s.port with
      timing := storedTiming openDelay closeDelay minimumOpen rowCycle writeRecovery turnaround }).ok)

/-- The wait list of bank `b` holds an access for the row (R164). -/
def Port.waitsFor (p : Port) (b row : Nat) : Bool := (p.waitList b).any fun a => a.strip == row

/-- A bank when the policy becomes CLOSE AFTER: OPEN with no access waiting for its row, its close is due at once, and no
later access cancels it; when it becomes KEEP OPEN: a close due and not begun is cancelled (R160, R164). -/
def Port.bankUnder (p : Port) (policy : PagePolicy) (b : Nat) : Bank :=
  let k := p.bank b
  match policy, k.state with
  | .closeAfter, .opened row => if p.waitsFor b row then k else { k with closeDue := .byPolicy }
  | .closeAfter, _ => k
  | .keepOpen, _ => { k with closeDue := .none }

/-- The policy changes, and each bank with it (R164). -/
def Port.setPolicy (p : Port) (policy : PagePolicy) : Port :=
  if policy = p.policy then p
  else (List.range 8).foldl (fun q b => q.setBank b (p.bankUnder policy b)) { p with policy := policy }

/-- SET PAGE POLICY (R164). -/
def execSetPagePolicy (policy : Nat) (s : State) : Result :=
  .next (s.take (.setPagePolicy policy) false fun s =>
    match pagePolicyOf policy with
    | none => s.refuse .range
    | some x => (s.setPort (s.port.setPolicy x)).ok)

/-- The quiet timer and the aging clock judged against new limits: one whose elapsed time has reached its limit expires at
once (R165). -/
def Port.judgeTimers (p : Port) (now : Nat) : Port :=
  { p with
    quiet := match p.quiet with
      | .running since => if since + p.quietTime ≤ now then .expired else .running since
      | q => q
    aging := match p.aging with
      | .running since => if since + 1000 * p.agingLimit ≤ now then .aged else .running since
      | a => a }

/-- SET ARBITER (R165). -/
def execSetArbiter (quietTime agingLimit : Nat) (s : State) : Result :=
  .next (s.take (.setArbiter quietTime agingLimit) false fun s =>
    (s.setPort (Port.judgeTimers
      { s.port with quietTime := min 10000 quietTime, agingLimit := clamp 1 1000 agingLimit } s.chip.now)).ok)

/-- A bank as READ STORE SETTINGS reports it: its state, and its row when OPEN or OPENING (R166). -/
def Bank.fields (k : Bank) : List Byte :=
  bytesOf 1 k.state.code ++
    match k.state with
    | .opening row => bytesOf 3 row
    | .opened row => bytesOf 3 row
    | _ => []

/-- The report of READ STORE SETTINGS (R166). -/
def Port.fields (p : Port) : List Byte :=
  bytesOf 1 p.timing.openDelay ++ bytesOf 1 p.timing.closeDelay ++ bytesOf 1 p.timing.minimumOpen ++
  bytesOf 2 p.timing.rowCycle ++ bytesOf 1 p.timing.writeRecovery ++ bytesOf 1 p.timing.turnaround ++
  bytesOf 1 p.policy.code ++ bytesOf 2 p.quietTime ++ bytesOf 2 p.agingLimit ++
  (List.range 8).flatMap (fun b => (p.bank b).fields) ++
  bytesOf 1 p.linkQueue.length ++ bytesOf 1 p.engineQueue.length ++ bytesOf 1 p.issueList.length

/-- READ STORE SETTINGS (R166). -/
def execReadStoreSettings (s : State) : Result :=
  .next (s.take .readStoreSettings false fun s => s.report s.port.fields)

/-! ### Faults and events (chapter 10) -/

/-- A fault record's 13 bytes (§11.7). -/
def FaultRecord.fields (f : FaultRecord) : List Byte :=
  bytesOf 1 f.kind.code ++ bytesOf 1 f.aperture ++ bytesOf 2 f.page ++ bytesOf 2 f.strip ++ bytesOf 2 f.line ++
  bytesOf 3 f.edition ++ bytesOf 2 f.repeats

/-- The response of READ FAULTS: the records removed and the count left (R172, §11.7). -/
def Reports.faultFields (r : Reports) : List Byte :=
  let taken := r.faults.take 4
  bytesOf 1 taken.length ++ taken.flatMap FaultRecord.fields ++ bytesOf 1 (r.faults.length - taken.length)

/-- READ FAULTS (R172). -/
def execReadFaults (s : State) : Result :=
  .next (s.take .readFaults false fun s =>
    ⟨.ok, s.reports.faultFields, s.setReports { s.reports with faults := s.reports.faults.drop 4 }⟩)

/-- ACK EVENTS (R175). -/
def execAckEvents (mask : Nat) (s : State) : Result :=
  .next (s.take (.ackEvents mask) false fun s =>
    (s.setReports { s.reports with statuses := s.reports.statuses.acknowledge mask s.log.mode }).ok)

/-- ENABLE EVENTS (R176); it is taken during INIT. -/
def execEnableEvents (mask : Nat) (s : State) : Result :=
  .next (s.take (.enableEvents mask) true fun s => (s.setReports { s.reports with enables := enablesOfMask mask }).ok)

/-- ENABLE JOB EVENTS (R178). -/
def execEnableJobEvents (job mask : Nat) (s : State) : Result :=
  .next (s.take (.enableJobEvents job mask) false fun s =>
    if Config.jobCount ≤ job then s.refuse .range
    else (s.setReports (s.reports.setJob job ((s.reports.jobOf job).enable mask))).ok)

/-- ACK JOB EVENTS (R178). -/
def execAckJobEvents (job mask : Nat) (s : State) : Result :=
  .next (s.take (.ackJobEvents job mask) false fun s =>
    if Config.jobCount ≤ job then s.refuse .range
    else (s.setReports (s.reports.setJob job ((s.reports.jobOf job).acknowledge mask))).ok)

/-- The report of READ EVENTS (R181). -/
def Reports.fields (r : Reports) : List Byte :=
  bytesOf 2 r.statusMask ++ bytesOf 2 r.enables.mask ++ (List.range 64).flatMap (fun j => bytesOf 1 (r.jobOf j).mask) ++
  bytesOf 1 r.faults.length

/-- READ EVENTS (R181); it is taken during INIT. -/
def execReadEvents (s : State) : Result := .next (s.take .readEvents true fun s => s.report s.reports.fields)

end Sys2Proof.Machine
end

