-- ==== Sys2Proof/Machine/Power.lean ====
section
/-! DEFINITION. POWER_ON (R149), RESET_PIN_ASSERT (R182) and INIT_BUILD_APPEND (R48). -/

namespace Sys2Proof.Machine

/-- POWER_ON: the RESET pin is released and the store size pins fix N; every table, queue, counter and setting takes its
power-on value and INIT is entered (R48, R149, R182). The store's contents are undefined from here on. -/
def execPowerOn (pins : Fin 4) (s : State) : Result :=
  let t := State.powerOn (Config.stripsOfPins pins) s.chip.now (s.chip.powerOns + 1)
  .next (((t.setRestore { t.restore with occasions := s.restore.occasions }).setStore
    { t.store with closingTests := s.store.closingTests }).setPending s.pending)

/-- RESET_PIN_ASSERT: the pin is held from here on, every status and enable is clear (R180), and a transaction in progress
is abandoned (R182). -/
def execResetPinAssert (s : State) : Result :=
  .next (((s.setChip { s.chip with resetPin := true }).setReports { faults := s.reports.faults }).setManagement
    { s.management with transaction := none })

/-- INIT_BUILD_APPEND: the build appends the next strip number; with N − 1 appended, INIT ends and INIT DONE is set (R48). -/
def execInitBuildAppend (s : State) : Result :=
  .next (s.live fun s =>
    if s.chip.inInit then
      let next := s.store.freeQueue.length
      let s := s.setStore { s.store with freeQueue := s.store.freeQueue ++ [next] }
      if s.chip.strips ≤ next + 1 then
        (s.setChip { s.chip with inInit := false }).setReports
          { s.reports with statuses := { s.reports.statuses with initDone := true } }
      else s
    else s)

end Sys2Proof.Machine
end

