-- ==== Sys2Proof/Machine/RestorationCommands.lean ====
section
/-! DEFINITION. The commands on restoration records, curves and commits: WRITE RESTORATION (R75, R76), ADD DEFECT (R77),
CLEAR DEFECTS (R78), DETACH RESTORATION (R79), LOAD CURVE (R80), READ RESTORATION (R81), COMMIT RESTORATION (R91, R92) and
ABORT COMMIT (R101). -/

namespace Sys2Proof.Machine

/-- The fields of WRITE RESTORATION are in their ranges (R72, R75 check 1). -/
def geometryInRange (page width pitch height black white curve : Nat) : Bool :=
  decide (page < Config.pageCount) && decide (64 ≤ pitch) && decide (pitch ≤ 65536) && pitch % 64 == 0 &&
  decide (1 ≤ width) && decide (width ≤ pitch) && decide (1 ≤ height) && decide (height ≤ 524288) &&
  decide (height * pitch ≤ 33554432) && decide (black ≤ 254) && decide (black < white) && decide (white ≤ 255) &&
  decide (curve < Config.curveCount)

/-- An entry of the list would lie outside the new geometry (R75, check 4). -/
def defectsOutside (defects : List Defect) (width height : Nat) : Bool :=
  defects.any fun e => decide (width ≤ e.x1) || decide (height ≤ e.y1)

/-- Write restoration record `n`. -/
def State.setRecord (s : State) (n : Nat) (r : Restoration) : State :=
  s.setRestore { s.restore with records := Table.write s.restore.records n r }

/-- The number and contents of the restoration record of a page (R24, R72). -/
def State.recordEntry (s : State) (p : Nat) : Option (Nat × Restoration) :=
  match (s.store.page p).record with
  | none => none
  | some n => (Table.read s.restore.records n).map fun r => (n, r)

/-- WRITE RESTORATION (R75, R76). -/
def execWriteRestoration (page width pitch height black white curve : Nat) (s : State) : Result :=
  .next (s.take (.writeRestoration page width pitch height black white curve) false fun s =>
    let pg := s.store.page page
    if geometryInRange page width pitch height black white curve = false then s.refuse .range
    else if pg.state = .absent then s.refuse .absent
    else if pg.committing then s.refuse .busy
    else
      match s.recordEntry page with
      | some (n, r) =>
        if defectsOutside r.defects width height then s.refuse .range
        else
          (s.setRecord n { r with
            width := width, pitch := pitch, height := height, black := black, white := white, curve := curve }).ok
      | none =>
        match Table.lowestFree s.restore.records Config.recordCount 0 with
        | none => s.refuse .full
        | some n =>
          ((s.setRecord n ⟨page, width, pitch, height, black, white, curve, []⟩).setStore
            (s.store.setPage page { pg with record := some n })).ok)

/-- ADD DEFECT (R77). -/
def execAddDefect (page x0 y0 x1 y1 fill : Nat) (s : State) : Result :=
  .next (s.take (.addDefect page x0 y0 x1 y1 fill) false fun s =>
    if Config.pageCount ≤ page ∨ 65535 < x0 ∨ 65535 < x1 ∨ 524287 < y0 ∨ 524287 < y1 ∨ 255 < fill then s.refuse .range
    else if (s.store.page page).state = .absent then s.refuse .absent
    else
      match s.recordEntry page with
      | none => s.refuse .absent
      | some (n, r) =>
        if x1 < x0 ∨ r.width ≤ x1 ∨ y1 < y0 ∨ r.height ≤ y1 then s.refuse .range
        else if Config.defectCapacity ≤ r.defects.length then s.refuse .full
        else (s.setRecord n { r with defects := r.defects ++ [⟨x0, y0, x1, y1, BitVec.ofNat 8 fill⟩] }).ok)

/-- CLEAR DEFECTS (R78). -/
def execClearDefects (page : Nat) (s : State) : Result :=
  .next (s.take (.clearDefects page) false fun s =>
    if Config.pageCount ≤ page then s.refuse .range
    else if (s.store.page page).state = .absent then s.refuse .absent
    else
      match s.recordEntry page with
      | none => s.refuse .absent
      | some (n, r) => (s.setRecord n { r with defects := [] }).ok)

/-- DETACH RESTORATION (R79). -/
def execDetachRestoration (page : Nat) (s : State) : Result :=
  .next (s.take (.detachRestoration page) false fun s =>
    let pg := s.store.page page
    if Config.pageCount ≤ page then s.refuse .range
    else if pg.state = .absent then s.refuse .absent
    else
      match pg.record with
      | none => s.refuse .absent
      | some n =>
        if pg.committing then s.refuse .busy
        else
          ((s.setRestore { s.restore with records := Table.remove s.restore.records n }).setStore
            (s.store.setPage page { pg with record := none })).ok)

/-- LOAD CURVE (R80). -/
def execLoadCurve (curve quarter : Nat) (values : List Byte) (s : State) : Result :=
  .next (s.take (.loadCurve curve quarter values) false fun s =>
    if Config.curveCount ≤ curve ∨ 4 ≤ quarter ∨ values.length ≠ 64 then s.refuse .range
    else (s.setRestore (s.restore.setCurve curve (64 * quarter) values)).ok)

/-- A defect entry as READ RESTORATION reports it (R81). -/
def Defect.fields (e : Defect) : List Byte :=
  bytesOf 2 e.x0 ++ bytesOf 3 e.y0 ++ bytesOf 2 e.x1 ++ bytesOf 3 e.y1 ++ [e.fill]

/-- The report of READ RESTORATION (R81). -/
def Restoration.fields (r : Restoration) (n : Nat) : List Byte :=
  bytesOf 2 n ++ bytesOf 2 r.owner ++ bytesOf 3 r.width ++ bytesOf 3 r.pitch ++ bytesOf 3 r.height ++ bytesOf 1 r.black ++
  bytesOf 1 r.white ++ bytesOf 1 r.curve ++ bytesOf 1 r.defects.length ++ r.defects.flatMap Defect.fields

/-- READ RESTORATION (R81). -/
def execReadRestoration (page : Nat) (s : State) : Result :=
  .next (s.take (.readRestoration page) false fun s =>
    if Config.pageCount ≤ page then s.refuse .range
    else if (s.store.page page).state = .absent then s.refuse .absent
    else
      match s.recordEntry page with
      | none => s.refuse .absent
      | some (n, r) => s.report (r.fields n))

/-! ### Commits -/

/-- Some strip index resolves in the snapshot that the page's head would be (R91, check 7; R93). -/
def Store.anyResolves (st : Store) (p : Nat) : Bool :=
  (List.range Config.frameStrips).any fun i => (walk st.versions none false i (st.page p).chain).isSome

/-- What COMMIT RESTORATION sets: snapshot head, BUILDING version `n`, commit flag, and the sequencer RUNNING from strip
index 0 (R92). -/
def State.beginCommit (s : State) (page n : Nat) (head : Version) : State :=
  let pg := s.store.page page
  let st := { s.store with
    versions := Table.write s.store.versions n ⟨page, .restored, head.edition, .building, []⟩ }
  let q : Sequencer :=
    { state := .running, page := page, snapshot := pg.chain.headD 0, building := n, outcome := s.restore.sequencer.outcome }
  (s.setStore (st.setPage page { pg with building := some n, committing := true })).setSequencer q

/-- The effect of COMMIT RESTORATION: the sequencer runs, and its examination falls due (R92, R94). -/
def State.startCommit (s : State) (page n : Nat) (head : Version) : State := (s.beginCommit page n head).examineDue

/-- COMMIT RESTORATION (R91, R92). -/
def execCommitRestoration (page : Nat) (s : State) : Result :=
  .next (s.take (.commitRestoration page) false fun s =>
    let pg := s.store.page page
    if Config.pageCount ≤ page then s.refuse .range
    else if s.restore.sequencer.state ≠ .idle then s.refuse .busy
    else if pg.state = .absent ∨ pg.record = none then s.refuse .absent
    else if pg.state = .loading ∨ (s.store.head page).any (fun v => v.lock == .openLock) = true then s.refuse .state
    else if Config.chainCapacity ≤ pg.chain.length then s.refuse .chainFull
    else
      match s.store.freeVersion with
      | none => s.refuse .poolEmpty
      | some n =>
        match s.store.head page with
        | none => s.refuse .emptyPage
        | some head =>
          if s.store.anyResolves page then ⟨.accepted, [], s.startCommit page n head⟩ else s.refuse .emptyPage)

/-- The effect of ABORT COMMIT on a RUNNING or WAITING sequencer: a request not yet started is withdrawn, and the abort
ends at once unless a segment is in progress at the store port (R101, R102). -/
def State.abortCommit (s : State) : State :=
  let s := s.setSequencer { s.restore.sequencer with state := .aborting }
  let s := s.setPort (s.port.withdraw .sequencer)
  if s.port.issueList.any (fun a => a.engine == some .sequencer && !a.isDropped) then s else s.endAbort

/-- ABORT COMMIT (R101). An allocation that the sequencer owes is made first: where the release that ended a wait came before
the abort, the sequencer takes a strip. -/
def execAbortCommit (s : State) : Result :=
  .next (s.take .abortCommit false fun s =>
    match s.restore.sequencer.state with
    | .idle => s.refuse .state
    | .aborting => ⟨.accepted, [], s⟩
    | .running => ⟨.accepted, [], s.settleStrip.abortCommit⟩
    | .waiting => ⟨.accepted, [], s.abortCommit⟩)

end Sys2Proof.Machine
end

