-- ==== Sys2Proof/Machine/StorePort.lean ====
section
/-! DEFINITION. The store port's commands: the arbiter (R155 to R157), the bank machines (R158 to R160), the timers, and the
data path (R161, R162). -/

namespace Sys2Proof.Machine

/-! ### The arbiter -/

/-- What the arbiter issues next (R155 to R157). -/
inductive IssueChoice where
  | nothing
  | linkHead
  | engineHead
  deriving DecidableEq, Repr

/-- The arbiter's choice. The link head goes first unless the engine side is aged, and after an engine segment the link
head is next while there is one; with an empty link-side queue the engine head goes when the quiet time has expired or the
engine side is aged (R155, R157). -/
def Port.choose (p : Port) : IssueChoice :=
  if Config.issueCapacity ≤ p.issueList.length then .nothing
  else if p.linkQueue.isEmpty then
    if !p.engineQueue.isEmpty && (p.quiet = .expired || p.aging = .aged) then .engineHead else .nothing
  else if !p.engineQueue.isEmpty && p.aging = .aged && !p.lastIssueEngine then .engineHead
  else .linkHead

/-- The access cancels a close of its bank: one made due by the end of a transfer and not begun, when the access is for the
OPEN row and no access for another row stands at the front of the bank's wait list. A close that SET PAGE POLICY made due
stays due (R160, R164). -/
def Port.cancelsClose (p : Port) (a : Access) : Bool :=
  (p.bank a.bank).closeDue = .byTransfer && (p.bank a.bank).state = .opened a.strip && !p.frontElsewhere a.bank a.strip

/-- An access is issued: it joins the tail of the issue list, and with it its bank's wait list (R155, R159). -/
def Port.issue (p : Port) (a : Access) : Port :=
  let p := if p.cancelsClose a then p.setBank a.bank { p.bank a.bank with closeDue := .none } else p
  { p with issueList := p.issueList ++ [a] }

/-- The link head is issued; the quiet timer starts when the queue becomes empty (R155, R156). -/
def Port.issueLink (p : Port) (now : Nat) (a : Access) (rest : List Access) : Port :=
  let p := { p.issue a with linkQueue := rest, lastIssueEngine := false }
  if rest.isEmpty then p.startQuiet now else p

/-- The engine head is issued, which stops the aging clock and clears the aged state (R155, R157). -/
def Port.issueEngine (p : Port) (a : Access) (rest : List Access) : Port :=
  { p.issue a with engineQueue := rest, lastIssueEngine := true, aging := .stopped }

/-- ARBITER_ISSUE: the arbiter issues one access, if it may (R155). A carried write issued while all 64 places for carried
writes are in use frees one of them, which starts an attempt at the write buffer's head (R153); that one issued while
fewer are in use starts none is the model's reading, for the rules leave it open (assumption 12). -/
def execArbiterIssue (s : State) : Result :=
  .next (s.live fun s =>
    match s.port.choose with
    | .nothing => s
    | .linkHead =>
      match s.port.linkQueue with
      | [] => s
      | a :: rest =>
        let full := decide (Config.carriedCapacity ≤ s.port.carriedCount)
        let s := s.setPort (s.port.issueLink s.chip.now a rest)
        if full && a.isCarried then s.attemptHead else s
    | .engineHead =>
      match s.port.engineQueue with
      | [] => s
      | a :: rest => s.setPort (s.port.issueEngine a rest))

/-- QUIET_TIMER_EXPIRY: the running quiet timer expires (R156). -/
def execQuietTimerExpiry (s : State) : Result :=
  .next (s.live fun s =>
    match s.port.quiet with
    | .running since => (s.reach (since + s.port.quietTime)).setPort { s.port with quiet := .expired }
    | _ => s)

/-- AGING_CLOCK_EXPIRY: the running aging clock expires and the engine side becomes aged (R157). -/
def execAgingClockExpiry (s : State) : Result :=
  .next (s.live fun s =>
    match s.port.aging with
    | .running since => (s.reach (since + 1000 * s.port.agingLimit)).setPort { s.port with aging := .aged }
    | _ => s)

/-! ### The bank machines -/

/-- A bank begins to open a row: the open delay, minimum open time and row cycle time run from now (R158, R163). -/
def Bank.startOpen (k : Bank) (t : StoreTiming) (now row : Nat) : Bank :=
  { k with
    state := .opening row
    lastOpen := some now
    minimumOpenUntil := now + t.minimumOpen
    rowCycleUntil := now + t.rowCycle
    delayUntil := now + t.openDelay
    closeDue := .none }

/-- BANK_OPEN_START: an IDLE bank with a non-empty wait list begins OPENING the front access's row, once the row cycle
time has expired since its last open (R158, R159). -/
def execBankOpenStart (bank : Fin 8) (s : State) : Result :=
  .next (s.live fun s =>
    let k := s.port.bank bank.val
    match s.port.waitList bank.val with
    | [] => s
    | a :: _ =>
      if k.state = .idle ∧ k.rowCycleUntil ≤ s.chip.now then
        s.setPort (s.port.setBank bank.val (k.startOpen s.port.timing s.chip.now a.strip))
      else s)

/-- ROW_CYCLE_EXPIRY: the bank's row cycle time has run out (R158). -/
def execRowCycleExpiry (bank : Fin 8) (s : State) : Result :=
  .next (s.live fun s => s.reach (s.port.bank bank.val).rowCycleUntil)

/-- OPEN_DELAY_EXPIRY: an OPENING bank is OPEN at its row (R158). -/
def execOpenDelayExpiry (bank : Fin 8) (s : State) : Result :=
  .next (s.live fun s =>
    let k := s.port.bank bank.val
    match k.state with
    | .opening row => (s.reach k.delayUntil).setPort (s.port.setBank bank.val { k with state := .opened row })
    | _ => s)

/-- A transfer to the bank is in progress (R158). -/
def Port.transferringTo (p : Port) (b : Nat) : Bool :=
  p.transferring &&
    match p.issueList with
    | [] => false
    | a :: _ => a.bank == b

/-- A close of the bank, OPEN at `row`, is due (R160, R164, R168). -/
def Port.closeIsDue (p : Port) (b row : Nat) : Bool :=
  (p.bank b).closeDue != .none || p.frontElsewhere b row || p.resetClosing && p.issueList.isEmpty

/-- BANK_CLOSE_START: an OPEN bank with a due close begins CLOSING, once the minimum open time and the write recovery time
have expired and no transfer to it is in progress (R158, R160). -/
def execBankCloseStart (bank : Fin 8) (s : State) : Result :=
  .next (s.live fun s =>
    let k := s.port.bank bank.val
    match k.state with
    | .opened row =>
      if s.port.closeIsDue bank.val row = true ∧ k.minimumOpenUntil ≤ s.chip.now ∧ k.writeRecoveryUntil ≤ s.chip.now ∧
          s.port.transferringTo bank.val = false then
        s.setPort (s.port.setBank bank.val
          { k with state := .closing, closeDue := .none, delayUntil := s.chip.now + s.port.timing.closeDelay })
      else s
    | _ => s)

/-- MINIMUM_OPEN_EXPIRY: the minimum open time since the bank's open began has run out (R158). -/
def execMinimumOpenExpiry (bank : Fin 8) (s : State) : Result :=
  .next (s.live fun s => s.reach (s.port.bank bank.val).minimumOpenUntil)

/-- WRITE_RECOVERY_EXPIRY: the write recovery time since the bank's last write transfer has run out (R158). -/
def execWriteRecoveryExpiry (bank : Fin 8) (s : State) : Result :=
  .next (s.live fun s => s.reach (s.port.bank bank.val).writeRecoveryUntil)

/-- CLOSE_DELAY_EXPIRY: a CLOSING bank is IDLE (R158). -/
def execCloseDelayExpiry (bank : Fin 8) (s : State) : Result :=
  .next (s.live fun s =>
    let k := s.port.bank bank.val
    match k.state with
    | .closing =>
      (s.reach k.delayUntil).setPort (s.port.setBank bank.val { k with state := .idle }).settleReset
    | _ => s)

/-! ### The data path -/

/-- TURNAROUND_EXPIRY: the turnaround time since the last transfer has run out (R161). -/
def execTurnaroundExpiry (s : State) : Result :=
  .next (s.live fun s => s.reach s.port.turnaroundUntil)

/-- The four conditions under which a transfer starts for the front access (R161). -/
def Port.mayTransfer (p : Port) (now : Nat) : Bool :=
  !p.transferring &&
    match p.issueList with
    | [] => false
    | a :: _ =>
      (p.bank a.bank).state = .opened a.strip &&
        match p.lastDirection with
        | none => true
        | some d => d = a.direction || decide (p.turnaroundUntil ≤ now)

/-- TRANSFER_START: a transfer starts for the front of the issue list (R161). -/
def execTransferStart (s : State) : Result :=
  .next (s.live fun s =>
    if s.port.mayTransfer s.chip.now then s.setPort { s.port with transferring := true } else s)

/-- After access `a`, the next access of its bank among `rest` is for the same row (R160). -/
def nextForRow (a : Access) (rest : List Access) : Bool :=
  match rest.filter fun c => c.bank == a.bank with
  | [] => false
  | c :: _ => c.strip == a.strip

/-- The bank's part of the end of a transfer: the last write time is set, and under CLOSE AFTER a close may become due
(R160, R162). `rest` is the issue list without the access. -/
def Bank.endTransfer (k : Bank) (a : Access) (rest : List Access) (t : StoreTiming) (policy : PagePolicy) (now : Nat) : Bank :=
  let k := match a.direction with
    | .write => { k with lastWrite := some now, writeRecoveryUntil := now + t.writeRecovery }
    | .read => k
  { k with
    closeDue := if k.closeDue = .none ∧ policy = .closeAfter ∧ nextForRow a rest = false then .byTransfer else k.closeDue }

/-- The port's part of the end of a transfer: the access leaves the issue list and its bank's wait list, the turnaround
runs from now, and the aging clock restarts when no engine segment is left in progress and the engine-side queue is not
empty (R157, R161, R162). -/
def Port.endTransfer (p : Port) (now : Nat) (a : Access) (rest : List Access) : Port :=
  let p := p.setBank a.bank ((p.bank a.bank).endTransfer a rest p.timing p.policy now)
  let p := { p with
    issueList := rest
    transferring := false
    lastDirection := some a.direction
    turnaroundUntil := now + p.timing.turnaround }
  let p := if a.isSegment && !p.segmentInProgress && !p.engineQueue.isEmpty then { p with aging := .running now } else p
  p.settleReset

/-- The data of an eligible read arrives at the restoration unit: transformed with the record and curves as they stand now,
it becomes the answer of the read's tag (R82, R86, R87). -/
def State.arrive (s : State) (a : Arrival) : State :=
  let k := addressKey (s.link.tag a.tag).address
  s.answerRead a.tag ⟨.data, s.restoreBytes k.page k.strip k.line a.bytes⟩

/-- All data on its way to the restoration unit arrives, in order. -/
def State.arriveAll (s : State) : State :=
  s.restore.arriving.foldl State.arrive (s.setRestore { s.restore with arriving := [] })

/-- A line read has been carried out. Unless it was abandoned, its bytes become the answer of its tag, or, when the read is
eligible, go to the restoration unit, where they arrive now or later (R20, R82, R87, R162; assumption 30). -/
def State.lineReadDone (s : State) (t : Fin 32) (strip line : Nat) (eligible abandoned : Bool) : State :=
  let stored := Memory.bytesAt s.memory s.chip.powerOns (lineAddress strip line) 64
  if abandoned then s
  else if eligible then
    (s.setRestore { s.restore with arriving := s.restore.arriving ++ [⟨t, stored⟩] }).nowOrLater State.arriveAll
  else s.answerRead t ⟨.data, stored⟩

/-- A line write has been carried out (R151, R162). -/
def State.lineWriteDone (s : State) (strip line : Nat) (data : List Byte) (enables : Enables) (holder : Option (Fin 4)) :
    State :=
  let s := (s.setMemory (Memory.storeEnabled s.memory (lineAddress strip line) 0 enables data)).unblock
  match holder with
  | none => s
  | some k => s.heldCarriedOut k

/-- A read segment has been carried out (R63, R97, R162). -/
def State.readSegmentDone (s : State) (engine : Engine) (strip line : Nat) (dropped : Bool) : State :=
  if dropped then s
  else
    let bytes := Memory.bytesAt s.memory s.chip.powerOns (lineAddress strip line) 256
    match engine with
    | .slot k => s.copyRead k bytes
    | .sequencer => s.commitRead bytes

/-- A write segment has been carried out; its bytes reach the store even when its result is not used (R162, R168). -/
def State.writeSegmentDone (s : State) (engine : Engine) (strip line : Nat) (data : List Byte) (dropped : Bool) : State :=
  let s := s.setMemory (Memory.store s.memory (lineAddress strip line) data)
  if dropped then s
  else
    match engine with
    | .slot k => s.copyWritten k
    | .sequencer => s.commitWritten

/-- What the end of an access's transfer hands on (R162). -/
def State.carryOut (s : State) : Access → State
  | .lineRead t strip line eligible abandoned => s.lineReadDone t strip line eligible abandoned
  | .lineWrite strip line data enables holder => s.lineWriteDone strip line data enables holder
  | .readSegment engine strip line dropped => s.readSegmentDone engine strip line dropped
  | .writeSegment engine strip line data dropped => s.writeSegmentDone engine strip line data dropped

/-- TRANSFER_END: the transfer in progress ends and its access is carried out (R162). With none in progress the row stands
for what the rules let follow an earlier transfer's end: the arrival of what is on its way to the restoration unit (R87;
assumption 30), and the test of the end of CLOSING (R65; assumption 38). -/
def execTransferEnd (s : State) : Result :=
  .next (s.live fun s =>
    match s.port.transferring, s.port.issueList with
    | true, a :: rest => (s.setPort (s.port.endTransfer s.chip.now a rest)).carryOut a
    | _, _ => s.arriveAll.testClosing)

end Sys2Proof.Machine
end

