-- ==== Sys2Proof/Machine/TariffCommands.lean ====
section
/-! DEFINITION. The settings of the fee arithmetic and the charge log's commands: SET DATE (R128), SET BANDS (R131), SET
RATE (R132), SET SURCHARGE (R133), READ TARIFF (R139), READ CHARGES (R143) and SET LOG MODE (R145). -/

namespace Sys2Proof.Machine

/-- SET DATE (R128). -/
def execSetDate (day : Nat) (s : State) : Result :=
  .next (s.take (.setDate day) false fun s =>
    if Config.maxDay < day then s.refuse .range
    else if day < s.meter.date then s.refuse .order
    else (s.setMeter { s.meter with date := day }).ok)

/-- SET BANDS (R131). -/
def execSetBands (a1 a2 a3 : Nat) (s : State) : Result :=
  .next (s.take (.setBands a1 a2 a3) false fun s =>
    if 255 < a1 ∨ 255 < a2 ∨ 255 < a3 then s.refuse .range
    else if a2 ≤ a1 ∨ a3 ≤ a2 then s.refuse .range
    else (s.setMeter { s.meter with bands := ⟨a1, a2, a3⟩ }).ok)

/-- The row of a class is written whole (R132). -/
def Meter.setRow (m : Meter) (rateClass r0 r1 r2 r3 : Nat) : Meter :=
  (((m.setRate rateClass 0 r0).setRate rateClass 1 r1).setRate rateClass 2 r2).setRate rateClass 3 r3

/-- SET RATE (R132). -/
def execSetRate (rateClass r0 r1 r2 r3 : Nat) (s : State) : Result :=
  .next (s.take (.setRate rateClass r0 r1 r2 r3) false fun s =>
    if 32 ≤ rateClass ∨ 65535 < r0 ∨ 65535 < r1 ∨ 65535 < r2 ∨ 65535 < r3 then s.refuse .range
    else (s.setMeter (s.meter.setRow rateClass r0 r1 r2 r3)).ok)

/-- SET SURCHARGE (R133): 101 to 255 is stored as 100. -/
def execSetSurcharge (surcharge : Nat) (s : State) : Result :=
  .next (s.take (.setSurcharge surcharge) false fun s =>
    if 255 < surcharge then s.refuse .range
    else (s.setMeter { s.meter with surcharge := min 100 surcharge }).ok)

/-- The report of READ TARIFF (R139). -/
def Meter.tariffFields (m : Meter) (rateClass : Nat) : List Byte :=
  bytesOf 3 m.date ++ bytesOf 1 m.bands.a1 ++ bytesOf 1 m.bands.a2 ++ bytesOf 1 m.bands.a3 ++ bytesOf 1 m.surcharge ++
  bytesOf 2 (m.rate rateClass 0) ++ bytesOf 2 (m.rate rateClass 1) ++ bytesOf 2 (m.rate rateClass 2) ++
  bytesOf 2 (m.rate rateClass 3)

/-- READ TARIFF (R139). -/
def execReadTariff (rateClass : Nat) (s : State) : Result :=
  .next (s.take (.readTariff rateClass) false fun s =>
    if 32 ≤ rateClass then s.refuse .range else s.report (s.meter.tariffFields rateClass))

/-! ### The charge log -/

/-- A charge record's 16 bytes (§11.7). The five highest bits of the last byte, of which §11.7 says nothing, are 0: the
model's choice (assumption 39). -/
def ChargeRecord.fields (r : ChargeRecord) : List Byte :=
  bytesOf 4 r.sequence.toNat ++ bytesOf 3 r.day ++ bytesOf 1 r.job ++ bytesOf 1 r.account ++ bytesOf 2 r.page ++
  bytesOf 3 r.fee ++ bytesOf 1 r.ordinal ++ bytesOf 1 (flagCode r.surcharged + 2 * r.tier)

/-- The response of READ CHARGES: the records removed, the count left and the next sequence number (R143, §11.7). -/
def ChargeLog.drainFields (l : ChargeLog) (most : Nat) : List Byte :=
  let taken := l.charges.take most
  bytesOf 1 taken.length ++ taken.flatMap ChargeRecord.fields ++ bytesOf 2 (l.charges.length - taken.length) ++
  bytesOf 4 l.nextSequence.toNat

/-- Records are removed from the head of the log (R143). -/
def ChargeLog.drain (l : ChargeLog) (most : Nat) : ChargeLog := { l with charges := l.charges.drop most }

/-- READ CHARGES (R143). -/
def execReadCharges (most : Nat) (s : State) : Result :=
  .next (s.take (.readCharges most) false fun s =>
    if most < 1 ∨ 8 < most then s.refuse .range
    else
      let log := s.log.drain most
      ⟨.ok, s.log.drainFields most,
        (s.setLog log).setReports { s.reports with statuses := s.reports.statuses.afterDrain log }⟩)

/-- SET LOG MODE (R145). -/
def execSetLogMode (threshold mode : Nat) (s : State) : Result :=
  .next (s.take (.setLogMode threshold mode) false fun s =>
    match clearModeOf mode with
    | none => s.refuse .range
    | some m =>
      if threshold < 1 ∨ Config.logCapacity < threshold then s.refuse .range
      else
        let log := { s.log with threshold := threshold, mode := m }
        ((s.setLog log).setReports { s.reports with statuses := s.reports.statuses.afterMode log }).ok)

end Sys2Proof.Machine
end

