-- ==== Sys2Proof/Machine/Dispatch.lean ====
section
/-! DEFINITION. One arm for each command: a direct call of its meaning. -/

namespace Sys2Proof.Machine

def exec (i : Instr) (s : State) : Host.Outcome State Fault Refusal :=
  match i with
  | .powerOn pins => Sys2Proof.Machine.execPowerOn pins s
  | .resetPinAssert => Sys2Proof.Machine.execResetPinAssert s
  | .initBuildAppend => Sys2Proof.Machine.execInitBuildAppend s
  | .lineRead tag address beat => Sys2Proof.Machine.execLineRead tag address beat s
  | .lineWrite address data enables => Sys2Proof.Machine.execLineWrite address data enables s
  | .readDecode tag => Sys2Proof.Machine.execReadDecode tag s
  | .writeDisposal => Sys2Proof.Machine.execWriteDisposal s
  | .archiveLinkDown => Sys2Proof.Machine.execArchiveLinkDown s
  | .archiveLinkUp => Sys2Proof.Machine.execArchiveLinkUp s
  | .readDataStart tag => Sys2Proof.Machine.execReadDataStart tag s
  | .readDataEnd => Sys2Proof.Machine.execReadDataEnd s
  | .copySegmentIssue slot => Sys2Proof.Machine.execCopySegmentIssue slot s
  | .commitSegmentIssue => Sys2Proof.Machine.execCommitSegmentIssue s
  | .arbiterIssue => Sys2Proof.Machine.execArbiterIssue s
  | .quietTimerExpiry => Sys2Proof.Machine.execQuietTimerExpiry s
  | .agingClockExpiry => Sys2Proof.Machine.execAgingClockExpiry s
  | .bankOpenStart bank => Sys2Proof.Machine.execBankOpenStart bank s
  | .rowCycleExpiry bank => Sys2Proof.Machine.execRowCycleExpiry bank s
  | .openDelayExpiry bank => Sys2Proof.Machine.execOpenDelayExpiry bank s
  | .bankCloseStart bank => Sys2Proof.Machine.execBankCloseStart bank s
  | .minimumOpenExpiry bank => Sys2Proof.Machine.execMinimumOpenExpiry bank s
  | .writeRecoveryExpiry bank => Sys2Proof.Machine.execWriteRecoveryExpiry bank s
  | .closeDelayExpiry bank => Sys2Proof.Machine.execCloseDelayExpiry bank s
  | .turnaroundExpiry => Sys2Proof.Machine.execTurnaroundExpiry s
  | .transferStart => Sys2Proof.Machine.execTransferStart s
  | .transferEnd => Sys2Proof.Machine.execTransferEnd s
  | .managementTransactionStart direction => Sys2Proof.Machine.execManagementTransactionStart direction s
  | .commandFrame bytes => Sys2Proof.Machine.execCommandFrame bytes s
  | .responseTransaction clocked => Sys2Proof.Machine.execResponseTransaction clocked s
  | .otherTransaction clocked => Sys2Proof.Machine.execOtherTransaction clocked s
  | .identify => Sys2Proof.Machine.execIdentify s
  | .readStatus => Sys2Proof.Machine.execReadStatus s
  | .resetEngine => Sys2Proof.Machine.execResetEngine s
  | .setLinkOrder order => Sys2Proof.Machine.execSetLinkOrder order s
  | .setAperture aperture state kind selector restored job fill => Sys2Proof.Machine.execSetAperture aperture state kind selector restored job fill s
  | .readAperture aperture => Sys2Proof.Machine.execReadAperture aperture s
  | .createPage page kind rateClass day edition loading => Sys2Proof.Machine.execCreatePage page kind rateClass day edition loading s
  | .finishLoad page => Sys2Proof.Machine.execFinishLoad page s
  | .setEmbargo page day => Sys2Proof.Machine.execSetEmbargo page day s
  | .setRateClass page rateClass => Sys2Proof.Machine.execSetRateClass page rateClass s
  | .discardVersion page version => Sys2Proof.Machine.execDiscardVersion page version s
  | .retirePage page => Sys2Proof.Machine.execRetirePage page s
  | .readPage page => Sys2Proof.Machine.execReadPage page s
  | .setStoreReserve reserve => Sys2Proof.Machine.execSetStoreReserve reserve s
  | .openEdition edition => Sys2Proof.Machine.execOpenEdition edition s
  | .closeEdition => Sys2Proof.Machine.execCloseEdition s
  | .writeRestoration page width pitch height black white curve => Sys2Proof.Machine.execWriteRestoration page width pitch height black white curve s
  | .addDefect page x0 y0 x1 y1 fill => Sys2Proof.Machine.execAddDefect page x0 y0 x1 y1 fill s
  | .clearDefects page => Sys2Proof.Machine.execClearDefects page s
  | .detachRestoration page => Sys2Proof.Machine.execDetachRestoration page s
  | .loadCurve curve quarter values => Sys2Proof.Machine.execLoadCurve curve quarter values s
  | .readRestoration page => Sys2Proof.Machine.execReadRestoration page s
  | .commitRestoration page => Sys2Proof.Machine.execCommitRestoration page s
  | .abortCommit => Sys2Proof.Machine.execAbortCommit s
  | .openAccount account => Sys2Proof.Machine.execOpenAccount account s
  | .creditAccount account amount => Sys2Proof.Machine.execCreditAccount account amount s
  | .suspendAccount account => Sys2Proof.Machine.execSuspendAccount account s
  | .resumeAccount account => Sys2Proof.Machine.execResumeAccount account s
  | .setDiscount account t1 t2 d1 d2 => Sys2Proof.Machine.execSetDiscount account t1 t2 d1 d2 s
  | .readAccount account => Sys2Proof.Machine.execReadAccount account s
  | .closeAccount account => Sys2Proof.Machine.execCloseAccount account s
  | .openJob job account ceiling => Sys2Proof.Machine.execOpenJob job account ceiling s
  | .closeJob job => Sys2Proof.Machine.execCloseJob job s
  | .freeJob job => Sys2Proof.Machine.execFreeJob job s
  | .readJob job portion => Sys2Proof.Machine.execReadJob job portion s
  | .setDate day => Sys2Proof.Machine.execSetDate day s
  | .setBands a1 a2 a3 => Sys2Proof.Machine.execSetBands a1 a2 a3 s
  | .setRate rateClass r0 r1 r2 r3 => Sys2Proof.Machine.execSetRate rateClass r0 r1 r2 r3 s
  | .setSurcharge surcharge => Sys2Proof.Machine.execSetSurcharge surcharge s
  | .readTariff rateClass => Sys2Proof.Machine.execReadTariff rateClass s
  | .readCharges most => Sys2Proof.Machine.execReadCharges most s
  | .setLogMode threshold mode => Sys2Proof.Machine.execSetLogMode threshold mode s
  | .setStoreTiming openDelay closeDelay minimumOpen rowCycle writeRecovery turnaround => Sys2Proof.Machine.execSetStoreTiming openDelay closeDelay minimumOpen rowCycle writeRecovery turnaround s
  | .setPagePolicy policy => Sys2Proof.Machine.execSetPagePolicy policy s
  | .setArbiter quietTime agingLimit => Sys2Proof.Machine.execSetArbiter quietTime agingLimit s
  | .readStoreSettings => Sys2Proof.Machine.execReadStoreSettings s
  | .readFaults => Sys2Proof.Machine.execReadFaults s
  | .ackEvents mask => Sys2Proof.Machine.execAckEvents mask s
  | .enableEvents mask => Sys2Proof.Machine.execEnableEvents mask s
  | .enableJobEvents job mask => Sys2Proof.Machine.execEnableJobEvents job mask s
  | .ackJobEvents job mask => Sys2Proof.Machine.execAckJobEvents job mask s
  | .readEvents => Sys2Proof.Machine.execReadEvents s

end Sys2Proof.Machine
end

