-- ==== Sys2Proof/Safety.lean ====
section
/-! DEFINITION. What counts as a safe run: the invariants of the block (`State.Sound` and its parts), and the terms in which
statements about the block are made: when a command is taken, how it is answered, what a reset leaves. -/

namespace Sys2Proof.Machine

/-! ### Terms -/

/-- Command `c` of the management link is taken now: the RESET pin is not held, and `c` is the command in progress or finds
the link IDLE with no transaction under way (R182; assumption 4). -/
def State.Taken (s : State) (c : Instr) : Prop :=
  s.chip.resetPin = false ∧
    (s.management.phase = .taking c ∨ s.management.phase = .idle ∧ s.management.transaction = none)

/-- Command `c` is taken now, and INIT is over, so that its rule answers (R189). -/
def State.Ready (s : State) (c : Instr) : Prop := s.Taken c ∧ s.chip.inInit = false

/-- The management link of `s` once a response has been made ready (R184). -/
def State.answered (s : State) (status : Status) (fields : List Byte) : Management :=
  { s.management with phase := .pending, buffer := responseFrame status fields }

/-- The command was refused: the response says why, and nothing else changed (R185). -/
def State.Refused (s t : State) (status : Status) : Prop := t = { s with management := s.answered status [] }

/-- The command was answered OK and nothing but the account `a` changed. -/
def State.OnlyAccount (s t : State) (a : Nat) : Prop :=
  (∀ b, b ≠ a → t.meter.account b = s.meter.account b) ∧
  t = { s with meter := { s.meter with accounts := t.meter.accounts }, management := s.answered .ok [] }

/-- A write with the key is pending (R16, R17): in the write buffer, in the hold queue, or carried out from the hold queue
with its strip not yet READY. -/
def State.PendingWrite (s : State) (k : Key) : Prop :=
  (∃ w ∈ s.link.writeBuffer, addressKey w.address = k) ∨
  (∃ h ∈ s.store.holdQueue, addressKey h.write.address = k) ∨
  (∃ e ∈ s.store.settling, e.2 = k)

/-- The disposal of `w` is attempted when the command WRITE_DISPOSAL comes: it is at the head of the write buffer, before
`rest`, an attempt is owed, and one of the 64 places for carried writes is free (R21, R153). -/
def State.Attempted (s : State) (w : HostWrite) (rest : List HostWrite) : Prop :=
  s.chip.resetPin = false ∧ s.link.writeBuffer = w :: rest ∧ s.link.attemptDue = true ∧ s.port.carriedCount < 64

/-- The head has left the write buffer (R3, R17, R21): `rest` remains, the credit returns while the link is up, the next
attempt falls due, and each WAITING read behind no pending write is ready to be decoded. -/
def State.HeadLeft (s t : State) (rest : List HostWrite) : Prop :=
  t.link = { s.link with
    writeBuffer := rest, attemptDue := true, tags := t.link.tags
    writeCredits := if s.link.linkUp then s.link.writeCredits + 1 else s.link.writeCredits } ∧
  ∀ u, ((s.link.tag u).state = .waiting ∧ ¬ t.PendingWrite (addressKey (s.link.tag u).address) →
      t.link.tag u = { s.link.tag u with state := .decoding }) ∧
    (¬ ((s.link.tag u).state = .waiting ∧ ¬ t.PendingWrite (addressKey (s.link.tag u).address)) →
      t.link.tag u = s.link.tag u)

/-- The head was dropped with a fault of this kind, with the fields of R61. -/
def State.Dropped (s t : State) (w : HostWrite) (rest : List HostWrite) (kind : FaultKind) : Prop :=
  s.HeadLeft t rest ∧
  t.reports = s.reports.offer
    { kind := kind, aperture := addressAperture w.address, page := (addressKey w.address).page
      strip := (addressKey w.address).strip, line := (addressKey w.address).line
      edition := s.store.edition.number, repeats := 1 } ∧
  t = { s with link := t.link, reports := t.reports }

/-- The write passes the first four checks (R56) through an aperture of that kind: an EDITION write to a LIVE page while an
edition is OPEN, or a LOAD write to a LOADING page. -/
def State.Passes (s : State) (w : HostWrite) (kind : ApertureKind) : Prop :=
  (s.aperture (addressAperture w.address)).state = .enabled ∧ (s.aperture (addressAperture w.address)).kind = kind ∧
  ((kind = .edition ∧ (∃ n, s.store.edition = .opened n) ∧ (s.store.page (addressKey w.address).page).state = .live) ∨
    (kind = .load ∧ (s.store.page (addressKey w.address).page).state = .loading))

/-- No OPEN head of the page holds the strip index: a write to it needs a fresh strip (R57, R58). -/
def State.NeedsFresh (s : State) (k : Key) : Prop :=
  ∀ v, s.store.head k.page = some v → v.lock = .openLock → Table.read v.delta k.strip = none

/-- The order of the engine-side queue (R154): before the request of a slot stand only requests of slots that do not come
after it in the start order. So the sequencer's is the head only when no slot has one. -/
def RequestsOrdered (order : List (Fin 4)) (queue : List Access) : Prop :=
  queue.Pairwise fun x y => ∀ j, y.engine = some (.slot j) →
    ∃ i, x.engine = some (.slot i) ∧ order.idxOf i ≤ order.idxOf j

/-- The engine's request has joined the engine-side queue at its place, and the aging clock has started if the queue was
empty with no engine segment in progress (R154, R157). -/
def State.Requested (s t : State) (a : Access) : Prop :=
  t.port = { s.port with
    engineQueue := insertRequest s.store.startOrder a s.port.engineQueue
    aging := if s.port.engineQueue = [] ∧ s.port.issueList.any Access.isSegment = false then .running s.chip.now
      else s.port.aging }

/-- The access has been issued (R155, R159): it stands at the tail of the issue list, and a close of its bank made due by
the end of a transfer, but not one made due by SET PAGE POLICY, is cancelled when the bank is OPEN at its row and no access
for another row stands at the front of the bank's wait list (R160, R164). The queues and timers are said beside it. -/
def Port.Issued (p q : Port) (a : Access) : Prop :=
  q = { p with
    issueList := p.issueList ++ [a], banks := q.banks, linkQueue := q.linkQueue, engineQueue := q.engineQueue
    quiet := q.quiet, aging := q.aging, lastIssueEngine := q.lastIssueEngine } ∧
  (∀ b, b ≠ a.bank → q.bank b = p.bank b) ∧
  ((p.bank a.bank).closeDue = .byTransfer ∧ (p.bank a.bank).state = .opened a.strip ∧
      (∀ c rest, p.waitList a.bank = c :: rest → c.strip = a.strip) →
    q.bank a.bank = { p.bank a.bank with closeDue := .none }) ∧
  (¬ ((p.bank a.bank).closeDue = .byTransfer ∧ (p.bank a.bank).state = .opened a.strip ∧
      (∀ c rest, p.waitList a.bank = c :: rest → c.strip = a.strip)) →
    q.bank a.bank = p.bank a.bank)

/-- Version `v`, held in record `n`, is considered by a view with selector `e`, where `none` is LATEST, and prefer-restored
flag `p`, and its delta list holds strip index `index` as the store strip `strip` (R32). -/
def ViewHolds (versions : Table Version) (e : Option Nat) (p : Bool) (index n : Nat) (v : Version) (strip : Nat) : Prop :=
  Table.read versions n = some v ∧ Table.read v.delta index = some strip ∧ (v.origin = .restored → p = true) ∧
  ∀ m, e = some m → v.edition ≤ m

/-- The command decodes a REPRINT read that its metering decision charges (R19, R120, R123). -/
def State.Charges (s : State) (c : Instr) : Prop :=
  ∃ tag ap charge, c = .readDecode tag ∧ (s.link.tag tag).state = .decoding ∧ s.chip.inInit = false ∧
    ap = s.aperture (addressAperture (s.link.tag tag).address) ∧ ap.state = .enabled ∧ ap.kind = .reprint ∧
    s.meterDecision ap.restored ap.job (addressKey (s.link.tag tag).address).page = .charged charge

/-- The read that holds the tag is answered: its entry is READY with the answer, last in the order of R4, and no other
entry of the link interface changes. -/
def Link.Answered (l m : Link) (tag : Fin 32) (a : Answer) : Prop :=
  m = { l with tags := m.tags, readyOrder := l.readyOrder ++ [[tag]] } ∧
  m.tag tag = { l.tag tag with state := .ready, answer := some a } ∧ ∀ u, u ≠ tag → m.tag u = l.tag u

/-- The read that holds the tag is queued at the store port for a store strip and line (R19): its entry is QUEUED, the
access stands at the tail of the link-side queue, and the quiet timer is cancelled (R156). -/
def State.Queued (s t : State) (tag : Fin 32) (strip line : Nat) (eligible : Bool) : Prop :=
  t.link = { s.link with tags := t.link.tags } ∧ t.link.tag tag = { s.link.tag tag with state := .queued } ∧
  (∀ u, u ≠ tag → t.link.tag u = s.link.tag u) ∧
  t.port = { s.port with
    linkQueue := s.port.linkQueue ++ [.lineRead tag strip line eligible false], quiet := .stopped }

/-- All data on its way to the restoration unit in `s` has arrived in `t` (R82, R86, R87): the reads are answered in the order
in which they were carried out, each with note DATA, its bytes transformed with the record that the entry of its page names
now, and as stored when that names none. -/
def State.Arrived (s t : State) : Prop :=
  t = { s with link := t.link, restore := { s.restore with arriving := [] } } ∧
  t.link = { s.link with
    tags := t.link.tags, readyOrder := s.link.readyOrder ++ s.restore.arriving.map fun a => [a.tag] } ∧
  (∀ u, (∀ a ∈ s.restore.arriving, a.tag ≠ u) → t.link.tag u = s.link.tag u) ∧
  ∀ front a back k, s.restore.arriving = front ++ a :: back → (∀ c ∈ back, c.tag ≠ a.tag) →
    k = addressKey (s.link.tag a.tag).address →
    ∃ bytes, t.link.tag a.tag = { s.link.tag a.tag with state := .ready, answer := some ⟨.data, bytes⟩ } ∧
      ((s.store.page k.page).record = none → bytes = a.bytes) ∧
      (∀ n r, (s.store.page k.page).record = some n → Table.read s.restore.records n = some r →
        bytes.length = a.bytes.length ∧ ∀ i b, a.bytes[i]? = some b →
          bytes[i]? = some (s.restore.transformByte r (k.strip * 65536 + k.line * 64 + i) b))

/-- `i` is the first strip index from the sequencer's cursor on that resolves in its snapshot (R93, R94). -/
def State.NextResolves (s : State) (i : Nat) : Prop :=
  s.restore.sequencer.cursor ≤ i ∧ i < 512 ∧
  s.store.resolveFrom s.restore.sequencer.page s.restore.sequencer.snapshot i ≠ none ∧
  ∀ j, s.restore.sequencer.cursor ≤ j → j < i →
    s.store.resolveFrom s.restore.sequencer.page s.restore.sequencer.snapshot j = none

/-- The sequencer's examination has fallen due in `s` (R94, R95, R100). With nothing left that resolves it is made at once, and
the commit completes. Else the cursor goes on to the next strip index that resolves, at once, and the allocation there is
made at once or, where the free choice puts it off, is still owed: `t` says which, for either value of the choice, and
the occasion is counted (assumptions 28, 36). -/
def State.ExaminationDue (s t : State) : Prop :=
  ((∀ i, ¬ s.NextResolves i) → t = s.examine) ∧
  ∀ i, s.NextResolves i → ∃ u : State,
    u = { s with restore := { s.restore with
      sequencer := { s.restore.sequencer with cursor := i }, occasions := s.restore.occasions + 1 } } ∧
    if Config.restorationFallsLater s.restore.occasions then t = u else t = u.examine

/-- The sequencer owes an allocation: it is RUNNING with no strip in progress, and a strip index is left that resolves. -/
def State.OwesStrip (s : State) : Prop :=
  s.restore.sequencer.state = .running ∧ s.restore.sequencer.inProgress = false ∧ ∃ i, s.NextResolves i

/-- Version `v`, held in record `n`, has been released: its strips are FREE and stand at the tail of the free strip queue in
delta list order, and its record is free (R27, R29, R47). -/
def Store.Released (st su : Store) (n : Nat) (v : Version) : Prop :=
  su.freeQueue = st.freeQueue ++ v.delta.map Prod.snd ∧
  (∀ i, i ∈ v.delta.map Prod.snd → Table.read su.strips i = none) ∧
  (∀ i, i ∉ v.delta.map Prod.snd → Table.read su.strips i = Table.read st.strips i) ∧
  Table.read su.versions n = none ∧ ∀ m, m ≠ n → Table.read su.versions m = Table.read st.versions m

/-- The abort of the commit in progress has ended (R102): its building version is released, the page's commit flag clear,
the sequencer IDLE with its outcome ABORTED, and COMMIT DONE set. -/
def State.AbortEnded (s t : State) : Prop :=
  (∀ v, Table.read s.store.versions s.restore.sequencer.building = some v →
    s.store.Released t.store s.restore.sequencer.building v) ∧
  t.store.page s.restore.sequencer.page =
    { s.store.page s.restore.sequencer.page with building := none, committing := false } ∧
  (∀ p, p ≠ s.restore.sequencer.page → t.store.page p = s.store.page p) ∧
  t.store = { s.store with
    pages := t.store.pages, versions := t.store.versions, strips := t.store.strips, freeQueue := t.store.freeQueue } ∧
  t.restore = { s.restore with sequencer := { outcome := .aborted s.restore.sequencer.page } } ∧
  t.reports = { s.reports with statuses := { s.reports.statuses with commitDone := true } }

/-- A copy slot copies into a strip of an OPEN EDITION version (R54). -/
def Store.EditionCopies (st : Store) : Prop :=
  ∃ c ∈ st.copies, ∃ e v, Table.read st.strips c.2.target = some e ∧ Table.read st.versions e.owner = some v ∧
    v.lock = .openLock ∧ v.origin = .edition

/-- The end of CLOSING has been tested in `s` (R54): with no copy in flight into a strip of an OPEN EDITION version, those
versions are LOCKED, the state is NONE and EDITION CLOSED is set; in any other case nothing changes. -/
def State.ClosingTested (s t : State) : Prop :=
  (∀ n, s.store.edition = .closing n → ¬ s.store.EditionCopies →
    (∀ i, Table.read t.store.versions i = (Table.read s.store.versions i).map fun v =>
      if v.lock = .openLock ∧ v.origin = .edition then { v with lock := .locked } else v) ∧
    t = { s with
      store := { s.store with edition := .none, versions := t.store.versions }
      reports := { s.reports with statuses := { s.reports.statuses with editionClosed := true } } }) ∧
  ((∀ n, s.store.edition ≠ .closing n) ∨ s.store.EditionCopies → t = s)

/-- The test of the end of CLOSING has fallen due in `s`: it is made at once, or, where the free choice puts it off, later.
Either way the occasion is counted (R65; assumption 38). -/
def State.ClosingTestDue (s t : State) : Prop :=
  ∃ u : State, u = { s with store := { s.store with closingTests := s.store.closingTests + 1 } } ∧
    if Config.closingTestFallsLater s.store.closingTests then t = u else u.ClosingTested t

/-- Every table stands at its reset values, those that power-on and engine reset have in common (R10, R24, R27, R46, R47,
R51, R62, R66, R71, R74, R89, R105, R113, R127, R130, R132, R133, R145, R170, R174, R177). -/
structure State.Cleared (t : State) : Prop where
  apertures : ∀ a, t.aperture a = ⟨.disabled, .edition, none, false, 0, 224⟩
  pages : ∀ p, t.store.page p = ⟨.absent, .page, 0, 0, 0, none, [], none, none, 0, false, 0⟩
  versions : ∀ n, Table.read t.store.versions n = none
  strips : ∀ n, Table.read t.store.strips n = none
  freeQueue : t.store.freeQueue = []
  edition : t.store.edition = .none ∧ t.store.lastEdition = 0
  copies : (∀ k, Table.read t.store.copies k = none) ∧ t.store.startOrder = []
  holdQueue : t.store.holdQueue = [] ∧ t.store.settling = []
  records : ∀ n, Table.read t.restore.records n = none
  curves : ∀ c i, i < 256 → t.restore.curveEntry c i = BitVec.ofNat 8 i
  sequencer : t.restore.sequencer.state = .idle ∧ t.restore.sequencer.outcome = .none
  arriving : t.restore.arriving = []
  accounts : ∀ a, t.meter.account a = ⟨.closed, 0, 0, 0, 64, 128, 0, 0, 0⟩
  jobs : ∀ j, t.meter.job j = ⟨.free, 0, 0, 0, [], 0, .none, 0⟩
  date : t.meter.date = 0
  bands : t.meter.bands = ⟨1, 25, 75⟩
  rates : ∀ c b, t.meter.rate c b = 65535
  surcharge : t.meter.surcharge = 0
  logMode : t.log.threshold = 1 ∧ t.log.mode = .auto
  faults : t.reports.faults = []
  statuses : t.reports.statuses = ⟨false, false, false, false, false, false, false, false, false⟩
  enables : t.reports.enables = ⟨false, false, false, false, false, false, false, false, false, false⟩
  jobEvents : ∀ j, t.reports.jobOf j = ⟨false, false, false, false, false, false⟩

/-- The state right after power-on with `n` store strips: every table cleared, INIT entered, and what R4, R7, R9, R49, R141,
R149, R156, R158, R161, R163, R164, R165 and R182 say of the rest. -/
structure State.PoweredOn (t : State) (n : Nat) : Prop where
  cleared : t.Cleared
  strips : t.chip.strips = n
  init : t.chip.inInit = true ∧ t.chip.resetPin = false
  linkDown : t.link.linkUp = false ∧ t.link.sending = none ∧ t.link.writeBuffer = []
  tags : ∀ u, (t.link.tag u).state = .free
  wrapOrder : t.link.wrapOrder = .sequential
  reserve : t.store.reserve = n / 16
  log : t.log.charges = [] ∧ t.log.nextSequence = 0
  queues : t.port.linkQueue = [] ∧ t.port.engineQueue = [] ∧ t.port.issueList = []
  dataPath : t.port.transferring = false ∧ t.port.lastDirection = none
  banks : ∀ b, (t.port.bank b).state = .idle ∧ (t.port.bank b).lastOpen = none ∧ (t.port.bank b).lastWrite = none
  timers : t.port.quiet = .running t.chip.now ∧ t.port.aging = .stopped
  timing : t.port.timing = ⟨15, 15, 40, 60, 15, 8⟩
  settings : t.port.policy = .keepOpen ∧ t.port.quietTime = 500 ∧ t.port.agingLimit = 50
  management : t.management.phase = .idle ∧ t.management.buffer = [] ∧ t.management.transaction = none
  alert : t.alert = false
  memory : ∀ a, Memory.read t.memory a = none

/-! ### Invariants -/

/-- No bounded collection holds more than its capacity (R2, R66, R73, R119, R141, R152, R155, R170). -/
structure State.Bounded (s : State) : Prop where
  writeBuffer : s.link.writeBuffer.length ≤ 32
  holdQueue : s.store.holdQueue.length ≤ 16
  defects : ∀ n r, Table.read s.restore.records n = some r → r.defects.length ≤ 32
  purchases : ∀ j, (s.meter.job j).purchases.length ≤ 128
  charges : s.log.charges.length ≤ 1024
  carried : s.port.carriedCount ≤ 64
  issueList : s.port.issueList.length ≤ 8
  faults : s.reports.faults.length ≤ 32

/-- Write credits and buffered writes make up the 32 entries of the write buffer while the link is up (R3). -/
def State.CreditsHold (s : State) : Prop :=
  s.link.writeBuffer.length ≤ 32 ∧ (s.link.linkUp = true → s.link.writeCredits + s.link.writeBuffer.length = 32)

/-- While the archive link is down every tag is FREE, no READ DATA is being sent or waits, none is on its way to the
restoration unit, and the bytes of every line read still at the store port will be discarded (R8, R9, R167). -/
def State.DownQuiet (s : State) : Prop :=
  s.link.linkUp = false →
    s.link.tags = [] ∧ s.link.readyOrder = [] ∧ s.link.sending = none ∧ s.restore.arriving = [] ∧
    (∀ a ∈ s.port.linkQueue, a.isRead = false) ∧
    ∀ a ∈ s.port.issueList, a.isRead = true → ∃ t r l e, a = .lineRead t r l e true

/-- In every account balance + charged total = credited total, and each keeps its range (R105). -/
def State.Solvent (s : State) : Prop :=
  ∀ a, (s.meter.account a).balance + (s.meter.account a).charged = (s.meter.account a).credited ∧
    (s.meter.account a).balance ≤ 4294967295 ∧ (s.meter.account a).credited < 2 ^ 64

/-- Every job's charged set is kept as R119 says: no page twice, ordinals 1, 2, 3 and so on in set order, and a total that
is the sum of its fees and does not exceed the ceiling. -/
def State.SetsKept (s : State) : Prop :=
  ∀ j, ((s.meter.job j).purchases.map Purchase.page).Nodup ∧
    (∀ i e, (s.meter.job j).purchases[i]? = some e → e.ordinal = i + 1) ∧
    (s.meter.job j).total = ((s.meter.job j).purchases.map Purchase.fee).sum ∧
    (s.meter.job j).total ≤ (s.meter.job j).ceiling

/-- With k records in the log and next sequence number S, they carry S − k to S − 1 modulo 2^32, oldest first (R141). -/
def State.Numbered (s : State) : Prop :=
  ∀ i r, s.log.charges[i]? = some r →
    r.sequence = s.log.nextSequence - BitVec.ofNat 32 (s.log.charges.length - i)

/-- The open or closing edition is the one most recently opened (R51). -/
def State.EditionKept (s : State) : Prop :=
  s.store.lastEdition ≤ 16777215 ∧
    match s.store.edition with
    | .none => True
    | .opened n => 1 ≤ n ∧ n = s.store.lastEdition
    | .closing n => 1 ≤ n ∧ n = s.store.lastEdition

/-- Every setting stands in its range (R49, R110, R127, R130, R132, R133, R144, R163, R165). -/
structure State.SettingsInRange (s : State) : Prop where
  reserve : s.store.reserve ≤ s.chip.strips / 2
  discounts : ∀ a, 1 ≤ (s.meter.account a).t1 ∧ (s.meter.account a).t1 < (s.meter.account a).t2 ∧
    (s.meter.account a).t2 ≤ 128 ∧ (s.meter.account a).d1 ≤ 100 ∧ (s.meter.account a).d2 ≤ 100
  date : s.meter.date ≤ 131071
  bands : s.meter.bands.a1 < s.meter.bands.a2 ∧ s.meter.bands.a2 < s.meter.bands.a3 ∧ s.meter.bands.a3 ≤ 255
  rates : ∀ c b, s.meter.rate c b ≤ 65535
  surcharge : s.meter.surcharge ≤ 100
  threshold : 1 ≤ s.log.threshold ∧ s.log.threshold ≤ 1024
  quietTime : s.port.quietTime ≤ 10000
  agingLimit : 1 ≤ s.port.agingLimit ∧ s.port.agingLimit ≤ 1000
  timing : 5 ≤ s.port.timing.openDelay ∧ s.port.timing.openDelay ≤ 100 ∧
    5 ≤ s.port.timing.closeDelay ∧ s.port.timing.closeDelay ≤ 100 ∧
    10 ≤ s.port.timing.minimumOpen ∧ s.port.timing.minimumOpen ≤ 200 ∧
    s.port.timing.minimumOpen + s.port.timing.closeDelay ≤ s.port.timing.rowCycle ∧ s.port.timing.rowCycle ≤ 300 ∧
    5 ≤ s.port.timing.writeRecovery ∧ s.port.timing.writeRecovery ≤ 100 ∧
    1 ≤ s.port.timing.turnaround ∧ s.port.timing.turnaround ≤ 50

/-- The chains are well kept (R26, R27, R30, R31, R92): a chain holds no version twice and only its own page's versions, in
use and not BUILDING; a page has at most 16 versions, the building one counted; and while a commit runs its page is
present, is flagged and names the building version, which is a BUILDING RESTORED version of that page. -/
structure State.Chained (s : State) : Prop where
  linked : ∀ p n, n ∈ (s.store.page p).chain →
    ∃ v, Table.read s.store.versions n = some v ∧ v.page = p ∧ v.lock ≠ .building
  nodup : ∀ p, (s.store.page p).chain.Nodup
  short : ∀ p, (s.store.page p).versionCount ≤ 16
  building : s.restore.sequencer.state ≠ .idle →
    (s.store.page s.restore.sequencer.page).state ≠ .absent ∧
    (s.store.page s.restore.sequencer.page).committing = true ∧
    (s.store.page s.restore.sequencer.page).building = some s.restore.sequencer.building ∧
    ∃ v, Table.read s.store.versions s.restore.sequencer.building = some v ∧
      v.page = s.restore.sequencer.page ∧ v.lock = .building ∧ v.origin = .restored

/-- The store strips are well kept. Every entry of the strip table that is not FREE names a version in use whose delta list
holds the strip at the entry's index, and every strip of a delta list has such an entry; the free strip queue holds no
number twice and FREE strips alone; and outside INIT every strip is in the queue or has an entry, so it is once in the
queue or in exactly one delta list (R29, R46, R47). In INIT the queue holds the strip numbers appended so far, every
strip is FREE, every aperture DISABLED and the sequencer IDLE (R23, R48, R192). -/
structure State.StripsKept (s : State) : Prop where
  size : ∃ pins, s.chip.strips = Config.stripsOfPins pins
  queue : s.store.freeQueue.Nodup
  free : ∀ n ∈ s.store.freeQueue, n < s.chip.strips ∧ Table.read s.store.strips n = none
  owned : ∀ n e, Table.read s.store.strips n = some e → n < s.chip.strips ∧
    ∃ v, Table.read s.store.versions e.owner = some v ∧ Table.read v.delta e.index = some n
  listed : ∀ m v i n, Table.read s.store.versions m = some v → Table.read v.delta i = some n →
    ∃ e, Table.read s.store.strips n = some e ∧ e.owner = m ∧ e.index = i
  ascending : ∀ m v, Table.read s.store.versions m = some v → Table.wf v.delta
  whole : s.chip.inInit = false → ∀ n, n < s.chip.strips → n ∈ s.store.freeQueue ∨ Table.has s.store.strips n = true
  init : s.chip.inInit = true →
    s.store.freeQueue = List.range s.store.freeQueue.length ∧ s.store.freeQueue.length < s.chip.strips ∧
    (∀ n, Table.read s.store.strips n = none) ∧ (∀ a, (s.aperture a).state = .disabled) ∧
    s.restore.sequencer.state = .idle

/-- The commit sequencer goes forward only: of the strip indices from its cursor on, the building version holds at most the
cursor, and that only with its strip in progress; a WAITING sequencer has no strip in progress (R94, R96, R99). -/
structure State.CursorKept (s : State) : Prop where
  ahead : s.restore.sequencer.state ≠ .idle → ∀ v i,
    Table.read s.store.versions s.restore.sequencer.building = some v → s.restore.sequencer.cursor ≤ i →
    Table.has v.delta i = true → i = s.restore.sequencer.cursor ∧ s.restore.sequencer.inProgress = true
  waiting : s.restore.sequencer.state = .waiting → s.restore.sequencer.inProgress = false

/-- The counters of the directory are right (R24, R26, R119): a page's pin count is the number of jobs whose charged set holds
it, its copies in flight that of the copy slots at work for it, its commit flag is set only while the sequencer commits
it, and the entry of an ABSENT page holds the values of R24. -/
structure State.PagesKept (s : State) : Prop where
  absent : ∀ p, (s.store.page p).state = .absent → s.store.page p = {}
  pins : ∀ p, (s.store.page p).pins =
    (List.range 64).countP fun j => (s.meter.job j).purchases.any fun e => e.page == p
  copies : ∀ p, (s.store.page p).copies =
    (List.range 4).countP fun k => (Table.read s.store.copies k).any fun c => c.page == p
  flag : ∀ p, (s.store.page p).committing = true → s.restore.sequencer.state ≠ .idle ∧ s.restore.sequencer.page = p

/-- An account's job count is the number of the jobs, not FREE, that name it, and a CLOSED account has none; a FREE job has an
empty charged set, and no job has a number above 63 (R105, R111, R113). -/
structure State.JobsKept (s : State) : Prop where
  counted : ∀ a, (s.meter.account a).jobs =
    (List.range 64).countP fun j => (s.meter.job j).state != .free && (s.meter.job j).account == a
  closed : ∀ a, (s.meter.account a).state = .closed → (s.meter.account a).jobs = 0
  free : ∀ j, (s.meter.job j).state = .free → (s.meter.job j).purchases = []
  numbered : ∀ j, 64 ≤ j → (s.meter.job j).state = .free

/-- The response buffer holds a response frame in phase PENDING and nothing in any other, and a transaction that began in
phase IDLE sees that phase to its end (R182, R184). -/
def State.ResponseKept (s : State) : Prop :=
  (s.management.phase = .pending → ∃ status fields, s.management.buffer = responseFrame status fields) ∧
  (s.management.phase ≠ .pending → s.management.buffer = []) ∧
  ∀ t, s.management.transaction = some t → t.phase = .idle → s.management.phase = .idle

/-- The block's state is sound: every invariant above holds, the engine-side queue holds segment requests only (R154), and the
store's memory keeps its form. -/
structure State.Sound (s : State) : Prop where
  memory : Memory.wf s.memory
  bounded : s.Bounded
  credits : s.CreditsHold
  engineQueue : ∀ a ∈ s.port.engineQueue, a.isSegment = true
  down : s.DownQuiet
  solvent : s.Solvent
  sets : s.SetsKept
  jobs : s.JobsKept
  numbered : s.Numbered
  edition : s.EditionKept
  settings : s.SettingsInRange
  chained : s.Chained
  strips : s.StripsKept
  cursor : s.CursorKept
  pages : s.PagesKept
  response : s.ResponseKept

/-- Run commands one after another with no queue between; `none` where one stops. -/
def runAll (commands : List Instr) (s : State) : Option State :=
  match commands with
  | [] => some s
  | c :: rest =>
    match exec c s with
    | .next t => runAll rest t
    | _ => none

end Sys2Proof.Machine
end

