-- ==== Sys2Proof/WellFormed.lean ====
section
/-! DEFINITION. When a command can be sent at all: a LINE WRITE carries 64 bytes (§1.1), and each field of a management
command fits the bytes that the encoding rule of R194 and the command index (§11.5) give it. A rule's own range checks are
not made here: they are the rule's meaning. -/

namespace Sys2Proof

/-- `v` fits a field of one byte. -/
abbrev fits1 (v : Nat) : Bool := v < 256
/-- `v` fits a field of two bytes. -/
abbrev fits2 (v : Nat) : Bool := v < 65536
/-- `v` fits a field of three bytes. -/
abbrev fits3 (v : Nat) : Bool := v < 16777216
/-- `v` fits a field of four bytes. -/
abbrev fits4 (v : Nat) : Bool := v < 4294967296

/-- The command can be carried by its link: every operand fits the bytes that carry it. -/
def Instr.wellFormed : Instr → Bool
  | .powerOn _ => true
  | .resetPinAssert => true
  | .initBuildAppend => true
  | .lineRead _ _ _ => true
  | .lineWrite _ data _ => data.length == 64
  | .readDecode _ => true
  | .writeDisposal => true
  | .archiveLinkDown => true
  | .archiveLinkUp => true
  | .readDataStart _ => true
  | .readDataEnd => true
  | .copySegmentIssue _ => true
  | .commitSegmentIssue => true
  | .arbiterIssue => true
  | .quietTimerExpiry => true
  | .agingClockExpiry => true
  | .bankOpenStart _ => true
  | .rowCycleExpiry _ => true
  | .openDelayExpiry _ => true
  | .bankCloseStart _ => true
  | .minimumOpenExpiry _ => true
  | .writeRecoveryExpiry _ => true
  | .closeDelayExpiry _ => true
  | .turnaroundExpiry => true
  | .transferStart => true
  | .transferEnd => true
  | .managementTransactionStart _ => true
  | .commandFrame _ => true
  | .responseTransaction _ => true
  | .otherTransaction _ => true
  | .identify => true
  | .readStatus => true
  | .resetEngine => true
  | .setLinkOrder o => fits1 o
  | .setAperture a st k sel r j f => fits1 a && fits1 st && fits1 k && fits3 sel && fits1 r && fits1 j && fits1 f
  | .readAperture a => fits1 a
  | .createPage p k c d e l => fits2 p && fits1 k && fits1 c && fits3 d && fits3 e && fits1 l
  | .finishLoad p => fits2 p
  | .setEmbargo p d => fits2 p && fits3 d
  | .setRateClass p c => fits2 p && fits1 c
  | .discardVersion p v => fits2 p && fits2 v
  | .retirePage p => fits2 p
  | .readPage p => fits2 p
  | .setStoreReserve r => fits3 r
  | .openEdition n => fits3 n
  | .closeEdition => true
  | .writeRestoration p w pt h k wt c =>
      fits2 p && fits3 w && fits3 pt && fits3 h && fits1 k && fits1 wt && fits1 c
  | .addDefect p x0 y0 x1 y1 f => fits2 p && fits2 x0 && fits3 y0 && fits2 x1 && fits3 y1 && fits1 f
  | .clearDefects p => fits2 p
  | .detachRestoration p => fits2 p
  | .loadCurve c q vs => fits1 c && fits1 q && fits1 vs.length
  | .readRestoration p => fits2 p
  | .commitRestoration p => fits2 p
  | .abortCommit => true
  | .openAccount a => fits1 a
  | .creditAccount a n => fits1 a && fits4 n
  | .suspendAccount a => fits1 a
  | .resumeAccount a => fits1 a
  | .setDiscount a t1 t2 d1 d2 => fits1 a && fits1 t1 && fits1 t2 && fits1 d1 && fits1 d2
  | .readAccount a => fits1 a
  | .closeAccount a => fits1 a
  | .openJob j a c => fits1 j && fits1 a && fits4 c
  | .closeJob j => fits1 j
  | .freeJob j => fits1 j
  | .readJob j p => fits1 j && fits1 p
  | .setDate d => fits3 d
  | .setBands a1 a2 a3 => fits1 a1 && fits1 a2 && fits1 a3
  | .setRate c r0 r1 r2 r3 => fits1 c && fits2 r0 && fits2 r1 && fits2 r2 && fits2 r3
  | .setSurcharge s => fits2 s
  | .readTariff c => fits1 c
  | .readCharges k => fits1 k
  | .setLogMode t m => fits2 t && fits1 m
  | .setStoreTiming a b c d e f => fits2 a && fits2 b && fits2 c && fits2 d && fits2 e && fits2 f
  | .setPagePolicy p => fits1 p
  | .setArbiter q a => fits2 q && fits2 a
  | .readStoreSettings => true
  | .readFaults => true
  | .ackEvents m => fits2 m
  | .enableEvents m => fits2 m
  | .enableJobEvents j m => fits1 j && fits1 m
  | .ackJobEvents j m => fits1 j && fits1 m
  | .readEvents => true

end Sys2Proof
end

