-- ==== Sys2Proof/Certificates/Slice0/Obligations.lean ====
section
/-! DEFINITION. The statements about the block, for the provers. Each docstring names the rules of spec/ it rests on; where a
clause rests on the model's own choice it names the assumption. A next state written `{ s with a := t.a, … }` differs from
`s` in the named blocks at most: that is the command's frame. -/

open Sys2Proof Sys2Proof.Machine

/-! ### The step -/

/-- A step takes the command at the front of the queue and runs it with the queue's rest. -/
def Obligations.StepRunsFrontCommand : Prop :=
  ∀ (c : Instr) (rest : List Instr) (s : State), step (s.setPending (c :: rest)) = exec c (s.setPending rest)

/-- Every command completes, in every state, and leaves the queue alone: a dropped write and a refused command are state
and stop nothing (R61, R185). On an empty queue the block idles while one nanosecond passes (the model's choice,
assumption 1). -/
def Obligations.EveryStepCompletes : Prop :=
  ∀ s : State, (∀ c : Instr, ∃ t, exec c s = .next t ∧ t.pending = s.pending) ∧
    (s.pending = [] → step s = .next { s with chip := { s.chip with now := s.chip.now + 1 } })

/-! ### Power, reset and INIT (R48, R149, R182) -/

/-- POWER_ON fixes N by the pins, enters INIT and sets every table, queue, counter and setting to its power-on value. The
state after reset is that state. The model's choices in it: the pins read 0 at reset (assumption 5), the clock runs on
(assumption 1), the count of power-ons rises by one and no byte of the store is listed (assumption 7), and the command
queue is empty (assumption 29). -/
def Obligations.PowerOnValues : Prop :=
  (∀ (pins : Fin 4) (s : State), ∃ t, exec (.powerOn pins) s = .next t ∧ t.PoweredOn (32768 * 2 ^ pins.val) ∧
    t.chip.now = s.chip.now ∧ t.chip.powerOns = s.chip.powerOns + 1) ∧
  State.reset.PoweredOn 32768 ∧ State.reset.pending = []

/-- RESET_PIN_ASSERT clears every status and enable, device and per-job, abandons the transaction in progress and
deasserts ALERT (R180, R182), in every state. While the pin is held every transaction shifts out zero bytes (R182), and no
command but POWER_ON and RESET_PIN_ASSERT changes more than the bytes shifted out and the transaction in progress. That
the rest of the part stands meanwhile is the model's choice (assumption 6). -/
def Obligations.ResetPinHeld : Prop :=
  ∀ s : State,
    (∃ t, exec .resetPinAssert s = .next t ∧ t.chip.resetPin = true ∧ t.alert = false ∧
      t.reports.statuses = ⟨false, false, false, false, false, false, false, false, false⟩ ∧
      t.reports.enables = ⟨false, false, false, false, false, false, false, false, false, false⟩ ∧
      (∀ j, t.reports.jobOf j = ⟨false, false, false, false, false, false⟩) ∧
      t = { s with
        chip := { s.chip with resetPin := true }, management := { s.management with transaction := none }
        reports := { s.reports with
          statuses := t.reports.statuses, enables := t.reports.enables, jobEvents := t.reports.jobEvents } }) ∧
    (s.chip.resetPin = true → ∀ c : Instr, (∀ pins, c ≠ .powerOn pins) → c ≠ .resetPinAssert → ∃ t, exec c s = .next t ∧
      t = { s with management := {
        s.management with transaction := t.management.transaction, shiftOut := t.management.shiftOut } } ∧
      ((∃ d, c = .managementTransactionStart d) → t.management.shiftOut = [0]) ∧
      (∀ bytes, c = .commandFrame bytes → t.management.shiftOut = 0 :: List.replicate bytes.length 0) ∧
      (∀ n, c = .responseTransaction n ∨ c = .otherTransaction n →
        t.management.shiftOut = 0 :: List.replicate n 0))

/-- One append of INIT's build, with its frame and its end; outside INIT there is nothing to append. From power-on with N
strips, k appends leave the strips 0 to k − 1 in the free strip queue, in order; INIT ends, and INIT DONE is set, with
the Nth and not before (R48). -/
def Obligations.InitBuildsQueue : Prop :=
  (∀ s : State, s.chip.resetPin = false →
    (s.chip.inInit = false → exec .initBuildAppend s = .next s) ∧
    (s.chip.inInit = true → ∃ t, exec .initBuildAppend s = .next t ∧
      t.store = { s.store with freeQueue := s.store.freeQueue ++ [s.store.freeQueue.length] } ∧
      if s.store.freeQueue.length + 1 < s.chip.strips then t = { s with store := t.store }
      else t = { s with
        chip := { s.chip with inInit := false }, store := t.store
        reports := { s.reports with statuses := { s.reports.statuses with initDone := true } } })) ∧
  (∀ (pins : Fin 4) (now k : Nat), 1 ≤ k → k ≤ 32768 * 2 ^ pins.val →
    ∃ t, runAll (List.replicate k .initBuildAppend) (State.powerOn (32768 * 2 ^ pins.val) now 0) = some t ∧
      t.store.freeQueue = List.range k ∧
      t.chip.inInit = decide (k < 32768 * 2 ^ pins.val) ∧
      t.reports.statuses.initDone = decide (k = 32768 * 2 ^ pins.val) ∧ t.reports.statuses.storeLow = false)

/-! ### The archive link (R1 to R9) -/

/-- The split of an address (R15): the four parts, and each in its range. The place of a line in the store (R150): its bank,
its row position among 128, both of which determine it, and a segment's four lines in one bank at consecutive positions;
an access lies in the bank of its line. -/
def Obligations.AddressSplit : Prop :=
  (∀ line : Nat, line < 1024 →
    bankOf line = line / 4 % 8 ∧ bankOf line < 8 ∧ rowPositionOf line = line / 32 * 4 + line % 4 ∧
    rowPositionOf line < 128 ∧
    (∀ other, other < 1024 → bankOf other = bankOf line → rowPositionOf other = rowPositionOf line → other = line) ∧
    (∀ i, line % 4 = 0 → i < 4 →
      bankOf (line + i) = bankOf line ∧ rowPositionOf (line + i) = rowPositionOf line + i)) ∧
  (∀ a : Access, a.bank = bankOf a.line) ∧
  ∀ a : Address,
    addressAperture a = a.toNat / 2 ^ 41 ∧ addressAperture a < 16 ∧
    (addressKey a).page = a.toNat % 2 ^ 41 / 2 ^ 25 ∧ (addressKey a).page < 65536 ∧
    (addressKey a).strip = a.toNat % 2 ^ 25 / 2 ^ 16 ∧ (addressKey a).strip < 512 ∧
    (addressKey a).line = a.toNat % 2 ^ 16 / 64 ∧ (addressKey a).line < 1024 ∧
    a.toNat = addressAperture a * 2 ^ 41 + (addressKey a).page * 2 ^ 25 + (addressKey a).strip * 2 ^ 16 +
      (addressKey a).line * 64 + a.toNat % 64

/-- LINE_READ (R1, R16): a FREE tag takes the read, WAITING exactly when a write with its key is pending; a tag in use
takes the link down; while the link is down the request is not seen (R9). The model's choices: the state DECODING
(assumption 8), a carried-out held write of a strip still FILLING counts as pending (assumption 9), and each request
spends a credit of the sender's count (assumption 22). LINE_WRITE (R2): appended at the tail while an entry is free, and
attempted at once when it is the new head (R21); with all 32 in use it is discarded and the link goes down. -/
def Obligations.LineRequestsArrive : Prop :=
  (∀ (tag : Fin 32) (address : Address) (beat : Fin 8) (s : State), s.chip.resetPin = false →
     (s.link.linkUp = false → exec (.lineRead tag address beat) s = .next s) ∧
     (s.link.linkUp = true → (s.link.tag tag).state ≠ .free →
       exec (.lineRead tag address beat) s = exec .archiveLinkDown s) ∧
     (s.link.linkUp = true → (s.link.tag tag).state = .free →
       ∃ t, exec (.lineRead tag address beat) s = .next t ∧
         (s.PendingWrite (addressKey address) → t.link.tag tag = ⟨.waiting, address, beat, none⟩) ∧
         (¬ s.PendingWrite (addressKey address) → t.link.tag tag = ⟨.decoding, address, beat, none⟩) ∧
         (∀ u, u ≠ tag → t.link.tag u = s.link.tag u) ∧
         t = { s with link := { s.link with tags := t.link.tags, readCredits := s.link.readCredits - 1 } })) ∧
  (∀ (address : Address) (data : List Byte) (enables : Enables) (s : State), s.chip.resetPin = false →
     (s.link.linkUp = false → exec (.lineWrite address data enables) s = .next s) ∧
     (s.link.linkUp = true → 32 ≤ s.link.writeBuffer.length →
       exec (.lineWrite address data enables) s = exec .archiveLinkDown s) ∧
     (s.link.linkUp = true → s.link.writeBuffer.length < 32 →
       exec (.lineWrite address data enables) s = .next { s with
         link := { s.link with
           writeBuffer := s.link.writeBuffer ++ [⟨address, data, enables⟩]
           attemptDue := s.link.attemptDue || s.link.writeBuffer.isEmpty
           writeCredits := s.link.writeCredits - 1 } }))

/-- ARCHIVE_LINK_DOWN (R8, R167): every tag is FREE, nothing is sent, the buffered writes stay; line reads leave the link-
side queue, those started are carried out with their bytes discarded, data on its way to the restoration unit is
discarded, and the quiet timer starts when the queue is emptied so; nothing else changes but both credit counts, which
are 0 (the model's choice, assumption 22). While the link is down already it changes nothing (assumption 3).
ARCHIVE_LINK_UP (R3, R9): 32 read credits, and a write credit for each free entry of the write buffer. -/
def Obligations.ArchiveLinkGoesDownAndUp : Prop :=
  ∀ s : State, s.chip.resetPin = false →
    (s.link.linkUp = true → ∃ t, exec .archiveLinkDown s = .next t ∧
      t.link = { s.link with
        linkUp := false, tags := [], readyOrder := [], sending := none, readCredits := 0, writeCredits := 0 } ∧
      (∀ u, (t.link.tag u).state = .free) ∧
      t.port.linkQueue = s.port.linkQueue.filter (fun a => !a.isRead) ∧
      t.port.issueList.length = s.port.issueList.length ∧
      (∀ (i : Nat) (a : Access), s.port.issueList[i]? = some a →
        (a.isRead = false → t.port.issueList[i]? = some a) ∧
        (∀ u r l e d, a = .lineRead u r l e d → t.port.issueList[i]? = some (.lineRead u r l e true))) ∧
      (t.port.linkQueue = [] → s.port.linkQueue ≠ [] →
        t.port.quiet = if s.port.quietTime = 0 then .expired else .running s.chip.now) ∧
      (t.port.linkQueue ≠ [] ∨ s.port.linkQueue = [] → t.port.quiet = s.port.quiet) ∧
      t = { s with link := t.link, restore := { s.restore with arriving := [] }, port := { s.port with
        linkQueue := t.port.linkQueue, issueList := t.port.issueList, quiet := t.port.quiet } }) ∧
    (s.link.linkUp = false → exec .archiveLinkDown s = .next s ∧
      exec .archiveLinkUp s = .next { s with
        link := { s.link with linkUp := true, readCredits := 32, writeCredits := 32 - s.link.writeBuffer.length } })

/-- READ_DATA_START (R4, R6): a READY entry of the first group, with the return path free, enters SENDING; its i-th beat
is beat (c + i) mod 8 or beat c XOR i of the line by the wrap order in force. While a READ DATA is being sent, or with
the tag not READY or not first, there is nothing to start. READ_DATA_END (R3): the tag becomes FREE and a read credit
returns. That one of several entries that became READY together is chosen by the command is the model's (assumption
10). -/
def Obligations.ReadDataIsSent : Prop :=
  ∀ (tag : Fin 32) (s : State), s.chip.resetPin = false →
    (∀ (first : List (Fin 32)) (rest : List (List (Fin 32))) (a : Answer),
      s.link.sending = none → s.link.readyOrder = first :: rest → tag ∈ first →
      (s.link.tag tag).state = .ready → (s.link.tag tag).answer = some a →
      ∃ t d, exec (.readDataStart tag) s = .next t ∧ t.link.sending = some d ∧ d.tag = tag ∧ d.note = a.note ∧
        d.beats.length = 8 ∧
        (∀ i, i < 8 → d.beats[i]? = some ((a.bytes.drop (8 *
          (match s.link.wrapOrder with
           | .sequential => ((s.link.tag tag).beat.val + i) % 8
           | .interleaved => (s.link.tag tag).beat.val ^^^ i))).take 8)) ∧
        (t.link.tag tag).state = .sending ∧ (∀ u, u ≠ tag → t.link.tag u = s.link.tag u) ∧
        t.link.readyOrder = (if first.filter (· != tag) = [] then rest else first.filter (· != tag) :: rest) ∧
        t = { s with link := { s.link with
          tags := t.link.tags, readyOrder := t.link.readyOrder, sending := t.link.sending } }) ∧
    (s.link.sending ≠ none ∨ (∀ first ∈ s.link.readyOrder.head?, tag ∉ first) ∨ (s.link.tag tag).state ≠ .ready →
      exec (.readDataStart tag) s = .next s) ∧
    (∀ d, s.link.sending = some d → ∃ t, exec .readDataEnd s = .next t ∧ t.link.tag d.tag = ⟨.free, 0, 0, none⟩ ∧
      (∀ u, u ≠ d.tag → t.link.tag u = s.link.tag u) ∧
      t = { s with link := { s.link with tags := t.link.tags, sending := none, readCredits := s.link.readCredits + 1 } })

/-! ### The decode of a read (R19 to R23) -/

/-- In INIT, or through a DISABLED descriptor, a read is answered UNMAPPED with 64 bytes of 0 (R19 checks 1 and 2, R23).
-/
def Obligations.ReadDecodeUnmapped : Prop :=
  ∀ (tag : Fin 32) (s : State), s.chip.resetPin = false → (s.link.tag tag).state = .decoding →
    s.chip.inInit = true ∨ (s.aperture (addressAperture (s.link.tag tag).address)).state = .disabled →
    ∃ t, exec (.readDecode tag) s = .next t ∧
      s.link.Answered t.link tag ⟨.unmapped, List.replicate 64 0⟩ ∧ t = { s with link := t.link }

/-- The walk (R32): its answer is the first version along the chain that the view considers and that holds the strip index,
and none exactly when there is no such version. A read through an ENABLED aperture, and a REPRINT read that is not
withheld, charged or served without a charge (R120, R123), walks its page's chain under the view of its kind (R19 step
4, R20, R33, R67): BLANK when the walk ends in nothing or at a strip filled from BLANK; otherwise queued for the READY
strip, or for the copy source of a FILLING one, and eligible for the live transform exactly when the view prefers
restored versions and the version found is none. What a charge changes beside that ReadDecodeCharged states. -/
def Obligations.ReadDecodeWalks : Prop :=
  (∀ (versions : Table Version) (e : Option Nat) (p : Bool) (i : Nat) (chain : List Nat),
    (∀ front n back v strip, chain = front ++ n :: back → ViewHolds versions e p i n v strip →
      (∀ m ∈ front, ∀ w r, ¬ ViewHolds versions e p i m w r) →
      walk versions e p i chain = some ⟨n, v.origin, strip⟩) ∧
    (walk versions e p i chain = none ↔ ∀ n ∈ chain, ∀ v strip, ¬ ViewHolds versions e p i n v strip)) ∧
  ∀ (tag : Fin 32) (s : State) (ap : Aperture) (k : Key) (e : Option Nat) (p : Bool),
    s.chip.resetPin = false → (s.link.tag tag).state = .decoding → s.chip.inInit = false →
    ap = s.aperture (addressAperture (s.link.tag tag).address) → ap.state = .enabled →
    k = addressKey (s.link.tag tag).address →
    (match ap.kind with
     | .edition => e = none ∧ p = false
     | .load => e = none ∧ p = false
     | .historic => e = ap.selector ∧ p = false
     | .restored => e = ap.selector ∧ p = true
     | .reprint => e = ap.selector ∧ p = ap.restored ∧
         ∀ reason, s.meterDecision ap.restored ap.job k.page ≠ .withheld reason) →
    ∃ t, exec (.readDecode tag) s = .next t ∧
      (¬ s.Charges (.readDecode tag) → t = { s with link := t.link, port := t.port }) ∧
      match walk s.store.versions e p k.strip (s.store.page k.page).chain with
      | none => s.link.Answered t.link tag ⟨.blank, List.replicate 64 255⟩ ∧ t.port = s.port
      | some hit =>
        (∀ o i, Table.read s.store.strips hit.strip = some ⟨.ready, o, i⟩ →
          s.Queued t tag hit.strip k.line (p && decide (hit.origin ≠ .restored))) ∧
        (∀ j o i c, Table.read s.store.strips hit.strip = some ⟨.filling (.slot j), o, i⟩ →
          Table.read s.store.copies j.val = some c →
          match c.source with
          | none => s.link.Answered t.link tag ⟨.blank, List.replicate 64 255⟩ ∧ t.port = s.port
          | some source => s.Queued t tag source k.line (p && decide (hit.origin ≠ .restored)))

/-- What a REPRINT read is decided: the checks of the metering decision in their order, the first that fails naming the
reason (R120). The embargo holds while its day is at or after the archive date; page `p` in the set is served at once.
-/
def Obligations.MeteringDecisionOrder : Prop :=
  ∀ (s : State) (restored : Bool) (j p : Nat) (job : Job) (account : Account) (page : Page) (f : Nat),
    job = s.meter.job j → account = s.meter.account job.account → page = s.store.page p →
    f = (s.chargeFor restored j p).fee →
    (job.state ≠ .opened → s.meterDecision restored j p = .withheld .jobClosed) ∧
    (job.state = .opened → page.state = .absent → s.meterDecision restored j p = .withheld .noPage) ∧
    (job.state = .opened → page.state ≠ .absent →
      ((∃ e ∈ job.purchases, e.page = p) → s.meterDecision restored j p = .served) ∧
      ((∀ e ∈ job.purchases, e.page ≠ p) →
        ((∃ day, page.embargo = some day ∧ s.meter.date ≤ day) → s.meterDecision restored j p = .withheld .embargo) ∧
        ((∀ day, page.embargo = some day → day < s.meter.date) →
          (account.state = .suspended → s.meterDecision restored j p = .withheld .account) ∧
          (account.state ≠ .suspended →
            (128 ≤ job.purchases.length → s.meterDecision restored j p = .withheld .setFull) ∧
            (job.purchases.length < 128 →
              (job.ceiling < job.total + f → s.meterDecision restored j p = .withheld .ceiling) ∧
              (job.total + f ≤ job.ceiling →
                (account.balance < f → s.meterDecision restored j p = .withheld .balance) ∧
                (f ≤ account.balance →
                  (1024 ≤ s.log.charges.length → s.meterDecision restored j p = .withheld .logFull) ∧
                  (s.log.charges.length < 1024 →
                    s.meterDecision restored j p = .charged (s.chargeFor restored j p)))))))))

/-- A withheld REPRINT read (R122): its job's withheld count rises up to its maximum, the reason is recorded, WITHHELD is
set, and LIMIT for SET FULL and CEILING; it is answered with the aperture's fill byte, and nothing else changes. -/
def Obligations.ReadDecodeWithheld : Prop :=
  ∀ (tag : Fin 32) (s : State) (ap : Aperture) (reason : Reason),
    s.chip.resetPin = false → (s.link.tag tag).state = .decoding → s.chip.inInit = false →
    ap = s.aperture (addressAperture (s.link.tag tag).address) → ap.state = .enabled → ap.kind = .reprint →
    s.meterDecision ap.restored ap.job (addressKey (s.link.tag tag).address).page = .withheld reason →
    ∃ t, exec (.readDecode tag) s = .next t ∧
      s.link.Answered t.link tag ⟨.withheld, List.replicate 64 ap.fill⟩ ∧
      t.meter.job ap.job = { s.meter.job ap.job with
        withheld := min 4294967295 ((s.meter.job ap.job).withheld + 1), reason := reason } ∧
      (∀ i, i ≠ ap.job → t.meter.job i = s.meter.job i) ∧ t.meter = { s.meter with jobs := t.meter.jobs } ∧
      t.reports.jobOf ap.job = { s.reports.jobOf ap.job with
        withheld := true
        limit := (s.reports.jobOf ap.job).limit || decide (reason = .setFull ∨ reason = .ceiling) } ∧
      (∀ i, i ≠ ap.job → t.reports.jobOf i = s.reports.jobOf i) ∧
      t.reports = { s.reports with jobEvents := t.reports.jobEvents } ∧
      t = { s with link := t.link, meter := t.meter, reports := t.reports }

/-- A charged REPRINT read (R123, R142): the account is debited, the page joins the charged set with the next ordinal, is
pinned, a record with the next sequence number joins the log, and CHARGED is set; the read is then answered BLANK or
queued, never withheld, as ReadDecodeWalks states. The frame names everything else that may change. -/
def Obligations.ReadDecodeCharged : Prop :=
  ∀ (tag : Fin 32) (s : State) (ap : Aperture) (p : Nat) (job : Job) (account : Account) (c : Charge),
    s.chip.resetPin = false → (s.link.tag tag).state = .decoding → s.chip.inInit = false →
    ap = s.aperture (addressAperture (s.link.tag tag).address) → ap.state = .enabled → ap.kind = .reprint →
    p = (addressKey (s.link.tag tag).address).page → job = s.meter.job ap.job →
    account = s.meter.account job.account → s.meterDecision ap.restored ap.job p = .charged c →
    ∃ t, exec (.readDecode tag) s = .next t ∧
      t.meter.account job.account = { account with
        balance := account.balance - c.fee, charged := account.charged + c.fee } ∧
      (∀ a, a ≠ job.account → t.meter.account a = s.meter.account a) ∧
      t.meter.job ap.job = { job with
        total := job.total + c.fee, purchases := job.purchases ++ [⟨p, c.fee, job.purchases.length + 1⟩] } ∧
      (∀ i, i ≠ ap.job → t.meter.job i = s.meter.job i) ∧
      t.meter = { s.meter with accounts := t.meter.accounts, jobs := t.meter.jobs } ∧
      t.store.page p = { s.store.page p with pins := (s.store.page p).pins + 1 } ∧
      (∀ q, q ≠ p → t.store.page q = s.store.page q) ∧ t.store = { s.store with pages := t.store.pages } ∧
      t.log = { s.log with
        charges := s.log.charges ++ [⟨s.log.nextSequence, s.meter.date, ap.job, job.account, p, c.fee,
          job.purchases.length + 1, c.surcharged, c.tier⟩]
        nextSequence := s.log.nextSequence + 1 } ∧
      (t.reports.jobOf ap.job) = { s.reports.jobOf ap.job with charged := true } ∧
      (∀ i, i ≠ ap.job → t.reports.jobOf i = s.reports.jobOf i) ∧
      t.reports.statuses = { s.reports.statuses with
        logReady := s.reports.statuses.logReady || decide (s.log.threshold ≤ s.log.charges.length + 1)
        logFull := s.reports.statuses.logFull || decide (s.log.charges.length + 1 = 1024) } ∧
      t.reports.enables = s.reports.enables ∧ t.reports.faults = s.reports.faults ∧
      ((t.link.tag tag).state = .queued ∨
        (t.link.tag tag).state = .ready ∧ (t.link.tag tag).answer = some ⟨.blank, List.replicate 64 255⟩) ∧
      t = { s with link := t.link, port := t.port, meter := t.meter, store := t.store, log := t.log, reports := t.reports }

/-! ### The fee (chapter 7) -/

/-- The fee of a base rate B, surcharge percent r and discount percent d (R136): the product is exact, at most
1,310,700,000, and rounded once, to the nearest whole unit of B × (100 + r) × (100 − d) / 10,000, an exact half up; the
fee lies in 0–131,070, reaches it, and is 0 for a rate of 0, a discount of 100 and a product below 5,000. -/
def Obligations.FeeRoundsOnce : Prop :=
  (∀ b r d : Nat, b ≤ 65535 → r ≤ 100 → d ≤ 100 →
    b * (100 + r) * (100 - d) ≤ 1310700000 ∧
    feeOf b r d = (b * (100 + r) * (100 - d) + 5000) / 10000 ∧
    10000 * feeOf b r d ≤ b * (100 + r) * (100 - d) + 5000 ∧
    b * (100 + r) * (100 - d) < 10000 * feeOf b r d + 5000 ∧ feeOf b r d ≤ 131070 ∧
    (b = 0 ∨ d = 100 ∨ b * (100 + r) * (100 - d) < 5000 → feeOf b r d = 0)) ∧
  feeOf 65535 100 0 = 131070

/-- The inputs of a fee (R121, R129 to R135): the age in whole fee years, the band between the thresholds, the rate of the
page's class in that band, the surcharge when the aperture is restoring and the page restorable, the tier and discount
of the next ordinal. -/
def Obligations.FeeInputs : Prop :=
  ∀ (s : State) (restored : Bool) (j p age band : Nat) (account : Account) (n : Nat),
    account = s.meter.account (s.meter.job j).account → n = (s.meter.job j).purchases.length + 1 →
    age = (if (s.store.page p).day ≤ s.meter.date then (s.meter.date - (s.store.page p).day) / 365 else 0) →
    band = (if age < s.meter.bands.a1 then 0 else if age < s.meter.bands.a2 then 1 else if age < s.meter.bands.a3 then 2 else 3) →
    ∃ restorable : Bool,
      (restorable = true ↔ (s.store.page p).record ≠ none ∨
        ∃ v ∈ (s.store.page p).chain, ∃ r, Table.read s.store.versions v = some r ∧ r.origin = .restored) ∧
      s.chargeFor restored j p =
        { fee := feeOf (s.meter.rate (s.store.page p).rateClass band)
            (if restored && restorable then s.meter.surcharge else 0)
            (if n ≤ account.t1 then 0 else if n ≤ account.t2 then account.d1 else account.d2)
          ordinal := n, surcharged := restored && restorable
          tier := if n ≤ account.t1 then 0 else if n ≤ account.t2 then 1 else 2 }

/-! ### Write disposal (R21, R56 to R61) -/

/-- The first four checks of write disposal, in their order, each with its fault (R56, R61). -/
def Obligations.DisposalDrops : Prop :=
  ∀ (s : State) (w : HostWrite) (rest : List HostWrite) (ap : Aperture) (page : Page),
    s.Attempted w rest → ap = s.aperture (addressAperture w.address) → page = s.store.page (addressKey w.address).page →
    ∃ t, exec .writeDisposal s = .next t ∧
      (ap.state = .disabled → s.Dropped t w rest .unmapped) ∧
      (ap.state = .enabled →
        (ap.kind = .historic ∨ ap.kind = .restored ∨ ap.kind = .reprint → s.Dropped t w rest .protect) ∧
        (ap.kind = .edition →
          (s.store.edition = .none → s.Dropped t w rest .noEdition) ∧
          (∀ n, s.store.edition = .closing n → s.Dropped t w rest .lateWrite) ∧
          (∀ n, s.store.edition = .opened n →
            (page.state = .absent → s.Dropped t w rest .noPage) ∧
            (page.state = .loading → s.Dropped t w rest .pageState))) ∧
        (ap.kind = .load →
          (page.state = .absent → s.Dropped t w rest .noPage) ∧
          (page.state = .live → s.Dropped t w rest .pageState)))

/-- A write with all 64 byte enables clear is disposed of with no effect: the head leaves, and nothing is created and no
fault offered (R57 check 5). While the 64 places for carried writes are all in use, while no attempt is owed, and
while the buffer is empty, there is no disposal (R21, R153). -/
def Obligations.DisposalWithoutEffect : Prop :=
  ∀ s : State,
    (∀ (w : HostWrite) (rest : List HostWrite) (kind : ApertureKind),
      s.Attempted w rest → s.Passes w kind → w.enables = 0 →
      ∃ t, exec .writeDisposal s = .next t ∧ s.HeadLeft t rest ∧ t = { s with link := t.link }) ∧
    (64 ≤ s.port.carriedCount ∨ s.link.attemptDue = false ∨ s.link.writeBuffer = [] →
      exec .writeDisposal s = .next s)

/-- A write whose page's head is OPEN and holds its strip index (R57 check 6, R68): carried to a READY strip; held for the
slot that fills the strip, and released at once when that slot has written its last segment (R64); left at the head of
the buffer when the hold queue is full. -/
def Obligations.DisposalToHeldStrip : Prop :=
  ∀ (s : State) (w : HostWrite) (rest : List HostWrite) (kind : ApertureKind) (k : Key) (v : Version) (strip : Nat),
    s.Attempted w rest → s.Passes w kind → w.enables ≠ 0 → k = addressKey w.address →
    s.store.head k.page = some v → v.lock = .openLock → Table.read v.delta k.strip = some strip →
    (∀ o i, Table.read s.store.strips strip = some ⟨.ready, o, i⟩ →
      ∃ t, exec .writeDisposal s = .next t ∧ s.HeadLeft t rest ∧
        t.port = { s.port with
          linkQueue := s.port.linkQueue ++ [.lineWrite strip k.line w.data w.enables none], quiet := .stopped } ∧
        t = { s with link := t.link, port := t.port }) ∧
    (∀ j o i c, Table.read s.store.strips strip = some ⟨.filling (.slot j), o, i⟩ →
      Table.read s.store.copies j.val = some c →
      (s.store.holdQueue.length < 16 → ∃ t, exec .writeDisposal s = .next t ∧ s.HeadLeft t rest ∧
        t.store = { s.store with holdQueue := s.store.holdQueue ++ [⟨w, j, decide (c.nextLine = 1024)⟩] } ∧
        (c.nextLine = 1024 → t.port = { s.port with
          linkQueue := s.port.linkQueue ++ [.lineWrite strip k.line w.data w.enables (some j)], quiet := .stopped }) ∧
        (c.nextLine ≠ 1024 → t.port = s.port) ∧
        t = { s with link := t.link, port := t.port, store := t.store }) ∧
      (16 ≤ s.store.holdQueue.length → exec .writeDisposal s = .next { s with link := { s.link with attemptDue := false } }))

/-- A write that needs a fresh strip meets the tests of R58 in their order: CHAIN FULL, POOL EMPTY, STORE FULL, RESERVE,
and the wait for a copy slot or a place in the hold queue, which creates nothing. -/
def Obligations.DisposalFreshTests : Prop :=
  ∀ (s : State) (w : HostWrite) (rest : List HostWrite) (kind : ApertureKind) (k : Key) (need : Bool),
    s.Attempted w rest → s.Passes w kind → w.enables ≠ 0 → k = addressKey w.address → s.NeedsFresh k →
    (need = true ↔ ∀ v, s.store.head k.page = some v → v.lock ≠ .openLock) →
    ∃ t, exec .writeDisposal s = .next t ∧
      (need = true → 16 ≤ (s.store.page k.page).versionCount → s.Dropped t w rest .chainFull) ∧
      (need = true → (s.store.page k.page).versionCount < 16 → (∀ n, n < 8192 → Table.has s.store.versions n = true) →
        s.Dropped t w rest .poolEmpty) ∧
      ((need = true → (s.store.page k.page).versionCount < 16 ∧ ∃ n, n < 8192 ∧ Table.has s.store.versions n = false) →
        (s.store.freeQueue = [] → s.Dropped t w rest .storeFull) ∧
        (s.store.freeQueue ≠ [] →
          (kind = .load → s.store.freeQueue.length ≤ s.store.reserve → s.Dropped t w rest .reserve) ∧
          (kind = .edition ∨ s.store.reserve < s.store.freeQueue.length →
            (∀ j : Fin 4, Table.has s.store.copies j.val = true) ∨ 16 ≤ s.store.holdQueue.length →
            t = { s with link := { s.link with attemptDue := false } })))

/-- A write that passes every test of R58 starts a copy, as one action (R59, R60): the version it needs is the lowest-
numbered free record, OPEN at the head of the chain; the strip at the head of the free strip queue joins the head
version's delta list and is FILLING by the lowest-numbered IDLE slot; the slot copies from what the published content
holds there, or from BLANK; the page's copies in flight rise; the write is held; STORE LOW is set when the count falls
to the reserve (R50). -/
def Obligations.DisposalStartsCopy : Prop :=
  ∀ (s : State) (w : HostWrite) (rest : List HostWrite) (kind : ApertureKind) (k : Key) (owner strip : Nat) (old : Version)
    (queue : List Nat) (slot : Fin 4) (need : Bool),
    s.Attempted w rest → s.Passes w kind → w.enables ≠ 0 → k = addressKey w.address → s.NeedsFresh k →
    (need = true ↔ ∀ v, s.store.head k.page = some v → v.lock ≠ .openLock) →
    (need = true → (s.store.page k.page).versionCount < 16 ∧ owner < 8192 ∧ Table.has s.store.versions owner = false ∧
      (∀ m, m < owner → Table.has s.store.versions m = true) ∧
      old = (match kind with
        | .load => ⟨k.page, .load, (s.store.page k.page).edition, .openLock, []⟩
        | _ => ⟨k.page, .edition, s.store.edition.number, .openLock, []⟩)) →
    (need = false → (s.store.page k.page).chain.head? = some owner ∧ Table.read s.store.versions owner = some old) →
    s.store.freeQueue = strip :: queue → (kind = .load → s.store.reserve < s.store.freeQueue.length) →
    Table.has s.store.copies slot.val = false → (∀ j : Fin 4, j < slot → Table.has s.store.copies j.val = true) →
    s.store.holdQueue.length < 16 →
    ∃ t, exec .writeDisposal s = .next t ∧ s.HeadLeft t rest ∧ t.store.freeQueue = queue ∧
      (t.store.page k.page).chain = (if need then owner :: (s.store.page k.page).chain else (s.store.page k.page).chain) ∧
      t.store.page k.page = { s.store.page k.page with
        chain := (t.store.page k.page).chain, copies := (s.store.page k.page).copies + 1 } ∧
      (∀ q, q ≠ k.page → t.store.page q = s.store.page q) ∧
      Table.read t.store.versions owner = some { old with delta := Table.write old.delta k.strip strip } ∧
      (∀ n, n ≠ owner → Table.read t.store.versions n = Table.read s.store.versions n) ∧
      Table.read t.store.strips strip = some ⟨.filling (.slot slot), owner, k.strip⟩ ∧
      (∀ n, n ≠ strip → Table.read t.store.strips n = Table.read s.store.strips n) ∧
      Table.read t.store.copies slot.val = some ⟨match kind with
        | .load => none
        | _ => (walk s.store.versions none false k.strip (s.store.page k.page).chain).map Hit.strip,
        strip, k.page, k.strip, 0, .none, none, false⟩ ∧
      (∀ j : Fin 4, j ≠ slot → Table.read t.store.copies j.val = Table.read s.store.copies j.val) ∧
      t.store.startOrder = s.store.startOrder ++ [slot] ∧ t.store.holdQueue = s.store.holdQueue ++ [⟨w, slot, false⟩] ∧
      t.store = { s.store with
        freeQueue := queue, pages := t.store.pages, versions := t.store.versions, strips := t.store.strips
        copies := t.store.copies, startOrder := t.store.startOrder, holdQueue := t.store.holdQueue } ∧
      t.reports = { s.reports with statuses := { s.reports.statuses with
        storeLow := s.reports.statuses.storeLow || decide (s.store.freeQueue.length = s.store.reserve + 1) } } ∧
      t = { s with link := t.link, store := t.store, reports := t.reports }

/-- The fault queue takes an offer as one act (R171): it merges with the newest record of equal kind, aperture and page,
or is appended with repeat count 1 and sets FAULT, or, with 32 records, is lost and sets FAULTS LOST. -/
def Obligations.FaultOfferTaken : Prop :=
  ∀ (r : Reports) (f : FaultRecord), f.repeats = 1 →
    (∀ front newest, r.faults = front ++ [newest] →
      newest.kind = f.kind → newest.aperture = f.aperture → newest.page = f.page →
      r.offer f = { r with faults := front ++ [{ newest with repeats := min 65535 (newest.repeats + 1) }] }) ∧
    ((∀ front newest, r.faults = front ++ [newest] →
        newest.kind ≠ f.kind ∨ newest.aperture ≠ f.aperture ∨ newest.page ≠ f.page) →
      (r.faults.length < 32 →
        r.offer f = { r with faults := r.faults ++ [f], statuses := { r.statuses with fault := true } }) ∧
      (32 ≤ r.faults.length → r.offer f = { r with statuses := { r.statuses with faultsLost := true } }))

/-! ### The engine and the store port (chapters 3, 5 and 9) -/

/-- COPY_SEGMENT_ISSUE (R63, R154, R157): a COPYING slot with no request outstanding writes 256 bytes of 255 for a BLANK
source, writes the bytes it holds, or reads the next four lines of its source unless a link-side write to them is
queued, when it waits. The request takes its place in the engine-side queue, in the order of R154: the slots' requests
in start order, the sequencer's after them. COMMIT_SEGMENT_ISSUE (R97): the RUNNING sequencer with a strip in progress
and no segment outstanding writes the transformed bytes it holds, or reads the next four lines of its source by the same
rule as a slot. With no strip in progress it makes the examination whose allocation it owes (R94; the model's choice of
command, assumption 28); in any other case it changes nothing. -/
def Obligations.SegmentsIssue : Prop :=
  (∀ (order : List (Fin 4)) (a : Access) (queue : List Access),
     (∃ front back, queue = front ++ back ∧ insertRequest order a queue = front ++ a :: back) ∧
     (RequestsOrdered order queue → RequestsOrdered order (insertRequest order a queue))) ∧
  (∀ (k : Fin 4) (c : Copy) (s : State), s.chip.resetPin = false → Table.read s.store.copies k.val = some c →
     c.phase = .none → c.blocked = false → c.nextLine < 1024 →
     ∃ t c', exec (.copySegmentIssue k) s = .next t ∧ Table.read t.store.copies k.val = some c' ∧
       (∀ j, j ≠ k.val → Table.read t.store.copies j = Table.read s.store.copies j) ∧
       t.store = { s.store with copies := t.store.copies } ∧
       (c.source = none → c' = { c with phase := .write } ∧
         s.Requested t (.writeSegment (.slot k) c.target c.nextLine (List.replicate 256 255) false)) ∧
       (∀ src bytes, c.source = some src → c.held = some bytes → c' = { c with phase := .write, held := none } ∧
         s.Requested t (.writeSegment (.slot k) c.target c.nextLine bytes false)) ∧
       (∀ src, c.source = some src → c.held = none →
         (s.port.linkWrites src c.nextLine = true → c' = { c with blocked := true } ∧ t.port = s.port) ∧
         (s.port.linkWrites src c.nextLine = false → c' = { c with phase := .read } ∧
           s.Requested t (.readSegment (.slot k) src c.nextLine false))) ∧
       t = { s with store := t.store, port := t.port }) ∧
  (∀ (q : Sequencer) (s : State), s.chip.resetPin = false → q = s.restore.sequencer → q.state = .running →
     q.inProgress = true → q.phase = .none → q.blocked = false →
     ∃ t, exec .commitSegmentIssue s = .next t ∧
       (∀ bytes, q.held = some bytes → t.restore.sequencer = { q with phase := .write, held := none } ∧
         s.Requested t (.writeSegment .sequencer q.target q.nextLine bytes false)) ∧
       (q.held = none →
         (s.port.linkWrites q.source q.nextLine = true →
           t.restore.sequencer = { q with blocked := true } ∧ t.port = s.port) ∧
         (s.port.linkWrites q.source q.nextLine = false → t.restore.sequencer = { q with phase := .read } ∧
           s.Requested t (.readSegment .sequencer q.source q.nextLine false))) ∧
       t = { s with restore := { s.restore with sequencer := t.restore.sequencer }, port := t.port }) ∧
  (∀ (q : Sequencer) (s : State), s.chip.resetPin = false → q = s.restore.sequencer →
     (q.state = .running → q.inProgress = false → exec .commitSegmentIssue s = .next s.examine) ∧
     (q.state ≠ .running ∨ (q.inProgress = true ∧ (q.phase ≠ .none ∨ q.blocked = true)) →
       exec .commitSegmentIssue s = .next s))

/-- ARBITER_ISSUE (R153, R155 to R157, R160): with a free place, the link head is issued unless the engine side is aged
and the last issue was not the engine's; the engine head when it is, or when the link-side queue is empty and the
quiet time has expired or the engine side is aged; otherwise nothing is issued. A carried write issued while all 64
places are in use makes an attempt owed at the write buffer's head; that one issued while fewer are in use makes none is
the model's reading (assumption 12). -/
def Obligations.ArbiterIssues : Prop :=
  ∀ s : State, s.chip.resetPin = false →
    (8 ≤ s.port.issueList.length → exec .arbiterIssue s = .next s) ∧
    (s.port.issueList.length < 8 →
      (∀ a rest, s.port.linkQueue = a :: rest →
        ¬ (s.port.engineQueue ≠ [] ∧ s.port.aging = .aged ∧ s.port.lastIssueEngine = false) →
        ∃ t, exec .arbiterIssue s = .next t ∧ s.port.Issued t.port a ∧ t.port.linkQueue = rest ∧
          t.port.engineQueue = s.port.engineQueue ∧ t.port.aging = s.port.aging ∧ t.port.lastIssueEngine = false ∧
          t.port.quiet = (if rest = [] then (if s.port.quietTime = 0 then .expired else .running s.chip.now)
            else s.port.quiet) ∧
          t = { s with port := t.port, link := { s.link with
            attemptDue := s.link.attemptDue || decide (64 ≤ s.port.carriedCount) && a.isCarried } }) ∧
      (∀ a rest, s.port.engineQueue = a :: rest →
        (s.port.linkQueue ≠ [] ∧ s.port.aging = .aged ∧ s.port.lastIssueEngine = false) ∨
          (s.port.linkQueue = [] ∧ (s.port.quiet = .expired ∨ s.port.aging = .aged)) →
        ∃ t, exec .arbiterIssue s = .next t ∧ s.port.Issued t.port a ∧ t.port.engineQueue = rest ∧
          t.port.linkQueue = s.port.linkQueue ∧ t.port.aging = .stopped ∧ t.port.lastIssueEngine = true ∧
          t.port.quiet = s.port.quiet ∧ t = { s with port := t.port }) ∧
      (s.port.linkQueue = [] → s.port.engineQueue = [] ∨ (s.port.quiet ≠ .expired ∧ s.port.aging ≠ .aged) →
        exec .arbiterIssue s = .next s))

/-- The timers run out (R156 to R158, R161, R163, R165): the quiet timer expires, the engine side becomes aged, and the
clock stands at the period's end at the earliest (the model's clock, assumption 2). -/
def Obligations.TimersExpire : Prop :=
  ∀ s : State, s.chip.resetPin = false →
    (∀ since, s.port.quiet = .running since → exec .quietTimerExpiry s = .next { s with
      chip := { s.chip with now := max s.chip.now (since + s.port.quietTime) }
      port := { s.port with quiet := .expired } }) ∧
    (∀ since, s.port.aging = .running since → exec .agingClockExpiry s = .next { s with
      chip := { s.chip with now := max s.chip.now (since + 1000 * s.port.agingLimit) }
      port := { s.port with aging := .aged } }) ∧
    exec .turnaroundExpiry s = .next { s with
      chip := { s.chip with now := max s.chip.now s.port.turnaroundUntil } } ∧
    ∀ b : Fin 8,
      exec (.rowCycleExpiry b) s = .next { s with
        chip := { s.chip with now := max s.chip.now (s.port.bank b.val).rowCycleUntil } } ∧
      exec (.minimumOpenExpiry b) s = .next { s with
        chip := { s.chip with now := max s.chip.now (s.port.bank b.val).minimumOpenUntil } } ∧
      exec (.writeRecoveryExpiry b) s = .next { s with
        chip := { s.chip with now := max s.chip.now (s.port.bank b.val).writeRecoveryUntil } }

/-- A bank opens (R158, R159, R163): IDLE with an access waiting and the row cycle time over, it begins OPENING the front
access's row, and every period that an open begins runs under the timing in force; before that time it stays; when the
open delay expires it is OPEN at the row. A bank closes (R158, R160, R168): OPEN with a close due (an access for another
row at the front of its wait list, a close made due earlier, or, while the banks close after an engine reset, an empty
issue list), it begins CLOSING once minimum open time and write recovery are over and no transfer to it is in progress,
and not before; with no close due it stays OPEN; when the close delay expires it is IDLE, and the closing after an
engine reset is over when the issue list is empty and all banks are IDLE. At an expiry the clock stands at the period's
end at the earliest (the model's clock, assumption 2). -/
def Obligations.BanksOpenAndClose : Prop :=
  (∀ (b : Fin 8) (k : Bank) (s : State), s.chip.resetPin = false → k = s.port.bank b.val →
     (∀ a rest, s.port.waitList b.val = a :: rest → k.state = .idle → k.rowCycleUntil ≤ s.chip.now →
       ∃ t, exec (.bankOpenStart b) s = .next t ∧ t.port.bank b.val = { k with
           state := .opening a.strip, lastOpen := some s.chip.now
           minimumOpenUntil := s.chip.now + s.port.timing.minimumOpen
           rowCycleUntil := s.chip.now + s.port.timing.rowCycle
           delayUntil := s.chip.now + s.port.timing.openDelay, closeDue := .none } ∧
         (∀ c, c ≠ b.val → t.port.bank c = s.port.bank c) ∧
         t = { s with port := { s.port with banks := t.port.banks } }) ∧
     (s.port.waitList b.val = [] ∨ k.state ≠ .idle ∨ s.chip.now < k.rowCycleUntil →
       exec (.bankOpenStart b) s = .next s) ∧
     (∀ row, k.state = .opening row →
       ∃ t, exec (.openDelayExpiry b) s = .next t ∧ t.port.bank b.val = { k with state := .opened row } ∧
         (∀ c, c ≠ b.val → t.port.bank c = s.port.bank c) ∧
         t = { s with chip := { s.chip with now := max s.chip.now k.delayUntil }
                      port := { s.port with banks := t.port.banks } })) ∧
  (∀ (b : Fin 8) (k : Bank) (row : Nat) (s : State), s.chip.resetPin = false → k = s.port.bank b.val →
     (k.state = .opened row →
       (k.closeDue ≠ .none ∨ (∃ a rest, s.port.waitList b.val = a :: rest ∧ a.strip ≠ row) ∨
         (s.port.resetClosing = true ∧ s.port.issueList = [])) →
       (k.minimumOpenUntil ≤ s.chip.now → k.writeRecoveryUntil ≤ s.chip.now →
         (s.port.transferring = true → ∀ a rest, s.port.issueList = a :: rest → a.bank ≠ b.val) →
         ∃ t, exec (.bankCloseStart b) s = .next t ∧ t.port.bank b.val = { k with
             state := .closing, closeDue := .none, delayUntil := s.chip.now + s.port.timing.closeDelay } ∧
           (∀ c, c ≠ b.val → t.port.bank c = s.port.bank c) ∧
           t = { s with port := { s.port with banks := t.port.banks } }) ∧
       (s.chip.now < k.minimumOpenUntil ∨ s.chip.now < k.writeRecoveryUntil ∨
           (s.port.transferring = true ∧ ∃ a rest, s.port.issueList = a :: rest ∧ a.bank = b.val) →
         exec (.bankCloseStart b) s = .next s)) ∧
     (k.state = .opened row → k.closeDue = .none → (∀ a rest, s.port.waitList b.val = a :: rest → a.strip = row) →
       (s.port.resetClosing = false ∨ s.port.issueList ≠ []) → exec (.bankCloseStart b) s = .next s) ∧
     (k.state = .closing →
       ∃ t, exec (.closeDelayExpiry b) s = .next t ∧ t.port.bank b.val = { k with state := .idle } ∧
         (∀ c, c ≠ b.val → t.port.bank c = s.port.bank c) ∧
         (t.port.resetClosing = true ↔
           s.port.resetClosing = true ∧ (s.port.issueList ≠ [] ∨ ∃ c, c < 8 ∧ (t.port.bank c).state ≠ .idle)) ∧
         t = { s with chip := { s.chip with now := max s.chip.now k.delayUntil }
                      port := { s.port with banks := t.port.banks, resetClosing := t.port.resetClosing } }))

/-- TRANSFER_START (R161): for the front of the issue list, when no transfer is in progress, its bank is OPEN at its row,
and the turnaround time is over if its direction differs from the last; otherwise nothing starts. -/
def Obligations.TransferStarts : Prop :=
  ∀ (a : Access) (rest : List Access) (s : State), s.chip.resetPin = false → s.port.issueList = a :: rest →
    (s.port.transferring = false → (s.port.bank a.bank).state = .opened a.strip →
      (∀ d, s.port.lastDirection = some d → d ≠ a.direction → s.port.turnaroundUntil ≤ s.chip.now) →
      exec .transferStart s = .next { s with port := { s.port with transferring := true } }) ∧
    (s.port.transferring = true ∨ (s.port.bank a.bank).state ≠ .opened a.strip ∨
        (∃ d, s.port.lastDirection = some d ∧ d ≠ a.direction ∧ s.chip.now < s.port.turnaroundUntil) →
      exec .transferStart s = .next s)

/-- The end of any transfer (R151, R157, R160 to R162, R168): the access leaves the issue list, the data path is free, its
direction and the turnaround are noted, a write sets its bank's last write time and write recovery, and under CLOSE
AFTER a close of the bank becomes due unless its next access is for the same row. The aging clock restarts when no
engine segment is left in progress and the engine-side queue is not empty (assumption 25 says when a later one is in
progress). The closing after an engine reset is over when the issue list is empty and all banks are IDLE. Nothing else of
the port changes, but for the link-side queue and quiet timer at a slot's write segment (CopySlotWorks). A line write stores exactly the bytes whose enables are set and a write segment all its bytes, at the line's
address; every other byte reads as before. The end of a line write lets every waiting slot and the sequencer try again
(R63, R97). A dropped or abandoned access changes nothing but the port and, for a write segment, the store. -/
def Obligations.TransferEnds : Prop :=
  ∀ (a : Access) (rest : List Access) (s : State), s.chip.resetPin = false → s.port.transferring = true →
    s.port.issueList = a :: rest →
    ∃ t, exec .transferEnd s = .next t ∧
      t.port.issueList = rest ∧ t.port.transferring = false ∧ t.port.lastDirection = some a.direction ∧
      t.port.turnaroundUntil = s.chip.now + s.port.timing.turnaround ∧
      t.port.bank a.bank = { s.port.bank a.bank with
        lastWrite := (t.port.bank a.bank).lastWrite, closeDue := (t.port.bank a.bank).closeDue
        writeRecoveryUntil := (t.port.bank a.bank).writeRecoveryUntil } ∧
      (a.direction = .write → (t.port.bank a.bank).lastWrite = some s.chip.now ∧
        (t.port.bank a.bank).writeRecoveryUntil = s.chip.now + s.port.timing.writeRecovery) ∧
      (a.direction = .read → (t.port.bank a.bank).lastWrite = (s.port.bank a.bank).lastWrite ∧
        (t.port.bank a.bank).writeRecoveryUntil = (s.port.bank a.bank).writeRecoveryUntil) ∧
      (s.port.policy = .closeAfter → (s.port.bank a.bank).closeDue = .none →
        (∀ c more, rest.filter (fun c => c.bank == a.bank) = c :: more → c.strip ≠ a.strip) →
        (t.port.bank a.bank).closeDue = .byTransfer) ∧
      (s.port.policy = .keepOpen ∨ (s.port.bank a.bank).closeDue ≠ .none ∨
          (∃ c more, rest.filter (fun c => c.bank == a.bank) = c :: more ∧ c.strip = a.strip) →
        (t.port.bank a.bank).closeDue = (s.port.bank a.bank).closeDue) ∧
      (∀ b, b ≠ a.bank → t.port.bank b = s.port.bank b) ∧
      t.port.aging = (if a.isSegment = true ∧ rest.any Access.isSegment = false ∧ s.port.engineQueue ≠ [] then
        .running s.chip.now else s.port.aging) ∧
      (t.port.resetClosing = true ↔
        s.port.resetClosing = true ∧ (rest ≠ [] ∨ ∃ b, b < 8 ∧ (t.port.bank b).state ≠ .idle)) ∧
      ((∀ k strip line data, a ≠ .writeSegment (.slot k) strip line data false) →
        t.port.linkQueue = s.port.linkQueue ∧ t.port.quiet = s.port.quiet) ∧
      t.port = { s.port with
        linkQueue := t.port.linkQueue, quiet := t.port.quiet, issueList := rest, transferring := false
        lastDirection := some a.direction, turnaroundUntil := t.port.turnaroundUntil, banks := t.port.banks
        aging := t.port.aging, resetClosing := t.port.resetClosing } ∧
      (∀ i, Memory.read t.memory i =
        match a with
        | .lineRead .. => Memory.read s.memory i
        | .readSegment .. => Memory.read s.memory i
        | .lineWrite strip line data enables _ =>
          if lineAddress strip line ≤ i ∧ i < lineAddress strip line + data.length ∧
              enables.getLsbD (i - lineAddress strip line) = true then data[i - lineAddress strip line]?
          else Memory.read s.memory i
        | .writeSegment _ strip line data _ =>
          if lineAddress strip line ≤ i ∧ i < lineAddress strip line + data.length then data[i - lineAddress strip line]?
          else Memory.read s.memory i) ∧
      (∀ strip line data enables holder, a = .lineWrite strip line data enables holder →
        t.restore = { s.restore with sequencer := { s.restore.sequencer with blocked := false } } ∧
        (∀ j c, Table.read t.store.copies j = some c → c.blocked = false) ∧
        (holder = none →
          (∀ j, Table.read t.store.copies j =
            (Table.read s.store.copies j).map fun c => { c with blocked := false }) ∧
          t = { s with
            store := { s.store with copies := t.store.copies }, restore := t.restore, port := t.port
            memory := t.memory })) ∧
      ((∃ u r l e, a = .lineRead u r l e true) ∨ (∃ g r l, a = .readSegment g r l true) →
        t = { s with port := t.port }) ∧
      ((∃ g r l bs, a = .writeSegment g r l bs true) → t = { s with port := t.port, memory := t.memory }) ∧
      t = { s with link := t.link, store := t.store, restore := t.restore, port := t.port, memory := t.memory
                   reports := t.reports }

/-- A line read that is not abandoned hands on its 64 bytes (R20, R82, R86, R87, R162): when it is not eligible its tag is
READY at once with note DATA and the bytes as stored. The bytes of an eligible read go to the restoration unit, and arrive
there now or, as the free choice has it, later (assumptions 30, 36); till then its entry stays as it is, and what is
then on its way arrives with a TRANSFER_END that finds no transfer in progress, which also makes the test of the end of
CLOSING (R54; assumption 38). On arrival the bytes are transformed with
the record that the page's entry names then, and are as stored when it names none. A byte that nothing has written is
the free value of R149. -/
def Obligations.TransferEndReads : Prop :=
  (∀ (rest : List Access) (tag : Fin 32) (strip line : Nat) (eligible : Bool) (stored : List Byte) (s : State),
    s.chip.resetPin = false → s.port.transferring = true →
    s.port.issueList = .lineRead tag strip line eligible false :: rest → stored.length = 64 →
    (∀ i, i < 64 → stored[i]? = some ((Memory.read s.memory (lineAddress strip line + i)).getD
      (Config.storePowerOn s.chip.powerOns (lineAddress strip line + i)))) →
    ∃ t, exec .transferEnd s = .next t ∧
      (eligible = false → s.link.Answered t.link tag ⟨.data, stored⟩ ∧ t = { s with link := t.link, port := t.port }) ∧
      (eligible = true → ∃ u : State,
        u = { s with
          port := t.port
          restore := { s.restore with
            arriving := s.restore.arriving ++ [⟨tag, stored⟩], occasions := s.restore.occasions + 1 } } ∧
        if Config.restorationFallsLater s.restore.occasions then t = u else u.Arrived t)) ∧
  ∀ s : State, s.chip.resetPin = false → s.port.transferring = false ∨ s.port.issueList = [] →
    ∃ u t, exec .transferEnd s = .next t ∧ s.Arrived u ∧ u.ClosingTested t

/-- The end of a copy slot's segments (R63, R64): a read segment's 256 bytes are held for the write that follows; a write
segment raises next line by 4, and after lines 1,020 to 1,023 the slot's held writes are released, in hold queue
order, to the tail of the link-side queue, which cancels the quiet timer (R156), while they stay in the hold queue. The
slot becomes IDLE (R65): when the last hold queue entry that names slot k, whose next line is 1,024, has been carried
out, the strip is READY, the slot is IDLE and leaves the start order, the page's copies in flight fall by one, an attempt
at the write buffer's head falls due, each WAITING read with no pending write left is ready to be decoded (R17), and the
test of the end of CLOSING falls due (R54): before or after that attempt, as a free choice has it (the model's, assumption
38), with the fault LATE WRITE or NO EDITION for an edition write there (R55). With an entry left, only that entry leaves the hold queue, and its key stays
pending till the strip is READY (assumption 9). Other slots, strips and pages stay, but for the slots' wait of R63. -/
def Obligations.CopySlotWorks : Prop :=
  (∀ (rest : List Access) (k : Fin 4) (strip line : Nat) (c : Copy) (s : State), s.chip.resetPin = false →
     s.port.transferring = true → Table.read s.store.copies k.val = some c →
     (s.port.issueList = .readSegment (.slot k) strip line false :: rest →
       ∃ t bytes, exec .transferEnd s = .next t ∧
         Table.read t.store.copies k.val = some { c with phase := .none, held := some bytes } ∧ bytes.length = 256 ∧
         (∀ i, i < 256 → bytes[i]? = some ((Memory.read s.memory (lineAddress strip line + i)).getD
           (Config.storePowerOn s.chip.powerOns (lineAddress strip line + i)))) ∧
         (∀ j, j ≠ k.val → Table.read t.store.copies j = Table.read s.store.copies j) ∧
         t = { s with store := { s.store with copies := t.store.copies }, port := t.port }) ∧
     (∀ data, s.port.issueList = .writeSegment (.slot k) strip line data false :: rest →
       ∃ t, exec .transferEnd s = .next t ∧
         Table.read t.store.copies k.val = some { c with nextLine := c.nextLine + 4, phase := .none } ∧
         (∀ j, j ≠ k.val → Table.read t.store.copies j = Table.read s.store.copies j) ∧
         (c.nextLine + 4 ≠ 1024 →
           t.store = { s.store with copies := t.store.copies } ∧ t.port.linkQueue = s.port.linkQueue ∧
           t.port.quiet = s.port.quiet) ∧
         (c.nextLine + 4 = 1024 →
           t.store = { s.store with copies := t.store.copies, holdQueue := s.store.holdQueue.map fun h =>
             if h.slot = k then { h with released := true } else h } ∧
           t.port.linkQueue = s.port.linkQueue ++
             ((s.store.holdQueue.filter fun h => h.slot = k && !h.released).map fun h =>
               .lineWrite c.target (addressKey h.write.address).line h.write.data h.write.enables (some k)) ∧
           t.port.quiet = (if ∃ h ∈ s.store.holdQueue, h.slot = k ∧ h.released = false then .stopped
             else s.port.quiet)) ∧
         t = { s with store := t.store, port := t.port, memory := t.memory })) ∧
  (∀ (rest : List Access) (k : Fin 4) (strip line : Nat) (data : List Byte) (enables : Enables) (c : Copy)
     (front back : List HeldWrite) (h : HeldWrite) (s : State), s.chip.resetPin = false → s.port.transferring = true →
     s.port.issueList = .lineWrite strip line data enables (some k) :: rest → Table.read s.store.copies k.val = some c →
     c.nextLine = 1024 → s.store.holdQueue = front ++ h :: back → h.slot = k → h.released = true →
     (∀ g ∈ front, ¬ (g.slot = k ∧ g.released = true)) →
     ∃ u t : State, exec .transferEnd s = .next t ∧ u.store.holdQueue = front ++ back ∧
       u.link = { s.link with tags := u.link.tags, attemptDue := true } ∧
       (∀ j, j ≠ k.val → Table.read u.store.copies j =
         (Table.read s.store.copies j).map fun c => { c with blocked := false }) ∧
       u = { s with
         link := u.link, store := u.store, port := u.port, memory := u.memory
         restore := { s.restore with sequencer := { s.restore.sequencer with blocked := false } } } ∧
       ((∀ g ∈ front ++ back, g.slot ≠ k) →
         Table.read u.store.copies k.val = none ∧ u.store.startOrder = s.store.startOrder.filter (· != k) ∧
         Table.read u.store.strips c.target =
           (Table.read s.store.strips c.target).map (fun e => { e with state := .ready }) ∧
         (∀ n, n ≠ c.target → Table.read u.store.strips n = Table.read s.store.strips n) ∧
         u.store.page c.page = { s.store.page c.page with copies := (s.store.page c.page).copies - 1 } ∧
         (∀ p, p ≠ c.page → u.store.page p = s.store.page p) ∧
         u.store.settling = s.store.settling.filter (fun e => e.1 != k) ∧
         (∀ v, ((s.link.tag v).state = .waiting ∧ ¬ u.PendingWrite (addressKey (s.link.tag v).address) →
             u.link.tag v = { s.link.tag v with state := .decoding }) ∧
           (¬ ((s.link.tag v).state = .waiting ∧ ¬ u.PendingWrite (addressKey (s.link.tag v).address)) →
             u.link.tag v = s.link.tag v)) ∧
         u.store = { s.store with
           pages := u.store.pages, strips := u.store.strips, copies := u.store.copies
           startOrder := u.store.startOrder, holdQueue := front ++ back, settling := u.store.settling } ∧
         u.ClosingTestDue t) ∧
       ((∃ g ∈ front ++ back, g.slot = k) →
         Table.read u.store.copies k.val = some { c with blocked := false } ∧ u.link.tags = s.link.tags ∧
         u.store = { s.store with
           copies := u.store.copies, holdQueue := front ++ back
           settling := s.store.settling ++ [(k, addressKey h.write.address)] } ∧ t = u))

/-- The end of the sequencer's segments (R97 to R99, R101): while it is RUNNING, a read segment's 256 bytes are
transformed with the page's record as it stands and held, and a write segment raises next line by 4; after lines 1,020
to 1,023 the target is READY, and the examination of the cursor, one further, falls due: it passes over what does not
resolve, and completes the commit at 512 (R100), at once, and only an allocation may come later, by a free choice (the
model's, assumptions 28 and 36). While it is ABORTING, the end of either ends the abort. -/
def Obligations.CommitSegmentEnds : Prop :=
  ∀ (rest : List Access) (strip line : Nat) (q : Sequencer) (s : State), s.chip.resetPin = false →
    s.port.transferring = true → q = s.restore.sequencer →
    (∀ n r, s.port.issueList = .readSegment .sequencer strip line false :: rest → q.state = .running →
      (s.store.page q.page).record = some n → Table.read s.restore.records n = some r →
      ∃ t bytes, exec .transferEnd s = .next t ∧
        t.restore.sequencer = { q with phase := .none, held := some bytes } ∧ bytes.length = 256 ∧
        (∀ i, i < 256 → bytes[i]? = some (s.restore.transformByte r (q.cursor * 65536 + q.nextLine * 64 + i)
          ((Memory.read s.memory (lineAddress strip line + i)).getD
            (Config.storePowerOn s.chip.powerOns (lineAddress strip line + i))))) ∧
        t = { s with restore := { s.restore with sequencer := t.restore.sequencer }, port := t.port }) ∧
    (∀ data, s.port.issueList = .writeSegment .sequencer strip line data false :: rest → q.state = .running →
      (q.nextLine + 4 ≠ 1024 → ∃ t, exec .transferEnd s = .next t ∧
        t = { s with restore := { s.restore with sequencer := { q with nextLine := q.nextLine + 4, phase := .none } }
                     port := t.port, memory := t.memory }) ∧
      (q.nextLine + 4 = 1024 → ∃ u t : State, exec .transferEnd s = .next t ∧ u.ExaminationDue t ∧
        (∀ n, n ≠ q.target → Table.read u.store.strips n = Table.read s.store.strips n) ∧
        Table.read u.store.strips q.target =
          (Table.read s.store.strips q.target).map (fun e => { e with state := .ready }) ∧
        u = { s with
          store := { s.store with strips := u.store.strips }, port := u.port, memory := u.memory
          restore := { s.restore with sequencer := { q with
            cursor := q.cursor + 1, nextLine := 1024, inProgress := false, phase := .none, held := none } } })) ∧
    (∀ data, s.port.issueList = .readSegment .sequencer strip line false :: rest ∨
        s.port.issueList = .writeSegment .sequencer strip line data false :: rest →
      q.state = .aborting → ∃ t, exec .transferEnd s = .next t ∧ s.AbortEnded t ∧
        t = { s with store := t.store, restore := t.restore, reports := t.reports, port := t.port, memory := t.memory })

/-- The sequencer, RUNNING with no strip in progress, examines its cursor (R93, R94, R96, R100): strip indices that
resolve to BLANK in the snapshot are passed over; at the first that does not, it takes the strip at the head of the
free strip queue when the free count is above the reserve and enters WAITING, with COMMIT WAITING set, when it is not;
and when none is left the commit completes, with the new version LOCKED and linked directly above the snapshot head.
-/
def Obligations.CursorExamined : Prop :=
  ∀ (s : State) (q : Sequencer), q = s.restore.sequencer →
    ((∀ i, q.cursor ≤ i → i < 512 → s.store.resolveFrom q.page q.snapshot i = none) →
      (∀ front back, (s.store.page q.page).chain = front ++ q.snapshot :: back → q.snapshot ∉ front →
        (s.examine.store.page q.page).chain = front ++ q.building :: q.snapshot :: back) ∧
      s.examine.store.page q.page = { s.store.page q.page with
        chain := (s.examine.store.page q.page).chain, building := none, committing := false } ∧
      (∀ p, p ≠ q.page → s.examine.store.page p = s.store.page p) ∧
      Table.read s.examine.store.versions q.building =
        (Table.read s.store.versions q.building).map (fun v => { v with lock := .locked }) ∧
      (∀ n, n ≠ q.building → Table.read s.examine.store.versions n = Table.read s.store.versions n) ∧
      s.examine = { s with
        store := { s.store with pages := s.examine.store.pages, versions := s.examine.store.versions }
        restore := { s.restore with sequencer := { outcome := .completed q.page q.building } }
        reports := { s.reports with statuses := { s.reports.statuses with commitDone := true } } }) ∧
    (∀ i source, q.cursor ≤ i → i < 512 → s.store.resolveFrom q.page q.snapshot i = some source →
      (∀ j, q.cursor ≤ j → j < i → s.store.resolveFrom q.page q.snapshot j = none) →
      (s.store.freeQueue.length ≤ s.store.reserve →
        s.examine = { s with
          restore := { s.restore with sequencer := { q with cursor := i, state := .waiting } }
          reports := { s.reports with statuses := { s.reports.statuses with commitWaiting := true } } }) ∧
      (∀ strip queue, s.store.freeQueue = strip :: queue → s.store.reserve < s.store.freeQueue.length →
        Table.read s.examine.store.strips strip = some ⟨.filling .sequencer, q.building, i⟩ ∧
        (∀ n, n ≠ strip → Table.read s.examine.store.strips n = Table.read s.store.strips n) ∧
        Table.read s.examine.store.versions q.building =
          (Table.read s.store.versions q.building).map (fun v => { v with delta := Table.write v.delta i strip }) ∧
        (∀ n, n ≠ q.building → Table.read s.examine.store.versions n = Table.read s.store.versions n) ∧
        s.examine = { s with
          store := { s.store with
            freeQueue := queue, strips := s.examine.store.strips, versions := s.examine.store.versions }
          restore := { s.restore with sequencer := { q with
            cursor := i, source := source, target := strip, nextLine := 0, inProgress := true, phase := .none
            held := none, blocked := false } }
          reports := { s.reports with statuses := { s.reports.statuses with
            storeLow := s.reports.statuses.storeLow || decide (s.store.freeQueue.length = s.store.reserve + 1) } } }))

/-- The output for one byte (R83 to R85): 255 in the margin, the fill of the first defect in list order that covers it,
and otherwise the curve entry of its tone, which is clipped at the levels and rounded to the nearest, a half up,
between them. -/
def Obligations.ByteTransformed : Prop :=
  ∀ (r : Restore) (rec : Restoration) (o x y v : Nat) (b : Byte), y = o / rec.pitch → x = o % rec.pitch → v = b.toNat →
    rec.black < rec.white → rec.white ≤ 255 →
    (rec.height ≤ y ∨ rec.width ≤ x → r.transformByte rec o b = 255) ∧
    (y < rec.height → x < rec.width →
      (∀ front e back, rec.defects = front ++ e :: back →
        (e.x0 ≤ x ∧ x ≤ e.x1 ∧ e.y0 ≤ y ∧ y ≤ e.y1) →
        (∀ f ∈ front, ¬ (f.x0 ≤ x ∧ x ≤ f.x1 ∧ f.y0 ≤ y ∧ y ≤ f.y1)) → r.transformByte rec o b = e.fill) ∧
      ((∀ f ∈ rec.defects, ¬ (f.x0 ≤ x ∧ x ≤ f.x1 ∧ f.y0 ≤ y ∧ y ≤ f.y1)) →
        ∃ tone, r.transformByte rec o b = r.curveEntry rec.curve tone ∧ tone ≤ 255 ∧
          (v ≤ rec.black → tone = 0) ∧ (rec.white ≤ v → tone = 255) ∧
          (rec.black < v → v < rec.white → 1 ≤ tone ∧ tone ≤ 254 ∧
            tone = ((v - rec.black) * 255 + (rec.white - rec.black) / 2) / (rec.white - rec.black))))

/-! ### The management link (chapter 11) -/

/-- A transaction begins (R183): the part shifts out the link byte of the phase, OK or BUSY in a command transaction and
the phase itself in any other. One of any other direction than the two changes nothing when it ends: zero bytes follow
the link byte. -/
def Obligations.TransactionBegins : Prop :=
  ∀ (d : Byte) (s : State), s.chip.resetPin = false →
    (s.management.transaction = none →
      ∃ t b, exec (.managementTransactionStart d) s = .next t ∧ t.management.shiftOut = [b] ∧
        (d = 1 → b = if s.management.phase = .idle then 0 else 3) ∧
        (d ≠ 1 → (s.management.phase = .idle → b = 0) ∧ (∀ c, s.management.phase = .taking c → b = 1) ∧
          (s.management.phase = .pending → b = 2)) ∧
        t = { s with management := { s.management with
          transaction := some ⟨d, s.management.phase.name⟩, shiftOut := [b] } }) ∧
    (∀ (n : Nat) (phase : PhaseName), s.management.transaction = some ⟨d, phase⟩ → d ≠ 1 → d ≠ 2 →
      ∃ b, exec (.otherTransaction n) s = .next { s with management := { s.management with
          transaction := none, shiftOut := b :: List.replicate n 0 } } ∧
        (phase = .idle → b = 0) ∧ (phase = .taking → b = 1) ∧ (phase = .pending → b = 2))

/-- A command transaction ends (R184, R186): begun in phase IDLE with a frame byte, its frame is judged, and answered
MALFORMED or taken up; begun in any other phase, or with no frame byte, it changes nothing but the transaction. -/
def Obligations.CommandFrameJudged : Prop :=
  ∀ (bytes : List Byte) (phase : PhaseName) (s : State), s.chip.resetPin = false →
    s.management.transaction = some ⟨1, phase⟩ →
    ∃ t, exec (.commandFrame bytes) s = .next t ∧ t.management.transaction = none ∧
      (phase ≠ .idle ∨ bytes = [] →
        t.management.phase = s.management.phase ∧ t.management.buffer = s.management.buffer) ∧
      (phase = .idle → bytes ≠ [] →
        (frameCommand bytes = none →
          t.management.phase = .pending ∧ t.management.buffer = responseFrame .malformed []) ∧
        (∀ c, frameCommand bytes = some c →
          t.management.phase = .taking c ∧ t.management.buffer = s.management.buffer)) ∧
      t = { s with management := t.management }

/-- A command frame is carried both ways (R184, R194): the frame of every management command that its link can carry is
read back as that command, with every field at every value its bytes admit; and a frame that is read as a command is
that command's frame, so no two frames carry one command. -/
def Obligations.FramesCarryCommands : Prop :=
  (∀ c : Instr, c.wellFormed = true → isManagementCommand c = true →
    ∃ bytes, commandFrameOf c = some bytes ∧ frameCommand bytes = some c) ∧
  (∀ (bytes : List Byte) (c : Instr), frameCommand bytes = some c →
    commandFrameOf c = some bytes ∧ c.wellFormed = true)

/-- A response transaction ends (R187): the frame of the phase at its start, NOT READY or the buffer's, is shifted out
after the link byte, with zero bytes beyond it; a response read in full leaves the buffer, any other stays whole. A
response frame is the status code, the field length in two bytes, most significant first, and the fields; the 18 status
codes are those of the table (R184, R194). -/
def Obligations.ResponseRead : Prop :=
  (∀ (status : Status) (fields : List Byte), fields.length ≤ 512 → ∃ high low : Byte,
    responseFrame status fields = BitVec.ofNat 8 status.code :: high :: low :: fields ∧
    256 * high.toNat + low.toNat = fields.length) ∧
  [Status.ok, .accepted, .notReady, .busy, .state, .order, .range, .absent, .present, .pinned, .bound, .full, .overflow,
    .notEmpty, .emptyPage, .chainFull, .poolEmpty, .malformed].map Status.code = List.range 18 ∧
  ∀ (n : Nat) (phase : PhaseName) (frame : List Byte) (s : State), s.chip.resetPin = false →
    s.management.transaction = some ⟨2, phase⟩ →
    frame = (if phase = .pending then s.management.buffer else [2, 0, 0]) →
    ∃ t, exec (.responseTransaction n) s = .next t ∧ t.management.transaction = none ∧
      t.management.shiftOut.length = n + 1 ∧
      (∀ i, i < n → t.management.shiftOut[i + 1]? = some (frame[i]?.getD 0)) ∧
      (phase = .pending → frame.length ≤ n → t.management.phase = .idle ∧ t.management.buffer = []) ∧
      (phase ≠ .pending ∨ n < frame.length →
        t.management.phase = s.management.phase ∧ t.management.buffer = s.management.buffer) ∧
      t = { s with management := t.management }

/-- A refused command changes nothing (R185): whenever the response made ready carries a status other than OK and
ACCEPTED, only the management link differs. During INIT a command that its link carries is answered BUSY, but for
IDENTIFY, READ STATUS, READ EVENTS and ENABLE EVENTS (R189). -/
def Obligations.RefusalChangesNothing : Prop :=
  ∀ (c : Instr) (s : State), isManagementCommand c = true →
    (∀ t, exec c s = .next t → t.management.buffer.head? ≠ some 0 → t.management.buffer.head? ≠ some 1 →
      t = { s with management := t.management }) ∧
    (s.Taken c → s.chip.inInit = true → c ≠ .identify → c ≠ .readStatus → c ≠ .readEvents →
      (∀ mask, c ≠ .enableEvents mask) → ∃ t, exec c s = .next t ∧ s.Refused t .busy)

/-! ### The management commands -/

/-- IDENTIFY answers the codes, N and the capacities (R190); READ STATUS the report of R191, with page and cursor of an
IDLE sequencer read as 0; both also during INIT (R189). SET LINK ORDER sets the wrap order by its code, and refuses
any other value (R7). The widths of the fields of the two reports are the model's (assumption 14). -/
def Obligations.PartCommands : Prop :=
  ∀ s : State,
    (s.Taken .identify → exec .identify s = .next { s with management := s.answered .ok (
      bytesOf 2 5841 ++ bytesOf 2 740 ++ bytesOf 1 1 ++ bytesOf 3 s.chip.strips ++ bytesOf 1 16 ++ bytesOf 3 65536 ++
      bytesOf 2 8192 ++ bytesOf 1 4 ++ bytesOf 1 16 ++ bytesOf 2 1024 ++ bytesOf 1 8 ++ bytesOf 2 256 ++ bytesOf 1 64 ++
      bytesOf 1 128 ++ bytesOf 2 1024 ++ bytesOf 1 32 ++ bytesOf 1 32 ++ bytesOf 1 32) }) ∧
    (s.Taken .readStatus → ∃ page cursor, exec .readStatus s = .next { s with management := s.answered .ok (
      bytesOf 1 (flagCode s.chip.inInit) ++ bytesOf 3 s.chip.strips ++ bytesOf 1 s.store.edition.code ++
      bytesOf 3 s.store.edition.number ++ bytesOf 3 s.store.lastEdition ++ bytesOf 3 s.store.freeQueue.length ++
      bytesOf 3 s.store.reserve ++ bytesOf 2 (8192 - s.store.versions.length) ++ bytesOf 2 1024 ++
      bytesOf 2 (1024 - s.restore.records.length) ++ bytesOf 1 s.restore.sequencer.state.code ++ bytesOf 2 page ++
      bytesOf 2 cursor ++ bytesOf 1 s.restore.sequencer.outcome.code ++ bytesOf 2 s.restore.sequencer.outcome.page ++
      bytesOf 2 s.restore.sequencer.outcome.version ++ bytesOf 2 s.log.charges.length ++
      bytesOf 4 s.log.nextSequence.toNat ++ bytesOf 1 s.reports.faults.length) } ∧
      (s.restore.sequencer.state = .idle → page = 0 ∧ cursor = 0) ∧
      (s.restore.sequencer.state ≠ .idle → page = s.restore.sequencer.page ∧ cursor = s.restore.sequencer.cursor)) ∧
    ∀ order : Nat, s.Ready (.setLinkOrder order) → ∃ t, exec (.setLinkOrder order) s = .next t ∧
      (1 < order → s.Refused t .range) ∧
      (order ≤ 1 → t = { s with
        link := { s.link with wrapOrder := if order = 0 then .sequential else .interleaved }
        management := s.answered .ok [] })

/-- RESET ENGINE (R192, R22, R48, R145, R168): refused with NOT EMPTY while the charge log holds a record; otherwise it is
ACCEPTED, every table is cleared and INIT entered; the buffered writes are abandoned with their credits returned, each
outstanding read not yet SENDING is answered UNMAPPED; the READY ones keep their places in the order, and the others join
it together as one group; the store port's queues are emptied, its started accesses stay to be carried out, a write with
its data and enables and with no effect but its bytes, a read to be discarded, and the banks are to be closed; N, the
wrap order, the settings of the port, the store's contents and the next sequence number are kept. -/
def Obligations.EngineReset : Prop :=
  ∀ s : State, s.Ready .resetEngine → ∃ t, exec .resetEngine s = .next t ∧
    (s.log.charges ≠ [] → s.Refused t .notEmpty) ∧
    (s.log.charges = [] →
      t.Cleared ∧ t.chip = { s.chip with inInit := true } ∧ t.store.reserve = s.chip.strips / 16 ∧
      t.log.charges = [] ∧ t.log.nextSequence = s.log.nextSequence ∧ t.memory = s.memory ∧
      t.management = s.answered .accepted [] ∧
      t.link.linkUp = s.link.linkUp ∧ t.link.wrapOrder = s.link.wrapOrder ∧ t.link.sending = s.link.sending ∧
      t.link.writeBuffer = [] ∧ t.link.readCredits = s.link.readCredits ∧
      t.link.writeCredits =
        (if s.link.linkUp = true then s.link.writeCredits + s.link.writeBuffer.length else s.link.writeCredits) ∧
      (∀ u, (s.link.tag u).state = .free ∨ (s.link.tag u).state = .sending → t.link.tag u = s.link.tag u) ∧
      (∀ u, (s.link.tag u).state ≠ .free → (s.link.tag u).state ≠ .sending →
        t.link.tag u = { s.link.tag u with state := .ready, answer := some ⟨.unmapped, List.replicate 64 0⟩ }) ∧
      (∀ joins : Fin 32 → Prop,
        (∀ u, joins u ↔ (s.link.tag u).state = .waiting ∨ (s.link.tag u).state = .decoding ∨
          (s.link.tag u).state = .queued) →
        ((∀ u, ¬ joins u) → t.link.readyOrder = s.link.readyOrder) ∧
        ((∃ u, joins u) → ∃ group, t.link.readyOrder = s.link.readyOrder ++ [group] ∧ group.Nodup ∧
          ∀ u, u ∈ group ↔ joins u)) ∧
      t.link = { s.link with
        tags := t.link.tags, readyOrder := t.link.readyOrder, writeBuffer := [], attemptDue := t.link.attemptDue
        writeCredits := t.link.writeCredits } ∧
      t.port.linkQueue = [] ∧ t.port.engineQueue = [] ∧ t.port.issueList.length = s.port.issueList.length ∧
      (∀ (i : Nat) (a : Access), s.port.issueList[i]? = some a →
        (∀ u r l e d, a = .lineRead u r l e d → t.port.issueList[i]? = some (.lineRead u r l e true)) ∧
        (∀ r l data e holder, a = .lineWrite r l data e holder →
          t.port.issueList[i]? = some (.lineWrite r l data e none)) ∧
        (∀ g r l d, a = .readSegment g r l d → t.port.issueList[i]? = some (.readSegment g r l true)) ∧
        (∀ g r l data d, a = .writeSegment g r l data d →
          t.port.issueList[i]? = some (.writeSegment g r l data true))) ∧
      t.port.quiet = (if s.port.quietTime = 0 then .expired else .running s.chip.now) ∧
      t.port = { s.port with
        linkQueue := [], engineQueue := [], issueList := t.port.issueList, aging := .stopped, quiet := t.port.quiet
        resetClosing := !(s.port.issueList.isEmpty && s.port.allIdle) })

/-- SET APERTURE (R11): a field outside its values is refused with RANGE, a REPRINT descriptor whose job is not OPEN with
STATE; otherwise the whole descriptor is replaced by the canonical form of the fields. READ APERTURE reports the six
fields as stored (R14). -/
def Obligations.ApertureCommands : Prop :=
  ∀ (a st k sel r job fill : Nat) (s : State),
    (s.Ready (.setAperture a st k sel r job fill) → ∃ t, exec (.setAperture a st k sel r job fill) s = .next t ∧
      (16 ≤ a ∨ 1 < st ∨ 4 < k ∨ 16777215 < sel ∨ 1 < r ∨ 64 ≤ job → s.Refused t .range) ∧
      (a < 16 → st ≤ 1 → k ≤ 4 → sel ≤ 16777215 → r ≤ 1 → job < 64 →
        (k = 4 → (s.meter.job job).state ≠ .opened → s.Refused t .state) ∧
        ((k = 4 → (s.meter.job job).state = .opened) →
          (t.aperture a).state = (if st = 0 then .disabled else .enabled) ∧
          (t.aperture a).kind =
            (match k with | 0 => .edition | 1 => .load | 2 => .historic | 3 => .restored | _ => .reprint) ∧
          (t.aperture a).selector = (if k < 2 ∨ sel = 0 then none else some sel) ∧
          (t.aperture a).restored = decide (k = 3 ∨ k = 4 ∧ r = 1) ∧
          (t.aperture a).job = (if k = 4 then job else 0) ∧
          (t.aperture a).fill = (if k = 4 then BitVec.ofNat 8 fill else 224) ∧
          (∀ b, b ≠ a → t.aperture b = s.aperture b) ∧
          t = { s with apertures := t.apertures, management := s.answered .ok [] }))) ∧
    (s.Ready (.readAperture a) → ∃ t, exec (.readAperture a) s = .next t ∧
      (16 ≤ a → s.Refused t .range) ∧
      (∀ d, a < 16 → d = s.aperture a →
        t = { s with management := s.answered .ok (bytesOf 1 d.state.code ++ bytesOf 1 d.kind.code ++
          bytesOf 3 (match d.selector with | none => 0 | some e => e) ++ bytesOf 1 (if d.restored then 1 else 0) ++
          bytesOf 1 d.job ++ bytesOf 1 d.fill.toNat) }))

/-- CREATE PAGE (R36), FINISH LOAD (R38), SET EMBARGO (R39) and SET RATE CLASS (R40): the checks in their order, each with
its refusal, and the effect on the entry and, for FINISH LOAD, on the OPEN version at the head of its chain. That start
LOADING is 1 for yes and 0 for no is the model's choice (assumption 14). -/
def Obligations.DirectoryCommands : Prop :=
  ∀ (p kind rateClass day edition loading : Nat) (s : State) (pg : Page), pg = s.store.page p →
    (s.Ready (.createPage p kind rateClass day edition loading) →
      ∃ t, exec (.createPage p kind rateClass day edition loading) s = .next t ∧
      (65536 ≤ p ∨ 1 < kind ∨ 32 ≤ rateClass ∨ 131071 < day ∨ edition < 1 ∨ 16777215 < edition ∨ 1 < loading →
        s.Refused t .range) ∧
      (p < 65536 → kind ≤ 1 → rateClass < 32 → day ≤ 131071 → 1 ≤ edition → edition ≤ 16777215 → loading ≤ 1 →
        (pg.state ≠ .absent → s.Refused t .present) ∧
        (pg.state = .absent → loading = 1 →
          s.store.lastEdition < edition ∨ edition = s.store.lastEdition ∧ s.store.edition ≠ .none → s.Refused t .order) ∧
        (pg.state = .absent →
          loading = 0 ∨ edition ≤ s.store.lastEdition ∧ (edition = s.store.lastEdition → s.store.edition = .none) →
          t.store.page p = ⟨if loading = 1 then .loading else .live, if kind = 0 then .page else .photo, rateClass, day,
            edition, none, [], none, none, 0, false, 0⟩ ∧
          (∀ q, q ≠ p → t.store.page q = s.store.page q) ∧
          t = { s with store := { s.store with pages := t.store.pages }, management := s.answered .ok [] }))) ∧
    (s.Ready (.finishLoad p) → ∃ t, exec (.finishLoad p) s = .next t ∧
      (65536 ≤ p → s.Refused t .range) ∧
      (p < 65536 → pg.state ≠ .loading → s.Refused t .state) ∧
      (p < 65536 → pg.state = .loading → pg.copies ≠ 0 → s.Refused t .busy) ∧
      (p < 65536 → pg.state = .loading → pg.copies = 0 →
        t.store.page p = { pg with state := .live } ∧ (∀ q, q ≠ p → t.store.page q = s.store.page q) ∧
        (∀ n, Table.read t.store.versions n =
          if pg.chain.head? = some n then
            (Table.read s.store.versions n).map fun v => if v.lock = .openLock then { v with lock := .locked } else v
          else Table.read s.store.versions n) ∧
        t = { s with
          store := { s.store with pages := t.store.pages, versions := t.store.versions }
          management := s.answered .ok [] })) ∧
    (s.Ready (.setEmbargo p day) → ∃ t, exec (.setEmbargo p day) s = .next t ∧
      (65536 ≤ p ∨ 131071 < day ∧ day ≠ 16777215 → s.Refused t .range) ∧
      (p < 65536 → day ≤ 131071 ∨ day = 16777215 → pg.state = .absent → s.Refused t .absent) ∧
      (p < 65536 → day ≤ 131071 ∨ day = 16777215 → pg.state ≠ .absent →
        t.store.page p = { pg with embargo := if day = 16777215 then none else some day } ∧
        (∀ q, q ≠ p → t.store.page q = s.store.page q) ∧
        t = { s with store := { s.store with pages := t.store.pages }, management := s.answered .ok [] })) ∧
    (s.Ready (.setRateClass p rateClass) → ∃ t, exec (.setRateClass p rateClass) s = .next t ∧
      (65536 ≤ p ∨ 32 ≤ rateClass → s.Refused t .range) ∧
      (p < 65536 → rateClass < 32 → pg.state = .absent → s.Refused t .absent) ∧
      (p < 65536 → rateClass < 32 → pg.state ≠ .absent →
        t.store.page p = { pg with rateClass := rateClass } ∧ (∀ q, q ≠ p → t.store.page q = s.store.page q) ∧
        t = { s with store := { s.store with pages := t.store.pages }, management := s.answered .ok [] }))

/-- DISCARD VERSION (R41, R42): the checks in their order; then the version is released and leaves the chain, and a
WAITING commit is looked at again (R95), which is `resumeCommit`, stated by WaitingCommitResumes. READ PAGE (R45)
reports the entry, its versions from head to tail, and the building version after them; the widths of its fields are
the model's (assumption 14). -/
def Obligations.VersionCommands : Prop :=
  ∀ (p n : Nat) (s : State) (pg : Page), pg = s.store.page p →
    (s.Ready (.discardVersion p n) → ∃ t, exec (.discardVersion p n) s = .next t ∧
      (65536 ≤ p ∨ 8192 ≤ n → s.Refused t .range) ∧
      (p < 65536 → n < 8192 →
        (pg.state = .absent ∨ (∀ v, Table.read s.store.versions n = some v → v.page ≠ p) → s.Refused t .absent) ∧
        (∀ v, pg.state ≠ .absent → Table.read s.store.versions n = some v → v.page = p →
          (v.lock ≠ .locked → s.Refused t .state) ∧
          (v.lock = .locked → pg.pins ≠ 0 ∨ pg.committing = true → s.Refused t .pinned) ∧
          (v.lock = .locked → pg.pins = 0 → pg.committing = false →
            pg.copies ≠ 0 ∨ (∃ i ∈ v.delta.map Prod.snd, s.port.holds i = true) → s.Refused t .busy) ∧
          (v.lock = .locked → pg.pins = 0 → pg.committing = false → pg.copies = 0 →
            (∀ i ∈ v.delta.map Prod.snd, s.port.holds i = false) →
            ∃ u : State, t = { u.resumeCommit with management := s.answered .ok [] } ∧
              s.store.Released u.store n v ∧ u.store.page p = { pg with chain := pg.chain.filter (· != n) } ∧
              (∀ q, q ≠ p → u.store.page q = s.store.page q) ∧
              u = { s with store := { s.store with
                pages := u.store.pages, versions := u.store.versions, strips := u.store.strips
                freeQueue := u.store.freeQueue } })))) ∧
    (s.Ready (.readPage p) → ∃ t, exec (.readPage p) s = .next t ∧
      (65536 ≤ p → s.Refused t .range) ∧
      (p < 65536 → ∀ version : Nat → List Byte,
        (∀ m, version m = match Table.read s.store.versions m with
          | none => []
          | some v => bytesOf 2 m ++ bytesOf 1 v.origin.code ++ bytesOf 3 v.edition ++ bytesOf 1 v.lock.code ++
              bytesOf 2 v.delta.length) →
        t = { s with management := s.answered .ok (bytesOf 1 pg.state.code ++ bytesOf 1 pg.kind.code ++
          bytesOf 1 pg.rateClass ++ bytesOf 3 pg.day ++ bytesOf 3 pg.edition ++
          bytesOf 3 (match pg.embargo with | none => 16777215 | some d => d) ++
          bytesOf 1 (flagCode pg.record.isSome) ++ bytesOf 2 (pg.record.getD 0) ++ bytesOf 1 pg.pins ++
          bytesOf 1 (flagCode pg.committing) ++ bytesOf 1 pg.copies ++ bytesOf 1 pg.chain.length ++
          pg.chain.flatMap version ++ (match pg.building with | none => [] | some m => version m)) }))

/-- RETIRE PAGE (R43, R44): the checks in their order; then every version of the page is released, from head to tail, its
restoration record is freed, and the entry is ABSENT with its values of R24; a WAITING commit is looked at again
(R95). The chain is taken to be well kept, as every chain of a run is. -/
def Obligations.PageRetired : Prop :=
  ∀ (p : Nat) (s : State) (pg : Page), pg = s.store.page p → s.Ready (.retirePage p) → s.Chained →
    ∃ t, exec (.retirePage p) s = .next t ∧
      (65536 ≤ p → s.Refused t .range) ∧
      (p < 65536 →
        (pg.state = .absent → s.Refused t .absent) ∧
        (pg.state ≠ .absent →
          ((∃ n ∈ pg.chain, ∃ v, Table.read s.store.versions n = some v ∧ v.lock = .openLock ∧ v.origin = .edition) →
            s.Refused t .state) ∧
          ((∀ n ∈ pg.chain, ∀ v, Table.read s.store.versions n = some v → v.lock = .openLock → v.origin ≠ .edition) →
            (pg.pins ≠ 0 ∨ pg.committing = true → s.Refused t .pinned) ∧
            (pg.pins = 0 → pg.committing = false →
              (pg.copies ≠ 0 ∨ (∃ n ∈ pg.chain, ∃ v, Table.read s.store.versions n = some v ∧
                ∃ i ∈ v.delta.map Prod.snd, s.port.holds i = true) → s.Refused t .busy) ∧
              (pg.copies = 0 → (∀ n ∈ pg.chain, ∀ v, Table.read s.store.versions n = some v →
                ∀ i ∈ v.delta.map Prod.snd, s.port.holds i = false) →
                ∃ u : State, t = { u.resumeCommit with management := s.answered .ok [] } ∧
                  u.store.freeQueue = s.store.freeQueue ++ pg.chain.flatMap (fun n =>
                    match Table.read s.store.versions n with
                    | none => []
                    | some v => v.delta.map Prod.snd) ∧
                  (∀ n ∈ pg.chain, Table.read u.store.versions n = none) ∧
                  (∀ n, n ∉ pg.chain → Table.read u.store.versions n = Table.read s.store.versions n) ∧
                  (∀ n ∈ pg.chain, ∀ v, Table.read s.store.versions n = some v →
                    ∀ i ∈ v.delta.map Prod.snd, Table.read u.store.strips i = none) ∧
                  (∀ i, (∀ n ∈ pg.chain, ∀ v, Table.read s.store.versions n = some v → i ∉ v.delta.map Prod.snd) →
                    Table.read u.store.strips i = Table.read s.store.strips i) ∧
                  u.store.page p = ⟨.absent, .page, 0, 0, 0, none, [], none, none, 0, false, 0⟩ ∧
                  (∀ q, q ≠ p → u.store.page q = s.store.page q) ∧
                  (∀ r, Table.read u.restore.records r =
                    if pg.record = some r then none else Table.read s.restore.records r) ∧
                  u = { s with
                    store := { s.store with
                      pages := u.store.pages, versions := u.store.versions, strips := u.store.strips
                      freeQueue := u.store.freeQueue }
                    restore := { s.restore with records := u.restore.records } })))))

/-- A WAITING commit goes on when the free count is above the reserve (R95): it is RUNNING again and the examination of its
cursor, which CursorExamined states, falls due; in any other case nothing changes. The allocation is made at once, or
later with COMMIT_SEGMENT_ISSUE, as a free choice has it (the model's, assumptions 28 and 36). When another allocation
between them takes the count back to the reserve, the sequencer finds it there, is WAITING again, and sets COMMIT WAITING
again. SET STORE RESERVE (R49, R50) refuses a value above N/2 with RANGE; otherwise the reserve is set, STORE LOW is set when the
free count was above the old reserve and is not above the new one, and a WAITING commit is looked at again. -/
def Obligations.WaitingCommitResumes : Prop :=
  ∀ (s : State),
    (s.restore.sequencer.state = .waiting → s.store.reserve < s.store.freeQueue.length →
      State.ExaminationDue { s with
        restore := { s.restore with sequencer := { s.restore.sequencer with state := .running } } } s.resumeCommit) ∧
    (∀ i source, s.chip.resetPin = false → s.restore.sequencer.state = .running →
      s.restore.sequencer.inProgress = false → s.restore.sequencer.cursor = i → i < 512 →
      s.store.resolveFrom s.restore.sequencer.page s.restore.sequencer.snapshot i = some source →
      s.store.freeQueue.length ≤ s.store.reserve →
      exec .commitSegmentIssue s = .next { s with
        restore := { s.restore with sequencer := { s.restore.sequencer with state := .waiting } }
        reports := { s.reports with statuses := { s.reports.statuses with commitWaiting := true } } }) ∧
    (s.restore.sequencer.state ≠ .waiting ∨ s.store.freeQueue.length ≤ s.store.reserve → s.resumeCommit = s) ∧
    ∀ reserve : Nat, s.Ready (.setStoreReserve reserve) → ∃ t, exec (.setStoreReserve reserve) s = .next t ∧
      (s.chip.strips / 2 < reserve → s.Refused t .range) ∧
      (reserve ≤ s.chip.strips / 2 → ∃ u : State, t = { u.resumeCommit with management := s.answered .ok [] } ∧
        u = { s with
          store := { s.store with reserve := reserve }
          reports := { s.reports with statuses := { s.reports.statuses with
            storeLow := s.reports.statuses.storeLow ||
              decide (s.store.reserve < s.store.freeQueue.length ∧ s.store.freeQueue.length ≤ reserve) } } })

/-- OPEN EDITION (R52): refused with RANGE, BUSY or ORDER, in this order; otherwise the state is OPEN at the number, which
is the last edition number too. CLOSE EDITION (R53, R54): refused with STATE unless an edition is OPEN; otherwise
ACCEPTED, and with no slot COPYING into a strip of an OPEN EDITION version and no held write for such a strip it ends
at once: every OPEN EDITION version is LOCKED, the state NONE, and EDITION CLOSED set; else the state is CLOSING. -/
def Obligations.EditionCommands : Prop :=
  ∀ (n : Nat) (s : State),
    (s.Ready (.openEdition n) → ∃ t, exec (.openEdition n) s = .next t ∧
      (n < 1 ∨ 16777215 < n → s.Refused t .range) ∧
      (1 ≤ n → n ≤ 16777215 → s.store.edition ≠ .none → s.Refused t .busy) ∧
      (1 ≤ n → n ≤ 16777215 → s.store.edition = .none → n ≤ s.store.lastEdition → s.Refused t .order) ∧
      (1 ≤ n → n ≤ 16777215 → s.store.edition = .none → s.store.lastEdition < n →
        t = { s with
          store := { s.store with edition := .opened n, lastEdition := n }, management := s.answered .ok [] })) ∧
    (s.Ready .closeEdition → ∃ t, exec .closeEdition s = .next t ∧
      ((∀ m, s.store.edition ≠ .opened m) → s.Refused t .state) ∧
      (∀ m, s.store.edition = .opened m →
        (s.store.EditionCopies →
          t = { s with store := { s.store with edition := .closing m }, management := s.answered .accepted [] }) ∧
        (¬ s.store.EditionCopies →
          (∀ i, Table.read t.store.versions i = (Table.read s.store.versions i).map fun v =>
            if v.lock = .openLock ∧ v.origin = .edition then { v with lock := .locked } else v) ∧
          t = { s with
            store := { s.store with edition := .none, versions := t.store.versions }
            reports := { s.reports with statuses := { s.reports.statuses with editionClosed := true } }
            management := s.answered .accepted [] })))

/-- WRITE RESTORATION (R72, R75, R76): the checks in their order; then the page's record takes the new geometry and keeps
its defect list, or, for a page without one, the lowest-numbered free record is attached with an empty list. -/
def Obligations.RestorationWritten : Prop :=
  ∀ (p w pitch h k wt curve : Nat) (s : State) (pg : Page), pg = s.store.page p →
    s.Ready (.writeRestoration p w pitch h k wt curve) →
    ∃ t, exec (.writeRestoration p w pitch h k wt curve) s = .next t ∧
      (65536 ≤ p ∨ pitch < 64 ∨ 65536 < pitch ∨ pitch % 64 ≠ 0 ∨ w < 1 ∨ pitch < w ∨ h < 1 ∨ 524288 < h ∨
        33554432 < h * pitch ∨ 254 < k ∨ wt ≤ k ∨ 255 < wt ∨ 8 ≤ curve → s.Refused t .range) ∧
      (p < 65536 → 64 ≤ pitch → pitch ≤ 65536 → pitch % 64 = 0 → 1 ≤ w → w ≤ pitch → 1 ≤ h → h ≤ 524288 →
        h * pitch ≤ 33554432 → k ≤ 254 → k < wt → wt ≤ 255 → curve < 8 →
        (pg.state = .absent → s.Refused t .absent) ∧
        (pg.state ≠ .absent → pg.committing = true → s.Refused t .busy) ∧
        (pg.state ≠ .absent → pg.committing = false →
          (∀ n r, pg.record = some n → Table.read s.restore.records n = some r →
            ((∃ e ∈ r.defects, w ≤ e.x1 ∨ h ≤ e.y1) → s.Refused t .range) ∧
            ((∀ e ∈ r.defects, e.x1 < w ∧ e.y1 < h) →
              Table.read t.restore.records n = some ⟨r.owner, w, pitch, h, k, wt, curve, r.defects⟩ ∧
              (∀ m, m ≠ n → Table.read t.restore.records m = Table.read s.restore.records m) ∧
              t = { s with
                restore := { s.restore with records := t.restore.records }, management := s.answered .ok [] })) ∧
          (pg.record = none →
            ((∀ n, n < 1024 → Table.has s.restore.records n = true) → s.Refused t .full) ∧
            (∀ n, n < 1024 → Table.has s.restore.records n = false →
              (∀ m, m < n → Table.has s.restore.records m = true) →
              Table.read t.restore.records n = some ⟨p, w, pitch, h, k, wt, curve, []⟩ ∧
              (∀ m, m ≠ n → Table.read t.restore.records m = Table.read s.restore.records m) ∧
              t.store.page p = { pg with record := some n } ∧ (∀ q, q ≠ p → t.store.page q = s.store.page q) ∧
              t = { s with
                restore := { s.restore with records := t.restore.records }
                store := { s.store with pages := t.store.pages }, management := s.answered .ok [] }))))

/-- ADD DEFECT (R73, R77) and CLEAR DEFECTS (R78): the checks in their order; then the entry joins the end of the record's
list, or the list is empty. READ RESTORATION (R81) reports the record and its list. The widths of the report's fields
are the model's (assumption 14). DETACH RESTORATION (R79): the checks in their order; then the record is free and the
entry's absent. LOAD CURVE (R80): a curve, quarter or count outside its range is refused with RANGE; otherwise the 64
entries of the quarter take the values and no other entry of any curve changes. -/
def Obligations.RecordsAndCurves : Prop :=
  (∀ (p x0 y0 x1 y1 fill : Nat) (s : State) (pg : Page), pg = s.store.page p →
     (s.Ready (.addDefect p x0 y0 x1 y1 fill) → ∃ t, exec (.addDefect p x0 y0 x1 y1 fill) s = .next t ∧
       (65536 ≤ p ∨ 65535 < x0 ∨ 65535 < x1 ∨ 524287 < y0 ∨ 524287 < y1 ∨ 255 < fill → s.Refused t .range) ∧
       (p < 65536 → x0 ≤ 65535 → x1 ≤ 65535 → y0 ≤ 524287 → y1 ≤ 524287 → fill ≤ 255 →
         (pg.state = .absent ∨ pg.record = none → s.Refused t .absent) ∧
         (∀ n r, pg.state ≠ .absent → pg.record = some n → Table.read s.restore.records n = some r →
           (x1 < x0 ∨ r.width ≤ x1 ∨ y1 < y0 ∨ r.height ≤ y1 → s.Refused t .range) ∧
           (x0 ≤ x1 → x1 < r.width → y0 ≤ y1 → y1 < r.height →
             (32 ≤ r.defects.length → s.Refused t .full) ∧
             (r.defects.length < 32 →
               Table.read t.restore.records n =
                 some { r with defects := r.defects ++ [⟨x0, y0, x1, y1, BitVec.ofNat 8 fill⟩] } ∧
               (∀ m, m ≠ n → Table.read t.restore.records m = Table.read s.restore.records m) ∧
               t = { s with
                 restore := { s.restore with records := t.restore.records }, management := s.answered .ok [] }))))) ∧
     (s.Ready (.clearDefects p) → ∃ t, exec (.clearDefects p) s = .next t ∧
       (65536 ≤ p → s.Refused t .range) ∧
       (p < 65536 → pg.state = .absent ∨ pg.record = none → s.Refused t .absent) ∧
       (∀ n r, p < 65536 → pg.state ≠ .absent → pg.record = some n → Table.read s.restore.records n = some r →
         Table.read t.restore.records n = some { r with defects := [] } ∧
         (∀ m, m ≠ n → Table.read t.restore.records m = Table.read s.restore.records m) ∧
         t = { s with restore := { s.restore with records := t.restore.records }, management := s.answered .ok [] })) ∧
     (s.Ready (.readRestoration p) → ∃ t, exec (.readRestoration p) s = .next t ∧
       (65536 ≤ p → s.Refused t .range) ∧
       (p < 65536 → pg.state = .absent ∨ pg.record = none → s.Refused t .absent) ∧
       (∀ n r, p < 65536 → pg.state ≠ .absent → pg.record = some n → Table.read s.restore.records n = some r →
         t = { s with management := s.answered .ok (bytesOf 2 n ++ bytesOf 2 r.owner ++ bytesOf 3 r.width ++
           bytesOf 3 r.pitch ++ bytesOf 3 r.height ++ bytesOf 1 r.black ++ bytesOf 1 r.white ++ bytesOf 1 r.curve ++
           bytesOf 1 r.defects.length ++ r.defects.flatMap fun e =>
             bytesOf 2 e.x0 ++ bytesOf 3 e.y0 ++ bytesOf 2 e.x1 ++ bytesOf 3 e.y1 ++ [e.fill]) }))) ∧
  (∀ (p curve quarter : Nat) (values : List Byte) (s : State) (pg : Page), pg = s.store.page p →
     (s.Ready (.detachRestoration p) → ∃ t, exec (.detachRestoration p) s = .next t ∧
       (65536 ≤ p → s.Refused t .range) ∧
       (p < 65536 → pg.state = .absent ∨ pg.record = none → s.Refused t .absent) ∧
       (∀ n, p < 65536 → pg.state ≠ .absent → pg.record = some n → pg.committing = true → s.Refused t .busy) ∧
       (∀ n, p < 65536 → pg.state ≠ .absent → pg.record = some n → pg.committing = false →
         Table.read t.restore.records n = none ∧
         (∀ m, m ≠ n → Table.read t.restore.records m = Table.read s.restore.records m) ∧
         t.store.page p = { pg with record := none } ∧ (∀ q, q ≠ p → t.store.page q = s.store.page q) ∧
         t = { s with
           restore := { s.restore with records := t.restore.records }, store := { s.store with pages := t.store.pages }
           management := s.answered .ok [] })) ∧
     (s.Ready (.loadCurve curve quarter values) → ∃ t, exec (.loadCurve curve quarter values) s = .next t ∧
       (8 ≤ curve ∨ 4 ≤ quarter ∨ values.length ≠ 64 → s.Refused t .range) ∧
       (curve < 8 → quarter < 4 → values.length = 64 →
         (∀ c i, c < 8 → i < 256 → t.restore.curveEntry c i =
           if c = curve ∧ 64 * quarter ≤ i ∧ i < 64 * quarter + 64 then values.getD (i - 64 * quarter) 0
           else s.restore.curveEntry c i) ∧
         t = { s with restore := { s.restore with curves := t.restore.curves }, management := s.answered .ok [] })))

/-- COMMIT RESTORATION (R91, R92): the seven checks in their order; then it is ACCEPTED: the lowest-numbered free version is
BUILDING, of origin RESTORED, with the head's edition number and an empty delta list; the page is flagged; the
sequencer is RUNNING from strip index 0 on the snapshot of the chain at its head, and the examination of its cursor,
which CursorExamined states, falls due (ExaminationDue: only its allocation may come later, assumptions 28 and 36).
ABORT COMMIT (R101, R102) is refused with STATE on an IDLE sequencer and accepted with no effect on an ABORTING one. On a
RUNNING or WAITING one an allocation still owed is made first (its cause came before the abort), then the request that
has not started is withdrawn, be it a read or a write segment (for the write DEDUCED, assumption 15), the aging clock
stops when that empties the engine-side queue (R157), and the abort ends at once unless a segment of the sequencer is in
progress at the store port, when it is ABORTING. -/
def Obligations.CommitStartsAndAborts : Prop :=
  (∀ (p : Nat) (s : State) (pg : Page), pg = s.store.page p → s.Ready (.commitRestoration p) →
     ∃ t, exec (.commitRestoration p) s = .next t ∧
       (65536 ≤ p → s.Refused t .range) ∧
       (p < 65536 →
         (s.restore.sequencer.state ≠ .idle → s.Refused t .busy) ∧
         (s.restore.sequencer.state = .idle →
           (pg.state = .absent ∨ pg.record = none → s.Refused t .absent) ∧
           (pg.state ≠ .absent → pg.record ≠ none →
             (pg.state = .loading ∨ (∃ v, s.store.head p = some v ∧ v.lock = .openLock) → s.Refused t .state) ∧
             (pg.state = .live → (∀ v, s.store.head p = some v → v.lock ≠ .openLock) →
               (16 ≤ pg.chain.length → s.Refused t .chainFull) ∧
               (pg.chain.length < 16 →
                 ((∀ n, n < 8192 → Table.has s.store.versions n = true) → s.Refused t .poolEmpty) ∧
                 (∀ n, n < 8192 → Table.has s.store.versions n = false →
                   (∀ m, m < n → Table.has s.store.versions m = true) →
                   (s.store.head p = none ∨ (∀ i, i < 512 → walk s.store.versions none false i pg.chain = none) →
                     s.Refused t .emptyPage) ∧
                   (∀ head snapshot i, s.store.head p = some head → pg.chain.head? = some snapshot → i < 512 →
                     walk s.store.versions none false i pg.chain ≠ none →
                     ∃ u v : State, u.ExaminationDue v ∧ t = { v with management := s.answered .accepted [] } ∧
                       Table.read u.store.versions n = some ⟨p, .restored, head.edition, .building, []⟩ ∧
                       (∀ m, m ≠ n → Table.read u.store.versions m = Table.read s.store.versions m) ∧
                       u.store.page p = { pg with building := some n, committing := true } ∧
                       (∀ q, q ≠ p → u.store.page q = s.store.page q) ∧
                       u.restore.sequencer = ⟨.running, p, snapshot, n, 0, 0, 0, 0, false, .none, none, false,
                         s.restore.sequencer.outcome⟩ ∧
                       u = { s with
                         store := { s.store with pages := u.store.pages, versions := u.store.versions }
                         restore := { s.restore with sequencer := u.restore.sequencer } })))))))) ∧
  (∀ s : State, s.Ready .abortCommit → ∃ t, exec .abortCommit s = .next t ∧
     (s.restore.sequencer.state = .idle → s.Refused t .state) ∧
     (s.restore.sequencer.state = .aborting → t = { s with management := s.answered .accepted [] }) ∧
     (s.restore.sequencer.state = .running ∨ s.restore.sequencer.state = .waiting → ∃ r : State,
       (s.OwesStrip → r = s.examine) ∧ (¬ s.OwesStrip → r = s) ∧ t.management = s.answered .accepted [] ∧
       t.port.engineQueue = s.port.engineQueue.filter (fun a => a.engine != some .sequencer) ∧
       t.port = { s.port with
         engineQueue := t.port.engineQueue, aging := if t.port.engineQueue = [] then .stopped else s.port.aging } ∧
       ((∃ a ∈ s.port.issueList, a.engine = some .sequencer ∧ a.isDropped = false) →
         t = { r with
           restore := { r.restore with sequencer := { r.restore.sequencer with state := .aborting } }
           port := t.port, management := t.management }) ∧
       ((∀ a ∈ s.port.issueList, a.engine = some .sequencer → a.isDropped = true) →
         r.AbortEnded t ∧
         t = { r with
           store := t.store, restore := t.restore, reports := t.reports, port := t.port, management := t.management })))

/-- OPEN ACCOUNT (R107), CREDIT ACCOUNT (R108), SUSPEND and RESUME ACCOUNT (R109): the account number is checked first
(§6.1.1), then each rule's checks in their order; then the account alone changes, as the rule says. SET DISCOUNT
(R110), CLOSE ACCOUNT (R111) and READ ACCOUNT (R112): the account number is checked first (§6.1.1), then each rule's
checks in their order. A discount above 100 is stored as 100; a closed account keeps its figures; the report gives the
fields of R105 and changes nothing. -/
def Obligations.AccountsKept : Prop :=
  (∀ (a amount : Nat) (s : State) (x : Account), x = s.meter.account a →
     (s.Ready (.openAccount a) → ∃ t, exec (.openAccount a) s = .next t ∧
       (256 ≤ a → s.Refused t .range) ∧
       (a < 256 → x.state ≠ .closed → s.Refused t .state) ∧
       (a < 256 → x.state = .closed →
         t.meter.account a = ⟨.active, 0, 0, 0, 64, 128, 0, 0, 0⟩ ∧ s.OnlyAccount t a)) ∧
     (s.Ready (.creditAccount a amount) → ∃ t, exec (.creditAccount a amount) s = .next t ∧
       (256 ≤ a ∨ amount < 1 ∨ 4294967295 < amount → s.Refused t .range) ∧
       (a < 256 → 1 ≤ amount → amount ≤ 4294967295 →
         (x.state = .closed → s.Refused t .state) ∧
         (x.state ≠ .closed → 4294967295 < x.balance + amount ∨ 2 ^ 64 - 1 < x.credited + amount →
           s.Refused t .overflow) ∧
         (x.state ≠ .closed → x.balance + amount ≤ 4294967295 → x.credited + amount ≤ 2 ^ 64 - 1 →
           t.meter.account a = { x with balance := x.balance + amount, credited := x.credited + amount } ∧
           s.OnlyAccount t a))) ∧
     (s.Ready (.suspendAccount a) → ∃ t, exec (.suspendAccount a) s = .next t ∧
       (256 ≤ a → s.Refused t .range) ∧
       (a < 256 → x.state ≠ .active → s.Refused t .state) ∧
       (a < 256 → x.state = .active → t.meter.account a = { x with state := .suspended } ∧ s.OnlyAccount t a)) ∧
     (s.Ready (.resumeAccount a) → ∃ t, exec (.resumeAccount a) s = .next t ∧
       (256 ≤ a → s.Refused t .range) ∧
       (a < 256 → x.state ≠ .suspended → s.Refused t .state) ∧
       (a < 256 → x.state = .suspended → t.meter.account a = { x with state := .active } ∧ s.OnlyAccount t a))) ∧
  (∀ (a t1 t2 d1 d2 : Nat) (s : State) (x : Account), x = s.meter.account a →
     (s.Ready (.setDiscount a t1 t2 d1 d2) → ∃ t, exec (.setDiscount a t1 t2 d1 d2) s = .next t ∧
       (256 ≤ a ∨ t1 < 1 ∨ 128 < t1 ∨ t2 < 1 ∨ 128 < t2 ∨ t2 ≤ t1 → s.Refused t .range) ∧
       (a < 256 → 1 ≤ t1 → t1 < t2 → t2 ≤ 128 → x.state = .closed → s.Refused t .state) ∧
       (a < 256 → 1 ≤ t1 → t1 < t2 → t2 ≤ 128 → x.state ≠ .closed →
         t.meter.account a = { x with
           t1 := t1, t2 := t2, d1 := if 100 < d1 then 100 else d1, d2 := if 100 < d2 then 100 else d2 } ∧
         s.OnlyAccount t a)) ∧
     (s.Ready (.closeAccount a) → ∃ t, exec (.closeAccount a) s = .next t ∧
       (256 ≤ a → s.Refused t .range) ∧
       (a < 256 → x.state = .closed → s.Refused t .state) ∧
       (a < 256 → x.state ≠ .closed → x.jobs ≠ 0 → s.Refused t .bound) ∧
       (a < 256 → x.state ≠ .closed → x.jobs = 0 →
         t.meter.account a = { x with state := .closed } ∧ s.OnlyAccount t a)) ∧
     (s.Ready (.readAccount a) → ∃ t, exec (.readAccount a) s = .next t ∧
       (256 ≤ a → s.Refused t .range) ∧
       (a < 256 → t = { s with management := s.answered .ok (bytesOf 1 x.state.code ++ bytesOf 4 x.balance ++
         bytesOf 8 x.credited ++ bytesOf 8 x.charged ++ bytesOf 1 x.t1 ++ bytesOf 1 x.t2 ++ bytesOf 1 x.d1 ++
         bytesOf 1 x.d2 ++ bytesOf 1 x.jobs) })))

/-- OPEN JOB (R115), CLOSE JOB (R116), FREE JOB (R117) and READ JOB (R118): the job number is checked first (§6.2.1), then
each rule's checks in their order; then the job, its account's job count, the pins of its pages and its three statuses
change as the rule says, and nothing else. -/
def Obligations.JobCommands : Prop :=
  ∀ (j a ceiling portion : Nat) (s : State) (x : Job) (y : Account), x = s.meter.job j →
    (s.Ready (.openJob j a ceiling) → y = s.meter.account a → ∃ t, exec (.openJob j a ceiling) s = .next t ∧
      (64 ≤ j ∨ 256 ≤ a ∨ 4294967295 < ceiling → s.Refused t .range) ∧
      (j < 64 → a < 256 → ceiling ≤ 4294967295 →
        (x.state ≠ .free → s.Refused t .state) ∧
        (x.state = .free → y.state = .closed → s.Refused t .absent) ∧
        (x.state = .free → y.state = .suspended → s.Refused t .state) ∧
        (x.state = .free → y.state = .active →
          t.meter.job j = ⟨.opened, a, ceiling, 0, [], 0, .none, s.meter.date⟩ ∧
          (∀ i, i ≠ j → t.meter.job i = s.meter.job i) ∧
          t.meter.account a = { y with jobs := y.jobs + 1 } ∧ (∀ b, b ≠ a → t.meter.account b = s.meter.account b) ∧
          t = { s with
            meter := { s.meter with accounts := t.meter.accounts, jobs := t.meter.jobs }
            management := s.answered .ok [] }))) ∧
    (s.Ready (.closeJob j) → ∃ t, exec (.closeJob j) s = .next t ∧
      (64 ≤ j → s.Refused t .range) ∧
      (j < 64 → x.state ≠ .opened → s.Refused t .state) ∧
      (j < 64 → x.state = .opened →
        t.meter.job j = { x with state := .closed } ∧ (∀ i, i ≠ j → t.meter.job i = s.meter.job i) ∧
        t = { s with meter := { s.meter with jobs := t.meter.jobs }, management := s.answered .ok [] })) ∧
    (s.Ready (.freeJob j) → y = s.meter.account x.account → ∃ t, exec (.freeJob j) s = .next t ∧
      (64 ≤ j → s.Refused t .range) ∧
      (j < 64 → x.state ≠ .closed → s.Refused t .state) ∧
      (j < 64 → x.state = .closed →
        ((∃ e ∈ s.apertures, e.2.kind = .reprint ∧ e.2.job = j) → s.Refused t .bound) ∧
        ((∀ e ∈ s.apertures, e.2.kind = .reprint → e.2.job ≠ j) →
          t.meter.job j = ⟨.free, 0, 0, 0, [], 0, .none, 0⟩ ∧ (∀ i, i ≠ j → t.meter.job i = s.meter.job i) ∧
          t.meter.account x.account = { y with jobs := y.jobs - 1 } ∧
          (∀ b, b ≠ x.account → t.meter.account b = s.meter.account b) ∧
          (∀ p, t.store.page p = { s.store.page p with
            pins := (s.store.page p).pins - (x.purchases.filter (fun e => e.page = p)).length }) ∧
          t.reports.jobOf j = { s.reports.jobOf j with charged := false, withheld := false, limit := false } ∧
          (∀ i, i ≠ j → t.reports.jobOf i = s.reports.jobOf i) ∧
          t = { s with
            meter := { s.meter with accounts := t.meter.accounts, jobs := t.meter.jobs }
            store := { s.store with pages := t.store.pages }
            reports := { s.reports with jobEvents := t.reports.jobEvents }
            management := s.answered .ok [] }))) ∧
    (s.Ready (.readJob j portion) → ∃ t, exec (.readJob j portion) s = .next t ∧
      (64 ≤ j ∨ 8 ≤ portion → s.Refused t .range) ∧
      (j < 64 → portion < 8 →
        t = { s with management := s.answered .ok (bytesOf 1 x.state.code ++ bytesOf 1 x.account ++ bytesOf 4 x.ceiling ++
          bytesOf 4 x.total ++ bytesOf 3 x.openingDay ++ bytesOf 4 x.withheld ++ bytesOf 1 x.reason.code ++
          bytesOf 1 x.purchases.length ++ ((x.purchases.drop (16 * portion)).take 16).flatMap fun e =>
            bytesOf 2 e.page ++ bytesOf 3 e.fee ++ bytesOf 1 e.ordinal) }))

/-- SET DATE (R128), SET BANDS (R131), SET RATE (R132), SET SURCHARGE (R133) and READ TARIFF (R139): the checks in their
order; the date does not move backward; the thresholds and the four rates of a class are written whole; a surcharge of
101 to 255 is stored as 100; the report gives the settings as they stand. -/
def Obligations.TariffCommands : Prop :=
  ∀ (day a1 a2 a3 c r0 r1 r2 r3 surcharge : Nat) (s : State),
    (s.Ready (.setDate day) → ∃ t, exec (.setDate day) s = .next t ∧
      (131071 < day → s.Refused t .range) ∧
      (day ≤ 131071 → day < s.meter.date → s.Refused t .order) ∧
      (day ≤ 131071 → s.meter.date ≤ day →
        t = { s with meter := { s.meter with date := day }, management := s.answered .ok [] })) ∧
    (s.Ready (.setBands a1 a2 a3) → ∃ t, exec (.setBands a1 a2 a3) s = .next t ∧
      (255 < a1 ∨ 255 < a2 ∨ 255 < a3 ∨ a2 ≤ a1 ∨ a3 ≤ a2 → s.Refused t .range) ∧
      (a1 < a2 → a2 < a3 → a3 ≤ 255 →
        t = { s with meter := { s.meter with bands := ⟨a1, a2, a3⟩ }, management := s.answered .ok [] })) ∧
    (s.Ready (.setRate c r0 r1 r2 r3) → ∃ t, exec (.setRate c r0 r1 r2 r3) s = .next t ∧
      (32 ≤ c ∨ 65535 < r0 ∨ 65535 < r1 ∨ 65535 < r2 ∨ 65535 < r3 → s.Refused t .range) ∧
      (c < 32 → r0 ≤ 65535 → r1 ≤ 65535 → r2 ≤ 65535 → r3 ≤ 65535 →
        t.meter.rate c 0 = r0 ∧ t.meter.rate c 1 = r1 ∧ t.meter.rate c 2 = r2 ∧ t.meter.rate c 3 = r3 ∧
        (∀ d b, d ≠ c → b < 4 → t.meter.rate d b = s.meter.rate d b) ∧
        t = { s with meter := { s.meter with rates := t.meter.rates }, management := s.answered .ok [] })) ∧
    (s.Ready (.setSurcharge surcharge) → ∃ t, exec (.setSurcharge surcharge) s = .next t ∧
      (255 < surcharge → s.Refused t .range) ∧
      (surcharge ≤ 255 → t = { s with
        meter := { s.meter with surcharge := if 100 < surcharge then 100 else surcharge }
        management := s.answered .ok [] })) ∧
    (s.Ready (.readTariff c) → ∃ t, exec (.readTariff c) s = .next t ∧
      (32 ≤ c → s.Refused t .range) ∧
      (c < 32 → t = { s with management := s.answered .ok (bytesOf 3 s.meter.date ++ bytesOf 1 s.meter.bands.a1 ++
        bytesOf 1 s.meter.bands.a2 ++ bytesOf 1 s.meter.bands.a3 ++ bytesOf 1 s.meter.surcharge ++
        bytesOf 2 (s.meter.rate c 0) ++ bytesOf 2 (s.meter.rate c 1) ++ bytesOf 2 (s.meter.rate c 2) ++
        bytesOf 2 (s.meter.rate c 3)) }))

/-- READ CHARGES (R143, R144): a number outside 1–8 is refused with RANGE; otherwise the oldest records, as many as asked
for or as there are, leave the log and stand in the response with the count left and the next sequence number, and in
AUTO mode LOG READY is cleared when fewer than the threshold are left. SET LOG MODE (R145): threshold and mode are
stored together and LOG READY is brought into line with the count as the rule says. That the five highest bits of a
record's last byte, its terms, are 0 is the model's choice (assumption 39). -/
def Obligations.LogCommands : Prop :=
  ∀ (most threshold mode : Nat) (s : State),
    (s.Ready (.readCharges most) → ∃ t, exec (.readCharges most) s = .next t ∧
      (most < 1 ∨ 8 < most → s.Refused t .range) ∧
      (1 ≤ most → most ≤ 8 →
        s.log.charges = s.log.charges.take most ++ t.log.charges ∧
        t.log.charges.length = s.log.charges.length - most ∧
        t.management = s.answered .ok (bytesOf 1 (s.log.charges.take most).length ++
          (s.log.charges.take most).flatMap (fun r => bytesOf 4 r.sequence.toNat ++ bytesOf 3 r.day ++ bytesOf 1 r.job ++
            bytesOf 1 r.account ++ bytesOf 2 r.page ++ bytesOf 3 r.fee ++ bytesOf 1 r.ordinal ++
            bytesOf 1 ((if r.surcharged then 1 else 0) + 2 * r.tier)) ++
          bytesOf 2 t.log.charges.length ++ bytesOf 4 s.log.nextSequence.toNat) ∧
        t.reports = { s.reports with statuses := { s.reports.statuses with
          logReady := if s.log.mode = .auto ∧ t.log.charges.length < s.log.threshold then false
            else s.reports.statuses.logReady } } ∧
        t = { s with
          log := { s.log with charges := t.log.charges }, reports := t.reports, management := t.management })) ∧
    (s.Ready (.setLogMode threshold mode) → ∃ t, exec (.setLogMode threshold mode) s = .next t ∧
      (threshold < 1 ∨ 1024 < threshold ∨ 1 < mode → s.Refused t .range) ∧
      (1 ≤ threshold → threshold ≤ 1024 → mode ≤ 1 →
        (threshold ≤ s.log.charges.length → t.reports.statuses.logReady = true) ∧
        (s.log.charges.length < threshold → mode = 0 → t.reports.statuses.logReady = false) ∧
        (s.log.charges.length < threshold → mode = 1 →
          t.reports.statuses.logReady = s.reports.statuses.logReady) ∧
        t = { s with
          log := { s.log with threshold := threshold, mode := if mode = 0 then .auto else .explicit }
          reports := { s.reports with statuses := { s.reports.statuses with logReady := t.reports.statuses.logReady } }
          management := s.answered .ok [] }))

/-- SET STORE TIMING (R163): each value is stored clamped to its range, and the row cycle time raised to the sum of
minimum open time and close delay. SET ARBITER (R165): both values are stored clamped, and a running timer whose
elapsed time has reached its new value expires at once. SET PAGE POLICY (R164): a value that is neither policy is
refused with RANGE. When the policy becomes CLOSE AFTER, each OPEN bank whose wait list holds no access for its row
has a close due, made by the policy; when it becomes KEEP OPEN, a close due and not begun is cancelled (one due for an
access for another row at the front of the wait list needs no mark, R160); that the policy in force, sent again, changes
no bank is the model's choice (assumption 35). READ STORE SETTINGS (R166) reports the settings, the banks and the three
counts, in fields of the model's widths and shape (assumption 14). -/
def Obligations.PortSettings : Prop :=
  (∀ (o c m r w d quiet aging : Nat) (s : State),
     (s.Ready (.setStoreTiming o c m r w d) → ∃ close minimum,
       close = (if c < 5 then 5 else if 100 < c then 100 else c) ∧
       minimum = (if m < 10 then 10 else if 200 < m then 200 else m) ∧
       exec (.setStoreTiming o c m r w d) s = .next { s with
         port := { s.port with timing :=
           { openDelay := if o < 5 then 5 else if 100 < o then 100 else o
             closeDelay := close
             minimumOpen := minimum
             rowCycle := max (if r < 20 then 20 else if 300 < r then 300 else r) (minimum + close)
             writeRecovery := if w < 5 then 5 else if 100 < w then 100 else w
             turnaround := if d < 1 then 1 else if 50 < d then 50 else d } }
         management := s.answered .ok [] }) ∧
     (s.Ready (.setArbiter quiet aging) → ∃ t, exec (.setArbiter quiet aging) s = .next t ∧
       t.port.quietTime = (if 10000 < quiet then 10000 else quiet) ∧
       t.port.agingLimit = (if aging < 1 then 1 else if 1000 < aging then 1000 else aging) ∧
       (∀ since, s.port.quiet = .running since →
         t.port.quiet = if since + t.port.quietTime ≤ s.chip.now then .expired else s.port.quiet) ∧
       ((∀ since, s.port.quiet ≠ .running since) → t.port.quiet = s.port.quiet) ∧
       (∀ since, s.port.aging = .running since →
         t.port.aging = if since + 1000 * t.port.agingLimit ≤ s.chip.now then .aged else s.port.aging) ∧
       ((∀ since, s.port.aging ≠ .running since) → t.port.aging = s.port.aging) ∧
       t = { s with
         port := { s.port with
           quietTime := t.port.quietTime, agingLimit := t.port.agingLimit, quiet := t.port.quiet, aging := t.port.aging }
         management := s.answered .ok [] })) ∧
  (∀ (policy : Nat) (s : State),
     (s.Ready (.setPagePolicy policy) → ∃ t, exec (.setPagePolicy policy) s = .next t ∧
       (1 < policy → s.Refused t .range) ∧
       (policy ≤ 1 →
         t.port.policy = (if policy = 0 then .keepOpen else .closeAfter) ∧
         (∀ b, b < 8 →
           (t.port.policy = s.port.policy → t.port.bank b = s.port.bank b) ∧
           (t.port.policy ≠ s.port.policy → policy = 0 →
             t.port.bank b = { s.port.bank b with closeDue := .none }) ∧
           (t.port.policy ≠ s.port.policy → policy = 1 →
             (∀ row, (s.port.bank b).state = .opened row → (∀ a ∈ s.port.waitList b, a.strip ≠ row) →
               t.port.bank b = { s.port.bank b with closeDue := .byPolicy }) ∧
             (∀ row, (s.port.bank b).state = .opened row → (∃ a ∈ s.port.waitList b, a.strip = row) →
               t.port.bank b = s.port.bank b) ∧
             ((∀ row, (s.port.bank b).state ≠ .opened row) → t.port.bank b = s.port.bank b))) ∧
         t = { s with
           port := { s.port with policy := t.port.policy, banks := t.port.banks }, management := s.answered .ok [] })) ∧
     (s.Ready .readStoreSettings → ∀ bank : Nat → List Byte,
       (∀ b, bank b = match (s.port.bank b).state with
         | .idle => bytesOf 1 0
         | .opening row => bytesOf 1 1 ++ bytesOf 3 row
         | .opened row => bytesOf 1 2 ++ bytesOf 3 row
         | .closing => bytesOf 1 3) →
       exec .readStoreSettings s = .next { s with management := s.answered .ok (
         bytesOf 1 s.port.timing.openDelay ++ bytesOf 1 s.port.timing.closeDelay ++ bytesOf 1 s.port.timing.minimumOpen ++
         bytesOf 2 s.port.timing.rowCycle ++ bytesOf 1 s.port.timing.writeRecovery ++
         bytesOf 1 s.port.timing.turnaround ++ bytesOf 1 s.port.policy.code ++ bytesOf 2 s.port.quietTime ++
         bytesOf 2 s.port.agingLimit ++
         (bank 0 ++ bank 1 ++ bank 2 ++ bank 3 ++ bank 4 ++ bank 5 ++ bank 6 ++ bank 7) ++
         bytesOf 1 s.port.linkQueue.length ++ bytesOf 1 s.port.engineQueue.length ++
         bytesOf 1 s.port.issueList.length) }))

/-- READ FAULTS (R172): the oldest four records, or as many as there are, leave the queue and stand in the response with
the count left; FAULT and FAULTS LOST stay. READ EVENTS (R181) reports statuses, enables, the 64 jobs' events and the
fault count, also during INIT, and changes nothing. ACK EVENTS (R144, R175) clears the named statuses, but never JOB,
and LOG READY only in EXPLICIT mode; ENABLE EVENTS (R176) writes the ten enables, also during INIT; ENABLE JOB EVENTS
and ACK JOB EVENTS (R178) do the same for one job's three, whatever its state, and refuse a job number outside 0–63. That
bits 6 and 7 of each per-job byte of READ EVENTS are 0, and that the bits above the three of a per-job mask are not read,
are the model's choices (assumption 37). -/
def Obligations.FaultsAndEvents : Prop :=
  (∀ s : State,
     (s.Ready .readFaults → ∃ t, exec .readFaults s = .next t ∧
       s.reports.faults = s.reports.faults.take 4 ++ t.reports.faults ∧
       t.reports.faults.length = s.reports.faults.length - 4 ∧
       t.management = s.answered .ok (bytesOf 1 (s.reports.faults.take 4).length ++
         (s.reports.faults.take 4).flatMap (fun f => bytesOf 1 f.kind.code ++ bytesOf 1 f.aperture ++ bytesOf 2 f.page ++
           bytesOf 2 f.strip ++ bytesOf 2 f.line ++ bytesOf 3 f.edition ++ bytesOf 2 f.repeats) ++
         bytesOf 1 t.reports.faults.length) ∧
       t = { s with reports := { s.reports with faults := t.reports.faults }, management := t.management }) ∧
     (s.Taken .readEvents → exec .readEvents s = .next { s with management := s.answered .ok (
       bytesOf 2 s.reports.statusMask ++ bytesOf 2 s.reports.enables.mask ++
       (List.range 64).flatMap (fun j => bytesOf 1 (s.reports.jobOf j).mask) ++ bytesOf 1 s.reports.faults.length) })) ∧
  (∀ (j mask : Nat) (s : State) (e : JobEvents), e = s.reports.jobOf j →
     (s.Ready (.ackEvents mask) → exec (.ackEvents mask) s = .next { s with
       reports := { s.reports with statuses :=
         { initDone := s.reports.statuses.initDone && !mask.testBit 0
           editionClosed := s.reports.statuses.editionClosed && !mask.testBit 1
           commitDone := s.reports.statuses.commitDone && !mask.testBit 2
           commitWaiting := s.reports.statuses.commitWaiting && !mask.testBit 3
           storeLow := s.reports.statuses.storeLow && !mask.testBit 4
           fault := s.reports.statuses.fault && !mask.testBit 5
           faultsLost := s.reports.statuses.faultsLost && !mask.testBit 6
           logReady := s.reports.statuses.logReady && (decide (s.log.mode = .auto) || !mask.testBit 7)
           logFull := s.reports.statuses.logFull && !mask.testBit 8 } }
       management := s.answered .ok [] }) ∧
     (s.Taken (.enableEvents mask) → ∃ t, exec (.enableEvents mask) s = .next t ∧
       t.reports.enables.mask = mask % 1024 ∧
       t = { s with reports := { s.reports with enables := t.reports.enables }, management := s.answered .ok [] }) ∧
     (s.Ready (.enableJobEvents j mask) → ∃ t, exec (.enableJobEvents j mask) s = .next t ∧
       (64 ≤ j → s.Refused t .range) ∧
       (j < 64 →
         t.reports.jobOf j =
           ⟨e.charged, e.withheld, e.limit, mask.testBit 0, mask.testBit 1, mask.testBit 2⟩ ∧
         (∀ i, i ≠ j → t.reports.jobOf i = s.reports.jobOf i) ∧
         t = { s with
           reports := { s.reports with jobEvents := t.reports.jobEvents }, management := s.answered .ok [] })) ∧
     (s.Ready (.ackJobEvents j mask) → ∃ t, exec (.ackJobEvents j mask) s = .next t ∧
       (64 ≤ j → s.Refused t .range) ∧
       (j < 64 →
         t.reports.jobOf j = ⟨e.charged && !mask.testBit 0, e.withheld && !mask.testBit 1, e.limit && !mask.testBit 2,
           e.enableCharged, e.enableWithheld, e.enableLimit⟩ ∧
         (∀ i, i ≠ j → t.reports.jobOf i = s.reports.jobOf i) ∧
         t = { s with
           reports := { s.reports with jobEvents := t.reports.jobEvents }, management := s.answered .ok [] })))

/-- ALERT is asserted exactly while the RESET pin is not held and some bit stands in both the status mask and the enable
mask of the events (R180, §11.7); and with the numbers of the per-job table rising, JOB, bit 9 of the status mask,
stands exactly while some job has a status and its enable both set (R179). -/
def Obligations.AlertFollowsEvents : Prop :=
  ∀ s : State,
    (s.alert = true ↔ s.chip.resetPin = false ∧
      ∃ i, i < 10 ∧ s.reports.statusMask.testBit i = true ∧ s.reports.enables.mask.testBit i = true) ∧
    (Table.wf s.reports.jobEvents →
      (s.reports.statusMask.testBit 9 = true ↔
        ∃ j k, k < 3 ∧ (s.reports.jobOf j).mask.testBit k = true ∧ (s.reports.jobOf j).mask.testBit (k + 3) = true))

/-! ### Invariants and whole-machine rules -/

/-- The state after reset is sound, and so is the state after power-on with any pins: every invariant of `State.Sound`
holds there. -/
def Obligations.ResetIsSound : Prop :=
  State.reset.Sound ∧ ∀ (pins : Fin 4) (s t : State), exec (.powerOn pins) s = .next t → t.Sound

/-- Every step keeps a sound state sound: no bounded collection overflows (R2, R66, R73, R119, R141, R152, R155, R170),
the write credits and the buffered writes make up 32 (R3), the engine-side queue holds segment requests only (R154),
nothing of a read outlives a link that went down (R8), every account's balance plus charged total is its credited total
(R105), every charged set is kept as R119 says, a job count is the number of the account's jobs (R105), the log's records
are numbered as R141 says, settings stand in their ranges, chains are well kept (R27, R30, R31), every store strip is
once in the free strip queue, or in one delta list with the entry to match (R29, R46, R47; during INIT the queue holds 0
to its length, R48), a page's pin count and copies in flight are the numbers of the jobs and slots behind them (R26,
R119), the commit sequencer goes forward only (R94, R96), and the response buffer holds a response exactly in phase
PENDING (R182). -/
def Obligations.EveryStepKeepsSound : Prop :=
  ∀ s t : State, s.Sound → step s = .next t → t.Sound

/-- A LOCKED version stays as it is, delta list included, until DISCARD VERSION or RETIRE PAGE releases it, or RESET
ENGINE or POWER_ON clears the pool (R28). -/
def Obligations.LockedVersionsStay : Prop :=
  ∀ (c : Instr) (s t : State) (n : Nat) (v : Version), s.Chained → exec c s = .next t →
    Table.read s.store.versions n = some v → v.lock = .locked →
    Table.read t.store.versions n = some v ∨
      Table.read t.store.versions n = none ∧
        (c = .discardVersion v.page n ∨ c = .retirePage v.page ∨ c = .resetEngine ∨ ∃ pins, c = .powerOn pins)

/-- Only its causes change a thing. The store's bytes change by the end of a transfer alone (R151, R162), an account's
money by CREDIT ACCOUNT, OPEN ACCOUNT and charged reads (R105), the log by charged reads and READ CHARGES (R141). Each
setting changes by its command alone: the apertures (R10), the curves (R74), the wrap order (R7), the date (R127), the
bands, rates and surcharge (R131 to R133), an account's discount by SET DISCOUNT and OPEN ACCOUNT (R110), the reserve
(R49), the log's threshold and mode (R145), the timings (R163), the page policy (R164), the quiet time and aging limit
(R165), the ten enables (R176) and a job's three (R178), which RESET_PIN_ASSERT clears too (R180); RESET ENGINE where its
rule says so, and POWER_ON, apart (R149, R192). -/
def Obligations.OnlyCausesChange : Prop :=
  ∀ (c : Instr) (s t : State), exec c s = .next t → (∀ pins, c ≠ .powerOn pins) →
    (c ≠ .transferEnd → t.memory = s.memory) ∧ t.chip.strips = s.chip.strips ∧
    (¬ s.Charges c → t.log.nextSequence = s.log.nextSequence) ∧
    (¬ s.Charges c → (∀ k, c ≠ .readCharges k) → t.log.charges = s.log.charges) ∧
    ((∀ o, c ≠ .setLinkOrder o) → t.link.wrapOrder = s.link.wrapOrder) ∧
    ((∀ o l m r w d, c ≠ .setStoreTiming o l m r w d) → t.port.timing = s.port.timing) ∧
    ((∀ p, c ≠ .setPagePolicy p) → t.port.policy = s.port.policy) ∧
    ((∀ q a, c ≠ .setArbiter q a) → t.port.quietTime = s.port.quietTime ∧ t.port.agingLimit = s.port.agingLimit) ∧
    (c ≠ .resetEngine →
      ((∀ r, c ≠ .setStoreReserve r) → t.store.reserve = s.store.reserve) ∧
      ((∀ d, c ≠ .setDate d) → t.meter.date = s.meter.date) ∧
      ((∀ a b d, c ≠ .setBands a b d) → t.meter.bands = s.meter.bands) ∧
      ((∀ k a b d e, c ≠ .setRate k a b d e) → t.meter.rates = s.meter.rates) ∧
      ((∀ n, c ≠ .setSurcharge n) → t.meter.surcharge = s.meter.surcharge) ∧
      ((∀ n m, c ≠ .setLogMode n m) → t.log.threshold = s.log.threshold ∧ t.log.mode = s.log.mode) ∧
      ((∀ a st k e r j f, c ≠ .setAperture a st k e r j f) → t.apertures = s.apertures) ∧
      ((∀ k q vs, c ≠ .loadCurve k q vs) → t.restore.curves = s.restore.curves) ∧
      ((∀ m, c ≠ .enableEvents m) → c ≠ .resetPinAssert → t.reports.enables = s.reports.enables) ∧
      ((∀ j m, c ≠ .enableJobEvents j m) → c ≠ .resetPinAssert → ∀ j,
        (t.reports.jobOf j).enableCharged = (s.reports.jobOf j).enableCharged ∧
        (t.reports.jobOf j).enableWithheld = (s.reports.jobOf j).enableWithheld ∧
        (t.reports.jobOf j).enableLimit = (s.reports.jobOf j).enableLimit) ∧
      ((∀ a, c ≠ .openAccount a) → (∀ a b d e f, c ≠ .setDiscount a b d e f) → ∀ a,
        (t.meter.account a).t1 = (s.meter.account a).t1 ∧ (t.meter.account a).t2 = (s.meter.account a).t2 ∧
        (t.meter.account a).d1 = (s.meter.account a).d1 ∧ (t.meter.account a).d2 = (s.meter.account a).d2) ∧
      (¬ s.Charges c → (∀ a, c ≠ .openAccount a) → (∀ a n, c ≠ .creditAccount a n) → ∀ a,
        (t.meter.account a).balance = (s.meter.account a).balance ∧
        (t.meter.account a).credited = (s.meter.account a).credited ∧
        (t.meter.account a).charged = (s.meter.account a).charged))
end

