-- ==== Sys2Proof/Laws/Bytes.lean ====
section
/-! SUPPORT. The laws of numbers as bytes (R194): a number spelled in bytes is read back, bytes are spelled by the number they
read as, and fields joined by their widths are split again. -/

namespace Sys2Proof.Machine

@[simp] theorem length_bytesOf (n v : Nat) : (bytesOf n v).length = n := by
  induction n with
  | zero => rfl
  | succ n ih => simp [bytesOf, ih]

@[simp] theorem numberOf_nil : numberOf [] = 0 := rfl

theorem numberOf_cons (b : Byte) (bs : List Byte) : numberOf (b :: bs) = b.toNat * 256 ^ bs.length + numberOf bs := by
  have gen : ∀ (l : List Byte) (a : Nat), l.foldl (fun n b => n * 256 + b.toNat) a = a * 256 ^ l.length + numberOf l := by
    intro l
    induction l with
    | nil => intro a; simp
    | cons x l ih =>
      intro a
      unfold numberOf
      rw [List.foldl_cons, List.foldl_cons, ih, ih, List.length_cons, Nat.pow_succ]
      ring
  have h := gen (b :: bs) 0
  have h2 := gen bs (0 * 256 + b.toNat)
  unfold numberOf at h ⊢
  rw [List.foldl_cons, h2]
  simp [numberOf]

theorem numberOf_lt (bs : List Byte) : numberOf bs < 256 ^ bs.length := by
  induction bs with
  | nil => simp
  | cons b bs ih =>
    rw [numberOf_cons, List.length_cons, Nat.pow_succ]
    have := b.isLt
    nlinarith

theorem numberOf_bytesOf_mod (n v : Nat) : numberOf (bytesOf n v) = v % 256 ^ n := by
  induction n with
  | zero => simp [bytesOf, Nat.mod_one]
  | succ n ih =>
    rw [bytesOf, numberOf_cons, length_bytesOf, ih, Nat.pow_succ, Nat.mod_mul]
    simp
    ring

/-- A number that fits its bytes is read back. -/
theorem numberOf_bytesOf {n v : Nat} (h : v < 256 ^ n) : numberOf (bytesOf n v) = v := by
  rw [numberOf_bytesOf_mod, Nat.mod_eq_of_lt h]

/-- Only the low bytes of a number are spelled. -/
theorem bytesOf_add_mul (n a c : Nat) : bytesOf n (a * 256 ^ n + c) = bytesOf n c := by
  induction n generalizing a with
  | zero => rfl
  | succ n ih =>
    have e : a * 256 ^ (n + 1) + c = a * 256 * 256 ^ n + c := by rw [Nat.pow_succ]; ring
    rw [bytesOf, bytesOf, e, ih, Nat.add_comm, Nat.add_mul_div_right _ _ (by positivity)]
    congr 1
    apply BitVec.eq_of_toNat_eq
    simp

/-- Bytes are spelled by the number that they read as. -/
theorem bytesOf_numberOf (bs : List Byte) : bytesOf bs.length (numberOf bs) = bs := by
  induction bs with
  | nil => rfl
  | cons b bs ih =>
    have hp : 0 < 256 ^ bs.length := by positivity
    have e : (b.toNat * 256 ^ bs.length + numberOf bs) / 256 ^ bs.length = b.toNat := by
      rw [Nat.add_comm, Nat.add_mul_div_right _ _ hp, Nat.div_eq_of_lt (numberOf_lt bs)]
      omega
    rw [List.length_cons, bytesOf, numberOf_cons, e, bytesOf_add_mul, ih]
    simp

theorem foldl_add (ws : List Nat) (a : Nat) : ws.foldl (· + ·) a = a + ws.foldl (· + ·) 0 := by
  induction ws generalizing a with
  | nil => rfl
  | cons w ws ih => rw [List.foldl_cons, List.foldl_cons, ih, ih (0 + w)]; omega

theorem length_splitFields (ws : List Nat) (bs : List Byte) : (splitFields ws bs).length = ws.length := by
  induction ws generalizing bs with
  | nil => rfl
  | cons w ws ih => simp [splitFields, ih]

theorem length_joinFields (ws fs : List Nat) (h : ws.length = fs.length) :
    (joinFields ws fs).length = ws.foldl (· + ·) 0 := by
  induction ws generalizing fs with
  | nil => cases fs with
    | nil => rfl
    | cons _ _ => simp at h
  | cons w ws ih => cases fs with
    | nil => simp at h
    | cons f fs =>
      rw [joinFields, List.length_append, length_bytesOf, ih _ (by simpa using h), List.foldl_cons, foldl_add ws (0 + w)]
      omega

/-- Fields that fit their widths are split again, whatever follows them. -/
theorem splitFields_joinFields (ws fs : List Nat) (tail : List Byte) (h : ws.length = fs.length)
    (hf : ∀ e ∈ ws.zip fs, e.2 < 256 ^ e.1) : splitFields ws (joinFields ws fs ++ tail) = fs := by
  induction ws generalizing fs with
  | nil => cases fs with
    | nil => rfl
    | cons _ _ => simp at h
  | cons w ws ih => cases fs with
    | nil => simp at h
    | cons f fs =>
      have hw : f < 256 ^ w := hf (w, f) (by simp)
      have hl : (bytesOf w f).length = w := length_bytesOf w f
      rw [joinFields, splitFields, List.append_assoc, List.take_left' hl, List.drop_left' hl, numberOf_bytesOf hw,
        ih fs (by simpa using h) fun e he => hf e (by simp [he])]

/-- The fields that bytes spell, joined by their widths, are those bytes. -/
theorem joinFields_splitFields (ws : List Nat) (bs : List Byte) (h : ws.foldl (· + ·) 0 ≤ bs.length) :
    joinFields ws (splitFields ws bs) = bs.take (ws.foldl (· + ·) 0) := by
  induction ws generalizing bs with
  | nil => rfl
  | cons w ws ih =>
    rw [List.foldl_cons, foldl_add] at h
    have hl : (bs.take w).length = w := by simp; omega
    have e : bytesOf w (numberOf (bs.take w)) = bs.take w := by
      have := bytesOf_numberOf (bs.take w)
      rwa [hl] at this
    rw [splitFields, joinFields, e, ih _ (by simp; omega), List.foldl_cons, foldl_add ws (0 + w), Nat.zero_add,
      List.take_add]

/-- Every field that bytes spell fits its width. -/
theorem splitFields_lt (ws : List Nat) (bs : List Byte) : ∀ e ∈ ws.zip (splitFields ws bs), e.2 < 256 ^ e.1 := by
  induction ws generalizing bs with
  | nil => simp
  | cons w ws ih =>
    intro e he
    rw [splitFields, List.zip_cons_cons] at he
    rcases List.mem_cons.1 he with rfl | he
    · exact lt_of_lt_of_le (numberOf_lt _) (Nat.pow_le_pow_right (by omega) (by simp))
    · exact ih _ e he

end Sys2Proof.Machine
end

