-- ==== Sys2Proof/Laws/State.lean ====
section
/-! SUPPORT. One lemma for each field of State under each named update, so that no proof unfolds a record update. -/

namespace Sys2Proof.Machine

/-! `State.setChip` -/

@[simp] theorem State.setChip_chip (s : State) (x : Chip) : (s.setChip x).chip = x := rfl
@[simp] theorem State.setChip_link (s : State) (x : Chip) : (s.setChip x).link = s.link := rfl
@[simp] theorem State.setChip_apertures (s : State) (x : Chip) : (s.setChip x).apertures = s.apertures := rfl
@[simp] theorem State.setChip_store (s : State) (x : Chip) : (s.setChip x).store = s.store := rfl
@[simp] theorem State.setChip_restore (s : State) (x : Chip) : (s.setChip x).restore = s.restore := rfl
@[simp] theorem State.setChip_meter (s : State) (x : Chip) : (s.setChip x).meter = s.meter := rfl
@[simp] theorem State.setChip_log (s : State) (x : Chip) : (s.setChip x).log = s.log := rfl
@[simp] theorem State.setChip_port (s : State) (x : Chip) : (s.setChip x).port = s.port := rfl
@[simp] theorem State.setChip_memory (s : State) (x : Chip) : (s.setChip x).memory = s.memory := rfl
@[simp] theorem State.setChip_reports (s : State) (x : Chip) : (s.setChip x).reports = s.reports := rfl
@[simp] theorem State.setChip_management (s : State) (x : Chip) : (s.setChip x).management = s.management := rfl
@[simp] theorem State.setChip_pending (s : State) (x : Chip) : (s.setChip x).pending = s.pending := rfl

/-! `State.setLink` -/

@[simp] theorem State.setLink_chip (s : State) (x : Link) : (s.setLink x).chip = s.chip := rfl
@[simp] theorem State.setLink_link (s : State) (x : Link) : (s.setLink x).link = x := rfl
@[simp] theorem State.setLink_apertures (s : State) (x : Link) : (s.setLink x).apertures = s.apertures := rfl
@[simp] theorem State.setLink_store (s : State) (x : Link) : (s.setLink x).store = s.store := rfl
@[simp] theorem State.setLink_restore (s : State) (x : Link) : (s.setLink x).restore = s.restore := rfl
@[simp] theorem State.setLink_meter (s : State) (x : Link) : (s.setLink x).meter = s.meter := rfl
@[simp] theorem State.setLink_log (s : State) (x : Link) : (s.setLink x).log = s.log := rfl
@[simp] theorem State.setLink_port (s : State) (x : Link) : (s.setLink x).port = s.port := rfl
@[simp] theorem State.setLink_memory (s : State) (x : Link) : (s.setLink x).memory = s.memory := rfl
@[simp] theorem State.setLink_reports (s : State) (x : Link) : (s.setLink x).reports = s.reports := rfl
@[simp] theorem State.setLink_management (s : State) (x : Link) : (s.setLink x).management = s.management := rfl
@[simp] theorem State.setLink_pending (s : State) (x : Link) : (s.setLink x).pending = s.pending := rfl

/-! `State.setApertures` -/

@[simp] theorem State.setApertures_chip (s : State) (x : Table Aperture) : (s.setApertures x).chip = s.chip := rfl
@[simp] theorem State.setApertures_link (s : State) (x : Table Aperture) : (s.setApertures x).link = s.link := rfl
@[simp] theorem State.setApertures_apertures (s : State) (x : Table Aperture) : (s.setApertures x).apertures = x := rfl
@[simp] theorem State.setApertures_store (s : State) (x : Table Aperture) : (s.setApertures x).store = s.store := rfl
@[simp] theorem State.setApertures_restore (s : State) (x : Table Aperture) : (s.setApertures x).restore = s.restore := rfl
@[simp] theorem State.setApertures_meter (s : State) (x : Table Aperture) : (s.setApertures x).meter = s.meter := rfl
@[simp] theorem State.setApertures_log (s : State) (x : Table Aperture) : (s.setApertures x).log = s.log := rfl
@[simp] theorem State.setApertures_port (s : State) (x : Table Aperture) : (s.setApertures x).port = s.port := rfl
@[simp] theorem State.setApertures_memory (s : State) (x : Table Aperture) : (s.setApertures x).memory = s.memory := rfl
@[simp] theorem State.setApertures_reports (s : State) (x : Table Aperture) : (s.setApertures x).reports = s.reports := rfl
@[simp] theorem State.setApertures_management (s : State) (x : Table Aperture) : (s.setApertures x).management = s.management := rfl
@[simp] theorem State.setApertures_pending (s : State) (x : Table Aperture) : (s.setApertures x).pending = s.pending := rfl

/-! `State.setStore` -/

@[simp] theorem State.setStore_chip (s : State) (x : Store) : (s.setStore x).chip = s.chip := rfl
@[simp] theorem State.setStore_link (s : State) (x : Store) : (s.setStore x).link = s.link := rfl
@[simp] theorem State.setStore_apertures (s : State) (x : Store) : (s.setStore x).apertures = s.apertures := rfl
@[simp] theorem State.setStore_store (s : State) (x : Store) : (s.setStore x).store = x := rfl
@[simp] theorem State.setStore_restore (s : State) (x : Store) : (s.setStore x).restore = s.restore := rfl
@[simp] theorem State.setStore_meter (s : State) (x : Store) : (s.setStore x).meter = s.meter := rfl
@[simp] theorem State.setStore_log (s : State) (x : Store) : (s.setStore x).log = s.log := rfl
@[simp] theorem State.setStore_port (s : State) (x : Store) : (s.setStore x).port = s.port := rfl
@[simp] theorem State.setStore_memory (s : State) (x : Store) : (s.setStore x).memory = s.memory := rfl
@[simp] theorem State.setStore_reports (s : State) (x : Store) : (s.setStore x).reports = s.reports := rfl
@[simp] theorem State.setStore_management (s : State) (x : Store) : (s.setStore x).management = s.management := rfl
@[simp] theorem State.setStore_pending (s : State) (x : Store) : (s.setStore x).pending = s.pending := rfl

/-! `State.setRestore` -/

@[simp] theorem State.setRestore_chip (s : State) (x : Restore) : (s.setRestore x).chip = s.chip := rfl
@[simp] theorem State.setRestore_link (s : State) (x : Restore) : (s.setRestore x).link = s.link := rfl
@[simp] theorem State.setRestore_apertures (s : State) (x : Restore) : (s.setRestore x).apertures = s.apertures := rfl
@[simp] theorem State.setRestore_store (s : State) (x : Restore) : (s.setRestore x).store = s.store := rfl
@[simp] theorem State.setRestore_restore (s : State) (x : Restore) : (s.setRestore x).restore = x := rfl
@[simp] theorem State.setRestore_meter (s : State) (x : Restore) : (s.setRestore x).meter = s.meter := rfl
@[simp] theorem State.setRestore_log (s : State) (x : Restore) : (s.setRestore x).log = s.log := rfl
@[simp] theorem State.setRestore_port (s : State) (x : Restore) : (s.setRestore x).port = s.port := rfl
@[simp] theorem State.setRestore_memory (s : State) (x : Restore) : (s.setRestore x).memory = s.memory := rfl
@[simp] theorem State.setRestore_reports (s : State) (x : Restore) : (s.setRestore x).reports = s.reports := rfl
@[simp] theorem State.setRestore_management (s : State) (x : Restore) : (s.setRestore x).management = s.management := rfl
@[simp] theorem State.setRestore_pending (s : State) (x : Restore) : (s.setRestore x).pending = s.pending := rfl

/-! `State.setMeter` -/

@[simp] theorem State.setMeter_chip (s : State) (x : Meter) : (s.setMeter x).chip = s.chip := rfl
@[simp] theorem State.setMeter_link (s : State) (x : Meter) : (s.setMeter x).link = s.link := rfl
@[simp] theorem State.setMeter_apertures (s : State) (x : Meter) : (s.setMeter x).apertures = s.apertures := rfl
@[simp] theorem State.setMeter_store (s : State) (x : Meter) : (s.setMeter x).store = s.store := rfl
@[simp] theorem State.setMeter_restore (s : State) (x : Meter) : (s.setMeter x).restore = s.restore := rfl
@[simp] theorem State.setMeter_meter (s : State) (x : Meter) : (s.setMeter x).meter = x := rfl
@[simp] theorem State.setMeter_log (s : State) (x : Meter) : (s.setMeter x).log = s.log := rfl
@[simp] theorem State.setMeter_port (s : State) (x : Meter) : (s.setMeter x).port = s.port := rfl
@[simp] theorem State.setMeter_memory (s : State) (x : Meter) : (s.setMeter x).memory = s.memory := rfl
@[simp] theorem State.setMeter_reports (s : State) (x : Meter) : (s.setMeter x).reports = s.reports := rfl
@[simp] theorem State.setMeter_management (s : State) (x : Meter) : (s.setMeter x).management = s.management := rfl
@[simp] theorem State.setMeter_pending (s : State) (x : Meter) : (s.setMeter x).pending = s.pending := rfl

/-! `State.setLog` -/

@[simp] theorem State.setLog_chip (s : State) (x : ChargeLog) : (s.setLog x).chip = s.chip := rfl
@[simp] theorem State.setLog_link (s : State) (x : ChargeLog) : (s.setLog x).link = s.link := rfl
@[simp] theorem State.setLog_apertures (s : State) (x : ChargeLog) : (s.setLog x).apertures = s.apertures := rfl
@[simp] theorem State.setLog_store (s : State) (x : ChargeLog) : (s.setLog x).store = s.store := rfl
@[simp] theorem State.setLog_restore (s : State) (x : ChargeLog) : (s.setLog x).restore = s.restore := rfl
@[simp] theorem State.setLog_meter (s : State) (x : ChargeLog) : (s.setLog x).meter = s.meter := rfl
@[simp] theorem State.setLog_log (s : State) (x : ChargeLog) : (s.setLog x).log = x := rfl
@[simp] theorem State.setLog_port (s : State) (x : ChargeLog) : (s.setLog x).port = s.port := rfl
@[simp] theorem State.setLog_memory (s : State) (x : ChargeLog) : (s.setLog x).memory = s.memory := rfl
@[simp] theorem State.setLog_reports (s : State) (x : ChargeLog) : (s.setLog x).reports = s.reports := rfl
@[simp] theorem State.setLog_management (s : State) (x : ChargeLog) : (s.setLog x).management = s.management := rfl
@[simp] theorem State.setLog_pending (s : State) (x : ChargeLog) : (s.setLog x).pending = s.pending := rfl

/-! `State.setPort` -/

@[simp] theorem State.setPort_chip (s : State) (x : Port) : (s.setPort x).chip = s.chip := rfl
@[simp] theorem State.setPort_link (s : State) (x : Port) : (s.setPort x).link = s.link := rfl
@[simp] theorem State.setPort_apertures (s : State) (x : Port) : (s.setPort x).apertures = s.apertures := rfl
@[simp] theorem State.setPort_store (s : State) (x : Port) : (s.setPort x).store = s.store := rfl
@[simp] theorem State.setPort_restore (s : State) (x : Port) : (s.setPort x).restore = s.restore := rfl
@[simp] theorem State.setPort_meter (s : State) (x : Port) : (s.setPort x).meter = s.meter := rfl
@[simp] theorem State.setPort_log (s : State) (x : Port) : (s.setPort x).log = s.log := rfl
@[simp] theorem State.setPort_port (s : State) (x : Port) : (s.setPort x).port = x := rfl
@[simp] theorem State.setPort_memory (s : State) (x : Port) : (s.setPort x).memory = s.memory := rfl
@[simp] theorem State.setPort_reports (s : State) (x : Port) : (s.setPort x).reports = s.reports := rfl
@[simp] theorem State.setPort_management (s : State) (x : Port) : (s.setPort x).management = s.management := rfl
@[simp] theorem State.setPort_pending (s : State) (x : Port) : (s.setPort x).pending = s.pending := rfl

/-! `State.setMemory` -/

@[simp] theorem State.setMemory_chip (s : State) (x : Memory) : (s.setMemory x).chip = s.chip := rfl
@[simp] theorem State.setMemory_link (s : State) (x : Memory) : (s.setMemory x).link = s.link := rfl
@[simp] theorem State.setMemory_apertures (s : State) (x : Memory) : (s.setMemory x).apertures = s.apertures := rfl
@[simp] theorem State.setMemory_store (s : State) (x : Memory) : (s.setMemory x).store = s.store := rfl
@[simp] theorem State.setMemory_restore (s : State) (x : Memory) : (s.setMemory x).restore = s.restore := rfl
@[simp] theorem State.setMemory_meter (s : State) (x : Memory) : (s.setMemory x).meter = s.meter := rfl
@[simp] theorem State.setMemory_log (s : State) (x : Memory) : (s.setMemory x).log = s.log := rfl
@[simp] theorem State.setMemory_port (s : State) (x : Memory) : (s.setMemory x).port = s.port := rfl
@[simp] theorem State.setMemory_memory (s : State) (x : Memory) : (s.setMemory x).memory = x := rfl
@[simp] theorem State.setMemory_reports (s : State) (x : Memory) : (s.setMemory x).reports = s.reports := rfl
@[simp] theorem State.setMemory_management (s : State) (x : Memory) : (s.setMemory x).management = s.management := rfl
@[simp] theorem State.setMemory_pending (s : State) (x : Memory) : (s.setMemory x).pending = s.pending := rfl

/-! `State.setReports` -/

@[simp] theorem State.setReports_chip (s : State) (x : Reports) : (s.setReports x).chip = s.chip := rfl
@[simp] theorem State.setReports_link (s : State) (x : Reports) : (s.setReports x).link = s.link := rfl
@[simp] theorem State.setReports_apertures (s : State) (x : Reports) : (s.setReports x).apertures = s.apertures := rfl
@[simp] theorem State.setReports_store (s : State) (x : Reports) : (s.setReports x).store = s.store := rfl
@[simp] theorem State.setReports_restore (s : State) (x : Reports) : (s.setReports x).restore = s.restore := rfl
@[simp] theorem State.setReports_meter (s : State) (x : Reports) : (s.setReports x).meter = s.meter := rfl
@[simp] theorem State.setReports_log (s : State) (x : Reports) : (s.setReports x).log = s.log := rfl
@[simp] theorem State.setReports_port (s : State) (x : Reports) : (s.setReports x).port = s.port := rfl
@[simp] theorem State.setReports_memory (s : State) (x : Reports) : (s.setReports x).memory = s.memory := rfl
@[simp] theorem State.setReports_reports (s : State) (x : Reports) : (s.setReports x).reports = x := rfl
@[simp] theorem State.setReports_management (s : State) (x : Reports) : (s.setReports x).management = s.management := rfl
@[simp] theorem State.setReports_pending (s : State) (x : Reports) : (s.setReports x).pending = s.pending := rfl

/-! `State.setManagement` -/

@[simp] theorem State.setManagement_chip (s : State) (x : Management) : (s.setManagement x).chip = s.chip := rfl
@[simp] theorem State.setManagement_link (s : State) (x : Management) : (s.setManagement x).link = s.link := rfl
@[simp] theorem State.setManagement_apertures (s : State) (x : Management) : (s.setManagement x).apertures = s.apertures := rfl
@[simp] theorem State.setManagement_store (s : State) (x : Management) : (s.setManagement x).store = s.store := rfl
@[simp] theorem State.setManagement_restore (s : State) (x : Management) : (s.setManagement x).restore = s.restore := rfl
@[simp] theorem State.setManagement_meter (s : State) (x : Management) : (s.setManagement x).meter = s.meter := rfl
@[simp] theorem State.setManagement_log (s : State) (x : Management) : (s.setManagement x).log = s.log := rfl
@[simp] theorem State.setManagement_port (s : State) (x : Management) : (s.setManagement x).port = s.port := rfl
@[simp] theorem State.setManagement_memory (s : State) (x : Management) : (s.setManagement x).memory = s.memory := rfl
@[simp] theorem State.setManagement_reports (s : State) (x : Management) : (s.setManagement x).reports = s.reports := rfl
@[simp] theorem State.setManagement_management (s : State) (x : Management) : (s.setManagement x).management = x := rfl
@[simp] theorem State.setManagement_pending (s : State) (x : Management) : (s.setManagement x).pending = s.pending := rfl

/-! `State.setPending` -/

@[simp] theorem State.setPending_chip (s : State) (x : List Instr) : (s.setPending x).chip = s.chip := rfl
@[simp] theorem State.setPending_link (s : State) (x : List Instr) : (s.setPending x).link = s.link := rfl
@[simp] theorem State.setPending_apertures (s : State) (x : List Instr) : (s.setPending x).apertures = s.apertures := rfl
@[simp] theorem State.setPending_store (s : State) (x : List Instr) : (s.setPending x).store = s.store := rfl
@[simp] theorem State.setPending_restore (s : State) (x : List Instr) : (s.setPending x).restore = s.restore := rfl
@[simp] theorem State.setPending_meter (s : State) (x : List Instr) : (s.setPending x).meter = s.meter := rfl
@[simp] theorem State.setPending_log (s : State) (x : List Instr) : (s.setPending x).log = s.log := rfl
@[simp] theorem State.setPending_port (s : State) (x : List Instr) : (s.setPending x).port = s.port := rfl
@[simp] theorem State.setPending_memory (s : State) (x : List Instr) : (s.setPending x).memory = s.memory := rfl
@[simp] theorem State.setPending_reports (s : State) (x : List Instr) : (s.setPending x).reports = s.reports := rfl
@[simp] theorem State.setPending_management (s : State) (x : List Instr) : (s.setPending x).management = s.management := rfl
@[simp] theorem State.setPending_pending (s : State) (x : List Instr) : (s.setPending x).pending = x := rfl

end Sys2Proof.Machine
end

