-- ==== Sys2Proof/Laws/Frames.lean ====
section
/-! SUPPORT. The frame of each shared operation: the blocks of the state that it leaves as they were. `simp` uses each part
of such a lemma as a rule of its own. -/

namespace Sys2Proof.Machine

/-- It changes at most: chip. -/
@[simp] theorem State.reach_frame (s : State) (t : Nat) :
    (s.reach t).link = s.link ∧ (s.reach t).apertures = s.apertures ∧ (s.reach t).store = s.store ∧
    (s.reach t).restore = s.restore ∧ (s.reach t).meter = s.meter ∧ (s.reach t).log = s.log ∧
    (s.reach t).port = s.port ∧ (s.reach t).memory = s.memory ∧ (s.reach t).reports = s.reports ∧
    (s.reach t).management = s.management ∧ (s.reach t).pending = s.pending := by
  unfold State.reach
  simp

/-- It changes at most: reports. -/
@[simp] theorem State.judgeStoreLow_frame (s : State) (b : Bool) :
    (s.judgeStoreLow b).chip = s.chip ∧ (s.judgeStoreLow b).link = s.link ∧
    (s.judgeStoreLow b).apertures = s.apertures ∧ (s.judgeStoreLow b).store = s.store ∧
    (s.judgeStoreLow b).restore = s.restore ∧ (s.judgeStoreLow b).meter = s.meter ∧
    (s.judgeStoreLow b).log = s.log ∧ (s.judgeStoreLow b).port = s.port ∧
    (s.judgeStoreLow b).memory = s.memory ∧ (s.judgeStoreLow b).management = s.management ∧
    (s.judgeStoreLow b).pending = s.pending := by
  unfold State.judgeStoreLow
  (repeat' split) <;> simp

/-- It changes at most: link. -/
@[simp] theorem State.releaseReads_frame (s : State) :
    s.releaseReads.chip = s.chip ∧ s.releaseReads.apertures = s.apertures ∧ s.releaseReads.store = s.store ∧
    s.releaseReads.restore = s.restore ∧ s.releaseReads.meter = s.meter ∧ s.releaseReads.log = s.log ∧
    s.releaseReads.port = s.port ∧ s.releaseReads.memory = s.memory ∧ s.releaseReads.reports = s.reports ∧
    s.releaseReads.management = s.management ∧ s.releaseReads.pending = s.pending := by
  unfold State.releaseReads
  simp

/-- It changes at most: link, restore, port. -/
@[simp] theorem State.linkDown_frame (s : State) :
    s.linkDown.chip = s.chip ∧ s.linkDown.apertures = s.apertures ∧ s.linkDown.store = s.store ∧
    s.linkDown.meter = s.meter ∧ s.linkDown.log = s.log ∧
    s.linkDown.memory = s.memory ∧ s.linkDown.reports = s.reports ∧ s.linkDown.management = s.management ∧
    s.linkDown.pending = s.pending := by
  unfold State.linkDown
  simp

/-- It changes at most: link. -/
@[simp] theorem State.attemptHead_frame (s : State) :
    s.attemptHead.chip = s.chip ∧ s.attemptHead.apertures = s.apertures ∧ s.attemptHead.store = s.store ∧
    s.attemptHead.restore = s.restore ∧ s.attemptHead.meter = s.meter ∧ s.attemptHead.log = s.log ∧
    s.attemptHead.port = s.port ∧ s.attemptHead.memory = s.memory ∧ s.attemptHead.reports = s.reports ∧
    s.attemptHead.management = s.management ∧ s.attemptHead.pending = s.pending := by
  unfold State.attemptHead
  simp

/-- It changes at most: management. -/
@[simp] theorem State.respond_frame (s : State) (st : Status) (fs : List Byte) :
    (s.respond st fs).chip = s.chip ∧ (s.respond st fs).link = s.link ∧
    (s.respond st fs).apertures = s.apertures ∧ (s.respond st fs).store = s.store ∧
    (s.respond st fs).restore = s.restore ∧ (s.respond st fs).meter = s.meter ∧ (s.respond st fs).log = s.log ∧
    (s.respond st fs).port = s.port ∧ (s.respond st fs).memory = s.memory ∧
    (s.respond st fs).reports = s.reports ∧ (s.respond st fs).pending = s.pending := by
  unfold State.respond
  simp

/-- It changes at most: restore. -/
@[simp] theorem State.setSequencer_frame (s : State) (q : Sequencer) :
    (s.setSequencer q).chip = s.chip ∧ (s.setSequencer q).link = s.link ∧
    (s.setSequencer q).apertures = s.apertures ∧ (s.setSequencer q).store = s.store ∧
    (s.setSequencer q).meter = s.meter ∧ (s.setSequencer q).log = s.log ∧ (s.setSequencer q).port = s.port ∧
    (s.setSequencer q).memory = s.memory ∧ (s.setSequencer q).reports = s.reports ∧
    (s.setSequencer q).management = s.management ∧ (s.setSequencer q).pending = s.pending := by
  unfold State.setSequencer
  simp

/-- It changes at most: reports. -/
@[simp] theorem State.setStatuses_frame (s : State) (st : Statuses) :
    (s.setStatuses st).chip = s.chip ∧ (s.setStatuses st).link = s.link ∧
    (s.setStatuses st).apertures = s.apertures ∧ (s.setStatuses st).store = s.store ∧
    (s.setStatuses st).restore = s.restore ∧ (s.setStatuses st).meter = s.meter ∧
    (s.setStatuses st).log = s.log ∧ (s.setStatuses st).port = s.port ∧ (s.setStatuses st).memory = s.memory ∧
    (s.setStatuses st).management = s.management ∧ (s.setStatuses st).pending = s.pending := by
  unfold State.setStatuses
  simp

/-- It changes at most: store, restore, reports. -/
@[simp] theorem State.completeCommit_frame (s : State) :
    s.completeCommit.chip = s.chip ∧ s.completeCommit.link = s.link ∧ s.completeCommit.apertures = s.apertures ∧
    s.completeCommit.meter = s.meter ∧ s.completeCommit.log = s.log ∧ s.completeCommit.port = s.port ∧
    s.completeCommit.memory = s.memory ∧ s.completeCommit.management = s.management ∧
    s.completeCommit.pending = s.pending := by
  unfold State.completeCommit
  simp

/-- It changes at most: store, restore, reports. -/
@[simp] theorem State.endAbort_frame (s : State) :
    s.endAbort.chip = s.chip ∧ s.endAbort.link = s.link ∧ s.endAbort.apertures = s.apertures ∧
    s.endAbort.meter = s.meter ∧ s.endAbort.log = s.log ∧ s.endAbort.port = s.port ∧
    s.endAbort.memory = s.memory ∧ s.endAbort.management = s.management ∧ s.endAbort.pending = s.pending := by
  unfold State.endAbort
  simp

/-- It changes at most: store, restore, reports. -/
@[simp] theorem State.takeCommitStrip_frame (s : State) (src : Nat) :
    (s.takeCommitStrip src).chip = s.chip ∧ (s.takeCommitStrip src).link = s.link ∧
    (s.takeCommitStrip src).apertures = s.apertures ∧ (s.takeCommitStrip src).meter = s.meter ∧
    (s.takeCommitStrip src).log = s.log ∧ (s.takeCommitStrip src).port = s.port ∧
    (s.takeCommitStrip src).memory = s.memory ∧ (s.takeCommitStrip src).management = s.management ∧
    (s.takeCommitStrip src).pending = s.pending := by
  unfold State.takeCommitStrip
  (repeat' split) <;> simp

/-- It changes at most: restore, reports. -/
@[simp] theorem State.waitCommit_frame (s : State) :
    s.waitCommit.chip = s.chip ∧ s.waitCommit.link = s.link ∧ s.waitCommit.apertures = s.apertures ∧
    s.waitCommit.store = s.store ∧ s.waitCommit.meter = s.meter ∧ s.waitCommit.log = s.log ∧
    s.waitCommit.port = s.port ∧ s.waitCommit.memory = s.memory ∧ s.waitCommit.management = s.management ∧
    s.waitCommit.pending = s.pending := by
  unfold State.waitCommit
  simp

/-- It changes at most: store, restore, reports. -/
@[simp] theorem State.examine_frame (s : State) :
    s.examine.chip = s.chip ∧ s.examine.link = s.link ∧ s.examine.apertures = s.apertures ∧
    s.examine.meter = s.meter ∧ s.examine.log = s.log ∧ s.examine.port = s.port ∧
    s.examine.memory = s.memory ∧ s.examine.management = s.management ∧
    s.examine.pending = s.pending := by
  unfold State.examine
  dsimp only
  (repeat' split) <;> simp

/-- It changes at most: store, restore, reports. -/
@[simp] theorem State.examineDue_frame (s : State) :
    s.examineDue.chip = s.chip ∧ s.examineDue.link = s.link ∧ s.examineDue.apertures = s.apertures ∧
    s.examineDue.meter = s.meter ∧ s.examineDue.log = s.log ∧ s.examineDue.port = s.port ∧
    s.examineDue.memory = s.memory ∧ s.examineDue.management = s.management ∧
    s.examineDue.pending = s.pending := by
  unfold State.examineDue State.nowOrLater
  dsimp only
  (repeat' split) <;> simp

/-- It changes at most: store, restore, reports. -/
@[simp] theorem State.settleStrip_frame (s : State) :
    s.settleStrip.chip = s.chip ∧ s.settleStrip.link = s.link ∧ s.settleStrip.apertures = s.apertures ∧
    s.settleStrip.meter = s.meter ∧ s.settleStrip.log = s.log ∧ s.settleStrip.port = s.port ∧
    s.settleStrip.memory = s.memory ∧ s.settleStrip.management = s.management ∧
    s.settleStrip.pending = s.pending := by
  unfold State.settleStrip
  split <;> simp

/-- It changes at most: store, restore, reports. -/
@[simp] theorem State.resumeCommit_frame (s : State) :
    s.resumeCommit.chip = s.chip ∧ s.resumeCommit.link = s.link ∧ s.resumeCommit.apertures = s.apertures ∧
    s.resumeCommit.meter = s.meter ∧ s.resumeCommit.log = s.log ∧ s.resumeCommit.port = s.port ∧
    s.resumeCommit.memory = s.memory ∧ s.resumeCommit.management = s.management ∧
    s.resumeCommit.pending = s.pending := by
  unfold State.resumeCommit
  (repeat' split) <;> simp

/-- It changes at most: store, restore, reports. -/
@[simp] theorem State.finishCommitStrip_frame (s : State) :
    s.finishCommitStrip.chip = s.chip ∧ s.finishCommitStrip.link = s.link ∧
    s.finishCommitStrip.apertures = s.apertures ∧ s.finishCommitStrip.meter = s.meter ∧
    s.finishCommitStrip.log = s.log ∧ s.finishCommitStrip.port = s.port ∧
    s.finishCommitStrip.memory = s.memory ∧ s.finishCommitStrip.management = s.management ∧
    s.finishCommitStrip.pending = s.pending := by
  unfold State.finishCommitStrip
  simp

/-- It changes at most: meter, reports. -/
@[simp] theorem State.withhold_frame (s : State) (j : Nat) (r : Reason) :
    (s.withhold j r).chip = s.chip ∧ (s.withhold j r).link = s.link ∧ (s.withhold j r).apertures = s.apertures ∧
    (s.withhold j r).store = s.store ∧ (s.withhold j r).restore = s.restore ∧ (s.withhold j r).log = s.log ∧
    (s.withhold j r).port = s.port ∧ (s.withhold j r).memory = s.memory ∧
    (s.withhold j r).management = s.management ∧ (s.withhold j r).pending = s.pending := by
  unfold State.withhold
  simp

/-- It changes at most: meter, store, log, reports. -/
@[simp] theorem State.charge_frame (s : State) (j p : Nat) (c : Charge) :
    (s.charge j p c).chip = s.chip ∧ (s.charge j p c).link = s.link ∧ (s.charge j p c).apertures = s.apertures ∧
    (s.charge j p c).restore = s.restore ∧ (s.charge j p c).port = s.port ∧ (s.charge j p c).memory = s.memory ∧
    (s.charge j p c).management = s.management ∧ (s.charge j p c).pending = s.pending := by
  unfold State.charge
  simp

/-- It changes at most: link. -/
@[simp] theorem State.answerRead_frame (s : State) (t : Fin 32) (a : Answer) :
    (s.answerRead t a).chip = s.chip ∧ (s.answerRead t a).apertures = s.apertures ∧
    (s.answerRead t a).store = s.store ∧ (s.answerRead t a).restore = s.restore ∧
    (s.answerRead t a).meter = s.meter ∧ (s.answerRead t a).log = s.log ∧ (s.answerRead t a).port = s.port ∧
    (s.answerRead t a).memory = s.memory ∧ (s.answerRead t a).reports = s.reports ∧
    (s.answerRead t a).management = s.management ∧ (s.answerRead t a).pending = s.pending := by
  unfold State.answerRead
  simp

/-- It changes at most: link, port. -/
@[simp] theorem State.queueRead_frame (s : State) (t : Fin 32) (st l : Nat) (e : Bool) :
    (s.queueRead t st l e).chip = s.chip ∧ (s.queueRead t st l e).apertures = s.apertures ∧
    (s.queueRead t st l e).store = s.store ∧ (s.queueRead t st l e).restore = s.restore ∧
    (s.queueRead t st l e).meter = s.meter ∧ (s.queueRead t st l e).log = s.log ∧
    (s.queueRead t st l e).memory = s.memory ∧ (s.queueRead t st l e).reports = s.reports ∧
    (s.queueRead t st l e).management = s.management ∧ (s.queueRead t st l e).pending = s.pending := by
  unfold State.queueRead
  simp

/-- It changes at most: link, port. -/
@[simp] theorem State.walkRead_frame (s : State) (t : Fin 32) (ap : Aperture) (k : Key) :
    (s.walkRead t ap k).chip = s.chip ∧ (s.walkRead t ap k).apertures = s.apertures ∧
    (s.walkRead t ap k).store = s.store ∧ (s.walkRead t ap k).restore = s.restore ∧
    (s.walkRead t ap k).meter = s.meter ∧ (s.walkRead t ap k).log = s.log ∧
    (s.walkRead t ap k).memory = s.memory ∧ (s.walkRead t ap k).reports = s.reports ∧
    (s.walkRead t ap k).management = s.management ∧ (s.walkRead t ap k).pending = s.pending := by
  unfold State.walkRead
  (repeat' split) <;> simp

/-- It changes at most: link, port, meter, store, log, reports. -/
@[simp] theorem State.decodeRead_frame (s : State) (t : Fin 32) :
    (s.decodeRead t).chip = s.chip ∧ (s.decodeRead t).apertures = s.apertures ∧
    (s.decodeRead t).restore = s.restore ∧ (s.decodeRead t).memory = s.memory ∧
    (s.decodeRead t).management = s.management ∧ (s.decodeRead t).pending = s.pending := by
  unfold State.decodeRead
  dsimp only
  (repeat' split) <;> simp

/-- It changes at most: link. -/
@[simp] theorem State.headLeaves_frame (s : State) :
    s.headLeaves.chip = s.chip ∧ s.headLeaves.apertures = s.apertures ∧ s.headLeaves.store = s.store ∧
    s.headLeaves.restore = s.restore ∧ s.headLeaves.meter = s.meter ∧ s.headLeaves.log = s.log ∧
    s.headLeaves.port = s.port ∧ s.headLeaves.memory = s.memory ∧ s.headLeaves.reports = s.reports ∧
    s.headLeaves.management = s.management ∧ s.headLeaves.pending = s.pending := by
  unfold State.headLeaves
  (repeat' split) <;> simp

/-- It changes at most: link, reports. -/
@[simp] theorem State.dropHead_frame (s : State) (w : HostWrite) (k : FaultKind) :
    (s.dropHead w k).chip = s.chip ∧ (s.dropHead w k).apertures = s.apertures ∧
    (s.dropHead w k).store = s.store ∧ (s.dropHead w k).restore = s.restore ∧ (s.dropHead w k).meter = s.meter ∧
    (s.dropHead w k).log = s.log ∧ (s.dropHead w k).port = s.port ∧ (s.dropHead w k).memory = s.memory ∧
    (s.dropHead w k).management = s.management ∧ (s.dropHead w k).pending = s.pending := by
  unfold State.dropHead
  simp

/-- It changes at most: link, port. -/
@[simp] theorem State.carryHead_frame (s : State) (w : HostWrite) (st : Nat) :
    (s.carryHead w st).chip = s.chip ∧ (s.carryHead w st).apertures = s.apertures ∧
    (s.carryHead w st).store = s.store ∧ (s.carryHead w st).restore = s.restore ∧
    (s.carryHead w st).meter = s.meter ∧ (s.carryHead w st).log = s.log ∧ (s.carryHead w st).memory = s.memory ∧
    (s.carryHead w st).reports = s.reports ∧ (s.carryHead w st).management = s.management ∧
    (s.carryHead w st).pending = s.pending := by
  unfold State.carryHead
  simp

/-- It changes at most: link, port, store. -/
@[simp] theorem State.holdHead_frame (s : State) (w : HostWrite) (k : Fin 4) (st : Nat) (r : Bool) :
    (s.holdHead w k st r).chip = s.chip ∧ (s.holdHead w k st r).apertures = s.apertures ∧
    (s.holdHead w k st r).restore = s.restore ∧ (s.holdHead w k st r).meter = s.meter ∧
    (s.holdHead w k st r).log = s.log ∧ (s.holdHead w k st r).memory = s.memory ∧
    (s.holdHead w k st r).reports = s.reports ∧ (s.holdHead w k st r).management = s.management ∧
    (s.holdHead w k st r).pending = s.pending := by
  unfold State.holdHead
  (repeat' split) <;> simp

/-- It changes at most: link. -/
@[simp] theorem State.headWaits_frame (s : State) :
    s.headWaits.chip = s.chip ∧ s.headWaits.apertures = s.apertures ∧ s.headWaits.store = s.store ∧
    s.headWaits.restore = s.restore ∧ s.headWaits.meter = s.meter ∧ s.headWaits.log = s.log ∧
    s.headWaits.port = s.port ∧ s.headWaits.memory = s.memory ∧ s.headWaits.reports = s.reports ∧
    s.headWaits.management = s.management ∧ s.headWaits.pending = s.pending := by
  unfold State.headWaits
  simp

/-- It changes at most: link, store, reports, port. -/
@[simp] theorem State.startFresh_frame (s : State) (w : HostWrite) (kd : ApertureKind) (n : Option Nat) (k : Fin 4) (st : Nat) :
    (s.startFresh w kd n k st).chip = s.chip ∧ (s.startFresh w kd n k st).apertures = s.apertures ∧
    (s.startFresh w kd n k st).restore = s.restore ∧ (s.startFresh w kd n k st).meter = s.meter ∧
    (s.startFresh w kd n k st).log = s.log ∧ (s.startFresh w kd n k st).memory = s.memory ∧
    (s.startFresh w kd n k st).management = s.management ∧ (s.startFresh w kd n k st).pending = s.pending := by
  unfold State.startFresh
  (repeat' split) <;> simp

/-- It changes at most: link, store, reports, port. -/
@[simp] theorem State.disposeFresh_frame (s : State) (w : HostWrite) (kd : ApertureKind) :
    (s.disposeFresh w kd).chip = s.chip ∧ (s.disposeFresh w kd).apertures = s.apertures ∧
    (s.disposeFresh w kd).restore = s.restore ∧ (s.disposeFresh w kd).meter = s.meter ∧
    (s.disposeFresh w kd).log = s.log ∧ (s.disposeFresh w kd).memory = s.memory ∧
    (s.disposeFresh w kd).management = s.management ∧ (s.disposeFresh w kd).pending = s.pending := by
  unfold State.disposeFresh
  dsimp only
  (repeat' split) <;> simp

/-- It changes at most: link, store, port. -/
@[simp] theorem State.disposeHeld_frame (s : State) (w : HostWrite) (st : Nat) :
    (s.disposeHeld w st).chip = s.chip ∧ (s.disposeHeld w st).apertures = s.apertures ∧
    (s.disposeHeld w st).restore = s.restore ∧ (s.disposeHeld w st).meter = s.meter ∧
    (s.disposeHeld w st).log = s.log ∧ (s.disposeHeld w st).memory = s.memory ∧
    (s.disposeHeld w st).reports = s.reports ∧ (s.disposeHeld w st).management = s.management ∧
    (s.disposeHeld w st).pending = s.pending := by
  unfold State.disposeHeld
  (repeat' split) <;> simp

/-- It changes at most: link, store, port, reports. -/
@[simp] theorem State.disposeTarget_frame (s : State) (w : HostWrite) (kd : ApertureKind) :
    (s.disposeTarget w kd).chip = s.chip ∧ (s.disposeTarget w kd).apertures = s.apertures ∧
    (s.disposeTarget w kd).restore = s.restore ∧ (s.disposeTarget w kd).meter = s.meter ∧
    (s.disposeTarget w kd).log = s.log ∧ (s.disposeTarget w kd).memory = s.memory ∧
    (s.disposeTarget w kd).management = s.management ∧ (s.disposeTarget w kd).pending = s.pending := by
  unfold State.disposeTarget
  dsimp only
  (repeat' split) <;> simp

/-- It changes at most: link, store, port, reports. -/
@[simp] theorem State.disposePage_frame (s : State) (w : HostWrite) (kd : ApertureKind) :
    (s.disposePage w kd).chip = s.chip ∧ (s.disposePage w kd).apertures = s.apertures ∧
    (s.disposePage w kd).restore = s.restore ∧ (s.disposePage w kd).meter = s.meter ∧
    (s.disposePage w kd).log = s.log ∧ (s.disposePage w kd).memory = s.memory ∧
    (s.disposePage w kd).management = s.management ∧ (s.disposePage w kd).pending = s.pending := by
  unfold State.disposePage
  (repeat' split) <;> simp

/-- It changes at most: link, store, port, reports. -/
@[simp] theorem State.disposeHead_frame (s : State) (w : HostWrite) :
    (s.disposeHead w).chip = s.chip ∧ (s.disposeHead w).apertures = s.apertures ∧
    (s.disposeHead w).restore = s.restore ∧ (s.disposeHead w).meter = s.meter ∧ (s.disposeHead w).log = s.log ∧
    (s.disposeHead w).memory = s.memory ∧ (s.disposeHead w).management = s.management ∧
    (s.disposeHead w).pending = s.pending := by
  unfold State.disposeHead
  dsimp only
  (repeat' split) <;> simp

/-- It changes at most: store. -/
@[simp] theorem State.setCopy_frame (s : State) (k : Fin 4) (c : Copy) :
    (s.setCopy k c).chip = s.chip ∧ (s.setCopy k c).link = s.link ∧ (s.setCopy k c).apertures = s.apertures ∧
    (s.setCopy k c).restore = s.restore ∧ (s.setCopy k c).meter = s.meter ∧ (s.setCopy k c).log = s.log ∧
    (s.setCopy k c).port = s.port ∧ (s.setCopy k c).memory = s.memory ∧ (s.setCopy k c).reports = s.reports ∧
    (s.setCopy k c).management = s.management ∧ (s.setCopy k c).pending = s.pending := by
  unfold State.setCopy
  simp

/-- It changes at most: port. -/
@[simp] theorem State.joinEngine_frame (s : State) (a : Access) :
    (s.joinEngine a).chip = s.chip ∧ (s.joinEngine a).link = s.link ∧ (s.joinEngine a).apertures = s.apertures ∧
    (s.joinEngine a).store = s.store ∧ (s.joinEngine a).restore = s.restore ∧ (s.joinEngine a).meter = s.meter ∧
    (s.joinEngine a).log = s.log ∧ (s.joinEngine a).memory = s.memory ∧ (s.joinEngine a).reports = s.reports ∧
    (s.joinEngine a).management = s.management ∧ (s.joinEngine a).pending = s.pending := by
  unfold State.joinEngine
  simp

/-- It changes at most: store, port. -/
@[simp] theorem State.issueCopy_frame (s : State) (k : Fin 4) (c : Copy) :
    (s.issueCopy k c).chip = s.chip ∧ (s.issueCopy k c).link = s.link ∧
    (s.issueCopy k c).apertures = s.apertures ∧ (s.issueCopy k c).restore = s.restore ∧
    (s.issueCopy k c).meter = s.meter ∧ (s.issueCopy k c).log = s.log ∧ (s.issueCopy k c).memory = s.memory ∧
    (s.issueCopy k c).reports = s.reports ∧ (s.issueCopy k c).management = s.management ∧
    (s.issueCopy k c).pending = s.pending := by
  unfold State.issueCopy
  (repeat' split) <;> simp

/-- It changes at most: restore, port. -/
@[simp] theorem State.issueCommit_frame (s : State) :
    s.issueCommit.chip = s.chip ∧ s.issueCommit.link = s.link ∧ s.issueCommit.apertures = s.apertures ∧
    s.issueCommit.store = s.store ∧ s.issueCommit.meter = s.meter ∧ s.issueCommit.log = s.log ∧
    s.issueCommit.memory = s.memory ∧ s.issueCommit.reports = s.reports ∧
    s.issueCommit.management = s.management ∧ s.issueCommit.pending = s.pending := by
  unfold State.issueCommit
  dsimp only
  (repeat' split) <;> simp

/-- It changes at most: store, restore. -/
@[simp] theorem State.unblock_frame (s : State) :
    s.unblock.chip = s.chip ∧ s.unblock.link = s.link ∧ s.unblock.apertures = s.apertures ∧
    s.unblock.meter = s.meter ∧ s.unblock.log = s.log ∧ s.unblock.port = s.port ∧ s.unblock.memory = s.memory ∧
    s.unblock.reports = s.reports ∧ s.unblock.management = s.management ∧ s.unblock.pending = s.pending := by
  unfold State.unblock
  simp

/-- It changes at most: store, reports. -/
@[simp] theorem State.testClosing_frame (s : State) :
    s.testClosing.chip = s.chip ∧ s.testClosing.link = s.link ∧ s.testClosing.apertures = s.apertures ∧
    s.testClosing.restore = s.restore ∧ s.testClosing.meter = s.meter ∧ s.testClosing.log = s.log ∧
    s.testClosing.port = s.port ∧ s.testClosing.memory = s.memory ∧ s.testClosing.management = s.management ∧
    s.testClosing.pending = s.pending := by
  unfold State.testClosing
  (repeat' split) <;> simp

/-- It changes at most: store, reports. -/
@[simp] theorem State.testClosingDue_frame (s : State) :
    s.testClosingDue.chip = s.chip ∧ s.testClosingDue.link = s.link ∧ s.testClosingDue.apertures = s.apertures ∧
    s.testClosingDue.restore = s.restore ∧ s.testClosingDue.meter = s.meter ∧ s.testClosingDue.log = s.log ∧
    s.testClosingDue.port = s.port ∧ s.testClosingDue.memory = s.memory ∧
    s.testClosingDue.management = s.management ∧ s.testClosingDue.pending = s.pending := by
  unfold State.testClosingDue
  dsimp only
  split <;> simp

/-- It changes at most: link, store, reports. -/
@[simp] theorem State.slotIdle_frame (s : State) (k : Fin 4) (c : Copy) :
    (s.slotIdle k c).chip = s.chip ∧ (s.slotIdle k c).apertures = s.apertures ∧
    (s.slotIdle k c).restore = s.restore ∧ (s.slotIdle k c).meter = s.meter ∧ (s.slotIdle k c).log = s.log ∧
    (s.slotIdle k c).port = s.port ∧ (s.slotIdle k c).memory = s.memory ∧
    (s.slotIdle k c).management = s.management ∧ (s.slotIdle k c).pending = s.pending := by
  unfold State.slotIdle State.freeSlot
  simp

/-- It changes at most: link, store, reports. -/
@[simp] theorem State.heldCarriedOut_frame (s : State) (k : Fin 4) :
    (s.heldCarriedOut k).chip = s.chip ∧ (s.heldCarriedOut k).apertures = s.apertures ∧
    (s.heldCarriedOut k).restore = s.restore ∧ (s.heldCarriedOut k).meter = s.meter ∧
    (s.heldCarriedOut k).log = s.log ∧ (s.heldCarriedOut k).port = s.port ∧
    (s.heldCarriedOut k).memory = s.memory ∧ (s.heldCarriedOut k).management = s.management ∧
    (s.heldCarriedOut k).pending = s.pending := by
  unfold State.heldCarriedOut
  dsimp only
  (repeat' split) <;> simp

/-- It changes at most: store, port. -/
@[simp] theorem State.releaseHeld_frame (s : State) (k : Fin 4) (st : Nat) :
    (s.releaseHeld k st).chip = s.chip ∧ (s.releaseHeld k st).link = s.link ∧
    (s.releaseHeld k st).apertures = s.apertures ∧ (s.releaseHeld k st).restore = s.restore ∧
    (s.releaseHeld k st).meter = s.meter ∧ (s.releaseHeld k st).log = s.log ∧
    (s.releaseHeld k st).memory = s.memory ∧ (s.releaseHeld k st).reports = s.reports ∧
    (s.releaseHeld k st).management = s.management ∧ (s.releaseHeld k st).pending = s.pending := by
  unfold State.releaseHeld
  simp

/-- It changes at most: store, port. -/
@[simp] theorem State.copyWritten_frame (s : State) (k : Fin 4) :
    (s.copyWritten k).chip = s.chip ∧ (s.copyWritten k).link = s.link ∧
    (s.copyWritten k).apertures = s.apertures ∧ (s.copyWritten k).restore = s.restore ∧
    (s.copyWritten k).meter = s.meter ∧ (s.copyWritten k).log = s.log ∧ (s.copyWritten k).memory = s.memory ∧
    (s.copyWritten k).reports = s.reports ∧ (s.copyWritten k).management = s.management ∧
    (s.copyWritten k).pending = s.pending := by
  unfold State.copyWritten
  (repeat' split) <;> simp

/-- It changes at most: store. -/
@[simp] theorem State.copyRead_frame (s : State) (k : Fin 4) (bs : List Byte) :
    (s.copyRead k bs).chip = s.chip ∧ (s.copyRead k bs).link = s.link ∧
    (s.copyRead k bs).apertures = s.apertures ∧ (s.copyRead k bs).restore = s.restore ∧
    (s.copyRead k bs).meter = s.meter ∧ (s.copyRead k bs).log = s.log ∧ (s.copyRead k bs).port = s.port ∧
    (s.copyRead k bs).memory = s.memory ∧ (s.copyRead k bs).reports = s.reports ∧
    (s.copyRead k bs).management = s.management ∧ (s.copyRead k bs).pending = s.pending := by
  unfold State.copyRead
  (repeat' split) <;> simp

/-- It changes at most: store, restore, reports. -/
@[simp] theorem State.commitWritten_frame (s : State) :
    s.commitWritten.chip = s.chip ∧ s.commitWritten.link = s.link ∧ s.commitWritten.apertures = s.apertures ∧
    s.commitWritten.meter = s.meter ∧ s.commitWritten.log = s.log ∧ s.commitWritten.port = s.port ∧
    s.commitWritten.memory = s.memory ∧ s.commitWritten.management = s.management ∧
    s.commitWritten.pending = s.pending := by
  unfold State.commitWritten
  dsimp only
  (repeat' split) <;> simp

/-- It changes at most: store, restore, reports. -/
@[simp] theorem State.commitRead_frame (s : State) (bs : List Byte) :
    (s.commitRead bs).chip = s.chip ∧ (s.commitRead bs).link = s.link ∧
    (s.commitRead bs).apertures = s.apertures ∧ (s.commitRead bs).meter = s.meter ∧
    (s.commitRead bs).log = s.log ∧ (s.commitRead bs).port = s.port ∧ (s.commitRead bs).memory = s.memory ∧
    (s.commitRead bs).management = s.management ∧ (s.commitRead bs).pending = s.pending := by
  unfold State.commitRead
  dsimp only
  (repeat' split) <;> simp

/-- It changes at most: link. -/
@[simp] theorem State.arrive_frame (s : State) (a : Arrival) :
    (s.arrive a).chip = s.chip ∧ (s.arrive a).apertures = s.apertures ∧ (s.arrive a).store = s.store ∧
    (s.arrive a).restore = s.restore ∧ (s.arrive a).meter = s.meter ∧ (s.arrive a).log = s.log ∧
    (s.arrive a).port = s.port ∧ (s.arrive a).memory = s.memory ∧ (s.arrive a).reports = s.reports ∧
    (s.arrive a).management = s.management ∧ (s.arrive a).pending = s.pending := by
  unfold State.arrive
  simp

/-- It changes at most: link. -/
@[simp] theorem foldl_arrive_frame (s : State) (l : List Arrival) :
    (l.foldl State.arrive s).chip = s.chip ∧ (l.foldl State.arrive s).apertures = s.apertures ∧
    (l.foldl State.arrive s).store = s.store ∧ (l.foldl State.arrive s).restore = s.restore ∧
    (l.foldl State.arrive s).meter = s.meter ∧ (l.foldl State.arrive s).log = s.log ∧
    (l.foldl State.arrive s).port = s.port ∧ (l.foldl State.arrive s).memory = s.memory ∧
    (l.foldl State.arrive s).reports = s.reports ∧ (l.foldl State.arrive s).management = s.management ∧
    (l.foldl State.arrive s).pending = s.pending := by
  induction l generalizing s with
  | nil => simp
  | cons a l ih => simpa using ih (s.arrive a)

/-- It changes at most: link, restore. -/
@[simp] theorem State.arriveAll_frame (s : State) :
    s.arriveAll.chip = s.chip ∧ s.arriveAll.apertures = s.apertures ∧ s.arriveAll.store = s.store ∧
    s.arriveAll.meter = s.meter ∧ s.arriveAll.log = s.log ∧ s.arriveAll.port = s.port ∧
    s.arriveAll.memory = s.memory ∧ s.arriveAll.reports = s.reports ∧
    s.arriveAll.management = s.management ∧ s.arriveAll.pending = s.pending := by
  unfold State.arriveAll
  simp

/-- It changes at most: link, restore. -/
@[simp] theorem State.lineReadDone_frame (s : State) (t : Fin 32) (st l : Nat) (e a : Bool) :
    (s.lineReadDone t st l e a).chip = s.chip ∧ (s.lineReadDone t st l e a).apertures = s.apertures ∧
    (s.lineReadDone t st l e a).store = s.store ∧ (s.lineReadDone t st l e a).meter = s.meter ∧
    (s.lineReadDone t st l e a).log = s.log ∧ (s.lineReadDone t st l e a).port = s.port ∧
    (s.lineReadDone t st l e a).memory = s.memory ∧ (s.lineReadDone t st l e a).reports = s.reports ∧
    (s.lineReadDone t st l e a).management = s.management ∧ (s.lineReadDone t st l e a).pending = s.pending := by
  unfold State.lineReadDone State.nowOrLater
  dsimp only
  (repeat' split) <;> simp

/-- It changes at most: link, store, restore, memory, reports. -/
@[simp] theorem State.lineWriteDone_frame (s : State) (st l : Nat) (d : List Byte) (en : Enables) (h : Option (Fin 4)) :
    (s.lineWriteDone st l d en h).chip = s.chip ∧ (s.lineWriteDone st l d en h).apertures = s.apertures ∧
    (s.lineWriteDone st l d en h).meter = s.meter ∧ (s.lineWriteDone st l d en h).log = s.log ∧
    (s.lineWriteDone st l d en h).port = s.port ∧ (s.lineWriteDone st l d en h).management = s.management ∧
    (s.lineWriteDone st l d en h).pending = s.pending := by
  unfold State.lineWriteDone
  (repeat' split) <;> simp

/-- It changes at most: store, restore, reports. -/
@[simp] theorem State.readSegmentDone_frame (s : State) (g : Engine) (st l : Nat) (d : Bool) :
    (s.readSegmentDone g st l d).chip = s.chip ∧ (s.readSegmentDone g st l d).link = s.link ∧
    (s.readSegmentDone g st l d).apertures = s.apertures ∧ (s.readSegmentDone g st l d).meter = s.meter ∧
    (s.readSegmentDone g st l d).log = s.log ∧ (s.readSegmentDone g st l d).port = s.port ∧
    (s.readSegmentDone g st l d).memory = s.memory ∧ (s.readSegmentDone g st l d).management = s.management ∧
    (s.readSegmentDone g st l d).pending = s.pending := by
  unfold State.readSegmentDone
  (repeat' split) <;> simp

/-- It changes at most: store, restore, port, memory, reports. -/
@[simp] theorem State.writeSegmentDone_frame (s : State) (g : Engine) (st l : Nat) (bs : List Byte) (d : Bool) :
    (s.writeSegmentDone g st l bs d).chip = s.chip ∧ (s.writeSegmentDone g st l bs d).link = s.link ∧
    (s.writeSegmentDone g st l bs d).apertures = s.apertures ∧
    (s.writeSegmentDone g st l bs d).meter = s.meter ∧ (s.writeSegmentDone g st l bs d).log = s.log ∧
    (s.writeSegmentDone g st l bs d).management = s.management ∧
    (s.writeSegmentDone g st l bs d).pending = s.pending := by
  unfold State.writeSegmentDone
  (repeat' split) <;> simp

/-- It changes at most: link, store, restore, port, memory, reports. -/
@[simp] theorem State.carryOut_frame (s : State) (a : Access) :
    (s.carryOut a).chip = s.chip ∧ (s.carryOut a).apertures = s.apertures ∧ (s.carryOut a).meter = s.meter ∧
    (s.carryOut a).log = s.log ∧ (s.carryOut a).management = s.management ∧
    (s.carryOut a).pending = s.pending := by
  unfold State.carryOut
  (repeat' split) <;> simp

/-- It changes at most: chip, link, apertures, store, restore, meter, log, port, reports. -/
@[simp] theorem State.engineReset_frame (s : State) :
    s.engineReset.memory = s.memory ∧ s.engineReset.management = s.management ∧
    s.engineReset.pending = s.pending := by
  unfold State.engineReset
  simp

/-- It changes at most: store, restore, reports. -/
@[simp] theorem State.discard_frame (s : State) (p v : Nat) :
    (s.discard p v).chip = s.chip ∧ (s.discard p v).link = s.link ∧ (s.discard p v).apertures = s.apertures ∧
    (s.discard p v).meter = s.meter ∧ (s.discard p v).log = s.log ∧ (s.discard p v).port = s.port ∧
    (s.discard p v).memory = s.memory ∧ (s.discard p v).management = s.management ∧
    (s.discard p v).pending = s.pending := by
  unfold State.discard
  simp

/-- It changes at most: store, restore, reports. -/
@[simp] theorem State.retire_frame (s : State) (p : Nat) :
    (s.retire p).chip = s.chip ∧ (s.retire p).link = s.link ∧ (s.retire p).apertures = s.apertures ∧
    (s.retire p).meter = s.meter ∧ (s.retire p).log = s.log ∧ (s.retire p).port = s.port ∧
    (s.retire p).memory = s.memory ∧ (s.retire p).management = s.management ∧
    (s.retire p).pending = s.pending := by
  unfold State.retire
  simp

/-- It changes at most: restore. -/
@[simp] theorem State.setRecord_frame (s : State) (n : Nat) (r : Restoration) :
    (s.setRecord n r).chip = s.chip ∧ (s.setRecord n r).link = s.link ∧
    (s.setRecord n r).apertures = s.apertures ∧ (s.setRecord n r).store = s.store ∧
    (s.setRecord n r).meter = s.meter ∧ (s.setRecord n r).log = s.log ∧ (s.setRecord n r).port = s.port ∧
    (s.setRecord n r).memory = s.memory ∧ (s.setRecord n r).reports = s.reports ∧
    (s.setRecord n r).management = s.management ∧ (s.setRecord n r).pending = s.pending := by
  unfold State.setRecord
  simp

/-- It changes at most: store, restore, reports. -/
@[simp] theorem State.startCommit_frame (s : State) (p n : Nat) (h : Version) :
    (s.startCommit p n h).chip = s.chip ∧ (s.startCommit p n h).link = s.link ∧
    (s.startCommit p n h).apertures = s.apertures ∧ (s.startCommit p n h).meter = s.meter ∧
    (s.startCommit p n h).log = s.log ∧ (s.startCommit p n h).port = s.port ∧
    (s.startCommit p n h).memory = s.memory ∧ (s.startCommit p n h).management = s.management ∧
    (s.startCommit p n h).pending = s.pending := by
  unfold State.startCommit State.beginCommit
  simp

/-- It changes at most: store, restore, port, reports. -/
@[simp] theorem State.abortCommit_frame (s : State) :
    s.abortCommit.chip = s.chip ∧ s.abortCommit.link = s.link ∧ s.abortCommit.apertures = s.apertures ∧
    s.abortCommit.meter = s.meter ∧ s.abortCommit.log = s.log ∧ s.abortCommit.memory = s.memory ∧
    s.abortCommit.management = s.management ∧ s.abortCommit.pending = s.pending := by
  unfold State.abortCommit
  dsimp only
  (repeat' split) <;> simp

/-- It changes at most: meter. -/
@[simp] theorem State.setAccount_frame (s : State) (a : Nat) (x : Account) :
    (s.setAccount a x).chip = s.chip ∧ (s.setAccount a x).link = s.link ∧
    (s.setAccount a x).apertures = s.apertures ∧ (s.setAccount a x).store = s.store ∧
    (s.setAccount a x).restore = s.restore ∧ (s.setAccount a x).log = s.log ∧ (s.setAccount a x).port = s.port ∧
    (s.setAccount a x).memory = s.memory ∧ (s.setAccount a x).reports = s.reports ∧
    (s.setAccount a x).management = s.management ∧ (s.setAccount a x).pending = s.pending := by
  unfold State.setAccount
  simp

/-- It changes at most: meter. -/
@[simp] theorem State.setJob_frame (s : State) (j : Nat) (x : Job) :
    (s.setJob j x).chip = s.chip ∧ (s.setJob j x).link = s.link ∧ (s.setJob j x).apertures = s.apertures ∧
    (s.setJob j x).store = s.store ∧ (s.setJob j x).restore = s.restore ∧ (s.setJob j x).log = s.log ∧
    (s.setJob j x).port = s.port ∧ (s.setJob j x).memory = s.memory ∧ (s.setJob j x).reports = s.reports ∧
    (s.setJob j x).management = s.management ∧ (s.setJob j x).pending = s.pending := by
  unfold State.setJob
  simp

/-- It changes at most: management. -/
@[simp] theorem State.heldShift_frame (s : State) (n : Nat) :
    (s.heldShift n).chip = s.chip ∧ (s.heldShift n).link = s.link ∧ (s.heldShift n).apertures = s.apertures ∧
    (s.heldShift n).store = s.store ∧ (s.heldShift n).restore = s.restore ∧ (s.heldShift n).meter = s.meter ∧
    (s.heldShift n).log = s.log ∧ (s.heldShift n).port = s.port ∧ (s.heldShift n).memory = s.memory ∧
    (s.heldShift n).reports = s.reports ∧ (s.heldShift n).pending = s.pending := by
  unfold State.heldShift
  simp

end Sys2Proof.Machine
end

