-- ==== Sys2Proof/Laws/Table.lean ====
section
/-! SUPPORT. The laws of sparse tables: what a number reads as after each operation, and that each operation keeps the
numbers strictly rising. The reading laws hold of every table, rising or not. -/

namespace Sys2Proof

variable {α : Type}

@[simp] theorem Table.read_nil (k : Nat) : Table.read ([] : Table α) k = none := rfl

@[simp] theorem Table.has_nil (k : Nat) : Table.has ([] : Table α) k = false := rfl

theorem Table.read_cons (j : Nat) (a : α) (t : Table α) (k : Nat) :
    Table.read ((j, a) :: t) k = if j = k then some a else Table.read t k := rfl

/-! ### Reading after an operation -/

@[simp] theorem Table.read_write_self (t : Table α) (k : Nat) (a : α) : Table.read (Table.write t k a) k = some a := by
  induction t with
  | nil => simp [Table.write, Table.read]
  | cons e t ih =>
    obtain ⟨j, b⟩ := e
    simp only [Table.write]
    split
    · simp [Table.read]
    · split
      · simp [Table.read]
      · simp [Table.read, *]

theorem Table.read_write_other (t : Table α) (k : Nat) (a : α) {i : Nat} (h : i ≠ k) :
    Table.read (Table.write t k a) i = Table.read t i := by
  induction t with
  | nil => simp [Table.write, Table.read, Ne.symm h]
  | cons e t ih =>
    obtain ⟨j, b⟩ := e
    simp only [Table.write]
    split
    · simp [Table.read, Ne.symm h]
    · split
      · next hj => subst hj; simp [Table.read, Ne.symm h]
      · simp [Table.read, ih]

theorem Table.read_write (t : Table α) (k : Nat) (a : α) (i : Nat) :
    Table.read (Table.write t k a) i = if i = k then some a else Table.read t i := by
  split
  · next h => subst h; simp
  · next h => exact Table.read_write_other t k a h

theorem Table.read_remove (t : Table α) (k i : Nat) :
    Table.read (Table.remove t k) i = if i = k then none else Table.read t i := by
  induction t with
  | nil => simp [Table.remove, Table.read]
  | cons e t ih =>
    obtain ⟨j, b⟩ := e
    rw [Table.read_cons]
    by_cases hj : j = k
    · subst hj
      have : Table.remove ((j, b) :: t) j = Table.remove t j := by simp [Table.remove]
      rw [this, ih]
      by_cases hi : i = j
      · simp [hi]
      · simp [hi, Ne.symm hi]
    · have : Table.remove ((j, b) :: t) k = (j, b) :: Table.remove t k := by simp [Table.remove, hj]
      rw [this, Table.read_cons, ih]
      by_cases hi : i = k
      · subst hi; simp [hj]
      · simp [hi]

/-- What reads under a number stands in the table. -/
theorem Table.mem_of_read {α : Type} {t : Table α} {k : Nat} {a : α} (h : Table.read t k = some a) : (k, a) ∈ t := by
  induction t with
  | nil => simp at h
  | cons e t ih =>
    obtain ⟨j, b⟩ := e
    rw [Table.read_cons] at h
    split at h
    · next hj => cases h; rw [hj]; exact List.mem_cons_self
    · exact List.mem_cons_of_mem _ (ih h)

/-- A change of every entry by its number and value. -/
theorem Table.read_map {β : Type} (t : Table α) (f : Nat → α → β) (i : Nat) :
    Table.read (t.map fun e => (e.1, f e.1 e.2)) i = (Table.read t i).map (f i) := by
  induction t with
  | nil => rfl
  | cons e t ih =>
    obtain ⟨j, b⟩ := e
    rw [List.map_cons, Table.read_cons, Table.read_cons, ih]
    by_cases h : j = i
    · subst h; simp
    · simp [h]

theorem Table.read_adjust (t : Table α) (k : Nat) (f : α → α) (i : Nat) :
    Table.read (Table.adjust t k f) i = if i = k then (Table.read t i).map f else Table.read t i := by
  have h : Table.adjust t k f = t.map fun e => (e.1, (fun j a => if j = k then f a else a) e.1 e.2) := by
    unfold Table.adjust
    apply List.map_congr_left
    intro e _
    by_cases he : e.1 = k <;> simp [he]
  rw [h, Table.read_map t fun j a => if j = k then f a else a]
  by_cases hi : i = k
  · simp [hi]
  · cases Table.read t i <;> simp [hi]

@[simp] theorem Table.get_nil (d : α) (k : Nat) : Table.get [] d k = d := rfl

theorem Table.get_put [DecidableEq α] (t : Table α) (d : α) (k : Nat) (a : α) (i : Nat) :
    Table.get (Table.put t d k a) d i = if i = k then a else Table.get t d i := by
  unfold Table.get Table.put
  by_cases ha : a = d
  · rw [if_pos ha, Table.read_remove]
    by_cases hi : i = k <;> simp [hi, ha]
  · rw [if_neg ha, Table.read_write]
    by_cases hi : i = k <;> simp [hi]

@[simp] theorem Table.get_put_self [DecidableEq α] (t : Table α) (d : α) (k : Nat) (a : α) :
    Table.get (Table.put t d k a) d k = a := by simp [Table.get_put]

theorem Table.get_put_other [DecidableEq α] (t : Table α) (d : α) (k : Nat) (a : α) {i : Nat} (h : i ≠ k) :
    Table.get (Table.put t d k a) d i = Table.get t d i := by simp [Table.get_put, h]

theorem Table.has_iff (t : Table α) (k : Nat) : Table.has t k = true ↔ ∃ a, Table.read t k = some a := by
  simp [Table.has, Option.isSome_iff_exists]

theorem Table.has_eq_false (t : Table α) (k : Nat) : Table.has t k = false ↔ Table.read t k = none := by
  unfold Table.has; cases Table.read t k <;> simp

/-- The lowest free number holds no entry, and every lower number searched does. -/
theorem Table.lowestFree_spec (t : Table α) (fuel k n : Nat) (h : Table.lowestFree t fuel k = some n) :
    k ≤ n ∧ n < k + fuel ∧ Table.read t n = none ∧ ∀ j, k ≤ j → j < n → Table.has t j = true := by
  induction fuel generalizing k with
  | zero => simp [Table.lowestFree] at h
  | succ fuel ih =>
    unfold Table.lowestFree at h
    split at h
    · next hk =>
      obtain ⟨h1, h2, h3, h4⟩ := ih (k + 1) h
      refine ⟨by omega, by omega, h3, fun j hj hn => ?_⟩
      rcases Nat.eq_or_lt_of_le hj with rfl | hj
      · exact hk
      · exact h4 j hj hn
    · next hk =>
      obtain rfl : k = n := by simpa using h
      refine ⟨le_refl k, by omega, ?_, fun j hj hn => by omega⟩
      simpa [Table.has] using hk

/-- No number searched is free. -/
theorem Table.lowestFree_eq_none (t : Table α) (fuel k : Nat) :
    Table.lowestFree t fuel k = none ↔ ∀ n, k ≤ n → n < k + fuel → Table.has t n = true := by
  induction fuel generalizing k with
  | zero => simp only [Table.lowestFree, true_iff]; omega
  | succ fuel ih =>
    unfold Table.lowestFree
    split
    · next hk =>
      rw [ih]
      refine ⟨fun h n h1 h2 => ?_, fun h n h1 h2 => h n (by omega) (by omega)⟩
      rcases Nat.eq_or_lt_of_le h1 with rfl | h1
      · exact hk
      · exact h n h1 (by omega)
    · next hk => exact ⟨fun h => (nomatch h), fun h => absurd (h k (le_refl k) (by omega)) hk⟩

/-- A number that holds no entry, when every lower number searched does. -/
theorem Table.lowestFree_eq_some {t : Table α} {fuel k n : Nat} (h1 : k ≤ n) (h2 : n < k + fuel)
    (h3 : Table.has t n = false) (h4 : ∀ j, k ≤ j → j < n → Table.has t j = true) :
    Table.lowestFree t fuel k = some n := by
  induction fuel generalizing k with
  | zero => omega
  | succ fuel ih =>
    unfold Table.lowestFree
    by_cases h : k = n
    · subst h; rw [if_neg (by simp [h3])]
    · rw [if_pos (h4 k (le_refl k) (by omega))]
      exact ih (by omega) (by omega) fun j a b => h4 j (by omega) b

/-! ### The rising form -/

theorem Table.wf_nil : Table.wf ([] : Table α) := List.Pairwise.nil

theorem Table.wf_cons {j : Nat} {a : α} {t : Table α} :
    Table.wf ((j, a) :: t) ↔ (∀ e ∈ t, j < e.1) ∧ Table.wf t := by
  simp [Table.wf, List.pairwise_cons]

theorem Table.mem_write {t : Table α} {k : Nat} {a : α} {e : Nat × α} (h : e ∈ Table.write t k a) :
    e = (k, a) ∨ e ∈ t := by
  induction t with
  | nil => simpa [Table.write] using h
  | cons f t ih =>
    obtain ⟨j, b⟩ := f
    simp only [Table.write] at h
    split at h
    · rcases List.mem_cons.1 h with h | h
      · exact .inl h
      · exact .inr h
    · split at h
      · rcases List.mem_cons.1 h with h | h
        · exact .inl h
        · exact .inr (List.mem_cons_of_mem _ h)
      · rcases List.mem_cons.1 h with h | h
        · exact .inr (h ▸ List.mem_cons_self)
        · exact (ih h).imp id (List.mem_cons_of_mem _)

theorem Table.wf_write {t : Table α} (h : Table.wf t) (k : Nat) (a : α) : Table.wf (Table.write t k a) := by
  induction t with
  | nil => exact List.pairwise_singleton _ _
  | cons f t ih =>
    obtain ⟨j, b⟩ := f
    obtain ⟨h1, h2⟩ := Table.wf_cons.1 h
    simp only [Table.write]
    split
    · next hk =>
      refine Table.wf_cons.2 ⟨fun e he => ?_, h⟩
      rcases List.mem_cons.1 he with rfl | he
      · exact hk
      · exact lt_trans hk (h1 e he)
    · split
      · next hk => subst hk; exact Table.wf_cons.2 ⟨h1, h2⟩
      · next hk hne =>
        refine Table.wf_cons.2 ⟨fun e he => ?_, ih h2⟩
        rcases Table.mem_write he with rfl | he
        · show j < k
          omega
        · exact h1 e he

theorem Table.wf_filter {t : Table α} (h : Table.wf t) (p : Nat × α → Bool) : Table.wf (t.filter p) :=
  List.Pairwise.sublist (List.filter_sublist.map _) h

theorem Table.wf_remove {t : Table α} (h : Table.wf t) (k : Nat) : Table.wf (Table.remove t k) := Table.wf_filter h _

theorem Table.wf_map {β : Type} {t : Table α} (h : Table.wf t) (f : Nat × α → β) :
    Table.wf (t.map fun e => (e.1, f e)) := by
  have : (t.map fun e => (e.1, f e)).map Prod.fst = t.map Prod.fst := by simp
  unfold Table.wf
  rw [this]
  exact h

theorem Table.wf_put [DecidableEq α] {t : Table α} (h : Table.wf t) (d : α) (k : Nat) (a : α) :
    Table.wf (Table.put t d k a) := by
  unfold Table.put
  split
  · exact Table.wf_remove h k
  · exact Table.wf_write h k a

theorem Table.wf_adjust {t : Table α} (h : Table.wf t) (k : Nat) (f : α → α) : Table.wf (Table.adjust t k f) := by
  have hm : (Table.adjust t k f).map Prod.fst = t.map Prod.fst := by
    unfold Table.adjust
    rw [List.map_map]
    apply List.map_congr_left
    intro e _
    by_cases he : e.1 = k <;> simp [he]
  unfold Table.wf
  rw [hm]
  exact h

/-- In a rising table a number reads as `a` exactly when its entry is listed. -/
theorem Table.read_eq_some {t : Table α} (h : Table.wf t) (k : Nat) (a : α) :
    Table.read t k = some a ↔ (k, a) ∈ t := by
  induction t with
  | nil => simp
  | cons f t ih =>
    obtain ⟨j, b⟩ := f
    obtain ⟨h1, h2⟩ := Table.wf_cons.1 h
    rw [Table.read_cons]
    by_cases hj : j = k
    · subst hj
      have : (j, a) ∉ t := fun hm => lt_irrefl _ (h1 _ hm)
      simp [this, eq_comm]
    · simp [hj, ih h2, Ne.symm hj]

end Sys2Proof
end

