-- ==== Sys2Proof/Laws/Memory.lean ====
section
/-! SUPPORT. The laws of the store DRAM: what a byte reads as after each write, and that every write keeps the memory's
form. -/

namespace Sys2Proof.Machine

/-! ### Consecutive cells -/

theorem cellsFrom_mem {a : Nat} {bs : List Byte} {e : Nat × Byte} (h : e ∈ cellsFrom a bs) :
    a ≤ e.1 ∧ e.1 < a + bs.length := by
  induction bs generalizing a with
  | nil => simp [cellsFrom] at h
  | cons b bs ih =>
    rcases List.mem_cons.1 h with rfl | h
    · simp
    · have := ih h
      simp only [List.length_cons]
      omega

theorem cellsFrom_wf (a : Nat) (bs : List Byte) : Memory.wf (cellsFrom a bs) := by
  induction bs generalizing a with
  | nil => exact Table.wf_nil
  | cons b bs ih => exact Table.wf_cons.2 ⟨fun e he => by have := cellsFrom_mem he; omega, ih (a + 1)⟩

theorem read_cellsFrom (a : Nat) (bs : List Byte) (i : Nat) :
    Table.read (cellsFrom a bs) i = if a ≤ i then bs[i - a]? else none := by
  induction bs generalizing a with
  | nil => simp [cellsFrom]
  | cons b bs ih =>
    rw [cellsFrom, Table.read_cons, ih]
    by_cases h : a = i
    · subst h; simp
    · by_cases ha : a ≤ i
      · have h1 : i - a = (i - (a + 1)) + 1 := by omega
        rw [if_neg h, if_pos (by omega), if_pos ha, h1, List.getElem?_cons_succ]
      · rw [if_neg h, if_neg (by omega), if_neg ha]

theorem read_append (t u : Table Byte) (i : Nat) :
    Table.read (t ++ u) i = (Table.read t i).or (Table.read u i) := by
  induction t with
  | nil => simp
  | cons e t ih =>
    obtain ⟨j, b⟩ := e
    rw [List.cons_append, Table.read_cons, Table.read_cons, ih]
    by_cases h : j = i <;> simp [h]

theorem read_filter (t : Table Byte) (p : Nat → Bool) (i : Nat) :
    Table.read (t.filter fun e => p e.1) i = if p i then Table.read t i else none := by
  induction t with
  | nil => simp
  | cons e t ih =>
    obtain ⟨j, b⟩ := e
    rw [List.filter_cons]
    by_cases hj : p j = true
    · rw [if_pos hj, Table.read_cons, Table.read_cons, ih]
      by_cases h : j = i
      · subst h; simp [hj]
      · simp [h]
    · rw [if_neg hj, ih, Table.read_cons]
      by_cases h : j = i
      · subst h; simp [hj]
      · simp [h]

/-! ### A write of consecutive bytes -/

/-- A byte reads as what was written to it, and every other byte as before. -/
theorem Memory.read_store (m : Memory) (a : Nat) (bs : List Byte) (i : Nat) :
    Memory.read (Memory.store m a bs) i = if a ≤ i ∧ i < a + bs.length then bs[i - a]? else Memory.read m i := by
  unfold Memory.read
  induction m with
  | nil =>
    rw [Memory.store, read_cellsFrom, Table.read_nil]
    by_cases h : a ≤ i
    · by_cases h2 : i < a + bs.length
      · simp [h, h2]
      · have : bs.length ≤ i - a := by omega
        simp [h, h2, List.getElem?_eq_none_iff.2 this]
    · simp [h]
  | cons e m ih =>
    obtain ⟨j, b⟩ := e
    rw [Memory.store]
    split
    · next hj =>
      rw [Table.read_cons, ih, Table.read_cons]
      by_cases h : j = i
      · subst h; simp [Nat.not_le.2 hj]
      · simp [h]
    · have hf := read_filter ((j, b) :: m) (fun n => decide (n < a) || decide (a + bs.length ≤ n)) i
      rw [read_append, hf, read_cellsFrom]
      by_cases h : a ≤ i
      · by_cases h2 : i < a + bs.length
        · have h3 : i - a < bs.length := by omega
          simp [h, h2, List.getElem?_eq_getElem h3]
        · have : bs.length ≤ i - a := by omega
          simp [h, h2, List.getElem?_eq_none_iff.2 this, Nat.le_of_not_lt h2]
      · simp [h, Nat.lt_of_not_le h]

theorem Memory.mem_store {m : Memory} {a : Nat} {bs : List Byte} {e : Nat × Byte} (h : e ∈ Memory.store m a bs) :
    e ∈ m ∨ (a ≤ e.1 ∧ e.1 < a + bs.length) := by
  induction m with
  | nil => exact .inr (cellsFrom_mem h)
  | cons f m ih =>
    obtain ⟨j, b⟩ := f
    rw [Memory.store] at h
    split at h
    · rcases List.mem_cons.1 h with rfl | h
      · exact .inl List.mem_cons_self
      · exact (ih h).imp (List.mem_cons_of_mem _) id
    · rcases List.mem_append.1 h with h | h
      · exact .inr (cellsFrom_mem h)
      · exact .inl (List.mem_of_mem_filter h)

/-- A write of consecutive bytes keeps the memory's form. -/
theorem Memory.wf_store {m : Memory} (h : Memory.wf m) (a : Nat) (bs : List Byte) : Memory.wf (Memory.store m a bs) := by
  induction m with
  | nil => exact cellsFrom_wf a bs
  | cons f m ih =>
    obtain ⟨j, b⟩ := f
    obtain ⟨h1, h2⟩ := Table.wf_cons.1 h
    rw [Memory.store]
    split
    · next hj =>
      refine Table.wf_cons.2 ⟨fun e he => ?_, ih h2⟩
      rcases Memory.mem_store he with he | he
      · exact h1 e he
      · omega
    · next hj =>
      have hge : ∀ e ∈ (j, b) :: m, a ≤ e.1 := by
        intro e he
        rcases List.mem_cons.1 he with rfl | he
        · exact Nat.le_of_not_lt hj
        · have := h1 e he
          omega
      show List.Pairwise _ _
      rw [List.map_append]
      refine List.pairwise_append.2 ⟨cellsFrom_wf a bs, Table.wf_filter h _, fun x hx y hy => ?_⟩
      obtain ⟨e, he, rfl⟩ := List.mem_map.1 hx
      obtain ⟨f, hf, rfl⟩ := List.mem_map.1 hy
      have hlt := cellsFrom_mem he
      obtain ⟨hf1, hf2⟩ := List.mem_filter.1 hf
      have := hge f hf1
      simp only [Bool.or_eq_true, decide_eq_true_eq] at hf2
      omega

/-! ### A write of the enabled bytes of a line -/

/-- An enabled byte reads as what was written to it, and every other byte as before. -/
theorem Memory.read_storeEnabled (m : Memory) (a k : Nat) (en : Enables) (bs : List Byte) (i : Nat) :
    Memory.read (Memory.storeEnabled m a k en bs) i =
      if a + k ≤ i ∧ i < a + k + bs.length ∧ en.getLsbD (i - a) = true then bs[i - (a + k)]? else Memory.read m i := by
  induction bs generalizing m k with
  | nil =>
    rw [Memory.storeEnabled, if_neg]
    rintro ⟨h1, h2, -⟩
    simp at h2
    omega
  | cons b bs ih =>
    rw [Memory.storeEnabled, ih]
    have hlen : (b :: bs).length = bs.length + 1 := rfl
    by_cases hi : i = a + k
    · subst hi
      have h1 : ¬ (a + (k + 1) ≤ a + k) := by omega
      have hz : a + k - (a + k) = 0 := by omega
      have hk : a + k - a = k := by omega
      rw [if_neg (fun h => h1 h.1), hz, hk, hlen]
      by_cases he : en.getLsbD k = true
      · rw [if_pos he, if_pos ⟨le_refl _, by omega, he⟩]
        simp [Memory.read]
      · rw [if_neg he, if_neg (fun h => he h.2.2)]
    · have hread : Memory.read (if en.getLsbD k = true then Table.write m (a + k) b else m) i = Memory.read m i := by
        split
        · exact Table.read_write_other m (a + k) b hi
        · rfl
      rw [hread]
      by_cases h : a + (k + 1) ≤ i
      · have e1 : i - (a + k) = (i - (a + (k + 1))) + 1 := by omega
        rw [e1, List.getElem?_cons_succ, hlen]
        have e2 : (a + (k + 1) ≤ i ∧ i < a + (k + 1) + bs.length ∧ en.getLsbD (i - a) = true) ↔
            (a + k ≤ i ∧ i < a + k + (bs.length + 1) ∧ en.getLsbD (i - a) = true) := by
          constructor
          · rintro ⟨h1, h2, h3⟩; exact ⟨by omega, by omega, h3⟩
          · rintro ⟨h1, h2, h3⟩; exact ⟨h, by omega, h3⟩
        simp only [e2]
      · rw [if_neg (fun hh => h hh.1), if_neg (fun hh => by have := hh.1; omega)]

/-- A write of a line's enabled bytes keeps the memory's form. -/
theorem Memory.wf_storeEnabled {m : Memory} (h : Memory.wf m) (a k : Nat) (en : Enables) (bs : List Byte) :
    Memory.wf (Memory.storeEnabled m a k en bs) := by
  induction bs generalizing m k with
  | nil => exact h
  | cons b bs ih =>
    rw [Memory.storeEnabled]
    apply ih
    split
    · exact Table.wf_write h _ _
    · exact h

/-! ### A read of consecutive bytes -/

@[simp] theorem Memory.length_bytesAt (m : Memory) (p a n : Nat) : (Memory.bytesAt m p a n).length = n := by
  simp [Memory.bytesAt]

/-- Byte `k` of a read from address `a` is the byte at `a + k`. -/
theorem Memory.getElem_bytesAt (m : Memory) (p a n k : Nat) (h : k < n) :
    (Memory.bytesAt m p a n)[k]? = some (Memory.byteAt m p (a + k)) := by
  have hw : Memory.read (Memory.window m a n) (a + k) = Memory.read m (a + k) := by
    have := read_filter m (fun j => decide (a ≤ j) && decide (j < a + n)) (a + k)
    unfold Memory.read Memory.window
    rw [this]
    simp [h]
  simp [Memory.bytesAt, List.getElem?_map, List.getElem?_range h, Memory.byteAt, hw]

/-- The memory after reset has its form. -/
theorem reset_memory_wf : Memory.wf State.reset.memory := Table.wf_nil

end Sys2Proof.Machine
end

