-- ==== Sys2Proof/Laws/Ops.lean ====
section
/-! SUPPORT. What each shared operation does, said once: what a table's entry is after its write, when a management command
is taken and how it is answered, and what a release, an offer or a disposal leaves. -/

namespace Sys2Proof.Machine

/-- Two states are equal when their blocks are. -/
theorem State.eq_of_blocks {s t : State} (h1 : s.chip = t.chip) (h2 : s.link = t.link) (h3 : s.apertures = t.apertures)
    (h4 : s.store = t.store) (h5 : s.restore = t.restore) (h6 : s.meter = t.meter) (h7 : s.log = t.log)
    (h8 : s.port = t.port) (h9 : s.memory = t.memory) (h10 : s.reports = t.reports)
    (h11 : s.management = t.management) (h12 : s.pending = t.pending) : s = t := by
  cases s; cases t; simp_all

/-! ### Entries after a write -/

theorem Store.page_setPage (st : Store) (p : Nat) (pg : Page) (q : Nat) :
    (st.setPage p pg).page q = if q = p then pg else st.page q := Table.get_put _ _ _ _ _

@[simp] theorem Store.page_setPage_self (st : Store) (p : Nat) (pg : Page) : (st.setPage p pg).page p = pg := by
  simp [Store.page_setPage]

theorem Meter.account_setAccount (m : Meter) (a : Nat) (x : Account) (b : Nat) :
    (m.setAccount a x).account b = if b = a then x else m.account b := Table.get_put _ _ _ _ _

theorem Meter.job_setJob (m : Meter) (j : Nat) (x : Job) (i : Nat) :
    (m.setJob j x).job i = if i = j then x else m.job i := Table.get_put _ _ _ _ _

@[simp] theorem Meter.account_setJob (m : Meter) (j : Nat) (x : Job) (b : Nat) :
    (m.setJob j x).account b = m.account b := rfl

@[simp] theorem Meter.job_setAccount (m : Meter) (a : Nat) (x : Account) (i : Nat) :
    (m.setAccount a x).job i = m.job i := rfl

theorem Reports.jobOf_setJob (r : Reports) (j : Nat) (e : JobEvents) (i : Nat) :
    (r.setJob j e).jobOf i = if i = j then e else r.jobOf i := Table.get_put _ _ _ _ _

theorem Port.bank_setBank (p : Port) (b : Nat) (k : Bank) (c : Nat) :
    (p.setBank b k).bank c = if c = b then k else p.bank c := Table.get_put _ _ _ _ _

theorem Link.tag_setTag (l : Link) (t : Fin 32) (e : TagEntry) (u : Fin 32) :
    (l.setTag t e).tag u = if u = t then e else l.tag u := by
  have := Table.get_put l.tags {} t.val e u.val
  simp only [Fin.val_inj] at this
  exact this

/-- A rate is written under its class and band alone. -/
theorem Meter.rate_setRate (m : Meter) (c b v d e : Nat) (hb : b < 4) (he : e < 4) :
    (m.setRate c b v).rate d e = if d = c ∧ e = b then v else m.rate d e := by
  have := Table.get_put m.rates 65535 (4 * c + b) v (4 * d + e)
  unfold Meter.rate Meter.setRate
  rw [this]
  have : (4 * d + e = 4 * c + b) ↔ (d = c ∧ e = b) := by omega
  simp [this]

/-- A curve entry is written under its curve and tone alone. -/
theorem Restore.curveEntry_setCurveEntry (r : Restore) (c i : Nat) (v : Byte) (d k : Nat) (hi : i < 256) (hk : k < 256) :
    (r.setCurveEntry c i v).curveEntry d k = if d = c ∧ k = i then v else r.curveEntry d k := by
  unfold Restore.curveEntry Restore.setCurveEntry
  have key : (256 * d + k = 256 * c + i) ↔ (d = c ∧ k = i) := by omega
  by_cases h : d = c ∧ k = i
  · obtain ⟨rfl, rfl⟩ := h
    simp
  · unfold Table.get Table.put
    by_cases ha : v = BitVec.ofNat 8 i
    · simp [ha, Table.read_remove, key, h]
    · simp [ha, Table.read_write, key, h]

/-- Values written to consecutive entries of a curve. -/
theorem Restore.curveEntry_setCurve (r : Restore) (c i : Nat) (vs : List Byte) (d k : Nat) (hi : i + vs.length ≤ 256)
    (hk : k < 256) :
    (r.setCurve c i vs).curveEntry d k =
      if d = c ∧ i ≤ k ∧ k < i + vs.length then vs.getD (k - i) 0 else r.curveEntry d k := by
  induction vs generalizing r i with
  | nil => simp [Restore.setCurve]
  | cons v vs ih =>
    rw [Restore.setCurve, ih _ _ (by simp at hi; omega)]
    rw [Restore.curveEntry_setCurveEntry _ _ _ _ _ _ (by simp at hi; omega) hk]
    simp only [List.length_cons]
    by_cases hd : d = c
    · rcases Nat.lt_trichotomy k i with h | h | h
      · rw [if_neg (by omega), if_neg (by omega), if_neg (by omega)]
      · subst h; simp [hd]
      · by_cases hk2 : k < i + 1 + vs.length
        · rw [if_pos ⟨hd, by omega, hk2⟩, if_pos ⟨hd, by omega, by omega⟩]
          have : k - i = (k - (i + 1)) + 1 := by omega
          rw [this, List.getD_cons_succ]
        · rw [if_neg (by omega), if_neg (by omega), if_neg (by omega)]
    · simp [hd]

/-- Writing curve entries changes nothing but the curves. -/
theorem Restore.setCurve_frame (r : Restore) (c i : Nat) (vs : List Byte) :
    (r.setCurve c i vs).records = r.records ∧ (r.setCurve c i vs).sequencer = r.sequencer := by
  induction vs generalizing r i with
  | nil => exact ⟨rfl, rfl⟩
  | cons v vs ih => rw [Restore.setCurve]; exact ih _ _

/-- A write of one entry leaves the rest of its block alone. -/
@[simp] theorem Reports.setJob_frame (r : Reports) (j : Nat) (e : JobEvents) :
    (r.setJob j e).faults = r.faults ∧ (r.setJob j e).statuses = r.statuses ∧ (r.setJob j e).enables = r.enables :=
  ⟨rfl, rfl, rfl⟩

@[simp] theorem Link.setTag_frame (l : Link) (t : Fin 32) (e : TagEntry) :
    (l.setTag t e).linkUp = l.linkUp ∧ (l.setTag t e).wrapOrder = l.wrapOrder ∧
    (l.setTag t e).readyOrder = l.readyOrder ∧ (l.setTag t e).sending = l.sending ∧
    (l.setTag t e).writeBuffer = l.writeBuffer ∧ (l.setTag t e).attemptDue = l.attemptDue ∧
    (l.setTag t e).readCredits = l.readCredits ∧ (l.setTag t e).writeCredits = l.writeCredits :=
  ⟨rfl, rfl, rfl, rfl, rfl, rfl, rfl, rfl⟩

/-- A tag's entry is read from the tag table alone. -/
theorem Link.tag_congr {l m : Link} (h : l.tags = m.tags) (t : Fin 32) : l.tag t = m.tag t := by
  simp only [Link.tag, h]

/-- A bank machine is read from the bank table alone. -/
theorem Port.bank_congr {p q : Port} (h : p.banks = q.banks) (b : Nat) : p.bank b = q.bank b := by
  simp only [Port.bank, h]

/-- A page's entry is read from the directory alone. -/
theorem Store.page_congr {st su : Store} (h : st.pages = su.pages) (p : Nat) : st.page p = su.page p := by
  simp only [Store.page, h]

/-! ### When a command runs -/

theorem State.live_released {s : State} (h : s.chip.resetPin = false) (k : State → State) : s.live k = k s := by
  simp [State.live, h]

theorem State.live_held {s : State} (h : s.chip.resetPin = true) (k : State → State) : s.live k = s := by
  simp [State.live, h]

theorem State.takes_iff (s : State) (c : Instr) : s.takes c = true ↔ s.Taken c := by
  unfold State.takes State.Taken
  cases hp : s.management.phase <;> simp

/-- While the RESET pin is held no command is taken (R182). -/
theorem State.take_held {s : State} (h : s.chip.resetPin = true) (c : Instr) (d : Bool) (body : State → Reply) :
    s.take c d body = s := by
  simp [State.take, State.takes, h]

theorem State.take_of_ready {s : State} {c : Instr} (h : s.Ready c) (d : Bool) (body : State → Reply) :
    s.take c d body = (body s).state.respond (body s).status (body s).fields := by
  unfold State.take
  rw [if_pos ((s.takes_iff c).2 h.1)]
  simp [h.2]

theorem State.take_of_taken {s : State} {c : Instr} (h : s.Taken c) (body : State → Reply) :
    s.take c true body = (body s).state.respond (body s).status (body s).fields := by
  unfold State.take
  rw [if_pos ((s.takes_iff c).2 h)]
  simp

theorem State.take_during_init {s : State} {c : Instr} (h : s.Taken c) (hi : s.chip.inInit = true)
    (body : State → Reply) : s.take c false body = { s with management := s.answered .busy [] } := by
  unfold State.take
  rw [if_pos ((s.takes_iff c).2 h)]
  simp [hi, State.respond, State.answered, State.setManagement]

theorem State.take_of_not_taken {s : State} {c : Instr} (h : ¬ s.Taken c) (d : Bool) (body : State → Reply) :
    s.take c d body = s := by
  unfold State.take
  rw [if_neg]
  rwa [s.takes_iff c]

/-- A command is taken by its rule, answered BUSY in INIT, or finds the link not ready: `take` does one of the three. -/
theorem State.take_cases (s : State) (c : Instr) (d : Bool) (body : State → Reply) :
    s.take c d body = s ∨ s.take c d body = s.respond .busy [] ∨
      s.take c d body = (body s).state.respond (body s).status (body s).fields := by
  unfold State.take
  split
  · split
    · exact .inr (.inl rfl)
    · exact .inr (.inr rfl)
  · exact .inl rfl

theorem State.respond_eq (s : State) (status : Status) (fields : List Byte) :
    s.respond status fields = { s with management := s.answered status fields } := rfl

/-- The first byte of a response frame is its status code. -/
theorem responseFrame_head (status : Status) (fields : List Byte) :
    (responseFrame status fields).head? = some (BitVec.ofNat 8 status.code) := by
  simp [responseFrame, bytesOf]

/-! ### The read-after-write wait -/

theorem State.keyPending_iff (s : State) (k : Key) : s.keyPending k = true ↔ s.PendingWrite k := by
  simp [State.keyPending, State.PendingWrite, or_assoc, List.any_eq_true]

theorem State.keyPending_false (s : State) (k : Key) : s.keyPending k = false ↔ ¬ s.PendingWrite k := by
  rw [← State.keyPending_iff]; simp

/-- The wait of every read is looked at afresh. -/
theorem State.tag_releaseReads (s : State) (u : Fin 32) :
    s.releaseReads.link.tag u =
      if (s.link.tag u).state = .waiting ∧ s.keyPending (addressKey (s.link.tag u).address) = false then
        { s.link.tag u with state := .decoding }
      else s.link.tag u := by
  let f : TagEntry → TagEntry := fun e =>
    if e.state = .waiting ∧ s.keyPending (addressKey e.address) = false then { e with state := .decoding } else e
  have h1 : s.releaseReads.link.tags = s.link.tags.map fun e => (e.1, f e.2) := by
    apply List.map_congr_left
    intro e _
    by_cases h : e.2.state = .waiting ∧ s.keyPending (addressKey e.2.address) = false <;> simp [f, h]
  have h2 := Table.read_map s.link.tags (fun _ e => f e) u.val
  unfold Link.tag Table.get
  rw [h1, h2]
  cases Table.read s.link.tags u.val <;> simp [f]

/-! ### Release and offer -/

theorem Store.aboveReserve_iff (st : Store) : st.aboveReserve = true ↔ st.reserve < st.freeQueue.length := by
  simp [Store.aboveReserve]

theorem Store.aboveReserve_false (st : Store) : st.aboveReserve = false ↔ st.freeQueue.length ≤ st.reserve := by
  simp [Store.aboveReserve]

theorem read_removeAll (delta : Table Nat) (t : Table StripEntry) (i : Nat) :
    Table.read (delta.foldl (fun t e => Table.remove t e.2) t) i =
      if i ∈ delta.map Prod.snd then none else Table.read t i := by
  induction delta generalizing t with
  | nil => simp
  | cons e delta ih =>
    rw [List.foldl_cons, ih, Table.read_remove]
    by_cases h1 : i ∈ delta.map Prod.snd
    · simp [h1]
    · simp only [h1, List.map_cons, List.mem_cons]
      by_cases h2 : i = e.2 <;> simp [h2]

/-- What the release of a version does (R29). -/
theorem Store.release_spec {st : Store} {n : Nat} {v : Version} (h : Table.read st.versions n = some v) :
    st.Released (st.release n) n v ∧
    st.release n = { st with
      strips := (st.release n).strips, freeQueue := (st.release n).freeQueue, versions := (st.release n).versions } := by
  unfold Store.release
  rw [h]
  refine ⟨⟨rfl, ?_, ?_, ?_, ?_⟩, rfl⟩
  · intro i hi; simp only [read_removeAll]; rw [if_pos hi]
  · intro i hi; simp only [read_removeAll]; rw [if_neg hi]
  · simp [Table.read_remove]
  · intro m hm; simp [Table.read_remove, hm]

theorem Store.release_free {st : Store} {n : Nat} (h : Table.read st.versions n = none) : st.release n = st := by
  simp [Store.release, h]

@[simp] theorem Store.page_release (st : Store) (n p : Nat) : (st.release n).page p = st.page p := by
  unfold Store.release; split <;> rfl

/-- The fault queue never holds more than its 32 records (R170). -/
theorem Reports.offer_bounded (r : Reports) (f : FaultRecord) (h : r.faults.length ≤ 32) :
    (r.offer f).faults.length ≤ 32 := by
  unfold Reports.offer Config.faultCapacity
  dsimp only
  cases hl : r.faults.getLast? with
  | none => dsimp only; split <;> simp <;> omega
  | some e =>
    have : r.faults ≠ [] := by rintro h0; simp [h0] at hl
    have := List.length_pos_iff.2 this
    dsimp only
    split
    · simp; omega
    · split <;> simp <;> omega

/-- An offer changes nothing but the queue and its two statuses (R171). -/
theorem Reports.offer_frame (r : Reports) (f : FaultRecord) :
    (r.offer f).enables = r.enables ∧ (r.offer f).jobEvents = r.jobEvents := by
  unfold Reports.offer
  dsimp only
  cases r.faults.getLast? with
  | none => dsimp only; split <;> exact ⟨rfl, rfl⟩
  | some e =>
    dsimp only
    split
    · exact ⟨rfl, rfl⟩
    · split <;> exact ⟨rfl, rfl⟩

/-! ### The head of the write buffer -/

/-- The head leaves the write buffer. -/
theorem State.headLeaves_spec {s : State} {w : HostWrite} {rest : List HostWrite} (h : s.link.writeBuffer = w :: rest) :
    s.HeadLeft s.headLeaves rest ∧ s.headLeaves = { s with link := s.headLeaves.link } := by
  refine ⟨⟨?_, ?_⟩, rfl⟩
  · unfold State.headLeaves State.releaseReads State.setLink
    simp [h]
  · intro u
    have key := State.tag_releaseReads (s.setLink { s.link with
        writeBuffer := s.link.writeBuffer.tail
        attemptDue := true
        writeCredits := if s.link.linkUp then s.link.writeCredits + 1 else s.link.writeCredits }) u
    change s.headLeaves.link.tag u = if (s.link.tag u).state = .waiting ∧
      s.headLeaves.keyPending (addressKey (s.link.tag u).address) = false then
        { s.link.tag u with state := .decoding } else s.link.tag u at key
    have pending := s.headLeaves.keyPending_false (addressKey (s.link.tag u).address)
    exact ⟨fun h => key.trans (if_pos ⟨h.1, pending.2 h.2⟩), fun h => key.trans (if_neg fun g => h ⟨g.1, pending.1 g.2⟩)⟩

/-- The head is dropped with a fault. -/
theorem State.dropHead_spec {s : State} {w : HostWrite} {rest : List HostWrite} (h : s.link.writeBuffer = w :: rest)
    (kind : FaultKind) : s.Dropped (s.dropHead w kind) w rest kind := by
  have := State.headLeaves_spec (s := s.setReports (s.reports.offer
    { kind := kind, aperture := addressAperture w.address, page := (addressKey w.address).page
      strip := (addressKey w.address).strip, line := (addressKey w.address).line
      edition := s.store.edition.number, repeats := 1 })) (w := w) (rest := rest) h
  exact ⟨this.1, rfl, rfl⟩

end Sys2Proof.Machine
end

