-- ==== Sys2Proof/Laws/Engine.lean ====
section
/-! SUPPORT. What the shared operations of requests, of the store port and of the engine do, said once. -/

namespace Sys2Proof.Machine

/-! ### Answers and requests of reads -/

/-- A tag that is answered is READY with the answer, last in the order. -/
theorem Link.answer_spec (l : Link) (t : Fin 32) (a : Answer) : l.Answered (l.answer t a) t a := by
  have h : ∀ u, (l.answer t a).tag u = (l.setTag t { l.tag t with state := .ready, answer := some a }).tag u :=
    fun u => Link.tag_congr rfl u
  exact ⟨rfl, (h t).trans ((l.tag_setTag _ _ _).trans (if_pos rfl)),
    fun u hu => (h u).trans ((l.tag_setTag _ _ _).trans (if_neg hu))⟩

/-- A read that is queued. -/
theorem State.queueRead_spec (s : State) (t : Fin 32) (strip line : Nat) (eligible : Bool) :
    s.Queued (s.queueRead t strip line eligible) t strip line eligible ∧
    s.queueRead t strip line eligible = { s with
      link := (s.queueRead t strip line eligible).link, port := (s.queueRead t strip line eligible).port } :=
  ⟨⟨rfl, (s.link.tag_setTag _ _ _).trans (if_pos rfl), fun _ hu => (s.link.tag_setTag _ _ _).trans (if_neg hu), rfl⟩, rfl⟩

/-- A walk's read is answered BLANK at once or queued. -/
theorem State.walkRead_cases (s : State) (t : Fin 32) (ap : Aperture) (k : Key) :
    s.walkRead t ap k = s.answerRead t blankAnswer ∨
      ∃ strip eligible, s.walkRead t ap k = s.queueRead t strip k.line eligible := by
  unfold State.walkRead
  split
  · exact .inl rfl
  · split
    · exact .inl rfl
    · exact .inr ⟨_, _, rfl⟩

/-- The page's embargo holds exactly when it has a day at or after the date. -/
theorem Page.embargoed_iff (pg : Page) (date : Nat) :
    pg.embargoed date = true ↔ ∃ day, pg.embargo = some day ∧ date ≤ day := by
  unfold Page.embargoed
  cases pg.embargo <;> simp

/-! ### The disposal of a write -/

/-- A command WRITE_DISPOSAL that finds an attempt due disposes of the head. -/
theorem execWriteDisposal_of_attempted {s : State} {w : HostWrite} {rest : List HostWrite} (h : s.Attempted w rest) :
    execWriteDisposal s = .next (s.disposeHead w) := by
  obtain ⟨h1, h2, h3, h4⟩ := h
  unfold execWriteDisposal
  rw [State.live_released h1, h2]
  simp only
  rw [if_pos ⟨h3, h4⟩]

/-- The first four checks passed, the write's target is looked for. -/
theorem State.disposeHead_of_passes {s : State} {w : HostWrite} {kind : ApertureKind} (h : s.Passes w kind) :
    s.disposeHead w = s.disposeTarget w kind ∧ (kind = .edition ∨ kind = .load) := by
  obtain ⟨h1, h2, h3⟩ := h
  unfold State.disposeHead
  simp only [h1, h2]
  rcases h3 with ⟨rfl, ⟨n, h3⟩, h4⟩ | ⟨rfl, h4⟩
  · simp [h3, State.disposePage, h4]
  · simp [State.disposePage, h4]

/-- With no OPEN head that holds the strip index, a fresh strip is needed. -/
theorem State.disposeHead_of_needsFresh {s : State} {w : HostWrite} {kind : ApertureKind} {k : Key} (hp : s.Passes w kind)
    (he : w.enables ≠ 0) (hk : k = addressKey w.address) (hn : s.NeedsFresh k) :
    s.disposeHead w = s.disposeFresh w kind := by
  rw [(State.disposeHead_of_passes hp).1]
  unfold State.disposeTarget
  simp only
  rw [if_neg he, ← hk]
  cases hv : s.store.head k.page with
  | none => rfl
  | some v =>
    by_cases hl : v.lock = .openLock
    · simp only [hn v hv hl]
      cases decide (v.lock = .openLock) <;> rfl
    · simp only [hl, decide_false]

theorem Store.needsVersion_iff (st : Store) (p : Nat) :
    st.needsVersion p = true ↔ ∀ v, st.head p = some v → v.lock ≠ .openLock := by
  unfold Store.needsVersion
  cases st.head p <;> simp

/-- The lowest-numbered IDLE copy slot. -/
theorem Store.idleSlot_eq_some {st : Store} {k : Fin 4} (h : Table.has st.copies k.val = false)
    (hl : ∀ j : Fin 4, j < k → Table.has st.copies j.val = true) : st.idleSlot = some k := by
  unfold Store.idleSlot
  rw [List.find?_eq_some_iff_append]
  refine ⟨by simp [h], (List.finRange 4).take k, (List.finRange 4).drop (k + 1), ?_, fun j hj => ?_⟩
  · fin_cases k <;> decide
  · have : j < k := by fin_cases k <;> fin_cases j <;> first | decide | (exfalso; revert hj; decide)
    simp [hl j this]

theorem Store.idleSlot_eq_none {st : Store} (h : ∀ j : Fin 4, Table.has st.copies j.val = true) :
    st.idleSlot = none := by
  unfold Store.idleSlot
  rw [List.find?_eq_none]
  intro j _
  simp [h j]

/-! ### Releases -/

/-- The release of every version of a chain (R44). -/
theorem foldl_release (chain : List Nat) (hn : chain.Nodup) (st : Store) :
    (chain.foldl Store.release st).freeQueue = st.freeQueue ++ chain.flatMap (fun n =>
      match Table.read st.versions n with
      | none => []
      | some v => v.delta.map Prod.snd) ∧
    (∀ n ∈ chain, Table.read (chain.foldl Store.release st).versions n = none) ∧
    (∀ n, n ∉ chain → Table.read (chain.foldl Store.release st).versions n = Table.read st.versions n) ∧
    (∀ i, Table.read (chain.foldl Store.release st).strips i = none ∨
      Table.read (chain.foldl Store.release st).strips i = Table.read st.strips i) ∧
    (∀ n ∈ chain, ∀ v, Table.read st.versions n = some v → ∀ i ∈ v.delta.map Prod.snd,
      Table.read (chain.foldl Store.release st).strips i = none) ∧
    (∀ i, (∀ n ∈ chain, ∀ v, Table.read st.versions n = some v → i ∉ v.delta.map Prod.snd) →
      Table.read (chain.foldl Store.release st).strips i = Table.read st.strips i) ∧
    (∀ p, (chain.foldl Store.release st).page p = st.page p) ∧
    chain.foldl Store.release st = { st with
      versions := (chain.foldl Store.release st).versions
      strips := (chain.foldl Store.release st).strips
      freeQueue := (chain.foldl Store.release st).freeQueue } := by
  induction chain generalizing st with
  | nil => simp
  | cons m chain ih =>
    obtain ⟨hm, hn⟩ := List.nodup_cons.1 hn
    have ih := ih hn (st.release m)
    rw [List.foldl_cons]
    obtain ⟨i1, i2, i3, i4, i5, i6, i7, i8⟩ := ih
    have hother : ∀ k, k ≠ m → Table.read (st.release m).versions k = Table.read st.versions k := by
      intro k hk
      cases hv : Table.read st.versions m with
      | none => rw [Store.release_free hv]
      | some v => exact (Store.release_spec hv).1.2.2.2.2 k hk
    have hself : Table.read (st.release m).versions m = none := by
      cases hv : Table.read st.versions m with
      | none => rw [Store.release_free hv, hv]
      | some v => exact (Store.release_spec hv).1.2.2.2.1
    have hstrip : ∀ i, Table.read (st.release m).strips i = none ∨
        Table.read (st.release m).strips i = Table.read st.strips i := by
      intro i
      cases hv : Table.read st.versions m with
      | none => rw [Store.release_free hv]; right; rfl
      | some v =>
        by_cases hi : i ∈ v.delta.map Prod.snd
        · left; exact (Store.release_spec hv).1.2.1 i hi
        · right; exact (Store.release_spec hv).1.2.2.1 i hi
    have hne : ∀ k ∈ chain, k ≠ m := fun k hk h => hm (h ▸ hk)
    refine ⟨?_, ?_, ?_, ?_, ?_, ?_, ?_, ?_⟩
    · rw [i1, List.flatMap_cons]
      have e1 : chain.flatMap (fun n => match Table.read (st.release m).versions n with
                    | none => []
                    | some v => v.delta.map Prod.snd) = chain.flatMap (fun n => match Table.read st.versions n with
                    | none => []
                    | some v => v.delta.map Prod.snd) := by
        simp only [List.flatMap]
        congr 1
        apply List.map_congr_left
        intro k hk; rw [hother k (hne k hk)]
      rw [e1, ← List.append_assoc]
      congr 1
      cases hv : Table.read st.versions m with
      | none => rw [Store.release_free hv]; simp
      | some v => exact (Store.release_spec hv).1.1
    · intro n hn
      by_cases h : n ∈ chain
      · exact i2 n h
      · have : n = m := by simpa [h] using hn
        rw [i3 n h, this, hself]
    · intro n hn
      simp at hn
      rw [i3 n hn.2, hother n hn.1]
    · intro i
      rcases i4 i with h | h
      · exact .inl h
      · rcases hstrip i with h2 | h2
        · left; rw [h, h2]
        · right; rw [h, h2]
    · intro n hn v hv i hi
      by_cases h : n = m
      · subst h
        have := (Store.release_spec hv).1.2.1 i hi
        rcases i4 i with h | h
        · exact h
        · rw [h, this]
      · exact i5 n (by simpa [h] using hn) v (by rw [hother n h]; exact hv) i hi
    · intro i hi
      have h1 : ∀ n ∈ chain, ∀ v, Table.read (st.release m).versions n = some v → i ∉ v.delta.map Prod.snd := by
        intro n hn v hv
        exact hi n (List.mem_cons_of_mem _ hn) v (by rw [← hother n (hne n hn)]; exact hv)
      rw [i6 i h1]
      cases hv : Table.read st.versions m with
      | none => rw [Store.release_free hv]
      | some v => exact (Store.release_spec hv).1.2.2.1 i (hi m (by simp) v hv)
    · intro p; rw [i7, Store.page_release]
    · have : st.release m = { st with
          versions := (st.release m).versions, strips := (st.release m).strips
          freeQueue := (st.release m).freeQueue } := by
        cases hv : Table.read st.versions m with
        | none => rw [Store.release_free hv]
        | some v => exact (Store.release_spec hv).2
      clear i1 i2 i3 i4 i5 i6 i7
      generalize List.foldl Store.release (st.release m) chain = X at *
      rw [this] at i8
      exact i8

/-- Pins fall by one for each purchase of the page (R117). -/
theorem page_foldl_unpin (ps : List Purchase) (st : Store) (p : Nat) :
    (ps.foldl Store.unpin st).page p =
      { st.page p with pins := (st.page p).pins - (ps.filter (fun e => e.page = p)).length } := by
  induction ps generalizing st with
  | nil => rfl
  | cons e ps ih =>
    rw [List.foldl_cons, ih]
    unfold Store.unpin
    rw [Store.page_setPage]
    by_cases h : p = e.page
    · subst h; simp; omega
    · simp [h, Ne.symm h]

theorem foldl_unpin_frame (ps : List Purchase) (st : Store) :
    ps.foldl Store.unpin st = { st with pages := (ps.foldl Store.unpin st).pages } := by
  induction ps generalizing st with
  | nil => rfl
  | cons e ps ih => rw [List.foldl_cons, ih]; rfl

/-! ### The store port -/

/-- A request of the engine. -/
theorem State.joinEngine_spec (s : State) (a : Access) : s.Requested (s.joinEngine a) a := by
  unfold State.Requested
  show s.port.joinEngine _ _ _ = _
  unfold Port.joinEngine Port.segmentInProgress
  simp

theorem Port.frontElsewhere_false (p : Port) (b row : Nat) :
    p.frontElsewhere b row = false ↔ ∀ c rest, p.waitList b = c :: rest → c.strip = row := by
  unfold Port.frontElsewhere
  cases p.waitList b <;> simp

/-- The bank of an access that is issued: a close made due by a transfer's end is cancelled by an access for its OPEN row,
unless an access for another row stands at the front of its wait list (R160). -/
theorem Port.bank_issue (p : Port) (a : Access) (b : Nat) :
    (p.issue a).bank b =
      if b = a.bank ∧ (p.bank a.bank).closeDue = .byTransfer ∧ (p.bank a.bank).state = .opened a.strip ∧
          p.frontElsewhere a.bank a.strip = false then
        { p.bank a.bank with closeDue := .none }
      else p.bank b := by
  have hl : ∀ (q : Port) (l : List Access), ({ q with issueList := l } : Port).bank b = q.bank b :=
    fun q l => Port.bank_congr rfl b
  unfold Port.issue
  dsimp only
  rw [hl]
  have hc : p.cancelsClose a = true ↔ (p.bank a.bank).closeDue = .byTransfer ∧ (p.bank a.bank).state = .opened a.strip ∧
      p.frontElsewhere a.bank a.strip = false := by
    simp [Port.cancelsClose, and_assoc]
  by_cases h : p.cancelsClose a = true
  · rw [if_pos h, Port.bank_setBank]
    by_cases hb : b = a.bank
    · rw [if_pos hb, if_pos ⟨hb, hc.1 h⟩]
    · rw [if_neg hb, if_neg fun g => hb g.1]
  · rw [if_neg h, if_neg fun g => h (hc.2 g.2)]

/-- An access that is issued. -/
theorem Port.issue_spec (p : Port) (a : Access) :
    p.Issued (p.issue a) a ∧ (p.issue a).linkQueue = p.linkQueue ∧ (p.issue a).engineQueue = p.engineQueue ∧
    (p.issue a).quiet = p.quiet ∧ (p.issue a).aging = p.aging ∧ (p.issue a).quietTime = p.quietTime := by
  have hf := p.frontElsewhere_false a.bank a.strip
  have hp : ∀ q : Port, q = p.issue a → q = { p with issueList := p.issueList ++ [a], banks := q.banks } := by
    rintro q rfl
    unfold Port.issue
    dsimp only
    split <;> rfl
  have hp := hp _ rfl
  refine ⟨⟨?_, fun b hb => ?_, fun h => ?_, fun h => ?_⟩, ?_⟩
  · rw [hp]
  · rw [Port.bank_issue, if_neg fun h => hb h.1]
  · rw [Port.bank_issue, if_pos ⟨rfl, h.1, h.2.1, hf.2 h.2.2⟩]
  · rw [Port.bank_issue, if_neg fun g => h ⟨g.2.1, g.2.2.1, hf.1 g.2.2.2⟩]
  · rw [hp]
    exact ⟨rfl, rfl, rfl, rfl, rfl⟩

/-- The bank machines after the end of a transfer. -/
theorem Port.bank_endTransfer (p : Port) (now : Nat) (a : Access) (rest : List Access) (b : Nat) :
    (p.endTransfer now a rest).bank b =
      if b = a.bank then (p.bank a.bank).endTransfer a rest p.timing p.policy now else p.bank b := by
  rw [← Port.bank_setBank]
  apply Port.bank_congr
  unfold Port.endTransfer
  simp only
  split <;> rfl

/-- The rest of the port after the end of a transfer. -/
theorem Port.endTransfer_frame (p : Port) (now : Nat) (a : Access) (rest : List Access) :
    (p.endTransfer now a rest).issueList = rest ∧ (p.endTransfer now a rest).transferring = false ∧
    (p.endTransfer now a rest).lastDirection = some a.direction ∧
    (p.endTransfer now a rest).turnaroundUntil = now + p.timing.turnaround ∧
    (p.endTransfer now a rest).timing = p.timing ∧ (p.endTransfer now a rest).policy = p.policy ∧
    (p.endTransfer now a rest).quietTime = p.quietTime ∧ (p.endTransfer now a rest).agingLimit = p.agingLimit ∧
    (p.endTransfer now a rest).engineQueue = p.engineQueue ∧ (p.endTransfer now a rest).linkQueue = p.linkQueue ∧
    (p.endTransfer now a rest).quiet = p.quiet := by
  unfold Port.endTransfer
  simp only
  split <;> exact ⟨rfl, rfl, rfl, rfl, rfl, rfl, rfl, rfl, rfl, rfl, rfl⟩

/-- The held writes of a slot join the link-side queue in order (R64). -/
theorem foldl_joinLink (l : List HeldWrite) (strip : Nat) (p : Port) :
    l.foldl (fun p h => p.joinLink (h.access strip)) p =
      { p with
        linkQueue := p.linkQueue ++ l.map (fun h => h.access strip)
        quiet := if l = [] then p.quiet else .stopped } := by
  induction l generalizing p with
  | nil => simp
  | cons x l ih => rw [List.foldl_cons, ih]; simp [Port.joinLink]

/-- Bank machines written one after another. -/
theorem bank_foldl_setBank (f : Nat → Bank) (l : List Nat) (hl : l.Nodup) (p : Port) (b : Nat) :
    (l.foldl (fun q b => q.setBank b (f b)) p).bank b = if b ∈ l then f b else p.bank b := by
  induction l generalizing p with
  | nil => simp
  | cons c l ih =>
    rw [List.foldl_cons, ih (List.nodup_cons.1 hl).2, Port.bank_setBank]
    have := (List.nodup_cons.1 hl).1
    by_cases h1 : b ∈ l
    · simp [h1]
    · by_cases h2 : b = c
      · subst h2; simp [h1]
      · simp [h1, h2]

theorem foldl_setBank_frame (f : Nat → Bank) (l : List Nat) (p : Port) :
    l.foldl (fun q b => q.setBank b (f b)) p = { p with banks := (l.foldl (fun q b => q.setBank b (f b)) p).banks } := by
  induction l generalizing p with
  | nil => rfl
  | cons c l ih => rw [List.foldl_cons, ih]; rfl

theorem clamp_eq {low high : Nat} (h : low ≤ high) (v : Nat) :
    clamp low high v = if v < low then low else if high < v then high else v := by
  unfold clamp
  split_ifs <;> omega

/-- What is next for a bank's row among the accesses after one (R160). -/
theorem nextForRow_iff (a : Access) (rest : List Access) :
    nextForRow a rest = true ↔ ∃ c more, (rest.filter fun c => c.bank == a.bank) = c :: more ∧ c.strip = a.strip := by
  unfold nextForRow
  cases rest.filter fun c => c.bank == a.bank <;> simp

/-! ### The port when an access has been carried out -/

/-- What the end of a transfer hands on leaves the port alone, but after a copy slot's write segment (R162). -/
theorem State.carryOut_port_of_ne (s : State) (a : Access)
    (h : ∀ k strip line data, a ≠ .writeSegment (.slot k) strip line data false) :
    (s.carryOut a).port = s.port := by
  cases a with
  | lineRead t st l e ab => simp [State.carryOut]
  | lineWrite st l d e hd => simp [State.carryOut]
  | readSegment g st l d => simp [State.carryOut]
  | writeSegment g st l d dr =>
    cases g with
    | slot k =>
      cases dr with
      | false => exact absurd rfl (h k st l d)
      | true => rfl
    | sequencer =>
      simp only [State.carryOut, State.writeSegmentDone]
      split
      · rfl
      · unfold State.commitWritten State.endAbort State.finishCommitStrip; dsimp only; (repeat' split) <;> simp

/-- Accesses that join the link-side queue change that queue and the quiet timer. -/
theorem Port.foldl_joinLink (l : List HeldWrite) (f : HeldWrite → Access) (p : Port) :
    ∃ q lq, l.foldl (fun p h => p.joinLink (f h)) p = { p with linkQueue := lq, quiet := q } := by
  induction l generalizing p with
  | nil => exact ⟨_, _, rfl⟩
  | cons h l ih =>
    obtain ⟨q, lq, e⟩ := ih (p.joinLink (f h))
    exact ⟨q, lq, by rw [List.foldl_cons, e]; rfl⟩

/-- What the end of a transfer hands on may place released held writes in the link-side queue and cancel the quiet timer; the
port is else as it was (R64, R156). -/
theorem State.carryOut_port (s : State) (a : Access) :
    ∃ q lq, (s.carryOut a).port = { s.port with linkQueue := lq, quiet := q } := by
  by_cases h : ∀ k strip line data, a ≠ .writeSegment (.slot k) strip line data false
  · exact ⟨_, _, State.carryOut_port_of_ne s a h⟩
  · push Not at h
    obtain ⟨k, st, l, d, rfl⟩ := h
    show ∃ q lq, (State.copyWritten _ k).port = _
    unfold State.copyWritten State.releaseHeld
    dsimp only
    split
    · exact ⟨_, _, rfl⟩
    · split
      · exact Port.foldl_joinLink _ _ _
      · exact ⟨_, _, rfl⟩

/-! ### The end of CLOSING -/

/-- When a store strip counts for the end of CLOSING (R54). -/
theorem Store.openEditionStrip_iff (st : Store) (strip : Nat) :
    st.openEditionStrip strip = true ↔ ∃ e v, Table.read st.strips strip = some e ∧
      Table.read st.versions e.owner = some v ∧ v.lock = .openLock ∧ v.origin = .edition := by
  unfold Store.openEditionStrip
  cases Table.read st.strips strip with
  | none => simp
  | some e => cases h : Table.read st.versions e.owner <;> simp [h]

/-- A held write names a COPYING slot or none, so the copies alone decide (R54). -/
theorem Store.editionQuiet_iff (st : Store) : st.editionQuiet = true ↔ ¬ st.EditionCopies := by
  unfold Store.editionQuiet Store.EditionCopies
  simp only [← Store.openEditionStrip_iff]
  constructor
  · rintro h ⟨c, hc, hs⟩
    have := (List.all_eq_true.1 (Bool.and_eq_true_iff.1 h).1) c hc
    simp [hs] at this
  · intro h
    refine Bool.and_eq_true_iff.2 ⟨List.all_eq_true.2 fun c hc => ?_, List.all_eq_true.2 fun w _ => ?_⟩
    · simpa using fun hs => h ⟨c, hc, hs⟩
    · split
      · rfl
      · next c hr => simpa using fun hs => h ⟨_, Table.mem_of_read hr, hs⟩

theorem lockEditions_read (versions : Table Version) (i : Nat) :
    Table.read (lockEditions versions) i = (Table.read versions i).map fun v =>
      if v.lock = .openLock ∧ v.origin = .edition then { v with lock := .locked } else v := by
  rw [← Table.read_map versions (fun _ v => if v.lock = .openLock ∧ v.origin = .edition then { v with lock := .locked } else v),
    lockEditions]
  congr 1
  refine List.map_congr_left fun e _ => ?_
  split <;> rfl

/-- The test of the end of CLOSING. -/
theorem State.testClosing_spec (s : State) : s.ClosingTested s.testClosing := by
  have q := s.store.editionQuiet_iff
  unfold State.testClosing
  constructor
  · intro n hn hc
    rw [hn]
    dsimp only
    rw [if_pos (q.2 hc)]
    exact ⟨fun i => lockEditions_read _ _, rfl⟩
  · rintro (h | h)
    · split
      · next n hn => exact absurd hn (h n)
      · rfl
    · split
      · rw [if_neg (fun hq => q.1 hq h)]
      · rfl

/-- The test falls due (assumption 38). -/
theorem State.testClosingDue_spec (s : State) : s.ClosingTestDue s.testClosingDue := by
  refine ⟨_, rfl, ?_⟩
  unfold State.testClosingDue
  dsimp only
  split
  · rfl
  · exact State.testClosing_spec _

/-! ### The restoration unit -/

/-- An event that may fall with its cause or later: the occasion is counted, and the free choice says whether the event
falls now (assumption 36). -/
theorem State.nowOrLater_eq (s : State) (event : State → State) :
    s.nowOrLater event =
      if Config.restorationFallsLater s.restore.occasions then
        { s with restore := { s.restore with occasions := s.restore.occasions + 1 } }
      else event { s with restore := { s.restore with occasions := s.restore.occasions + 1 } } := rfl

/-- The arrivals answer each read in the order in which the reads were carried out, and nothing else of the link or of the
block changes (R82, R87). -/
theorem State.arriveAll_frame_eq (s : State) :
    s.arriveAll = { s with link := s.arriveAll.link, restore := { s.restore with arriving := [] } } := by
  have h : ∀ (l : List Arrival) (s : State), l.foldl State.arrive s = { s with link := (l.foldl State.arrive s).link } := by
    intro l
    induction l with
    | nil => intro s; rfl
    | cons a l ih => intro s; rw [List.foldl_cons, ih]; rfl
  exact h _ _

/-! ### The walk -/

/-- A version that is considered and holds the strip index ends the walk (R32). -/
theorem walk_of_holds {versions : Table Version} {e : Option Nat} {p : Bool} {i n : Nat} {v : Version} {strip : Nat}
    (h : ViewHolds versions e p i n v strip) (rest : List Nat) :
    walk versions e p i (n :: rest) = some ⟨n, v.origin, strip⟩ := by
  obtain ⟨h1, h2, h3, h4⟩ := h
  have hc : considers e p v = true := by
    unfold considers
    cases e with
    | none => by_cases ho : v.origin = .restored <;> simp [ho, h3]
    | some m => by_cases ho : v.origin = .restored <;> simp [ho, h3, h4]
  rw [walk, h1]
  simp only [hc, h2]

/-- A version that is not considered, or does not hold the strip index, is passed over (R32). -/
theorem walk_of_not_holds {versions : Table Version} {e : Option Nat} {p : Bool} {i n : Nat}
    (h : ∀ v strip, ¬ ViewHolds versions e p i n v strip) (rest : List Nat) :
    walk versions e p i (n :: rest) = walk versions e p i rest := by
  rw [walk]
  split
  · rfl
  · next v hv =>
    split
    · next strip hc hd =>
      exfalso
      apply h v strip
      refine ⟨hv, hd, fun ho => ?_, fun m hm => ?_⟩
      · simpa [considers, ho] using (Bool.and_eq_true_iff.1 hc).1
      · have := (Bool.and_eq_true_iff.1 hc).2
        simpa [hm] using this
    · rfl

/-! ### The copy slots and the sequencer -/

/-- The first released entry of the slot leaves the hold queue. -/
theorem removeHeld_append {k : Fin 4} {front back : List HeldWrite} {h : HeldWrite} (hk : h.slot = k)
    (hr : h.released = true) (hf : ∀ g ∈ front, ¬ (g.slot = k ∧ g.released = true)) :
    removeHeld k (front ++ h :: back) = front ++ back := by
  induction front with
  | nil => simp [removeHeld, hk, hr]
  | cons x front ih =>
    rw [List.cons_append, removeHeld, if_neg (hf x (by simp)), ih fun g hg => hf g (by simp [hg])]
    rfl

@[simp] theorem Restore.length_transform (r : Restore) (rec : Restoration) (o : Nat) (bs : List Byte) :
    (r.transform rec o bs).length = bs.length := by
  induction bs generalizing o with
  | nil => rfl
  | cons b bs ih => simp [Restore.transform, ih]

/-- Each byte is transformed at its own page byte offset (R83). -/
theorem Restore.getElem_transform (r : Restore) (rec : Restoration) (o : Nat) (bs : List Byte) {i : Nat} {b : Byte}
    (h : bs[i]? = some b) : (r.transform rec o bs)[i]? = some (r.transformByte rec (o + i) b) := by
  induction bs generalizing o i with
  | nil => simp at h
  | cons x bs ih =>
    cases i with
    | zero => simp at h; subst h; rfl
    | succ i =>
      rw [Restore.transform, List.getElem?_cons_succ, ih (o + 1) (by simpa using h), Nat.add_assoc, Nat.add_comm 1 i]

/-- No strip index from the cursor on resolves. -/
theorem Store.nextStrip_eq_none {st : Store} {q : Sequencer} :
    st.nextStrip q = none ↔ ∀ i, q.cursor ≤ i → i < 512 → st.resolveFrom q.page q.snapshot i = none := by
  have c : Config.frameStrips = 512 := rfl
  unfold Store.nextStrip
  rw [List.findSome?_eq_none_iff]
  simp only [List.mem_range, c]
  constructor
  · intro h i h1 h2
    have := h i h2
    rw [if_pos h1] at this
    simpa using this
  · intro h i h2
    split
    · next h1 => simp [h i h1 h2]
    · rfl

/-- The first strip index from the cursor on that resolves. -/
theorem Store.nextStrip_eq_some {st : Store} {q : Sequencer} {i src : Nat} (h1 : q.cursor ≤ i) (h2 : i < 512)
    (h3 : st.resolveFrom q.page q.snapshot i = some src)
    (h4 : ∀ j, q.cursor ≤ j → j < i → st.resolveFrom q.page q.snapshot j = none) : st.nextStrip q = some (i, src) := by
  have c : Config.frameStrips = 512 := rfl
  unfold Store.nextStrip
  rw [List.findSome?_eq_some_iff]
  refine ⟨List.range i, i, List.range' (i + 1) (511 - i), ?_, ?_, fun j hj => ?_⟩
  · rw [c, List.range_eq_range', List.range_eq_range']
    have e : 512 - i = (511 - i) + 1 := by omega
    have := List.range'_append (s := 0) (m := i) (n := 512 - i) (step := 1)
    rw [show i + (512 - i) = 512 by omega] at this
    rw [← this, e, List.range'_succ]
    simp
  · rw [if_pos h1, h3]; rfl
  · simp only [List.mem_range] at hj
    split
    · next h => simp [h4 j h hj]
    · rfl

/-- The first strip index that resolves, in the terms of the statements. -/
theorem State.nextResolves_iff (s : State) (i : Nat) :
    s.NextResolves i ↔ ∃ src, s.store.nextStrip s.restore.sequencer = some (i, src) := by
  constructor
  · rintro ⟨h1, h2, h3, h4⟩
    obtain ⟨src, hs⟩ := Option.ne_none_iff_exists'.1 h3
    exact ⟨src, Store.nextStrip_eq_some h1 h2 hs h4⟩
  · rintro ⟨src, h⟩
    have hn : ∃ k, s.NextResolves k := by
      have := mt Store.nextStrip_eq_none.2 (by rw [h]; exact Option.some_ne_none _ :
        s.store.nextStrip s.restore.sequencer ≠ none)
      push Not at this
      obtain ⟨k, h1, h2, h3⟩ := this
      have e : ∃ k, s.restore.sequencer.cursor ≤ k ∧ k < 512 ∧
          s.store.resolveFrom s.restore.sequencer.page s.restore.sequencer.snapshot k ≠ none := ⟨k, h1, h2, h3⟩
      refine ⟨Nat.find e, (Nat.find_spec e).1, (Nat.find_spec e).2.1, (Nat.find_spec e).2.2, fun j h4 h5 => ?_⟩
      have := Nat.find_min e h5
      have b := (Nat.find_spec e).2.1
      push Not at this
      exact this h4 (by omega)
    obtain ⟨k, hk⟩ := hn
    obtain ⟨src', hs⟩ := Option.ne_none_iff_exists'.1 hk.2.2.1
    have := Store.nextStrip_eq_some hk.1 hk.2.1 hs hk.2.2.2
    rw [h] at this
    cases this
    exact hk

/-- The examination falls due (R94, R100). -/
theorem State.examineDue_spec (s : State) : s.ExaminationDue s.examineDue := by
  constructor
  · intro h
    have e : s.store.nextStrip s.restore.sequencer = none := by
      cases e : s.store.nextStrip s.restore.sequencer with
      | none => rfl
      | some x => exact absurd ((s.nextResolves_iff x.1).2 ⟨x.2, e⟩) (h x.1)
    unfold State.examineDue State.examine
    extract_lets q
    rw [show s.store.nextStrip q = none from e]
  · intro i h
    obtain ⟨src, e⟩ := (s.nextResolves_iff i).1 h
    refine ⟨_, rfl, ?_⟩
    unfold State.examineDue
    extract_lets q
    rw [show s.store.nextStrip q = some (i, src) from e]
    show if _ then State.nowOrLater _ _ = _ else State.nowOrLater _ _ = _
    rw [State.nowOrLater_eq]
    split <;> rfl

/-- When an allocation is owed. -/
theorem State.owesStrip_iff (s : State) : s.owesStrip = true ↔ s.OwesStrip := by
  have h : (∃ i, s.NextResolves i) ↔ (s.store.nextStrip s.restore.sequencer).isSome = true := by
    rw [Option.isSome_iff_exists]
    exact ⟨fun ⟨i, h⟩ => let ⟨src, e⟩ := (s.nextResolves_iff i).1 h; ⟨_, e⟩,
      fun ⟨x, e⟩ => ⟨x.1, (s.nextResolves_iff x.1).2 ⟨x.2, e⟩⟩⟩
  unfold State.owesStrip State.OwesStrip
  rw [h]
  simp [and_assoc]

/-- The allocation that is owed is made, and without one nothing changes. -/
theorem State.settleStrip_spec (s : State) : (s.OwesStrip → s.settleStrip = s.examine) ∧ (¬ s.OwesStrip → s.settleStrip = s) :=
  ⟨fun h => if_pos (s.owesStrip_iff.2 h), fun h => if_neg (mt s.owesStrip_iff.1 h)⟩

/-- The finished version is linked directly above the snapshot head. -/
theorem linkAbove_append {new snapshot : Nat} {front back : List Nat} (h : snapshot ∉ front) :
    linkAbove new snapshot (front ++ snapshot :: back) = front ++ new :: snapshot :: back := by
  induction front with
  | nil => simp [linkAbove]
  | cons a front ih =>
    simp only [List.mem_cons, not_or] at h
    rw [List.cons_append, linkAbove, if_neg (fun h2 => h.1 h2.symm), ih h.2]
    rfl

/-- The end of an abort. -/
theorem State.endAbort_spec (s : State) : s.AbortEnded s.endAbort := by
  refine ⟨fun v hv => (Store.release_spec hv).1, ?_, fun p hp => ?_, ?_, rfl, rfl⟩
  · show Store.page (Store.setPage _ _ _) _ = _
    simp
  · show Store.page (Store.setPage _ _ _) _ = _
    rw [Store.page_setPage, if_neg hp]
    simp
  · show Store.setPage _ _ _ = _
    cases hv : Table.read s.store.versions s.restore.sequencer.building with
    | none => simp [State.endAbort, Store.release_free hv, Store.setPage]
    | some v =>
      have := (Store.release_spec hv).2
      simp only [Store.setPage, State.endAbort]
      rw [this]

end Sys2Proof.Machine
end

