-- ==== Sys2Proof/Laws/Invariants.lean ====
section
/-! SUPPORT. What the shared operations keep of the invariants of `State.Sound`: the store strips (R29, R46, R47), the chains
(R30, R100), the counters of the directory and of the accounts (R26, R105), and the engine-side queue (R154). -/

namespace Sys2Proof.Machine

/-! ### Delta lists -/

/-- The strips of a delta list are those that it holds at some strip index. -/
theorem mem_delta_strips {d : Table Nat} (h : Table.wf d) (n : Nat) :
    n ∈ d.map Prod.snd ↔ ∃ i, Table.read d i = some n := by
  simp only [List.mem_map, Prod.exists, exists_eq_right, Table.read_eq_some h]

/-- A delta list that holds no strip at two strip indices holds none twice. -/
theorem nodup_delta_strips {d : Table Nat} (h : Table.wf d)
    (hi : ∀ i j n, Table.read d i = some n → Table.read d j = some n → i = j) : (d.map Prod.snd).Nodup := by
  rw [List.Nodup, List.pairwise_map]
  refine (List.pairwise_map.1 h).imp_of_mem fun {a b} ha hb hab he => ?_
  have h1 := (Table.read_eq_some h a.1 a.2).2 ha
  have h2 := (Table.read_eq_some h b.1 b.2).2 hb
  rw [← he] at h2
  exact absurd (hi _ _ _ h1 h2) (by omega)

/-! ### The store strips -/

/-- No strip stands in two delta lists, or in one at two strip indices (R46). -/
theorem State.StripsKept.unique {s : State} (h : s.StripsKept) {m k : Nat} {v w : Version} {i j n : Nat}
    (h1 : Table.read s.store.versions m = some v) (h2 : Table.read v.delta i = some n)
    (h3 : Table.read s.store.versions k = some w) (h4 : Table.read w.delta j = some n) : m = k ∧ i = j := by
  obtain ⟨e, e1, e2, e3⟩ := h.listed m v i n h1 h2
  obtain ⟨f, f1, f2, f3⟩ := h.listed k w j n h3 h4
  rw [e1] at f1
  cases f1
  exact ⟨e2.symm.trans f2, e3.symm.trans f3⟩

/-- The release of a version keeps the strips (R29, R47). -/
theorem State.StripsKept.released {s t : State} (h : s.StripsKept) {n : Nat} {v : Version}
    (hv : Table.read s.store.versions n = some v) (hr : s.store.Released t.store n v) (hc : t.chip = s.chip)
    (ha : t.apertures = s.apertures) (hq : s.restore.sequencer.state = .idle → t.restore.sequencer.state = .idle) :
    t.StripsKept := by
  obtain ⟨hf, h1, h2, h3, h4⟩ := hr
  have hw := h.ascending n v hv
  have hm := mem_delta_strips hw
  have key : ∀ i, i ∈ v.delta.map Prod.snd → ∃ e, Table.read s.store.strips i = some e ∧ e.owner = n := by
    intro i hi
    obtain ⟨j, hj⟩ := (hm i).1 hi
    obtain ⟨e, e1, e2, -⟩ := h.listed n v j i hv hj
    exact ⟨e, e1, e2⟩
  have kept : ∀ i e, Table.read t.store.strips i = some e →
      i ∉ v.delta.map Prod.snd ∧ Table.read s.store.strips i = some e := by
    intro i e he
    have : i ∉ v.delta.map Prod.snd := fun hi => by rw [h1 i hi] at he; cases he
    exact ⟨this, h2 i this ▸ he⟩
  refine ⟨hc ▸ h.size, ?_, ?_, ?_, ?_, ?_, ?_, ?_⟩
  · rw [hf, List.nodup_append]
    refine ⟨h.queue, nodup_delta_strips hw fun i j k a b => (h.unique hv a hv b).2, ?_⟩
    rintro a ha b hb rfl
    obtain ⟨e, he, -⟩ := key a hb
    rw [(h.free a ha).2] at he; cases he
  · intro k hk
    rw [hf, List.mem_append] at hk
    rw [hc]
    by_cases hd : k ∈ v.delta.map Prod.snd
    · obtain ⟨e, he, -⟩ := key k hd
      exact ⟨(h.owned k e he).1, h1 k hd⟩
    · have := h.free k (hk.resolve_right hd)
      exact ⟨this.1, (h2 k hd).trans this.2⟩
  · intro k e he
    obtain ⟨k1, k2⟩ := kept k e he
    obtain ⟨o1, w, o2, o3⟩ := h.owned k e k2
    refine ⟨hc ▸ o1, w, ?_, o3⟩
    rw [h4 _ ?_]
    · exact o2
    · intro ho
      rw [ho, hv] at o2; cases o2
      exact k1 ((hm k).2 ⟨_, o3⟩)
  · intro m w i k hm1 hk
    have hne : m ≠ n := by rintro rfl; rw [h3] at hm1; cases hm1
    rw [h4 m hne] at hm1
    obtain ⟨e, e1, e2, e3⟩ := h.listed m w i k hm1 hk
    refine ⟨e, ?_, e2, e3⟩
    rw [h2 k ?_]
    · exact e1
    · intro hd
      obtain ⟨f, f1, f2⟩ := key k hd
      rw [e1] at f1; cases f1
      exact hne (e2.symm.trans f2)
  · intro m w hw
    have hne : m ≠ n := by rintro rfl; rw [h3] at hw; cases hw
    rw [h4 m hne] at hw
    exact h.ascending m w hw
  · intro hi k hk
    rw [hc] at hi hk
    by_cases hd : k ∈ v.delta.map Prod.snd
    · left; rw [hf]; exact List.mem_append_right _ hd
    · rcases h.whole hi k hk with h | h
      · left; rw [hf]; exact List.mem_append_left _ h
      · right; unfold Table.has; rw [h2 k hd]; exact h
  · intro hi
    rw [hc] at hi
    obtain ⟨a, b, c, d, e⟩ := h.init hi
    have hd : v.delta = [] := by
      rw [List.eq_nil_iff_forall_not_mem]
      rintro ⟨i, k⟩ hik
      obtain ⟨e, he, -⟩ := key k (List.mem_map.2 ⟨_, hik, rfl⟩)
      rw [c] at he; cases he
    have hf : t.store.freeQueue = s.store.freeQueue := by simpa [hd] using hf
    refine ⟨by rw [hf]; exact a, by rw [hf, hc]; exact b, fun k => ?_, fun x => ?_, hq e⟩
    · rw [h2 k (by simp [hd])]; exact c k
    · unfold State.aperture; rw [ha]; exact d x

/-- An allocation keeps the strips: the strip at the head of the queue joins version `o` at a strip index that it does not hold
(R47, R59, R96). -/
theorem State.StripsKept.taken {s t : State} (h : s.StripsKept) (hi : s.chip.inInit = false) {strip o idx : Nat}
    {rest : List Nat} {v : Version} {e : StripEntry} (hf : s.store.freeQueue = strip :: rest)
    (hv : Table.read s.store.versions o = some v) (hd : Table.read v.delta idx = none) (ho : e.owner = o) (hx : e.index = idx)
    (hc : t.chip = s.chip) (h0 : t.store.freeQueue = rest)
    (h1 : ∀ m, Table.read t.store.versions m =
      if m = o then some { v with delta := Table.write v.delta idx strip } else Table.read s.store.versions m)
    (h2 : ∀ k, Table.read t.store.strips k = if k = strip then some e else Table.read s.store.strips k) : t.StripsKept := by
  have hqueue := h.queue
  rw [hf] at hqueue
  obtain ⟨hs, hr⟩ := List.nodup_cons.1 hqueue
  have hfree := h.free strip (by rw [hf]; simp)
  have hnl : ∀ m w i, Table.read s.store.versions m = some w → Table.read w.delta i ≠ some strip := by
    intro m w i hm hi
    obtain ⟨x, x1, -⟩ := h.listed m w i strip hm hi
    rw [hfree.2] at x1; cases x1
  refine ⟨hc ▸ h.size, h0 ▸ hr, ?_, ?_, ?_, ?_, ?_, fun h => ?_⟩
  · intro n hn
    rw [h0] at hn
    have := h.free n (by rw [hf]; simp [hn])
    refine ⟨hc ▸ this.1, ?_⟩
    rw [h2, if_neg (by rintro rfl; exact hs hn)]
    exact this.2
  · intro n x hn
    rw [h2] at hn
    rw [hc]
    split at hn
    · next hk =>
      cases hn
      subst hk
      refine ⟨hfree.1, _, by rw [h1, if_pos ho], ?_⟩
      rw [hx]; simp
    · obtain ⟨o1, w, o2, o3⟩ := h.owned n x hn
      refine ⟨o1, ?_⟩
      rw [h1]
      split
      · next hxo =>
        rw [hxo, hv] at o2; cases o2
        refine ⟨_, rfl, ?_⟩
        rw [Table.read_write]
        split
        · next hi => rw [hi, hd] at o3; cases o3
        · exact o3
      · exact ⟨w, o2, o3⟩
  · intro m w i n hm hi
    rw [h1] at hm
    split at hm
    · next hmo =>
      cases hm
      rw [Table.read_write] at hi
      split at hi
      · next hix =>
        cases hi
        exact ⟨e, by rw [h2, if_pos rfl], ho.trans hmo.symm, hx.trans hix.symm⟩
      · obtain ⟨x, x1, x2, x3⟩ := h.listed o v i n hv hi
        refine ⟨x, ?_, x2.trans hmo.symm, x3⟩
        rw [h2, if_neg (by rintro rfl; exact hnl o v i hv hi)]
        exact x1
    · obtain ⟨x, x1, x2, x3⟩ := h.listed m w i n hm hi
      refine ⟨x, ?_, x2, x3⟩
      rw [h2, if_neg (by rintro rfl; exact hnl m w i hm hi)]
      exact x1
  · intro m w hm
    rw [h1] at hm
    split at hm
    · cases hm; exact Table.wf_write (h.ascending o v hv) _ _
    · exact h.ascending m w hm
  · intro _ n hn
    rw [hc] at hn
    by_cases hk : n = strip
    · right; unfold Table.has; rw [h2, if_pos hk]; rfl
    · rcases h.whole hi n hn with h | h
      · left; rw [h0]; simpa [hf, hk] using h
      · right; unfold Table.has; rw [h2, if_neg hk]; exact h
  · rw [hc, hi] at h; cases h

/-- Versions that change but for their delta lists, and new ones with an empty delta list, keep the strips. -/
theorem State.StripsKept.versions {s t : State} (h : s.StripsKept) (hc : t.chip = s.chip) (ha : t.apertures = s.apertures)
    (hq : t.chip.inInit = true → t.restore.sequencer.state = .idle) (h0 : t.store.freeQueue = s.store.freeQueue)
    (hs : t.store.strips = s.store.strips)
    (h1 : ∀ m v, Table.read s.store.versions m = some v →
      ∃ w, Table.read t.store.versions m = some w ∧ w.delta = v.delta)
    (h2 : ∀ m w, Table.read t.store.versions m = some w →
      w.delta = [] ∨ ∃ v, Table.read s.store.versions m = some v ∧ w.delta = v.delta) : t.StripsKept := by
  refine ⟨hc ▸ h.size, h0 ▸ h.queue, by rw [h0, hs, hc]; exact h.free, ?_, ?_, ?_, by rw [h0, hs, hc]; exact h.whole, ?_⟩
  · intro n e he
    rw [hs] at he
    obtain ⟨o1, v, o2, o3⟩ := h.owned n e he
    obtain ⟨w, w1, w2⟩ := h1 _ v o2
    exact ⟨hc ▸ o1, w, w1, w2 ▸ o3⟩
  · intro m w i n hm hi
    rcases h2 m w hm with hd | ⟨v, hv, hd⟩
    · rw [hd] at hi; cases hi
    · rw [hs]; exact h.listed m v i n hv (hd ▸ hi)
  · intro m w hm
    rcases h2 m w hm with hd | ⟨v, hv, hd⟩
    · rw [hd]; exact Table.wf_nil
    · rw [hd]; exact h.ascending m v hv
  · intro hi
    obtain ⟨a, b, c, d, -⟩ := h.init (hc ▸ hi)
    refine ⟨h0 ▸ a, by rw [h0, hc]; exact b, by rw [hs]; exact c, fun x => ?_, hq hi⟩
    unfold State.aperture; rw [ha]; exact d x

/-- A strip that becomes READY keeps the strips (R65, R99). -/
theorem State.StripsKept.ready {s t : State} (h : s.StripsKept) (hc : t.chip = s.chip) (ha : t.apertures = s.apertures)
    (hq : t.chip.inInit = true → t.restore.sequencer.state = .idle) (h0 : t.store.freeQueue = s.store.freeQueue)
    (hv : t.store.versions = s.store.versions) {n : Nat}
    (hs : t.store.strips = Table.adjust s.store.strips n fun e => { e with state := .ready }) : t.StripsKept := by
  have hn : ∀ k, Table.read t.store.strips k = none ↔ Table.read s.store.strips k = none := by
    intro k; rw [hs, Table.read_adjust]; split <;> simp
  refine ⟨hc ▸ h.size, h0 ▸ h.queue, ?_, ?_, ?_, hv ▸ h.ascending, ?_, ?_⟩
  · intro k hk
    have := h.free k (h0 ▸ hk)
    exact ⟨hc ▸ this.1, (hn k).2 this.2⟩
  · intro k e he
    rw [hs, Table.read_adjust] at he
    rw [hc, hv]
    split at he
    · obtain ⟨w, hw, rfl⟩ := Option.map_eq_some_iff.1 he
      exact h.owned k w hw
    · exact h.owned k e he
  · intro m v i k hm hi
    obtain ⟨e, e1, e2, e3⟩ := h.listed m v i k (hv ▸ hm) hi
    rw [hs, Table.read_adjust]
    split
    · rw [e1]; exact ⟨_, rfl, e2, e3⟩
    · exact ⟨e, e1, e2, e3⟩
  · intro hi k hk
    rw [hc] at hi hk
    rcases h.whole hi k hk with h | h
    · exact .inl (h0 ▸ h)
    · right
      by_contra hx
      have := (Table.has_eq_false _ _).2 ((hn k).1 ((Table.has_eq_false _ _).1 (by simpa using hx)))
      rw [h] at this; cases this
  · intro hi
    obtain ⟨a, b, c, d, -⟩ := h.init (hc ▸ hi)
    refine ⟨h0 ▸ a, by rw [h0, hc]; exact b, fun k => (hn k).2 (c k), fun x => ?_, hq hi⟩
    unfold State.aperture; rw [ha]; exact d x

/-! ### The chains and the cursor -/

theorem mem_linkAbove {n b x : Nat} {l : List Nat} (h : x ∈ linkAbove n b l) : x = n ∨ x ∈ l := by
  induction l with
  | nil => simp [linkAbove] at h
  | cons a l ih =>
    rw [linkAbove] at h
    split at h
    · simpa using h
    · simp only [List.mem_cons] at h ⊢
      rcases h with h | h
      · exact .inr (.inl h)
      · exact (ih h).imp id .inr

theorem nodup_linkAbove {n b : Nat} {l : List Nat} (h : l.Nodup) (hn : n ∉ l) : (linkAbove n b l).Nodup := by
  induction l with
  | nil => simp [linkAbove]
  | cons a l ih =>
    obtain ⟨h1, h2⟩ := List.nodup_cons.1 h
    simp only [List.mem_cons, not_or] at hn
    rw [linkAbove]
    split
    · exact List.nodup_cons.2 ⟨by simp [hn], h⟩
    · refine List.nodup_cons.2 ⟨fun hm => ?_, ih h2 hn.2⟩
      rcases mem_linkAbove hm with e | e
      · exact hn.1 e.symm
      · exact h1 e

theorem length_linkAbove (n b : Nat) (l : List Nat) : (linkAbove n b l).length ≤ l.length + 1 := by
  induction l with
  | nil => simp [linkAbove]
  | cons a l ih =>
    rw [linkAbove]
    split
    · simp
    · simpa using ih

/-- The building version is in no chain (R30). -/
theorem State.Chained.building_not_linked {s : State} (h : s.Chained) (hq : s.restore.sequencer.state ≠ .idle) (p : Nat) :
    s.restore.sequencer.building ∉ (s.store.page p).chain := by
  intro hp
  obtain ⟨w, w1, -, w3⟩ := h.linked p _ hp
  obtain ⟨-, -, -, v, b1, -, b2, -⟩ := h.building hq
  rw [b1] at w1
  cases w1
  exact w3 b2

/-- The next strip index that resolves is not behind the cursor (R94). -/
theorem Store.cursor_le_nextStrip {st : Store} {q : Sequencer} {i source : Nat} (h : st.nextStrip q = some (i, source)) :
    q.cursor ≤ i := by
  unfold Store.nextStrip at h
  obtain ⟨k, -, hk⟩ := List.exists_of_findSome?_eq_some h
  split at hk
  · next hle =>
    obtain ⟨y, -, hy⟩ := Option.map_eq_some_iff.1 hk
    cases hy
    exact hle
  · cases hk

/-- With no strip in progress the building version does not hold the cursor yet (R96). -/
theorem State.CursorKept.cursor_free {s : State} (h : s.CursorKept) (hq : s.restore.sequencer.state ≠ .idle)
    (hp : s.restore.sequencer.inProgress = false) {v : Version}
    (hv : Table.read s.store.versions s.restore.sequencer.building = some v) {i : Nat} (hi : s.restore.sequencer.cursor ≤ i) :
    Table.read v.delta i = none := by
  rw [← Table.has_eq_false]
  by_contra hx
  have := (h.ahead hq v i hv hi (by simpa using hx)).2
  rw [hp] at this
  cases this

/-! ### Counts -/

/-- One number more satisfies the test, and the others as before. -/
theorem countP_one_more {l : List Nat} (hl : l.Nodup) {j : Nat} (hj : j ∈ l) {p q : Nat → Bool} (hp : p j = false)
    (hq : q j = true) (h : ∀ i ∈ l, i ≠ j → q i = p i) : l.countP q = l.countP p + 1 := by
  induction l with
  | nil => simp at hj
  | cons a l ih =>
    obtain ⟨ha, hl⟩ := List.nodup_cons.1 hl
    rw [List.countP_cons, List.countP_cons]
    by_cases e : a = j
    · subst e
      have : l.countP q = l.countP p :=
        List.countP_congr fun i hi => by rw [h i (by simp [hi]) fun e => ha (e ▸ hi)]
      simp [hp, hq, this]
    · rw [ih hl (by simpa [Ne.symm e] using hj) fun i hi => h i (by simp [hi]), h a (by simp) e]
      omega

/-- A charged set that holds no page twice holds a page once or not at all (R119). -/
theorem length_filter_page {ps : List Purchase} (h : (ps.map Purchase.page).Nodup) (p : Nat) :
    (ps.filter fun e => e.page = p).length = if ps.any (fun e => e.page == p) then 1 else 0 := by
  induction ps with
  | nil => rfl
  | cons e ps ih =>
    rw [List.map_cons, List.nodup_cons] at h
    have ih := ih h.2
    by_cases he : e.page = p
    · have : ps.any (fun e => e.page == p) = false := by
        rw [List.any_eq_false]
        intro x hx hxp
        exact h.1 (by rw [he, List.mem_map]; exact ⟨x, hx, by simpa using hxp⟩)
      rw [this] at ih
      simpa [he] using ih
    · simp [he, ih]

/-! ### The engine-side queue and the hold queue -/

theorem mem_insertRequest {order : List (Fin 4)} {a b : Access} {queue : List Access}
    (h : b ∈ insertRequest order a queue) : b = a ∨ b ∈ queue := by
  induction queue with
  | nil => simpa [insertRequest] using h
  | cons c queue ih =>
    rw [insertRequest] at h
    split at h
    · simpa using h
    · simp only [List.mem_cons] at h ⊢
      rcases h with h | h
      · exact .inr (.inl h)
      · exact (ih h).imp id .inr

theorem length_removeHeld (k : Fin 4) (queue : List HeldWrite) : (removeHeld k queue).length ≤ queue.length := by
  induction queue with
  | nil => simp [removeHeld]
  | cons a queue ih =>
    rw [removeHeld]
    split
    · simp
    · simpa using ih

end Sys2Proof.Machine
end

