-- ==== Sys2Proof/Laws/PerInstr.lean ====
section
/-! SUPPORT. For each command: its code, its fields and their widths agree with the command index (§11.5, R194). -/

namespace Sys2Proof.Laws.FrameCarriesCommand

-- One lemma after another: in parallel each would take a thread and its stack.
set_option Elab.async false

/-- A management command's code has field widths, one for each of its fields; the code and fields give the command back;
and when the command is well-formed every field fits its bytes. A row that is no management command has no frame. -/
def Statement (i : Instr) : Prop :=
  ∀ (code : Nat) (fields : List Nat) (values : List Byte), Machine.commandParts i = some (code, fields, values) →
    ∃ widths, Machine.fieldWidths code = some widths ∧ widths.length = fields.length ∧
      Machine.commandOf code fields values = some i ∧
      (i.wellFormed = true → ∀ e ∈ widths.zip fields, e.2 < 256 ^ e.1)

/-- A row with no frame. -/
theorem of_none {i : Instr} (h : Machine.commandParts i = none) : Statement i := by
  intro code fields values h2
  rw [h] at h2
  cases h2

/-- A command with these parts. -/
theorem of_parts {i : Instr} {code : Nat} {fields widths : List Nat} {values : List Byte}
    (h : Machine.commandParts i = some (code, fields, values)) (hw : Machine.fieldWidths code = some widths)
    (hl : widths.length = fields.length) (hc : Machine.commandOf code fields values = some i)
    (hf : i.wellFormed = true → ∀ e ∈ widths.zip fields, e.2 < 256 ^ e.1) : Statement i := by
  intro code' fields' values' h2
  rw [h] at h2
  cases h2
  exact ⟨widths, hw, hl, hc, hf⟩

theorem powerOn (pins : Fin 4) : Statement (.powerOn pins) := of_none rfl
theorem resetPinAssert : Statement .resetPinAssert := of_none rfl
theorem initBuildAppend : Statement .initBuildAppend := of_none rfl
theorem lineRead (tag : Fin 32) (address : Address) (beat : Fin 8) : Statement (.lineRead tag address beat) := of_none rfl
theorem lineWrite (address : Address) (data : List Byte) (enables : Enables) : Statement (.lineWrite address data enables) := of_none rfl
theorem readDecode (tag : Fin 32) : Statement (.readDecode tag) := of_none rfl
theorem writeDisposal : Statement .writeDisposal := of_none rfl
theorem archiveLinkDown : Statement .archiveLinkDown := of_none rfl
theorem archiveLinkUp : Statement .archiveLinkUp := of_none rfl
theorem readDataStart (tag : Fin 32) : Statement (.readDataStart tag) := of_none rfl
theorem readDataEnd : Statement .readDataEnd := of_none rfl
theorem copySegmentIssue (slot : Fin 4) : Statement (.copySegmentIssue slot) := of_none rfl
theorem commitSegmentIssue : Statement .commitSegmentIssue := of_none rfl
theorem arbiterIssue : Statement .arbiterIssue := of_none rfl
theorem quietTimerExpiry : Statement .quietTimerExpiry := of_none rfl
theorem agingClockExpiry : Statement .agingClockExpiry := of_none rfl
theorem bankOpenStart (bank : Fin 8) : Statement (.bankOpenStart bank) := of_none rfl
theorem rowCycleExpiry (bank : Fin 8) : Statement (.rowCycleExpiry bank) := of_none rfl
theorem openDelayExpiry (bank : Fin 8) : Statement (.openDelayExpiry bank) := of_none rfl
theorem bankCloseStart (bank : Fin 8) : Statement (.bankCloseStart bank) := of_none rfl
theorem minimumOpenExpiry (bank : Fin 8) : Statement (.minimumOpenExpiry bank) := of_none rfl
theorem writeRecoveryExpiry (bank : Fin 8) : Statement (.writeRecoveryExpiry bank) := of_none rfl
theorem closeDelayExpiry (bank : Fin 8) : Statement (.closeDelayExpiry bank) := of_none rfl
theorem turnaroundExpiry : Statement .turnaroundExpiry := of_none rfl
theorem transferStart : Statement .transferStart := of_none rfl
theorem transferEnd : Statement .transferEnd := of_none rfl
theorem managementTransactionStart (direction : Byte) : Statement (.managementTransactionStart direction) := of_none rfl
theorem commandFrame (bytes : List Byte) : Statement (.commandFrame bytes) := of_none rfl
theorem responseTransaction (clocked : Nat) : Statement (.responseTransaction clocked) := of_none rfl
theorem otherTransaction (clocked : Nat) : Statement (.otherTransaction clocked) := of_none rfl
theorem identify : Statement .identify :=
  of_parts rfl rfl rfl rfl (by simp)
theorem readStatus : Statement .readStatus :=
  of_parts rfl rfl rfl rfl (by simp)
theorem resetEngine : Statement .resetEngine :=
  of_parts rfl rfl rfl rfl (by simp)
theorem setLinkOrder (order : Nat) : Statement (.setLinkOrder order) :=
  of_parts rfl rfl rfl rfl (by simp [Instr.wellFormed, fits1])
theorem setAperture (aperture state kind selector restored job fill : Nat) : Statement (.setAperture aperture state kind selector restored job fill) :=
  of_parts rfl rfl rfl rfl (by simp [Instr.wellFormed, fits1, fits3]; omega)
theorem readAperture (aperture : Nat) : Statement (.readAperture aperture) :=
  of_parts rfl rfl rfl rfl (by simp [Instr.wellFormed, fits1])
theorem createPage (page kind rateClass day edition loading : Nat) : Statement (.createPage page kind rateClass day edition loading) :=
  of_parts rfl rfl rfl rfl (by simp [Instr.wellFormed, fits1, fits2, fits3]; omega)
theorem finishLoad (page : Nat) : Statement (.finishLoad page) :=
  of_parts rfl rfl rfl rfl (by simp [Instr.wellFormed, fits2])
theorem setEmbargo (page day : Nat) : Statement (.setEmbargo page day) :=
  of_parts rfl rfl rfl rfl (by simp [Instr.wellFormed, fits2, fits3])
theorem setRateClass (page rateClass : Nat) : Statement (.setRateClass page rateClass) :=
  of_parts rfl rfl rfl rfl (by simp [Instr.wellFormed, fits1, fits2])
theorem discardVersion (page version : Nat) : Statement (.discardVersion page version) :=
  of_parts rfl rfl rfl rfl (by simp [Instr.wellFormed, fits2])
theorem retirePage (page : Nat) : Statement (.retirePage page) :=
  of_parts rfl rfl rfl rfl (by simp [Instr.wellFormed, fits2])
theorem readPage (page : Nat) : Statement (.readPage page) :=
  of_parts rfl rfl rfl rfl (by simp [Instr.wellFormed, fits2])
theorem setStoreReserve (reserve : Nat) : Statement (.setStoreReserve reserve) :=
  of_parts rfl rfl rfl rfl (by simp [Instr.wellFormed, fits3])
theorem openEdition (edition : Nat) : Statement (.openEdition edition) :=
  of_parts rfl rfl rfl rfl (by simp [Instr.wellFormed, fits3])
theorem closeEdition : Statement .closeEdition :=
  of_parts rfl rfl rfl rfl (by simp)
theorem writeRestoration (page width pitch height black white curve : Nat) : Statement (.writeRestoration page width pitch height black white curve) :=
  of_parts rfl rfl rfl rfl (by simp [Instr.wellFormed, fits1, fits2, fits3]; omega)
theorem addDefect (page x0 y0 x1 y1 fill : Nat) : Statement (.addDefect page x0 y0 x1 y1 fill) :=
  of_parts rfl rfl rfl rfl (by simp [Instr.wellFormed, fits1, fits2, fits3]; omega)
theorem clearDefects (page : Nat) : Statement (.clearDefects page) :=
  of_parts rfl rfl rfl rfl (by simp [Instr.wellFormed, fits2])
theorem detachRestoration (page : Nat) : Statement (.detachRestoration page) :=
  of_parts rfl rfl rfl rfl (by simp [Instr.wellFormed, fits2])
theorem loadCurve (curve quarter : Nat) (values : List Byte) : Statement (.loadCurve curve quarter values) :=
  of_parts rfl rfl rfl rfl (by simp [Instr.wellFormed, fits1]; omega)
theorem readRestoration (page : Nat) : Statement (.readRestoration page) :=
  of_parts rfl rfl rfl rfl (by simp [Instr.wellFormed, fits2])
theorem commitRestoration (page : Nat) : Statement (.commitRestoration page) :=
  of_parts rfl rfl rfl rfl (by simp [Instr.wellFormed, fits2])
theorem abortCommit : Statement .abortCommit :=
  of_parts rfl rfl rfl rfl (by simp)
theorem openAccount (account : Nat) : Statement (.openAccount account) :=
  of_parts rfl rfl rfl rfl (by simp [Instr.wellFormed, fits1])
theorem creditAccount (account amount : Nat) : Statement (.creditAccount account amount) :=
  of_parts rfl rfl rfl rfl (by simp [Instr.wellFormed, fits1, fits4])
theorem suspendAccount (account : Nat) : Statement (.suspendAccount account) :=
  of_parts rfl rfl rfl rfl (by simp [Instr.wellFormed, fits1])
theorem resumeAccount (account : Nat) : Statement (.resumeAccount account) :=
  of_parts rfl rfl rfl rfl (by simp [Instr.wellFormed, fits1])
theorem setDiscount (account t1 t2 d1 d2 : Nat) : Statement (.setDiscount account t1 t2 d1 d2) :=
  of_parts rfl rfl rfl rfl (by simp [Instr.wellFormed, fits1]; omega)
theorem readAccount (account : Nat) : Statement (.readAccount account) :=
  of_parts rfl rfl rfl rfl (by simp [Instr.wellFormed, fits1])
theorem closeAccount (account : Nat) : Statement (.closeAccount account) :=
  of_parts rfl rfl rfl rfl (by simp [Instr.wellFormed, fits1])
theorem openJob (job account ceiling : Nat) : Statement (.openJob job account ceiling) :=
  of_parts rfl rfl rfl rfl (by simp [Instr.wellFormed, fits1, fits4]; omega)
theorem closeJob (job : Nat) : Statement (.closeJob job) :=
  of_parts rfl rfl rfl rfl (by simp [Instr.wellFormed, fits1])
theorem freeJob (job : Nat) : Statement (.freeJob job) :=
  of_parts rfl rfl rfl rfl (by simp [Instr.wellFormed, fits1])
theorem readJob (job portion : Nat) : Statement (.readJob job portion) :=
  of_parts rfl rfl rfl rfl (by simp [Instr.wellFormed, fits1])
theorem setDate (day : Nat) : Statement (.setDate day) :=
  of_parts rfl rfl rfl rfl (by simp [Instr.wellFormed, fits3])
theorem setBands (a1 a2 a3 : Nat) : Statement (.setBands a1 a2 a3) :=
  of_parts rfl rfl rfl rfl (by simp [Instr.wellFormed, fits1]; omega)
theorem setRate (rateClass r0 r1 r2 r3 : Nat) : Statement (.setRate rateClass r0 r1 r2 r3) :=
  of_parts rfl rfl rfl rfl (by simp [Instr.wellFormed, fits1, fits2]; omega)
theorem setSurcharge (surcharge : Nat) : Statement (.setSurcharge surcharge) :=
  of_parts rfl rfl rfl rfl (by simp [Instr.wellFormed, fits2])
theorem readTariff (rateClass : Nat) : Statement (.readTariff rateClass) :=
  of_parts rfl rfl rfl rfl (by simp [Instr.wellFormed, fits1])
theorem readCharges (most : Nat) : Statement (.readCharges most) :=
  of_parts rfl rfl rfl rfl (by simp [Instr.wellFormed, fits1])
theorem setLogMode (threshold mode : Nat) : Statement (.setLogMode threshold mode) :=
  of_parts rfl rfl rfl rfl (by simp [Instr.wellFormed, fits1, fits2])
theorem setStoreTiming (openDelay closeDelay minimumOpen rowCycle writeRecovery turnaround : Nat) : Statement (.setStoreTiming openDelay closeDelay minimumOpen rowCycle writeRecovery turnaround) :=
  of_parts rfl rfl rfl rfl (by simp [Instr.wellFormed, fits2]; omega)
theorem setPagePolicy (policy : Nat) : Statement (.setPagePolicy policy) :=
  of_parts rfl rfl rfl rfl (by simp [Instr.wellFormed, fits1])
theorem setArbiter (quietTime agingLimit : Nat) : Statement (.setArbiter quietTime agingLimit) :=
  of_parts rfl rfl rfl rfl (by simp [Instr.wellFormed, fits2])
theorem readStoreSettings : Statement .readStoreSettings :=
  of_parts rfl rfl rfl rfl (by simp)
theorem readFaults : Statement .readFaults :=
  of_parts rfl rfl rfl rfl (by simp)
theorem ackEvents (mask : Nat) : Statement (.ackEvents mask) :=
  of_parts rfl rfl rfl rfl (by simp [Instr.wellFormed, fits2])
theorem enableEvents (mask : Nat) : Statement (.enableEvents mask) :=
  of_parts rfl rfl rfl rfl (by simp [Instr.wellFormed, fits2])
theorem enableJobEvents (job mask : Nat) : Statement (.enableJobEvents job mask) :=
  of_parts rfl rfl rfl rfl (by simp [Instr.wellFormed, fits1])
theorem ackJobEvents (job mask : Nat) : Statement (.ackJobEvents job mask) :=
  of_parts rfl rfl rfl rfl (by simp [Instr.wellFormed, fits1])
theorem readEvents : Statement .readEvents :=
  of_parts rfl rfl rfl rfl (by simp)

end Sys2Proof.Laws.FrameCarriesCommand
end

