-- ==== Sys2Proof/Tests/Slice0.lean ====
section
/-! SUPPORT. Tests of the model: ill-formed commands refused, encodings written out by hand, one-step results worked out by
hand from the manual's rules, and for each statement with hypotheses a state that meets them. -/

namespace Sys2Proof.Tests

open Sys2Proof.Machine

-- One theorem after another: in parallel the kernel evaluations would take a thread and its stack each.
set_option Elab.async false

/-! ### A small state -/

/-- The address of a line, by R15. -/
def place (aperture page strip line : Nat) : Address :=
  BitVec.ofNat 45 (aperture * 2 ^ 41 + page * 2 ^ 25 + strip * 2 ^ 16 + line * 64)

def demoPages : Table Page :=
  [(1, { state := .live, edition := 5, chain := [1, 0], record := some 0, day := 270 }),
   (2, { state := .loading, edition := 3 }),
   (3, { state := .live, edition := 6, chain := [2], copies := 3 }),
   (4, { state := .live, edition := 4, embargo := some 1000 }),
   (5, { state := .live, edition := 4, chain := [4], pins := 1, rateClass := 1 }),
   (6, { state := .live, edition := 4, chain := [3], rateClass := 1 })]

def demoVersions : Table Version :=
  [(0, ⟨1, .edition, 5, .locked, [(0, 10)]⟩),
   (1, ⟨1, .restored, 5, .locked, [(0, 11)]⟩),
   (2, ⟨3, .edition, 6, .openLock, [(0, 12), (1, 13), (2, 15), (3, 16)]⟩),
   (3, ⟨6, .edition, 4, .locked, []⟩),
   (4, ⟨5, .edition, 4, .locked, [(7, 14)]⟩)]

def demoStore : Store where
  pages := demoPages
  versions := demoVersions
  strips := [(10, ⟨.ready, 0, 0⟩), (11, ⟨.ready, 1, 0⟩), (12, ⟨.ready, 2, 0⟩), (13, ⟨.filling (.slot 0), 2, 1⟩),
    (14, ⟨.ready, 4, 7⟩), (15, ⟨.filling (.slot 1), 2, 2⟩), (16, ⟨.filling (.slot 2), 2, 3⟩)]
  freeQueue := [20, 21, 22]
  reserve := 2
  edition := .opened 6
  lastEdition := 6
  copies := [(0, { source := none, target := 13, page := 3, index := 1 }),
    (1, { source := some 10, target := 15, page := 3, index := 2, nextLine := 1020, held := some (List.replicate 256 7) }),
    (2, { source := some 12, target := 16, page := 3, index := 3, nextLine := 1024 })]
  startOrder := [0, 1, 2]
  holdQueue := [⟨⟨place 0 3 3 5, List.replicate 64 1, 1⟩, 2, true⟩]

def demoMeter : Meter where
  accounts := [(1, { state := .active, balance := 900, credited := 1000, charged := 100, d1 := 10, d2 := 20, jobs := 2 }),
    (2, { state := .suspended, jobs := 1 })]
  jobs := [(1, { state := .opened, account := 1, ceiling := 500, total := 100, purchases := [⟨5, 100, 1⟩] }),
    (2, { state := .closed, account := 1 }), (3, { state := .opened, account := 2, ceiling := 9 })]
  date := 1000
  rates := [(1, 300), (5, 400), (6, 600)]
  surcharge := 25

def demoLink : Link where
  linkUp := true
  readCredits := 20
  writeCredits := 32
  tags :=
    [(0, { state := .decoding, address := place 0 1 0 3 }), (1, { state := .decoding, address := place 9 1 0 3 }),
     (2, { state := .decoding, address := place 4 1 0 3 }), (3, { state := .decoding, address := place 2 1 0 3 }),
     (4, { state := .decoding, address := place 3 1 0 3 }), (5, { state := .decoding, address := place 4 5 7 3 }),
     (6, { state := .decoding, address := place 5 1 0 3 }), (7, { state := .decoding, address := place 0 3 2 3 }),
     (8, { state := .ready, beat := 5, answer := some ⟨.data, (List.range 64).map (BitVec.ofNat 8)⟩ }),
     (9, { state := .queued, address := place 3 1 0 1 }), (10, { state := .waiting, address := place 0 3 3 5 }),
     (11, { state := .decoding, address := place 0 3 1 3 })]
  readyOrder := [[8]]

/-- A running part: the link up, INIT over, one page of each kind, an open edition, three copies, accounts and jobs. -/
def demo : State where
  chip := { now := 1000, strips := 32768, inInit := false }
  link := demoLink
  apertures := [(0, { state := .enabled }), (1, { state := .enabled, kind := .load }),
    (2, { state := .enabled, kind := .historic, selector := some 5 }),
    (3, { state := .enabled, kind := .restored, restored := true }),
    (4, { state := .enabled, kind := .reprint, restored := true, job := 1, fill := 9 }),
    (5, { state := .enabled, kind := .reprint, job := 2, fill := 9 })]
  store := demoStore
  restore := { records := [(0, ⟨1, 100, 128, 10, 10, 200, 0, [⟨3, 0, 5, 0, 255⟩]⟩)] }
  meter := demoMeter
  log := {}
  port := {}
  memory := []
  reports := {}
  management := {}
  pending := []

/-- The state after a command. -/
def after (c : Instr) (s : State) : State :=
  match exec c s with
  | .next t => t
  | .fault _ => s
  | .refused _ => s

/-- The response frame that a management command makes ready, as numbers. -/
def reply (c : Instr) (s : State) : List Nat := (after c s).management.buffer.map BitVec.toNat

/-- The state with a write at the head of the write buffer. -/
def withWrite (w : HostWrite) (s : State) : State :=
  { s with link := { s.link with writeBuffer := [w], writeCredits := 31 } }

/-- The state with an access at the front of the issue list and its transfer in progress. -/
def transferring (a : Access) (s : State) : State :=
  { s with port := { s.port with issueList := [a], transferring := true, banks := [(a.bank, { state := .opened a.strip })] } }

/-- Every management command can be taken in the demonstration state. -/
theorem witness_ready (c : Instr) : demo.Ready c := ⟨⟨rfl, .inr ⟨rfl, rfl⟩⟩, rfl⟩

/-- The status code (§11.7) of the answer to each command. -/
def statuses (s : State) (commands : List Instr) : List Nat := commands.map fun c => (reply c s).headD 99

/-- The state in which tag 0 has passed its wait with that address. -/
def withRead (address : Address) (s : State) : State :=
  { s with link := s.link.setTag 0 { state := .decoding, address := address } }

/-! ### Ill-formed commands are refused -/

theorem test_illFormed_lineWrite :
    (Instr.lineWrite 0 (List.replicate 63 0) 0).wellFormed = false ∧
    (Instr.lineWrite 0 (List.replicate 65 0) 0).wellFormed = false ∧
    (Instr.lineWrite 0 (List.replicate 64 0) 0).wellFormed = true := by decide +kernel

theorem test_illFormed_oneByteFields :
    ([.setLinkOrder 256, .setAperture 256 0 0 0 0 0 0, .setAperture 0 256 0 0 0 0 0, .setAperture 0 0 256 0 0 0 0,
      .setAperture 0 0 0 0 256 0 0, .setAperture 0 0 0 0 0 256 0, .setAperture 0 0 0 0 0 0 256, .readAperture 256,
      .createPage 0 256 0 0 0 0, .createPage 0 0 256 0 0 0, .createPage 0 0 0 0 0 256, .setRateClass 0 256,
      .writeRestoration 0 0 0 0 256 0 0, .writeRestoration 0 0 0 0 0 256 0, .writeRestoration 0 0 0 0 0 0 256,
      .addDefect 0 0 0 0 0 256, .loadCurve 256 0 [], .loadCurve 0 256 [], .loadCurve 0 0 (List.replicate 256 0),
      .openAccount 256, .creditAccount 256 0, .suspendAccount 256, .resumeAccount 256, .setDiscount 256 0 0 0 0,
      .setDiscount 0 256 0 0 0, .setDiscount 0 0 256 0 0, .setDiscount 0 0 0 256 0, .setDiscount 0 0 0 0 256,
      .readAccount 256, .closeAccount 256, .openJob 256 0 0, .openJob 0 256 0, .closeJob 256, .freeJob 256,
      .readJob 256 0, .readJob 0 256, .setBands 256 0 0, .setBands 0 256 0, .setBands 0 0 256, .setRate 256 0 0 0 0,
      .readTariff 256, .readCharges 256, .setLogMode 0 256, .setPagePolicy 256, .enableJobEvents 256 0,
      .enableJobEvents 0 256, .ackJobEvents 256 0, .ackJobEvents 0 256] : List Instr).all (!·.wellFormed) = true := by
  decide +kernel

theorem test_illFormed_twoByteFields :
    ([.createPage 65536 0 0 0 0 0, .finishLoad 65536, .setEmbargo 65536 0, .setRateClass 65536 0, .discardVersion 65536 0,
      .discardVersion 0 65536, .retirePage 65536, .readPage 65536, .writeRestoration 65536 0 0 0 0 0 0,
      .addDefect 65536 0 0 0 0 0, .addDefect 0 65536 0 0 0 0, .addDefect 0 0 0 65536 0 0, .clearDefects 65536,
      .detachRestoration 65536, .readRestoration 65536, .commitRestoration 65536, .setRate 0 65536 0 0 0,
      .setRate 0 0 65536 0 0, .setRate 0 0 0 65536 0, .setRate 0 0 0 0 65536, .setSurcharge 65536, .setLogMode 65536 0,
      .setStoreTiming 65536 0 0 0 0 0, .setStoreTiming 0 65536 0 0 0 0, .setStoreTiming 0 0 65536 0 0 0,
      .setStoreTiming 0 0 0 65536 0 0, .setStoreTiming 0 0 0 0 65536 0, .setStoreTiming 0 0 0 0 0 65536,
      .setArbiter 65536 0, .setArbiter 0 65536, .ackEvents 65536, .enableEvents 65536] : List Instr).all
        (!·.wellFormed) = true := by decide +kernel

theorem test_illFormed_wideFields :
    ([.setAperture 0 0 0 16777216 0 0 0, .createPage 0 0 0 16777216 0 0, .createPage 0 0 0 0 16777216 0,
      .setEmbargo 0 16777216, .setStoreReserve 16777216, .openEdition 16777216, .writeRestoration 0 16777216 0 0 0 0 0,
      .writeRestoration 0 0 16777216 0 0 0 0, .writeRestoration 0 0 0 16777216 0 0 0, .addDefect 0 0 16777216 0 0 0,
      .addDefect 0 0 0 0 16777216 0, .setDate 16777216, .creditAccount 0 4294967296, .openJob 0 0 4294967296]
      : List Instr).all (!·.wellFormed) = true := by decide +kernel

/-! ### Encodings written out from §11.5 and R194: code, field length in two bytes, fields big-endian -/

theorem test_frame_part : frameCommand [1, 0, 0] = some .identify ∧ frameCommand [4, 0, 1, 1] = some (.setLinkOrder 1) ∧
    frameCommand [2, 0, 0] = some .readStatus ∧ frameCommand [3, 0, 0] = some .resetEngine := by decide +kernel

theorem test_frame_aperture : frameCommand [5, 0, 9, 4, 1, 4, 0, 3, 44, 1, 12, 224] =
    some (.setAperture 4 1 4 812 1 12 224) ∧ frameCommand [6, 0, 1, 4] = some (.readAperture 4) := by decide +kernel

theorem test_frame_pages : frameCommand [7, 0, 11, 12, 35, 0, 3, 0, 81, 83, 0, 2, 128, 1] =
    some (.createPage 3107 0 3 20819 640 1) ∧ frameCommand [11, 0, 4, 12, 35, 0, 41] = some (.discardVersion 3107 41) ∧
    frameCommand [9, 0, 5, 12, 35, 255, 255, 255] = some (.setEmbargo 3107 16777215) := by decide +kernel

theorem test_frame_editions : frameCommand [15, 0, 3, 0, 3, 47] = some (.openEdition 815) ∧
    frameCommand [16, 0, 0] = some .closeEdition ∧ frameCommand [14, 0, 3, 0, 8, 0] = some (.setStoreReserve 2048) := by
  decide +kernel

theorem test_frame_restoration : frameCommand [17, 0, 14, 20, 110, 0, 11, 184, 0, 16, 0, 0, 19, 136, 38, 212, 2] =
    some (.writeRestoration 5230 3000 4096 5000 38 212 2) ∧
    frameCommand [18, 0, 13, 20, 110, 11, 84, 0, 0, 5, 11, 134, 0, 0, 12, 240] =
      some (.addDefect 5230 2900 5 2950 12 240) := by decide +kernel

theorem test_frame_curve : frameCommand ([21, 0, 67, 2, 3, 64] ++ List.replicate 64 9) =
    some (.loadCurve 2 3 (List.replicate 64 9)) ∧ frameCommand [21, 0, 4, 2, 3, 1, 9] = some (.loadCurve 2 3 [9]) ∧
    frameCommand [21, 0, 2, 2, 3] = none := by decide +kernel

theorem test_frame_accounts : frameCommand [26, 0, 5, 7, 0, 1, 0, 2] = some (.creditAccount 7 65538) ∧
    frameCommand [29, 0, 5, 7, 10, 50, 15, 30] = some (.setDiscount 7 10 50 15 30) ∧
    frameCommand [32, 0, 6, 12, 7, 0, 0, 1, 244] = some (.openJob 12 7 500) := by decide +kernel

theorem test_frame_tariff : frameCommand [36, 0, 3, 0, 162, 168] = some (.setDate 41640) ∧
    frameCommand [38, 0, 9, 3, 0, 150, 1, 144, 4, 226, 11, 184] = some (.setRate 3 150 400 1250 3000) := by decide +kernel

theorem test_frame_logAndPort : frameCommand [42, 0, 3, 4, 0, 1] = some (.setLogMode 1024 1) ∧
    frameCommand [43, 0, 12, 0, 15, 0, 15, 0, 40, 0, 60, 0, 15, 0, 8] = some (.setStoreTiming 15 15 40 60 15 8) ∧
    frameCommand [45, 0, 4, 1, 244, 0, 2] = some (.setArbiter 500 2) := by decide +kernel

theorem test_frame_events : frameCommand [48, 0, 2, 2, 1] = some (.ackEvents 513) ∧
    frameCommand [50, 0, 2, 12, 5] = some (.enableJobEvents 12 5) := by decide +kernel

/-- The four checks of R184: too few bytes, a length that does not fit, more than 512, no such code, another length. -/
theorem test_frame_malformed : frameCommand [1, 0] = none ∧ frameCommand [1, 0, 1] = none ∧
    frameCommand ([21, 2, 1] ++ List.replicate 513 0) = none ∧ frameCommand [53, 0, 0] = none ∧
    frameCommand [0, 0, 0] = none ∧ frameCommand [1, 0, 1, 0] = none ∧ frameCommand [4, 0, 0] = none := by decide +kernel

/-! ### The step, and the words of the table -/

/-- The state after a step. -/
def stepped (s : State) : State :=
  match step s with
  | .next t => t
  | .fault _ => s
  | .refused _ => s

theorem test_step : (stepped (demo.setPending [.setLinkOrder 2, .identify])).management.buffer = [6, 0, 0] ∧
    (stepped (demo.setPending [.setLinkOrder 2, .identify])).pending = [.identify] ∧
    (stepped demo).chip.now = 1001 := by decide +kernel

/-- No row of the table has bits, so no word spells a command. -/
theorem test_words : decodeTableWord 8 5 = none ∧ (State.reset.withFetchWord 8 5).pending = [] := by decide

/-! ### Power, INIT and the archive link -/

/-- R149: the four values of the pins. -/
theorem test_powerOn : (List.finRange 4).map (fun k => (after (.powerOn k) demo).chip.strips) =
    [32768, 65536, 131072, 262144] := by decide +kernel

/-- R180, R182: the pin clears every status and enable, and nothing goes on while it is held. -/
theorem test_resetPin : (after .resetPinAssert demo).chip.resetPin = true ∧
    (after .resetPinAssert { demo with reports := {
      enables := { storeLow := true }, statuses := { storeLow := true }, jobEvents := [(1, { charged := true })] } }).reports = {} ∧
    after .arbiterIssue (after .resetPinAssert demo) = after .resetPinAssert demo := by decide +kernel

theorem test_initBuild : (after .initBuildAppend (after .initBuildAppend State.reset)).store.freeQueue = [0, 1] ∧
    (after .initBuildAppend State.reset).chip.inInit = true := by decide +kernel

/-- §1.5's two addresses. -/
theorem test_address : addressAperture 4438312290408 = 2 ∧ addressKey 4438312290408 = ⟨1200, 7, 33⟩ ∧
    addressAperture 19831475079232 = 9 ∧ addressKey 19831475079232 = ⟨1200, 7, 33⟩ := by decide +kernel

theorem test_lineRead : ((after (.lineRead 31 (place 9 3 3 5) 0) demo).link.tag 31).state = .waiting ∧
    ((after (.lineRead 31 (place 9 3 3 6) 0) demo).link.tag 31).state = .decoding ∧
    (after (.lineRead 0 0 0) demo).link.linkUp = false := by decide +kernel

theorem test_lineWrite : (after (.lineWrite 0 (List.replicate 64 1) 1) demo).link.writeBuffer.length = 1 ∧
    (after (.lineWrite 0 (List.replicate 64 1) 1) demo).link.writeCredits = 31 := by decide +kernel

theorem test_archiveLink : (after .archiveLinkDown demo).link.tags = [] ∧
    (after .archiveLinkUp (after .archiveLinkDown demo)).link.writeCredits = 32 := by decide +kernel

/-- §1.2's wrap order table, critical beat 5: the first bytes of the eight beats. -/
theorem test_readData : (after (.readDataStart 8) demo).link.sending.map (fun d => d.beats.map (fun b => b.map BitVec.toNat |>.headD 0)) =
    some [40, 48, 56, 0, 8, 16, 24, 32] ∧
    (after (.readDataStart 8) (after (.responseTransaction 0) (after (.setLinkOrder 1) demo))).link.sending.map
      (fun d => d.beats.map (fun b => b.map BitVec.toNat |>.headD 0)) = some [40, 32, 56, 48, 8, 0, 24, 16] := by decide +kernel

theorem test_readDataEnd : ((after .readDataEnd (after (.readDataStart 8) demo)).link.tag 8).state = .free ∧
    (after .readDataEnd (after (.readDataStart 8) demo)).link.readCredits = 21 := by decide +kernel

/-! ### The decode of a read -/

/-- §2.11's chain. -/
def chain3107 : Table Version :=
  [(3, ⟨3107, .load, 640, .locked, [(0, 120), (1, 121), (2, 122)]⟩), (9, ⟨3107, .edition, 812, .locked, [(1, 5200)]⟩),
   (17, ⟨3107, .restored, 812, .locked, [(0, 7310), (1, 7311), (2, 7312)]⟩),
   (41, ⟨3107, .edition, 815, .openLock, [(2, 9004)]⟩)]

/-- §2.11's table: the strips 0 to 3 through its seven views. -/
theorem test_walk_views :
    ([(none, false), (some 812, false), (some 700, false), (some 600, false), (none, true), (some 812, true),
      (some 700, true)] : List (Option Nat × Bool)).map
      (fun v => (List.range 4).map fun i => (walk chain3107 v.1 v.2 i [41, 17, 9, 3]).map Hit.strip) =
    [[some 120, some 5200, some 9004, none], [some 120, some 5200, some 122, none],
     [some 120, some 121, some 122, none], [none, none, none, none], [some 7310, some 7311, some 9004, none],
     [some 7310, some 7311, some 7312, none], [some 120, some 121, some 122, none]] := by decide +kernel

theorem test_readDecode : (after (.readDecode 0) demo).port.linkQueue = [.lineRead 0 10 3 false false] ∧
    (after (.readDecode 4) demo).port.linkQueue = [.lineRead 4 11 3 false false] ∧
    (after (.readDecode 7) demo).port.linkQueue = [.lineRead 7 10 3 false false] ∧
    ((after (.readDecode 11) demo).link.tag 11).answer = some ⟨.blank, List.replicate 64 255⟩ ∧
    ((after (.readDecode 1) demo).link.tag 1).answer = some ⟨.unmapped, List.replicate 64 0⟩ ∧
    ((after (.readDecode 6) demo).link.tag 6).answer = some ⟨.withheld, List.replicate 64 9⟩ := by decide +kernel

/-- The charge of tag 2's read: age (1000 − 270) div 365 = 2, band 1, rate 300, surcharge 25 percent, no discount: 375. -/
theorem test_readDecode_charge : ((after (.readDecode 2) demo).meter.account 1).balance = 525 ∧
    (after (.readDecode 2) demo).log.charges = [⟨0, 1000, 1, 1, 1, 375, 2, true, 0⟩] ∧
    (after (.readDecode 2) demo).reports.statuses.logReady = true ∧
    ((after (.readDecode 2) demo).store.page 1).pins = 1 := by decide +kernel

/-- §7.8's limit cases, and its cases A and B. -/
theorem test_fee : feeOf 65535 100 0 = 131070 ∧ feeOf 0 40 0 = 0 ∧ feeOf 65535 100 100 = 0 ∧ feeOf 1 0 60 = 0 ∧
    feeOf 1 0 50 = 1 ∧ feeOf 1 0 51 = 0 ∧ feeOf 1250 40 15 = 1488 ∧ feeOf 1250 0 15 = 1063 ∧ feeOf 2999 0 30 = 2099 := by
  decide +kernel

/-! ### Write disposal, the engine and the store port -/

/-- A write of page 1, strip 4, through the EDITION aperture. -/
def freshWrite : HostWrite := ⟨place 0 1 4 9, List.replicate 64 1, 1⟩

theorem test_writeDisposal_fresh : (after .writeDisposal (withWrite freshWrite demo)).store.freeQueue = [21, 22] ∧
    ((after .writeDisposal (withWrite freshWrite demo)).store.page 1).chain = [5, 1, 0] ∧
    (after .writeDisposal (withWrite freshWrite demo)).reports.statuses.storeLow = true ∧
    (after .writeDisposal (withWrite freshWrite demo)).link.writeBuffer = [] := by decide +kernel

theorem test_writeDisposal_drop :
    (after .writeDisposal (withWrite ⟨place 9 1 4 9, List.replicate 64 1, 1⟩ demo)).reports.faults =
      [⟨.unmapped, 9, 1, 4, 9, 6, 1⟩] := by decide +kernel

theorem test_copySegment : (after (.copySegmentIssue 0) demo).port.engineQueue =
      [.writeSegment (.slot 0) 13 0 (List.replicate 256 255) false] ∧
    (after (.copySegmentIssue 1) demo).port.engineQueue =
      [.writeSegment (.slot 1) 15 1020 (List.replicate 256 7) false] := by decide +kernel

/-- A demonstration commit of page 1 on snapshot 1, its cursor at strip index 0, strip 20 taken. -/
def committing (q : Sequencer) (s : State) : State :=
  { s with
    store := { s.store with
      freeQueue := [21, 22]
      pages := Table.write s.store.pages 1 { s.store.page 1 with building := some 5, committing := true }
      versions := Table.write s.store.versions 5 ⟨1, .restored, 5, .building, [(0, 20)]⟩
      strips := Table.write s.store.strips 20 ⟨.filling .sequencer, 5, 0⟩ }
    restore := { s.restore with sequencer := q } }

def running : Sequencer :=
  { state := .running, page := 1, snapshot := 1, building := 5, source := 10, target := 20, inProgress := true }

theorem test_commitSegment : (after .commitSegmentIssue (committing running demo)).port.engineQueue =
    [.readSegment .sequencer 10 0 false] := by decide +kernel

/-- The port with those queues. -/
def withQueues (link engine : List Access) (s : State) : State :=
  { s with port := { s.port with linkQueue := link, engineQueue := engine } }

def someRead : Access := .lineRead 9 11 1 false false
def someSegment : Access := .writeSegment (.slot 0) 13 12 (List.replicate 256 7) false

theorem test_arbiter : (after .arbiterIssue (withQueues [someRead] [someSegment] demo)).port.issueList = [someRead] ∧
    (after .arbiterIssue (withQueues [] [someSegment] demo)).port.issueList = [] := by decide +kernel

theorem test_arbiter_engine : (after .arbiterIssue (after .quietTimerExpiry (withQueues [] [someSegment]
      { demo with port := { demo.port with quiet := .running 900 } }))).port.issueList = [someSegment] ∧
    (after .quietTimerExpiry { demo with port := { demo.port with quiet := .running 900 } }).chip.now = 1400 := by decide +kernel

theorem test_agingClock :
    (after .agingClockExpiry { demo with port := { demo.port with aging := .running 100 } }).port.aging = .aged ∧
    (after .agingClockExpiry { demo with port := { demo.port with aging := .running 100 } }).chip.now = 50100 := by decide +kernel

/-- R150's table. -/
theorem test_banks : bankOf 686 = 3 ∧ rowPositionOf 686 = 86 ∧ bankOf 12 = 3 ∧ rowPositionOf 15 = 3 ∧ bankOf 1020 = 7 ∧
    rowPositionOf 1020 = 124 ∧ rowPositionOf 1023 = 127 := by decide +kernel

/-- §9.8's sequence, from 30 on: bank 3 OPEN at row 4,000, opened at 0, its write ended at 30, a read of row 9,100 waiting. -/
def twoRows (now : Nat) (state : BankState) (delay : Nat) : State :=
  { demo with
    chip := { demo.chip with now := now }
    port := { demo.port with
      issueList := [.lineRead 9 9100 686 false false], lastDirection := some .write, turnaroundUntil := 38
      banks := [(3, { state := state, lastOpen := some 0, lastWrite := some 30, minimumOpenUntil := 40
                      rowCycleUntil := 60, writeRecoveryUntil := 45, delayUntil := delay })] } }

theorem test_bankClose : after (.bankCloseStart 3) (twoRows 40 (.opened 4000) 15) = twoRows 40 (.opened 4000) 15 ∧
    after (.bankCloseStart 3) (twoRows 45 (.opened 4000) 15) = twoRows 45 .closing 60 ∧
    after (.closeDelayExpiry 3) (twoRows 45 .closing 60) = twoRows 60 .idle 60 := by decide +kernel

theorem test_bankOpen : after (.bankOpenStart 3) (twoRows 59 .idle 60) = twoRows 59 .idle 60 ∧
    ((after (.bankOpenStart 3) (twoRows 60 .idle 60)).port.bank 3).state = .opening 9100 ∧
    ((after (.bankOpenStart 3) (twoRows 60 .idle 60)).port.bank 3).delayUntil = 75 ∧
    ((after (.bankOpenStart 3) (twoRows 60 .idle 60)).port.bank 3).minimumOpenUntil = 100 ∧
    ((after (.bankOpenStart 3) (twoRows 60 .idle 60)).port.bank 3).rowCycleUntil = 120 := by decide +kernel

theorem test_bankExpiries : after (.openDelayExpiry 3) (twoRows 60 (.opening 9100) 75) = twoRows 75 (.opened 9100) 75 ∧
    (after (.rowCycleExpiry 3) (twoRows 45 .closing 60)).chip.now = 60 ∧
    (after (.minimumOpenExpiry 3) (twoRows 30 (.opened 4000) 15)).chip.now = 40 ∧
    (after (.writeRecoveryExpiry 3) (twoRows 40 (.opened 4000) 15)).chip.now = 45 ∧
    (after .turnaroundExpiry (twoRows 30 (.opened 4000) 15)).chip.now = 38 := by decide +kernel

theorem test_transferStart : (after .transferStart (twoRows 75 (.opened 9100) 75)).port.transferring = true ∧
    (after .transferStart (twoRows 37 (.opened 9100) 15)).port.transferring = false ∧
    (after .transferStart (twoRows 75 (.opened 4000) 15)).port.transferring = false := by decide +kernel

/-- Four bytes of a line write, two of them enabled, at strip 11, line 1. -/
theorem test_transferEnd :
    (after .transferEnd (transferring (.lineWrite 11 1 [5, 6, 7, 8] 0b1010 none) demo)).memory =
      [(720961, 6), (720963, 8)] ∧
    ((after .transferEnd (transferring (.lineWrite 11 1 [5, 6, 7, 8] 0b1010 none) demo)).port.bank 0).lastWrite =
      some 1000 := by decide +kernel

/-- §4.7: the bytes of line 686 of page 5,230, by their stored values. -/
def record5230 : Restoration := ⟨5230, 3000, 4096, 5000, 38, 212, 2, [⟨2900, 5, 2950, 12, 240⟩, ⟨2948, 8, 2960, 20, 10⟩]⟩

def curve2 : Restore := { curves := [(512 + 43, 49), (512 + 120, 131), (512 + 237, 246)] }

theorem test_transform : ([(0, 9), (3, 9), (4, 9), (6, 9), (7, 9), (16, 9), (17, 120), (18, 200), (19, 38), (20, 230), (21, 39),
      (22, 67), (56, 120), (63, 120)] : List (Nat × Nat)).map
      (fun e => (curve2.transformByte record5230 (pageOffset 0 686 + e.1) (BitVec.ofNat 8 e.2)).toNat) =
    [240, 240, 240, 240, 10, 10, 131, 246, 0, 255, 1, 49, 255, 255] := by decide +kernel

/-! ### The management link -/

theorem test_transaction : (after (.managementTransactionStart 1) demo).management.shiftOut = [0] ∧
    (after (.managementTransactionStart 1) (after .identify demo)).management.shiftOut = [3] ∧
    (after (.managementTransactionStart 2) (after .identify demo)).management.shiftOut = [2] ∧
    (after (.otherTransaction 2) (after (.managementTransactionStart 9) demo)).management.shiftOut = [0, 0, 0] := by decide +kernel

theorem test_commandFrame :
    (after (.commandFrame [12, 0, 2, 0, 5]) (after (.managementTransactionStart 1) demo)).management.phase =
      .taking (.retirePage 5) ∧
    (after (.commandFrame [12, 0, 1, 5]) (after (.managementTransactionStart 1) demo)).management.buffer = [17, 0, 0] := by
  decide +kernel

theorem test_responseTransaction :
    (after (.responseTransaction 4) (after .closeEdition demo)).management.shiftOut = [2, 1, 0, 0, 0] ∧
    (after (.responseTransaction 4) (after .closeEdition demo)).management.phase = .idle ∧
    (after (.responseTransaction 2) (after .closeEdition demo)).management.phase = .pending ∧
    (after (.responseTransaction 3) demo).management.shiftOut = [0, 2, 0, 0] := by decide +kernel

/-! ### The management commands: the status codes at the ends of each range, and one report or effect of each -/

theorem test_identify : reply .identify demo = [0, 0, 28, 22, 209, 2, 228, 1, 0, 128, 0, 16, 1, 0, 0, 32, 0, 4, 16, 4, 0, 8,
    1, 0, 64, 128, 4, 0, 32, 32, 32] := by decide +kernel

theorem test_readStatus : reply .readStatus demo = [0, 0, 40, 0, 0, 128, 0, 1, 0, 0, 6, 0, 0, 6, 0, 0, 3, 0, 0, 2, 31, 251,
    4, 0, 3, 255, 0, 0, 0, 0, 0, 0, 0, 0, 0, 0, 0, 0, 0, 0, 0, 0, 0] := by decide +kernel

/-- A charge record of job 1 in the log. -/
def logged (n : Nat) (s : State) : State :=
  { s with log := { s.log with
      charges := (List.range n).map fun k => ⟨BitVec.ofNat 32 k, 1000, 1, 1, 5, 100, 1, false, 0⟩
      nextSequence := BitVec.ofNat 32 n } }

theorem test_resetEngine : statuses demo [.resetEngine] = [1] ∧ statuses (logged 1 demo) [.resetEngine] = [13] ∧
    ((after .resetEngine demo).link.tag 9).answer = some ⟨.unmapped, List.replicate 64 0⟩ ∧
    (after .resetEngine demo).store.freeQueue = [] ∧ (after .resetEngine demo).chip.inInit = true := by decide +kernel

theorem test_setLinkOrder : statuses demo [.setLinkOrder 0, .setLinkOrder 1, .setLinkOrder 2] = [0, 0, 6] := by decide +kernel

/-- R189: what is answered during INIT. -/
theorem test_duringInit : statuses State.reset [.identify, .readStatus, .readEvents, .enableEvents 1, .openEdition 1,
    .resetEngine, .readFaults] = [0, 0, 0, 0, 3, 3, 3] := by decide +kernel

theorem test_setAperture_range : statuses demo [.setAperture 15 1 3 16777215 1 63 255, .setAperture 16 0 0 0 0 0 0,
    .setAperture 0 2 0 0 0 0 0, .setAperture 0 0 5 0 0 0 0, .setAperture 0 0 0 16777216 0 0 0,
    .setAperture 0 0 0 0 2 0 0, .setAperture 0 0 0 0 0 64 0, .setAperture 0 1 4 0 0 2 0, .setAperture 0 1 4 0 0 1 0] =
    [0, 6, 6, 6, 6, 6, 6, 4, 0] := by decide +kernel

theorem test_setAperture_canonical : (after (.setAperture 9 1 2 812 1 5 17) demo).aperture 9 =
      ⟨.enabled, .historic, some 812, false, 0, 224⟩ ∧
    (after (.setAperture 9 1 3 0 0 5 17) demo).aperture 9 = ⟨.enabled, .restored, none, true, 0, 224⟩ ∧
    (after (.setAperture 9 1 4 0 1 1 17) demo).aperture 9 = ⟨.enabled, .reprint, none, true, 1, 17⟩ := by decide +kernel

theorem test_readAperture : reply (.readAperture 4) demo = [0, 0, 8, 1, 4, 0, 0, 0, 1, 1, 9] ∧
    reply (.readAperture 2) demo = [0, 0, 8, 1, 2, 0, 0, 5, 0, 0, 224] ∧
    statuses demo [.readAperture 15, .readAperture 16] = [0, 6] := by decide +kernel

theorem test_createPage_range : statuses demo [.createPage 65535 1 31 131071 16777215 0, .createPage 65536 0 0 0 1 0,
    .createPage 9 2 0 0 1 0, .createPage 9 0 32 0 1 0, .createPage 9 0 0 131072 1 0, .createPage 9 0 0 0 0 0,
    .createPage 9 0 0 0 16777216 0, .createPage 9 0 0 0 1 2] = [0, 6, 6, 6, 6, 6, 6, 6] := by decide +kernel

theorem test_createPage_order : statuses demo [.createPage 1 0 0 0 1 0, .createPage 9 0 0 0 7 1, .createPage 9 0 0 0 6 1,
    .createPage 9 0 0 0 5 1, .createPage 9 0 0 0 7 0] = [8, 5, 5, 0, 0] := by decide +kernel

theorem test_finishLoad : statuses demo [.finishLoad 65536, .finishLoad 65535, .finishLoad 1, .finishLoad 2] = [6, 4, 4, 0] ∧
    ((after (.finishLoad 2) demo).store.page 2).state = .live := by decide +kernel

theorem test_setEmbargo : statuses demo [.setEmbargo 1 131071, .setEmbargo 1 131072, .setEmbargo 1 16777214,
    .setEmbargo 1 16777215, .setEmbargo 65536 0, .setEmbargo 65535 0] = [0, 6, 6, 0, 6, 7] ∧
    ((after (.setEmbargo 4 16777215) demo).store.page 4).embargo = none := by decide +kernel

theorem test_setRateClass : statuses demo [.setRateClass 1 31, .setRateClass 1 32, .setRateClass 65536 0,
    .setRateClass 65535 0] = [0, 6, 6, 7] := by decide +kernel

theorem test_discardVersion : statuses demo [.discardVersion 65536 0, .discardVersion 1 8192, .discardVersion 65535 0,
    .discardVersion 1 8191, .discardVersion 6 0, .discardVersion 3 2, .discardVersion 5 4, .discardVersion 1 0] =
    [6, 6, 7, 7, 7, 4, 9, 0] ∧ statuses (withQueues [someRead] [] demo) [.discardVersion 1 1] = [3] := by decide +kernel

theorem test_discardVersion_effect : (after (.discardVersion 1 0) demo).store.freeQueue = [20, 21, 22, 10] ∧
    ((after (.discardVersion 1 0) demo).store.page 1).chain = [1] ∧
    Table.read (after (.discardVersion 1 0) demo).store.strips 10 = none := by decide +kernel

theorem test_retirePage : statuses demo [.retirePage 65536, .retirePage 65535, .retirePage 3, .retirePage 5, .retirePage 1] =
    [6, 7, 4, 9, 0] ∧ statuses (withQueues [someRead] [] demo) [.retirePage 1] = [3] := by decide +kernel

theorem test_retirePage_effect : (after (.retirePage 1) demo).store.freeQueue = [20, 21, 22, 11, 10] ∧
    (after (.retirePage 1) demo).store.page 1 = ({} : Page) ∧ (after (.retirePage 1) demo).restore.records = [] := by decide +kernel

theorem test_readPage : reply (.readPage 1) demo = [0, 0, 37, 2, 0, 0, 0, 1, 14, 0, 0, 5, 255, 255, 255, 1, 0, 0, 0, 0, 0, 2,
    0, 1, 2, 0, 0, 5, 1, 0, 1, 0, 0, 0, 0, 0, 5, 1, 0, 1] ∧ statuses demo [.readPage 65535, .readPage 65536] = [0, 6] := by
  decide +kernel

theorem test_setStoreReserve : statuses demo [.setStoreReserve 16384, .setStoreReserve 16385] = [0, 6] ∧
    (after (.setStoreReserve 3) demo).reports.statuses.storeLow = true ∧
    (after (.setStoreReserve 2) demo).reports.statuses.storeLow = false := by decide +kernel

def noEdition (s : State) : State := { s with store := { s.store with edition := .none } }

theorem test_openEdition : statuses demo [.openEdition 0, .openEdition 16777216, .openEdition 7] = [6, 6, 3] ∧
    statuses (noEdition demo) [.openEdition 6, .openEdition 7, .openEdition 16777215] = [5, 0, 0] := by decide +kernel

theorem test_closeEdition : statuses demo [.closeEdition] = [1] ∧ statuses (noEdition demo) [.closeEdition] = [4] ∧
    (after .closeEdition demo).store.edition = .closing 6 ∧
    (after .closeEdition { demo with store := { demo.store with copies := [] } }).store.edition = .none := by decide +kernel

theorem test_writeRestoration_range : statuses demo [.writeRestoration 6 64 64 524288 0 1 0,
    .writeRestoration 6 65536 65536 512 254 255 7, .writeRestoration 6 65536 65536 513 254 255 7,
    .writeRestoration 6 1 63 1 0 1 0, .writeRestoration 6 1 65600 1 0 1 0, .writeRestoration 6 1 100 1 0 1 0,
    .writeRestoration 6 0 64 1 0 1 0, .writeRestoration 6 65 64 1 0 1 0, .writeRestoration 6 1 64 0 0 1 0,
    .writeRestoration 6 1 64 524289 0 1 0, .writeRestoration 6 1 64 1 255 256 0, .writeRestoration 6 1 64 1 9 9 0,
    .writeRestoration 6 1 64 1 0 256 0, .writeRestoration 6 1 64 1 0 1 8, .writeRestoration 65536 1 64 1 0 1 0] =
    [0, 0, 6, 6, 6, 6, 6, 6, 6, 6, 6, 6, 6, 6, 6] := by decide +kernel

theorem test_writeRestoration : statuses demo [.writeRestoration 0 1 64 1 0 1 0, .writeRestoration 1 5 64 1 0 1 0,
    .writeRestoration 1 6 64 1 0 1 0] = [7, 6, 0] ∧ statuses (committing running demo) [.writeRestoration 1 6 64 1 0 1 0] =
    [3] ∧ ((after (.writeRestoration 6 1 64 1 0 1 0) demo).store.page 6).record = some 1 := by decide +kernel

/-- Page 1's record with `n` defects. -/
def withDefects (n : Nat) (s : State) : State :=
  { s with restore := { s.restore with
      records := [(0, ⟨1, 100, 128, 10, 10, 200, 0, List.replicate n ⟨3, 0, 5, 0, 255⟩⟩)] } }

theorem test_addDefect : statuses demo [.addDefect 1 0 0 99 9 255, .addDefect 1 0 0 100 9 0, .addDefect 1 0 0 99 10 0,
    .addDefect 1 9 0 8 9 0, .addDefect 1 0 9 9 8 0, .addDefect 65536 0 0 0 0 0, .addDefect 1 65536 0 0 0 0,
    .addDefect 1 0 524288 0 0 0, .addDefect 1 0 0 65536 0 0, .addDefect 1 0 0 0 524288 0, .addDefect 1 0 0 0 0 256,
    .addDefect 5 0 0 0 0 0, .addDefect 65535 65535 524287 65535 524287 255] = [0, 6, 6, 6, 6, 6, 6, 6, 6, 6, 6, 7, 7] ∧
    statuses (withDefects 31 demo) [.addDefect 1 0 0 0 0 0] = [0] ∧
    statuses (withDefects 32 demo) [.addDefect 1 0 0 0 0 0] = [11] := by decide +kernel

theorem test_clearAndDetach : statuses demo [.clearDefects 1, .clearDefects 5, .clearDefects 65536, .detachRestoration 1,
    .detachRestoration 5, .detachRestoration 65536] = [0, 7, 6, 0, 7, 6] ∧
    statuses (committing running demo) [.detachRestoration 1, .clearDefects 1] = [3, 0] := by decide +kernel

theorem test_loadCurve : statuses demo [.loadCurve 7 3 (List.replicate 64 9), .loadCurve 8 0 (List.replicate 64 9),
    .loadCurve 0 4 (List.replicate 64 9), .loadCurve 0 0 (List.replicate 63 9), .loadCurve 0 0 (List.replicate 65 9)] =
    [0, 6, 6, 6, 6] ∧ (after (.loadCurve 7 3 (List.replicate 64 9)) demo).restore.curveEntry 7 192 = 9 ∧
    (after (.loadCurve 7 3 (List.replicate 64 9)) demo).restore.curveEntry 7 191 = 191 := by decide +kernel

theorem test_readRestoration : reply (.readRestoration 1) demo =
    [0, 0, 28, 0, 0, 0, 1, 0, 0, 100, 0, 0, 128, 0, 0, 10, 10, 200, 0, 1, 0, 3, 0, 0, 0, 0, 5, 0, 0, 0, 255] ∧
    statuses demo [.readRestoration 5, .readRestoration 65536] = [7, 6] := by decide +kernel

/-- A free choice of the restoration unit's events has been met. -/
def counted (s : State) : State := { s with restore := { s.restore with occasions := s.restore.occasions + 1 } }

/-- Page 1's commit has begun, and its examination is due. -/
def begun : State := counted (demo.beginCommit 1 5 ⟨1, .restored, 5, .locked, [(0, 11)]⟩)

set_option maxRecDepth 100000 in
/-- The first examination of a commit comes at once or later, as the free choice has it (assumptions 28, 36). -/
theorem test_commitRestoration :
    statuses demo [.commitRestoration 65536, .commitRestoration 65535, .commitRestoration 5] = [6, 7, 7] ∧
    statuses (committing running demo) [.commitRestoration 1] = [3] ∧
    after (.commitRestoration 1) demo =
      (if Config.restorationFallsLater 0 then begun else begun.examine).respond .accepted [] ∧
    begun.restore.sequencer.state = .running ∧ begun.store.freeQueue = [20, 21, 22] ∧
    begun.examine.restore.sequencer = { running with target := 20 } ∧ begun.examine.store.freeQueue = [21, 22] :=
  ⟨by decide +kernel, by decide +kernel, rfl, by decide +kernel, by decide +kernel, by decide +kernel, by decide +kernel⟩

theorem test_abortCommit : statuses demo [.abortCommit] = [4] ∧ statuses (committing running demo) [.abortCommit] = [1] ∧
    (after .abortCommit (committing running demo)).restore.sequencer = { outcome := .aborted 1 } ∧
    (after .abortCommit (committing running demo)).store.freeQueue = [21, 22, 20] := by decide +kernel

/-- R101: the commit runs with its allocation owed; the strip is taken before the abort, and goes back to the tail. R100: the
last write segment's end completes the commit at once, whatever the free choice. -/
theorem test_commitEnds : begun.owesStrip = true ∧ (after .abortCommit begun).store.freeQueue = [21, 22, 20] ∧
    (after .abortCommit begun).restore.sequencer = { outcome := .aborted 1 } ∧
    (after .transferEnd (transferring (.writeSegment .sequencer 20 1020 [] false)
      (committing { running with cursor := 511, nextLine := 1020, phase := .write } demo))).restore.sequencer =
        { outcome := .completed 1 5 } := by decide +kernel

theorem test_accounts : statuses demo [.openAccount 255, .openAccount 256, .openAccount 1, .suspendAccount 1,
    .suspendAccount 2, .suspendAccount 256, .resumeAccount 2, .resumeAccount 1, .resumeAccount 256, .closeAccount 1,
    .closeAccount 3, .closeAccount 256] = [0, 6, 4, 0, 4, 6, 0, 4, 6, 10, 4, 6] ∧
    (after (.closeAccount 3) (after (.responseTransaction 3) (after (.openAccount 3) demo))).management.buffer =
      [0, 0, 0] := by decide +kernel

theorem test_creditAccount : statuses demo [.creditAccount 1 0, .creditAccount 1 4294967296, .creditAccount 256 1,
    .creditAccount 3 1, .creditAccount 1 4294966395, .creditAccount 1 4294966396] = [6, 6, 6, 4, 0, 12] ∧
    ((after (.creditAccount 1 50) demo).meter.account 1).credited = 1050 := by decide +kernel

theorem test_setDiscount : statuses demo [.setDiscount 1 1 128 100 100, .setDiscount 1 0 128 0 0, .setDiscount 1 128 129 0 0,
    .setDiscount 1 9 9 0 0, .setDiscount 3 1 2 0 0, .setDiscount 256 1 2 0 0] = [0, 6, 6, 6, 4, 6] ∧
    ((after (.setDiscount 1 10 50 101 30) demo).meter.account 1).d1 = 100 := by decide +kernel

theorem test_readAccount : reply (.readAccount 1) demo = [0, 0, 26, 1, 0, 0, 3, 132, 0, 0, 0, 0, 0, 0, 3, 232, 0, 0, 0, 0, 0, 0,
    0, 100, 64, 128, 10, 20, 2] ∧ statuses demo [.readAccount 255, .readAccount 256] = [0, 6] := by decide +kernel

theorem test_jobs : statuses demo [.openJob 63 1 4294967295, .openJob 64 1 0, .openJob 0 256 0, .openJob 0 1 4294967296,
    .openJob 1 1 0, .openJob 0 3 0, .openJob 0 2 0, .closeJob 1, .closeJob 2, .closeJob 64, .freeJob 2, .freeJob 1,
    .freeJob 64] = [0, 6, 6, 6, 4, 7, 4, 0, 4, 6, 10, 4, 6] ∧
    ((after (.openJob 63 1 7) demo).meter.account 1).jobs = 3 := by decide +kernel

theorem test_freeJob : ((after (.freeJob 2) { demo with apertures := [] }).meter.account 1).jobs = 1 ∧
    ((after (.freeJob 2) { demo with apertures := [] }).meter.job 2).state = .free := by decide +kernel

theorem test_readJob : reply (.readJob 1 0) demo = [0, 0, 25, 1, 1, 0, 0, 1, 244, 0, 0, 0, 100, 0, 0, 0, 0, 0, 0, 0, 0, 1,
    0, 5, 0, 0, 100, 1] ∧ statuses demo [.readJob 63 7, .readJob 64 0, .readJob 1 8] = [0, 6, 6] := by decide +kernel

theorem test_tariff : statuses demo [.setDate 1000, .setDate 999, .setDate 131071, .setDate 131072, .setBands 0 1 255,
    .setBands 1 1 2, .setBands 0 2 2, .setBands 0 1 256, .setRate 31 0 0 0 65535, .setRate 32 0 0 0 0,
    .setRate 0 65536 0 0 0, .setSurcharge 255, .setSurcharge 256, .readTariff 31, .readTariff 32] =
    [0, 5, 0, 6, 0, 6, 6, 6, 0, 6, 6, 0, 6, 0, 6] ∧ (after (.setSurcharge 101) demo).meter.surcharge = 100 := by decide +kernel

theorem test_readTariff : reply (.readTariff 1) demo = [0, 0, 15, 0, 3, 232, 1, 25, 75, 25, 255, 255, 1, 144, 2, 88, 255, 255] ∧
    (after (.setRate 1 1 2 3 4) demo).meter.rates = [(1, 300), (4, 1), (5, 2), (6, 3), (7, 4)] := by decide +kernel

theorem test_readCharges : statuses (logged 9 demo) [.readCharges 0, .readCharges 1, .readCharges 8, .readCharges 9] =
    [6, 0, 0, 6] ∧ (after (.readCharges 8) (logged 9 demo)).log.charges.length = 1 ∧
    reply (.readCharges 1) (logged 1 demo) =
      [0, 0, 23, 1, 0, 0, 0, 0, 0, 3, 232, 1, 1, 0, 5, 0, 0, 100, 1, 0, 0, 0, 0, 0, 0, 1] := by decide +kernel

theorem test_setLogMode : statuses demo [.setLogMode 1 0, .setLogMode 1024 1, .setLogMode 0 0, .setLogMode 1025 0,
    .setLogMode 1 2] = [0, 0, 6, 6, 6] ∧ (after (.setLogMode 9 0) (logged 9 demo)).reports.statuses.logReady = true := by
  decide +kernel

theorem test_setStoreTiming : (after (.setStoreTiming 0 101 0 0 0 0) demo).port.timing = ⟨5, 100, 10, 110, 5, 1⟩ ∧
    (after (.setStoreTiming 101 0 201 301 101 51) demo).port.timing = ⟨100, 5, 200, 300, 100, 50⟩ := by decide +kernel

theorem test_setArbiter : (after (.setArbiter 10001 0) demo).port.quietTime = 10000 ∧
    (after (.setArbiter 10001 0) demo).port.agingLimit = 1 ∧
    (after (.setArbiter 100 0) { demo with port := { demo.port with quiet := .running 900 } }).port.quiet = .expired ∧
    (after (.setArbiter 101 0) { demo with port := { demo.port with quiet := .running 900 } }).port.quiet = .running 900 := by
  decide +kernel

theorem test_setPagePolicy : statuses demo [.setPagePolicy 0, .setPagePolicy 1, .setPagePolicy 2] = [0, 0, 6] ∧
    ((after (.setPagePolicy 1) (twoRows 30 (.opened 4000) 15)).port.bank 3).closeDue = .byPolicy ∧
    ((after (.setPagePolicy 1) (twoRows 30 (.opened 9100) 15)).port.bank 3).closeDue = .none := by decide +kernel

/-- Bank 0 OPEN at row 11 with a close due, and a read of that row at the head of the link-side queue. -/
def closing (due : CloseDue) : State :=
  withQueues [someRead] [] { demo with port := { demo.port with banks := [(0, { state := .opened 11, closeDue := due })] } }

/-- R160, R164: an access for the open row cancels a close that the end of a transfer made due, and no other. -/
theorem test_policyClose : ((after .arbiterIssue (closing .byTransfer)).port.bank 0).closeDue = .none ∧
    ((after .arbiterIssue (closing .byPolicy)).port.bank 0).closeDue = .byPolicy := by decide +kernel

theorem test_readStoreSettings : reply .readStoreSettings (twoRows 30 (.opened 4000) 15) = [0, 0, 26, 15, 15, 40, 0, 60, 15, 8,
    0, 1, 244, 0, 50, 0, 0, 0, 2, 0, 15, 160, 0, 0, 0, 0, 0, 0, 1] := by decide +kernel

def someFault : FaultRecord := ⟨.protect, 2, 1, 4, 9, 6, 1⟩

theorem test_readFaults : reply .readFaults { demo with reports := { faults := List.replicate 5 someFault } } =
    [0, 0, 54, 4] ++ (List.replicate 4 [1, 2, 0, 1, 0, 4, 0, 9, 0, 0, 6, 0, 1]).flatten ++ [1] := by decide +kernel

/-- R171: the merge with the newest record, the append, and the loss. -/
theorem test_offer : (Reports.offer { faults := [someFault] } someFault).faults = [{ someFault with repeats := 2 }] ∧
    (Reports.offer { faults := [someFault] } { someFault with page := 2 }).faults.length = 2 ∧
    (Reports.offer { faults := List.replicate 32 someFault } { someFault with page := 2 }).statuses.faultsLost = true := by
  decide +kernel

theorem test_events : (after (.enableEvents 129) (after (.readDecode 2) demo)).alert = true ∧
    (after (.enableEvents 127) (after (.readDecode 2) demo)).alert = false ∧
    (after (.ackEvents 32) { demo with reports := { statuses := { fault := true, logReady := true } } }).reports.statuses =
      { logReady := true } ∧
    (after (.ackEvents 128) { demo with reports := { statuses := { logReady := true } } }).reports.statuses =
      { logReady := true } := by decide +kernel

theorem test_jobEvents : statuses demo [.enableJobEvents 63 7, .enableJobEvents 64 7, .ackJobEvents 63 7,
    .ackJobEvents 64 7] = [0, 6, 0, 6] ∧
    ((after (.enableJobEvents 1 1) (after (.readDecode 2) demo)).reports.jobOf 1).mask = 9 ∧
    (after (.enableJobEvents 1 1) (after (.readDecode 2) demo)).reports.statusMask = 640 := by decide +kernel

theorem test_readEvents : reply .readEvents demo = [0, 0, 69] ++ List.replicate 69 0 := by decide +kernel

/-! ### Witnesses: states and operands that meet the hypotheses of the statements, clause by clause -/

theorem witness_EveryStepCompletes : State.reset.pending = [] := rfl

theorem witness_ResetPinHeld : (after .resetPinAssert demo).chip.resetPin = true ∧
    (∀ pins, Instr.commandFrame [1, 0, 0] ≠ .powerOn pins) ∧ Instr.commandFrame [1, 0, 0] ≠ .resetPinAssert :=
  ⟨rfl, fun _ => nofun, nofun⟩

theorem witness_InitBuildsQueue : demo.chip.resetPin = false ∧ demo.chip.inInit = false ∧
    State.reset.chip.resetPin = false ∧ State.reset.chip.inInit = true ∧
    State.reset.store.freeQueue.length + 1 < State.reset.chip.strips ∧
    ¬ ((State.powerOn 1 0 0).store.freeQueue.length + 1 < (State.powerOn 1 0 0).chip.strips) ∧
    1 ≤ 1 ∧ 32768 ≤ 32768 * 2 ^ (0 : Fin 4).val := by decide

theorem witness_AddressSplit : 1023 < 1024 ∧ 0 < 1024 ∧ bankOf 991 = bankOf 1023 ∧ rowPositionOf 991 ≠ rowPositionOf 1023 ∧
    1020 % 4 = 0 ∧ 1020 + 3 < 1024 := by decide

/-- All 32 entries of the write buffer in use, and one free. -/
def buffered (n : Nat) : State :=
  { demo with link := { demo.link with writeBuffer := List.replicate n freshWrite, writeCredits := 32 - n } }

theorem witness_LineRequestsArrive : demo.chip.resetPin = false ∧ State.reset.link.linkUp = false ∧
    demo.link.linkUp = true ∧ (demo.link.tag 0).state ≠ .free ∧ (demo.link.tag 31).state = .free ∧
    demo.PendingWrite (addressKey (place 9 3 3 5)) ∧ ¬ demo.PendingWrite (addressKey (place 9 3 3 6)) ∧
    (buffered 32).chip.resetPin = false ∧ (buffered 32).link.linkUp = true ∧ 32 ≤ (buffered 32).link.writeBuffer.length ∧
    (buffered 31).link.linkUp = true ∧ (buffered 31).link.writeBuffer.length < 32 := by
  unfold State.PendingWrite
  decide

theorem witness_ArchiveLinkGoesDownAndUp : (withQueues [someRead] [] demo).link.linkUp = true ∧
    (after .archiveLinkDown (withQueues [someRead] [] demo)).port.linkQueue = [] ∧
    (withQueues [someRead] [] demo).port.linkQueue ≠ [] ∧ demo.port.linkQueue = [] ∧
    (transferring someRead demo).port.issueList[0]? = some someRead ∧ State.reset.link.linkUp = false := by decide

theorem witness_ReadDataIsSent : demo.link.sending = none ∧ demo.link.readyOrder = [[8]] ∧ 8 ∈ ([8] : List (Fin 32)) ∧
    (demo.link.tag 8).state = .ready ∧ (demo.link.tag 8).answer ≠ none ∧
    (after (.readDataStart 8) demo).link.sending ≠ none ∧ (demo.link.tag 9).state ≠ .ready := by decide

theorem witness_ReadDecodeUnmapped : (demo.link.tag 1).state = .decoding ∧
    (demo.aperture (addressAperture (demo.link.tag 1).address)).state = .disabled ∧
    (after .resetEngine (withRead (place 0 1 0 3) State.reset)).chip.inInit = true ∧
    ((withRead (place 0 1 0 3) State.reset).link.tag 0).state = .decoding := by decide

/-- Each view, and each end of the walk: a READY strip, a strip filled from BLANK and from a strip, and nothing. -/
theorem witness_ReadDecodeWalks : demo.chip.inInit = false ∧
    ([0, 1, 2, 3, 4].map fun a => (demo.aperture a).state) = List.replicate 5 .enabled ∧
    ([0, 1, 2, 3, 4].map fun a => (demo.aperture a).kind) = [.edition, .load, .historic, .restored, .reprint] ∧
    ([place 0 1 0 3, place 1 1 0 3, place 2 1 0 3, place 3 1 0 3, place 4 5 7 3, place 0 3 1 3, place 0 3 2 3,
      place 0 3 5 3].all fun a => (withRead a demo).link.tag 0 == { state := .decoding, address := a }) = true ∧
    demo.meterDecision true 1 5 = .served ∧ (∀ reason, demo.meterDecision true 1 5 ≠ .withheld reason) ∧
    (∃ c, demo.meterDecision true 1 1 = .charged c) ∧ (∀ reason, demo.meterDecision true 1 1 ≠ .withheld reason) ∧
    walk demo.store.versions none false 0 (demo.store.page 1).chain = some ⟨0, .edition, 10⟩ ∧
    Table.read demo.store.strips 10 = some ⟨.ready, 0, 0⟩ ∧
    walk demo.store.versions none false 1 (demo.store.page 3).chain = some ⟨2, .edition, 13⟩ ∧
    Table.read demo.store.strips 13 = some ⟨.filling (.slot 0), 2, 1⟩ ∧
    (Table.read demo.store.copies 0).map Copy.source = some none ∧
    walk demo.store.versions none false 2 (demo.store.page 3).chain = some ⟨2, .edition, 15⟩ ∧
    (Table.read demo.store.copies 1).map Copy.source = some (some 10) ∧
    walk demo.store.versions none false 5 (demo.store.page 3).chain = none := by
  refine ⟨by decide, by decide, by decide, by decide +kernel, by decide +kernel, ?_, ⟨_, rfl⟩, nofun, by decide +kernel⟩
  rw [show demo.meterDecision true 1 5 = .served by decide +kernel]
  nofun

/-- Page 1's chain through a view that does not prefer restored versions: version 1 is passed over, version 0 ends the walk;
and strip index 1 is in neither. -/
theorem witness_walk : (demo.store.page 1).chain = [1] ++ 0 :: [] ∧
    ViewHolds demo.store.versions none false 0 0 ⟨1, .edition, 5, .locked, [(0, 10)]⟩ 10 ∧
    (∀ m ∈ ([1] : List Nat), ∀ w r, ¬ ViewHolds demo.store.versions none false 0 m w r) ∧
    (∀ n ∈ ([1, 0] : List Nat), ∀ w r, ¬ ViewHolds demo.store.versions none false 1 n w r) := by
  refine ⟨rfl, ⟨rfl, rfl, nofun, nofun⟩, ?_, ?_⟩ <;> simp only [List.mem_cons, List.not_mem_nil, or_false, forall_eq_or_imp, forall_eq]
  · rintro w r ⟨h, -, h2, -⟩; cases h; cases h2 rfl
  · constructor <;> (rintro w r ⟨h, h2, -⟩; cases h; cases h2)

/-- Tag 2's read is charged, tag 5's is served without a charge, and tag 0's is no REPRINT read. -/
theorem witness_charges : demo.Charges (.readDecode 2) ∧ ¬ demo.Charges (.readDecode 5) ∧ ¬ demo.Charges .arbiterIssue := by
  refine ⟨⟨2, _, _, rfl, rfl, rfl, rfl, rfl, rfl, rfl⟩, ?_, ?_⟩
  · rintro ⟨tag, ap, c, h, -, -, rfl, -, -, h2⟩
    cases h
    rw [show demo.meterDecision _ _ _ = .served by decide +kernel] at h2
    cases h2
  · rintro ⟨tag, ap, c, h, -⟩
    cases h
/-- Job 1 with that ceiling, total and charged set size, and account 1 with that balance. -/
def withJob (ceiling total size balance : Nat) : State :=
  { demo with meter := { demo.meter with
      jobs := [(1, { state := .opened, account := 1, ceiling := ceiling, total := total
                     purchases := (List.range size).map fun k => ⟨100 + k, 0, k + 1⟩ })]
      accounts := [(1, { state := .active, balance := balance, d1 := 10, d2 := 20 })] } }

/-- Each check of the metering decision at the value where it turns (R120). -/
theorem witness_MeteringDecisionOrder : demo.meterDecision false 2 6 = .withheld .jobClosed ∧
    demo.meterDecision false 1 0 = .withheld .noPage ∧ demo.meterDecision false 1 5 = .served ∧
    demo.meterDecision false 1 4 = .withheld .embargo ∧
    { demo with meter := { demo.meter with date := 1001 } }.meterDecision false 1 4 ≠ .withheld .embargo ∧
    demo.meterDecision false 3 6 = .withheld .account ∧
    (withJob 900 0 128 900).meterDecision false 1 6 = .withheld .setFull ∧
    (withJob 900 0 127 900).meterDecision false 1 6 = .charged ⟨360, 128, false, 1⟩ ∧
    (withJob 499 100 0 900).meterDecision false 1 6 = .withheld .ceiling ∧
    (withJob 500 100 0 900).meterDecision false 1 6 = .charged ⟨400, 1, false, 0⟩ ∧
    (withJob 500 100 0 399).meterDecision false 1 6 = .withheld .balance ∧
    (withJob 500 100 0 400).meterDecision false 1 6 = .charged ⟨400, 1, false, 0⟩ ∧
    (logged 1024 demo).meterDecision false 1 6 = .withheld .logFull ∧
    (logged 1023 demo).meterDecision false 1 6 = .charged ⟨400, 2, false, 0⟩ := by decide +kernel

theorem witness_ReadDecodeWithheld : (demo.link.tag 6).state = .decoding ∧ demo.chip.inInit = false ∧
    (demo.aperture (addressAperture (demo.link.tag 6).address)).kind = .reprint ∧
    (demo.aperture (addressAperture (demo.link.tag 6).address)).state = .enabled ∧
    demo.meterDecision false 2 (addressKey (demo.link.tag 6).address).page = .withheld .jobClosed := by decide +kernel

theorem witness_ReadDecodeCharged : (demo.link.tag 2).state = .decoding ∧ demo.chip.inInit = false ∧
    (demo.aperture (addressAperture (demo.link.tag 2).address)).kind = .reprint ∧
    (demo.aperture (addressAperture (demo.link.tag 2).address)).state = .enabled ∧
    demo.meterDecision true 1 (addressKey (demo.link.tag 2).address).page = .charged ⟨375, 2, true, 0⟩ := by
  decide +kernel

theorem witness_FeeRoundsOnce : 65535 ≤ 65535 ∧ 100 ≤ 100 ∧ feeOf 65535 100 0 = 131070 := by decide

theorem witness_FeeInputs : demo.chargeFor true 1 1 = ⟨375, 2, true, 0⟩ ∧ demo.chargeFor false 1 1 = ⟨300, 2, false, 0⟩ ∧
    (demo.store.page 1).day ≤ demo.meter.date := by decide

/-- A write of a page and strip through an aperture. -/
def writeTo (aperture page strip : Nat) : HostWrite := ⟨place aperture page strip 9, List.replicate 64 1, 1⟩

/-- The write of `writeTo` at the head of the write buffer. -/
def headed (aperture page strip : Nat) (s : State) : State := withWrite (writeTo aperture page strip) s

/-- Such a write is attempted, in `demo` and whatever its tables hold. -/
theorem headed_attempted (aperture page strip : Nat) (s : State) (h : s.chip.resetPin = false)
    (d : s.link.attemptDue = true) (q : s.port.linkQueue = []) :
    (headed aperture page strip s).Attempted (writeTo aperture page strip) [] :=
  ⟨h, rfl, d, by simp [headed, withWrite, Port.carriedCount, q]⟩

/-- UNMAPPED, PROTECT by each kind, NO EDITION, LATE WRITE, NO PAGE and PAGE STATE of an EDITION and of a LOAD write. -/
theorem witness_DisposalDrops :
    (∀ a p k, (headed a p k demo).Attempted (writeTo a p k) []) ∧
    (∀ a p k, (headed a p k (noEdition demo)).Attempted (writeTo a p k) []) ∧
    (∀ a p k, (headed a p k (after .closeEdition demo)).Attempted (writeTo a p k) []) ∧
    (demo.aperture (addressAperture (writeTo 9 1 4).address)).state = .disabled ∧
    ([2, 3, 4].map fun a => (demo.aperture (addressAperture (writeTo a 1 4).address)).kind) =
      [.historic, .restored, .reprint] ∧
    (demo.aperture (addressAperture (writeTo 0 1 4).address)).kind = .edition ∧
    (demo.aperture (addressAperture (writeTo 1 1 4).address)).kind = .load ∧
    (noEdition demo).store.edition = .none ∧ (after .closeEdition demo).store.edition = .closing 6 ∧
    demo.store.edition = .opened 6 ∧ (demo.store.page (addressKey (writeTo 0 0 4).address).page).state = .absent ∧
    (demo.store.page (addressKey (writeTo 0 2 4).address).page).state = .loading ∧
    (demo.store.page (addressKey (writeTo 1 1 4).address).page).state = .live :=
  ⟨fun _ _ _ => headed_attempted _ _ _ _ rfl rfl rfl, fun _ _ _ => headed_attempted _ _ _ _ rfl rfl rfl,
    fun _ _ _ => headed_attempted _ _ _ _ (by decide) (by decide) (by decide), by decide⟩

/-- An EDITION write to page 1 and to page 3, and a LOAD write to page 2, pass the first four checks. -/
theorem witness_passes (s : State) (h : s.apertures = demo.apertures) (e : s.store.edition = .opened 6)
    (p : s.store.pages = demoPages) :
    (∀ k ∈ [4], (headed 0 1 k s).Passes (writeTo 0 1 k) .edition) ∧
    (∀ k ∈ [0, 1, 3, 9], (headed 0 3 k s).Passes (writeTo 0 3 k) .edition) ∧
    (∀ k ∈ [4], (headed 1 2 k s).Passes (writeTo 1 2 k) .load) := by
  simp only [List.mem_cons, List.not_mem_nil, or_false, forall_eq, forall_eq_or_imp, State.Passes, State.aperture,
    Store.page, headed, withWrite, h, e, p]
  refine ⟨⟨?_, ?_, .inl ⟨?_, ⟨6, ?_⟩, ?_⟩⟩, ⟨⟨?_, ?_, .inl ⟨?_, ⟨6, ?_⟩, ?_⟩⟩, ⟨?_, ?_, .inl ⟨?_, ⟨6, ?_⟩, ?_⟩⟩,
    ⟨?_, ?_, .inl ⟨?_, ⟨6, ?_⟩, ?_⟩⟩, ⟨?_, ?_, .inl ⟨?_, ⟨6, ?_⟩, ?_⟩⟩⟩, ⟨?_, ?_, .inr ⟨?_, ?_⟩⟩⟩
  all_goals decide

theorem witness_DisposalWithoutEffect :
    (withWrite ⟨place 0 1 4 9, List.replicate 64 1, 0⟩ demo).Passes ⟨place 0 1 4 9, List.replicate 64 1, 0⟩ .edition ∧
    (withWrite ⟨place 0 1 4 9, List.replicate 64 1, 0⟩ demo).Attempted ⟨place 0 1 4 9, List.replicate 64 1, 0⟩ [] ∧
    64 ≤ (withQueues (List.replicate 64 (.lineWrite 10 0 [] 0 none)) [] demo).port.carriedCount ∧
    demo.link.writeBuffer = [] :=
  ⟨⟨rfl, rfl, .inl ⟨rfl, ⟨6, rfl⟩, rfl⟩⟩, ⟨rfl, rfl, rfl, by decide⟩, by decide +kernel, rfl⟩

/-- The hold queue full. -/
def fullHold (s : State) : State :=
  { s with store := { s.store with holdQueue := List.replicate 16 ⟨freshWrite, 2, true⟩ } }

/-- Page 3's head is OPEN; its strips 0, 1 and 3 are READY, in copy, and in copy with every segment written. -/
theorem witness_DisposalToHeldStrip :
    (∀ k, (headed 0 3 k demo).Attempted (writeTo 0 3 k) [] ∧
      (headed 0 3 k (fullHold demo)).Attempted (writeTo 0 3 k) [] ∧ (writeTo 0 3 k).enables ≠ 0) ∧
    (∀ k ∈ [0, 1, 3, 9], (headed 0 3 k demo).Passes (writeTo 0 3 k) .edition) ∧
    (∀ k ∈ [0, 1, 3, 9], (headed 0 3 k (fullHold demo)).Passes (writeTo 0 3 k) .edition) ∧
    ([0, 1, 3].map fun k => (addressKey (writeTo 0 3 k).address)) = [⟨3, 0, 9⟩, ⟨3, 1, 9⟩, ⟨3, 3, 9⟩] ∧
    demo.store.head 3 = some ⟨3, .edition, 6, .openLock, [(0, 12), (1, 13), (2, 15), (3, 16)]⟩ ∧
    Table.read demo.store.strips 12 = some ⟨.ready, 2, 0⟩ ∧
    Table.read demo.store.strips 13 = some ⟨.filling (.slot 0), 2, 1⟩ ∧
    Table.read demo.store.strips 16 = some ⟨.filling (.slot 2), 2, 3⟩ ∧
    (Table.read demo.store.copies 2).map Copy.nextLine = some 1024 ∧
    (Table.read demo.store.copies 0).map Copy.nextLine = some 0 ∧ demo.store.holdQueue.length < 16 ∧
    16 ≤ (fullHold demo).store.holdQueue.length :=
  ⟨fun _ => ⟨headed_attempted _ _ _ _ rfl rfl rfl, headed_attempted _ _ _ _ rfl rfl rfl, by simp [writeTo]⟩,
    (witness_passes demo rfl rfl rfl).2.1, (witness_passes (fullHold demo) rfl rfl rfl).2.1, by decide⟩

/-- A table with every number of a range in use. -/
theorem full_has {α : Type} (a : α) (count first n : Nat) (h : first ≤ n) (k : n < first + count) :
    Table.has ((List.range' first count).map fun m => (m, a)) n = true := by
  induction count generalizing first with
  | zero => omega
  | succ count ih =>
    by_cases e : first = n
    · subst e; simp [List.range'_succ, Table.has, Table.read]
    · have := ih (first + 1) (by omega) (by omega)
      simpa [List.range'_succ, Table.has, Table.read, e] using this

/-- Page 1's write, with the chain or the version pool full, the free strip queue empty or at the reserve, all four slots
COPYING, or the hold queue full. -/
def fullChain (s : State) : State := { s with store := s.store.setPage 1 { s.store.page 1 with chain := List.replicate 16 1 } }
def fullPool (s : State) : State :=
  { s with store := { s.store with versions := (List.range' 0 8192).map fun m => (m, ⟨1, .edition, 1, .locked, []⟩) } }
def noStrips (s : State) : State := { s with store := { s.store with freeQueue := [] } }
def atReserve (s : State) : State := { s with store := { s.store with reserve := 3 } }
def noSlots (s : State) : State :=
  { s with store := { s.store with copies := [0, 1, 2, 3].map fun k => (k, ⟨none, 13, 3, 1, 0, .none, none, false⟩) } }

/-- Every state of these attempts the write of page 1, and of page 2 through the LOAD aperture, and needs a version. -/
theorem witness_DisposalFreshTests :
    (∀ s ∈ [demo, fullHold demo, fullChain demo, fullPool demo, noStrips demo, atReserve demo, noSlots demo],
      (headed 0 1 4 s).Attempted (writeTo 0 1 4) [] ∧ (headed 1 2 4 s).Attempted (writeTo 1 2 4) []) ∧
    (∀ s ∈ [demo, fullHold demo, fullPool demo, noStrips demo, atReserve demo, noSlots demo],
      (headed 0 1 4 s).Passes (writeTo 0 1 4) .edition ∧ (headed 1 2 4 s).Passes (writeTo 1 2 4) .load) ∧
    (headed 0 1 4 (fullChain demo)).Passes (writeTo 0 1 4) .edition ∧
    (∀ s ∈ [demo, fullHold demo, fullChain demo, noStrips demo, atReserve demo, noSlots demo],
      (headed 0 1 4 s).NeedsFresh ⟨1, 4, 9⟩ ∧ ∀ v, s.store.head 1 = some v → v.lock ≠ .openLock) ∧
    16 ≤ ((fullChain demo).store.page 1).versionCount ∧ (demo.store.page 1).versionCount < 16 ∧
    (∀ n, n < 8192 → Table.has (fullPool demo).store.versions n = true) ∧ Table.has demo.store.versions 5 = false ∧
    (noStrips demo).store.freeQueue = [] ∧ (atReserve demo).store.freeQueue.length ≤ (atReserve demo).store.reserve ∧
    (∀ j : Fin 4, Table.has (noSlots demo).store.copies j.val = true) ∧ 16 ≤ (fullHold demo).store.holdQueue.length := by
  refine ⟨?_, ?_, ⟨by decide, by decide, .inl ⟨rfl, ⟨6, rfl⟩, by decide⟩⟩, ?_, by decide, by decide,
    fun n h => full_has _ _ _ n (Nat.zero_le n) (by omega), by decide, rfl, by decide, by decide, by decide⟩
  · simp only [List.mem_cons, List.not_mem_nil, or_false, forall_eq, forall_eq_or_imp]
    refine ⟨⟨?_, ?_⟩, ⟨?_, ?_⟩, ⟨?_, ?_⟩, ⟨?_, ?_⟩, ⟨?_, ?_⟩, ⟨?_, ?_⟩, ?_, ?_⟩
    all_goals exact headed_attempted _ _ _ _ rfl rfl rfl
  · simp only [List.mem_cons, List.not_mem_nil, or_false, forall_eq, forall_eq_or_imp]
    refine ⟨?_, ?_, ?_, ?_, ?_, ?_⟩
    all_goals exact ⟨(witness_passes _ rfl rfl rfl).1 4 (by decide), (witness_passes _ rfl rfl rfl).2.2 4 (by decide)⟩
  · simp only [List.mem_cons, List.not_mem_nil, or_false, forall_eq, forall_eq_or_imp]
    refine ⟨⟨?_, ?_⟩, ⟨?_, ?_⟩, ⟨?_, ?_⟩, ⟨?_, ?_⟩, ⟨?_, ?_⟩, ?_, ?_⟩
    all_goals (intro v h; cases h; nofun)

/-- A new version for an EDITION write to page 1, page 3's OPEN head for one to it, and a new one for a LOAD write. -/
theorem witness_DisposalStartsCopy :
    (∀ a p k, (headed a p k demo).Attempted (writeTo a p k) []) ∧ (writeTo 0 1 4).enables ≠ 0 ∧
    (headed 0 1 4 demo).Passes (writeTo 0 1 4) .edition ∧ (headed 0 3 9 demo).Passes (writeTo 0 3 9) .edition ∧
    (headed 1 2 4 demo).Passes (writeTo 1 2 4) .load ∧
    (headed 0 1 4 demo).NeedsFresh ⟨1, 4, 9⟩ ∧ (∀ v, demo.store.head 1 = some v → v.lock ≠ .openLock) ∧
    (headed 0 3 9 demo).NeedsFresh ⟨3, 9, 9⟩ ∧ ¬ (∀ v, demo.store.head 3 = some v → v.lock ≠ .openLock) ∧
    (headed 1 2 4 demo).NeedsFresh ⟨2, 4, 9⟩ ∧
    (demo.store.page 1).versionCount < 16 ∧ Table.has demo.store.versions 5 = false ∧
    (∀ m, m < 5 → Table.has demo.store.versions m = true) ∧ (demo.store.page 3).chain.head? = some 2 ∧
    Table.read demo.store.versions 2 = some ⟨3, .edition, 6, .openLock, [(0, 12), (1, 13), (2, 15), (3, 16)]⟩ ∧
    demo.store.freeQueue = 20 :: [21, 22] ∧ demo.store.reserve < demo.store.freeQueue.length ∧
    Table.has demo.store.copies 3 = false ∧ (∀ j : Fin 4, j < 3 → Table.has demo.store.copies j.val = true) ∧
    demo.store.holdQueue.length < 16 :=
  ⟨fun _ _ _ => headed_attempted _ _ _ _ rfl rfl rfl, by decide, (witness_passes demo rfl rfl rfl).1 4 (by decide),
    (witness_passes demo rfl rfl rfl).2.1 9 (by decide), (witness_passes demo rfl rfl rfl).2.2 4 (by decide),
    fun _ h => by cases h; nofun, fun _ h => by cases h; nofun, fun _ h _ => by cases h; rfl, fun h => h _ rfl rfl,
    fun _ h => (by cases h), by decide⟩

theorem witness_FaultOfferTaken : someFault.repeats = 1 ∧
    ({ faults := [someFault] } : Reports).faults = [] ++ [someFault] ∧
    ({ someFault with page := 2 } : FaultRecord).page ≠ someFault.page ∧
    (List.replicate 31 someFault).length < 32 ∧ 32 ≤ (List.replicate 32 someFault).length := by decide

/-- Slot 0 copies from BLANK, slot 1 holds bytes, and with them gone it reads strip 10; a line write to it may be queued. -/
theorem witness_SegmentsIssue :
    Table.read demo.store.copies 0 = some { source := none, target := 13, page := 3, index := 1 } ∧
    Table.read demo.store.copies 1 =
      some ⟨some 10, 15, 3, 2, 1020, .none, some (List.replicate 256 7), false⟩ ∧ demo.port.linkWrites 10 1020 = false ∧
    (withQueues [.lineWrite 10 1023 [] 0 none] [] demo).port.linkWrites 10 1020 = true ∧
    (withQueues [.lineWrite 10 1019 [] 0 none] [] demo).port.linkWrites 10 1020 = false ∧
    (committing running demo).restore.sequencer.state = .running ∧ running.inProgress = true ∧ running.phase = .none ∧
    running.held = none ∧ (committing running demo).port.linkWrites 10 0 = false ∧
    (committing { running with inProgress := false } demo).restore.sequencer.inProgress = false ∧
    { running with phase := .write }.phase ≠ .none ∧ demo.restore.sequencer.state ≠ .running := by decide +kernel

/-- R154: slot 0 started after slot 1, and the sequencer's request is last. -/
theorem witness_requests : RequestsOrdered [1, 0] [.readSegment (.slot 0) 10 0 false, .readSegment .sequencer 10 0 false] ∧
    insertRequest [1, 0] (.readSegment (.slot 1) 10 4 false)
      [.readSegment (.slot 0) 10 0 false, .readSegment .sequencer 10 0 false] =
      [.readSegment (.slot 1) 10 4 false, .readSegment (.slot 0) 10 0 false, .readSegment .sequencer 10 0 false] := by
  refine ⟨?_, by decide⟩
  unfold RequestsOrdered
  simp [Access.engine]

theorem witness_ArbiterIssues : 8 ≤ (List.replicate 8 someRead).length ∧ demo.port.issueList.length < 8 ∧
    (withQueues [someRead] [someSegment] demo).port.linkQueue = someRead :: [] ∧
    ¬ ((withQueues [someRead] [someSegment] demo).port.aging = .aged) ∧
    { (withQueues [someRead] [someSegment] demo).port with aging := .aged }.lastIssueEngine = false ∧
    { (withQueues [] [someSegment] demo).port with quiet := .expired }.linkQueue = [] ∧
    (withQueues [] [someSegment] demo).port.quiet ≠ .expired ∧ demo.port.engineQueue = [] := by decide +kernel

theorem witness_TimersExpire : State.reset.port.quiet = .running 0 ∧
    ({ aging := .running 100 } : Port).aging = .running 100 ∧ State.reset.chip.resetPin = false := by decide

/-- Bank 0 was OPEN at that row when RESET ENGINE was taken. -/
def afterReset (row : Nat) : State :=
  after .resetEngine { demo with port := { demo.port with banks := [(0, { state := .opened row })] } }

/-- R168: after an engine reset an OPEN bank closes, and when it is IDLE the closing is over. -/
theorem test_resetClosing :
    ((after (.bankCloseStart 0) (afterReset 11)).port.bank 0).state = .closing ∧
    (after (.closeDelayExpiry 0) (after (.bankCloseStart 0) (afterReset 11))).port.resetClosing = false := by decide +kernel

/-- Bank 3 of §9.8, at each value where its open or close becomes allowed. -/
theorem witness_BanksOpenAndClose :
    (twoRows 60 .idle 60).port.waitList 3 = [.lineRead 9 9100 686 false false] ∧
    ((twoRows 60 .idle 60).port.bank 3).state = .idle ∧ ((twoRows 60 .idle 60).port.bank 3).rowCycleUntil ≤ 60 ∧
    59 < ((twoRows 59 .idle 60).port.bank 3).rowCycleUntil ∧ demo.port.waitList 3 = [] ∧
    ((twoRows 75 (.opening 9100) 75).port.bank 3).state = .opening 9100 ∧
    ((twoRows 45 (.opened 4000) 15).port.bank 3).state = .opened 4000 ∧ (9100 : Nat) ≠ 4000 ∧
    ((twoRows 45 (.opened 4000) 15).port.bank 3).minimumOpenUntil ≤ 45 ∧
    ((twoRows 45 (.opened 4000) 15).port.bank 3).writeRecoveryUntil ≤ 45 ∧
    44 < ((twoRows 44 (.opened 4000) 15).port.bank 3).writeRecoveryUntil ∧
    39 < ((twoRows 39 (.opened 4000) 15).port.bank 3).minimumOpenUntil ∧
    (transferring someRead demo).port.transferring = true ∧ someRead.bank = 0 ∧
    ((twoRows 60 .closing 60).port.bank 3).state = .closing ∧ ((closing .byTransfer).port.bank 0).closeDue ≠ .none ∧
    ((closing .none).port.bank 0).closeDue = .none ∧ (closing .none).port.waitList 0 = [] ∧
    (closing .none).port.resetClosing = false ∧ (afterReset 11).port.resetClosing = true ∧
    (afterReset 11).port.issueList = [] ∧ ((afterReset 11).port.bank 0).state = .opened 11 := by decide

theorem witness_TransferStarts : (twoRows 75 (.opened 9100) 75).port.issueList = .lineRead 9 9100 686 false false :: [] ∧
    (twoRows 75 (.opened 9100) 75).port.transferring = false ∧
    ((twoRows 75 (.opened 9100) 75).port.bank 3).state = .opened 9100 ∧
    (twoRows 38 (.opened 9100) 15).port.lastDirection = some .write ∧ Direction.write ≠ .read ∧
    (twoRows 38 (.opened 9100) 15).port.turnaroundUntil ≤ 38 ∧ 37 < (twoRows 37 (.opened 9100) 15).port.turnaroundUntil ∧
    ((twoRows 75 (.opened 4000) 15).port.bank 3).state ≠ .opened 9100 ∧
    (transferring someRead demo).port.transferring = true := by decide

/-- Under CLOSE AFTER, a transfer to bank 0, row 11, with an access of that bank for `row` behind it. -/
def underClose (row : Nat) : State :=
  { transferring someRead demo with
    port := { (transferring someRead demo).port with
      policy := .closeAfter, issueList := [someRead, .lineRead 0 row 32 false false] } }

/-- R160: the close becomes due when the next access of the bank is for another row; and R97: the end of a line write lets a
sequencer that waited for it try again. -/
theorem test_transferEnd_after :
    ((after .transferEnd (underClose 12)).port.bank 0).closeDue = .byTransfer ∧
    ((after .transferEnd (underClose 11)).port.bank 0).closeDue = .none ∧
    (after .transferEnd (transferring (.lineWrite 11 1 [5] 1 none)
      (committing { running with blocked := true } demo))).restore.sequencer.blocked = false := by decide +kernel

theorem witness_TransferEnds : (transferring someRead demo).port.transferring = true ∧
    (transferring someRead demo).port.issueList = someRead :: [] ∧ someRead.direction = .read ∧
    someSegment.direction = .write ∧
    (transferring (.writeSegment (.slot 0) 13 12 [1] true) demo).port.issueList =
      .writeSegment (.slot 0) 13 12 [1] true :: [] ∧ (underClose 11).port.policy = .closeAfter ∧
    ((underClose 11).port.bank 0).closeDue = .none ∧ demo.port.policy = .keepOpen ∧
    (withQueues [] [someSegment] (transferring (.readSegment (.slot 1) 10 0 false) demo)).port.engineQueue ≠ [] ∧
    ([] : List Access).any Access.isSegment = false ∧ (Access.readSegment (.slot 1) 10 0 false).isSegment = true ∧
    (Table.read demo.store.copies 1).map Copy.blocked = some false := by decide +kernel

/-- Strip 11's line 1 written with sevens; the access is read for tag 9. -/
def readBack (eligible : Bool) : State :=
  { transferring (.lineRead 9 11 1 eligible false) demo with
    memory := Memory.store [] (lineAddress 11 1) (List.replicate 64 7) }

/-- That access has been carried out, and its bytes are on their way to the restoration unit. -/
def onItsWay : State :=
  let s := readBack true
  counted ((s.setPort (s.port.endTransfer 1000 (.lineRead 9 11 1 true false) [])).setRestore
    { s.restore with arriving := [⟨9, List.replicate 64 7⟩] })

theorem witness_TransferEndReads : (readBack true).port.transferring = true ∧
    (readBack true).port.issueList = .lineRead 9 11 1 true false :: [] ∧ (List.replicate 64 (7 : Byte)).length = 64 ∧
    (∀ i, i < 64 → (List.replicate 64 (7 : Byte))[i]? = Memory.read (readBack true).memory (lineAddress 11 1 + i)) ∧
    ((readBack true).store.page 1).record = some 0 ∧ Table.has (readBack true).restore.records 0 = true ∧
    ((readBack false).link.tag 9).state = .queued ∧ demo.port.transferring = false ∧ demo.port.issueList = [] ∧
    onItsWay.port.transferring = false ∧ onItsWay.restore.arriving = [] ++ ⟨9, List.replicate 64 7⟩ :: [] := by
  decide +kernel

/-- R82, R87: the data of a read arrives transformed with the page's record, and, when RETIRE PAGE is taken after the access
was carried out and before the arrival, as stored. Page 1's record gives 0 for 7, and its margin begins at column 100. -/
theorem test_arrival :
    after .transferEnd (readBack true) = (if Config.restorationFallsLater 0 then onItsWay else onItsWay.arriveAll) ∧
    (onItsWay.arriveAll.link.tag 9).answer = some ⟨.data, List.replicate 36 0 ++ List.replicate 28 255⟩ ∧
    (onItsWay.link.tag 9).state = .queued ∧
    ((after .transferEnd (after (.retirePage 1) onItsWay)).link.tag 9).answer = some ⟨.data, List.replicate 64 7⟩ :=
  ⟨rfl, by decide +kernel, by decide +kernel, by decide +kernel⟩

/-- Edition 6 is CLOSING, slot 2's last held write is being carried out, and these other slots copy. -/
def ending (others : List Nat) : State :=
  transferring (.lineWrite 16 5 (List.replicate 64 1) 1 (some 2))
    { demo with store := { demo.store with
        edition := .closing 6
        copies := demo.store.copies.filter fun e => others.contains e.1 || e.1 == 2 } }

/-- Slot 2's last held write has been carried out and the slot is IDLE; the test of the end of CLOSING is due. -/
def slotFreed (s : State) : State :=
  let port := s.port.endTransfer s.chip.now (.lineWrite 16 5 (List.replicate 64 1) 1 (some 2)) []
  let s := (s.setPort port).lineWriteDone 16 5 (List.replicate 64 1) 1 none
  ((s.setStore { s.store with holdQueue := [], settling := [(2, addressKey (place 0 3 3 5))] }).attemptHead).freeSlot 2
    { source := some 12, target := 16, page := 3, index := 3, nextLine := 1024 }

/-- Slot 2 has one held write, released; slot 1's next write is its last; slot 0's read segment ends. -/
theorem witness_CopySlotWorks :
    (transferring (.readSegment (.slot 1) 10 1020 false) demo).port.issueList = .readSegment (.slot 1) 10 1020 false :: [] ∧
    (Table.read demo.store.copies 1).map (fun c => c.nextLine + 4) = some 1024 ∧
    (Table.read demo.store.copies 0).map (fun c => c.nextLine + 4) ≠ some 1024 ∧
    (transferring (.lineWrite 16 5 (List.replicate 64 1) 1 (some 2)) demo).port.issueList =
      .lineWrite 16 5 (List.replicate 64 1) 1 (some 2) :: [] ∧
    (Table.read demo.store.copies 2).map Copy.nextLine = some 1024 ∧
    demo.store.holdQueue = [] ++ ⟨⟨place 0 3 3 5, List.replicate 64 1, 1⟩, 2, true⟩ :: [] ∧
    (slotFreed (ending [0, 1])).store.copies.map Prod.fst = [0, 1] ∧ (demo.link.tag 10).state = .waiting ∧
    ¬ (slotFreed (ending [])).PendingWrite (addressKey (demo.link.tag 10).address) ∧
    (slotFreed (ending [0, 1])).store.edition = .closing 6 ∧ (slotFreed (ending [0, 1])).store.EditionCopies ∧
    (slotFreed (ending [])).store.edition = .closing 6 ∧ ¬ (slotFreed (ending [])).store.EditionCopies := by
  refine ⟨by decide, by decide, by decide, by decide, by decide, by decide, by decide +kernel, by decide, ?_, rfl, ?_, rfl, ?_⟩
  · unfold State.PendingWrite
    decide +kernel
  · exact ⟨(0, _), .head _, _, _, rfl, rfl, rfl, rfl⟩
  · rintro ⟨c, h, -⟩
    exact absurd h (by rw [show (slotFreed (ending [])).store.copies = [] from rfl]; exact List.not_mem_nil)

/-- R54, R65: the slot's last held write ends CLOSING when no other slot copies for the edition, and the read that waited for
it goes on. R55: an edition write attempted before the test is a LATE WRITE, and after it meets NO EDITION; the test then
comes with a TRANSFER_END that finds no transfer in progress. -/
theorem test_slotIdle : after .transferEnd (ending []) = (slotFreed (ending [])).testClosingDue ∧
    after .transferEnd (ending [0, 1]) = (slotFreed (ending [0, 1])).testClosingDue ∧
    (slotFreed (ending [])).testClosing.store.edition = .none ∧
    (slotFreed (ending [])).testClosing.reports.statuses.editionClosed = true ∧
    (Table.read (slotFreed (ending [])).testClosing.store.versions 2).map Version.lock = some .locked ∧
    (slotFreed (ending [0, 1])).testClosing.store.edition = .closing 6 ∧
    ((slotFreed (ending [])).link.tag 10).state = .decoding :=
  ⟨rfl, rfl, by decide +kernel, by decide +kernel, by decide +kernel, by decide +kernel, by decide +kernel⟩

theorem test_closingOrder :
    (after .writeDisposal (headed 0 3 7 (slotFreed (ending [])))).reports.faults.map FaultRecord.kind = [.lateWrite] ∧
    (after .transferEnd (after .writeDisposal (headed 0 3 7 (slotFreed (ending []))))).store.edition = .none ∧
    (after .writeDisposal (headed 0 3 7 (slotFreed (ending [])).testClosing)).reports.faults.map FaultRecord.kind =
      [.noEdition] := by decide +kernel

theorem witness_CommitSegmentEnds :
    (transferring (.readSegment .sequencer 10 0 false) (committing running demo)).port.transferring = true ∧
    (transferring (.readSegment .sequencer 10 0 false) (committing running demo)).port.issueList =
      .readSegment .sequencer 10 0 false :: [] ∧
    (committing running demo).restore.sequencer.state = .running ∧
    ((committing running demo).store.page running.page).record = some 0 ∧
    Table.has (committing running demo).restore.records 0 = true ∧
    { running with nextLine := 1020 }.nextLine + 4 = 1024 ∧ running.nextLine + 4 ≠ 1024 ∧
    (committing { running with state := .aborting } demo).restore.sequencer.state = .aborting := by decide +kernel

/-- Nothing is left at cursor 511; at cursor 0 strip index 0 is, with a strip above the reserve or none. -/
theorem witness_CursorExamined :
    (∀ i, 511 ≤ i → i < 512 → (committing running demo).store.resolveFrom 1 1 i = none) ∧
    ((committing running demo).store.page 1).chain = [] ++ 1 :: [0] ∧
    (committing running demo).store.resolveFrom 1 1 0 = some 10 ∧
    { (committing running demo).store with reserve := 2 }.freeQueue.length ≤ 2 ∧
    { (committing running demo).store with reserve := 1 }.freeQueue = 21 :: [22] := by
  refine ⟨fun i h k => ?_, by decide⟩
  obtain rfl : i = 511 := by omega
  decide

/-- §4.7's record, at its margins, its defects and its levels. -/
theorem witness_ByteTransformed : record5230.black < record5230.white ∧ record5230.white ≤ 255 ∧
    record5230.width ≤ (pageOffset 0 686 + 56) % record5230.pitch ∧
    (pageOffset 0 686 + 55) % record5230.pitch < record5230.width ∧
    (pageOffset 0 686) / record5230.pitch < record5230.height ∧
    record5230.height ≤ 5000 * 4096 / record5230.pitch ∧
    (2944 : Nat) ≤ (pageOffset 0 686) % record5230.pitch ∧
    (∀ f ∈ record5230.defects, ¬ (f.x0 ≤ 2961 ∧ 2961 ≤ f.x1 ∧ f.y0 ≤ 10 ∧ 10 ≤ f.y1)) ∧
    record5230.tone 38 = 0 ∧ record5230.tone 39 = 1 ∧ record5230.tone 211 = 254 ∧ record5230.tone 212 = 255 := by decide

theorem witness_TransactionBegins : demo.management.transaction = none ∧ demo.management.phase = .idle ∧
    (after .identify demo).management.phase = .pending ∧
    (after (.managementTransactionStart 9) demo).management.transaction = some ⟨9, .idle⟩ ∧
    (9 : Byte) ≠ 1 ∧ (9 : Byte) ≠ 2 := by decide +kernel

/-- A transaction begun in phase IDLE with a good and a bad frame, and one begun in phase PENDING. -/
theorem witness_CommandFrameJudged : (after (.managementTransactionStart 1) demo).management.transaction = some ⟨1, .idle⟩ ∧
    (after (.managementTransactionStart 1) (after .identify demo)).management.transaction = some ⟨1, .pending⟩ ∧
    frameCommand [1, 0] = none ∧ frameCommand [1, 0, 0] = some .identify := by decide +kernel

theorem witness_FramesCarryCommands : (Instr.creditAccount 255 4294967295).wellFormed = true ∧
    isManagementCommand (.creditAccount 255 4294967295) = true ∧
    frameCommand [26, 0, 5, 255, 255, 255, 255, 255] = some (.creditAccount 255 4294967295) := by decide

theorem witness_ResponseRead :
    (after (.managementTransactionStart 2) (after .closeEdition demo)).management.transaction = some ⟨2, .pending⟩ ∧
    (after (.managementTransactionStart 2) demo).management.transaction = some ⟨2, .idle⟩ ∧
    (after .closeEdition demo).management.buffer.length = 3 ∧ (List.replicate 512 (0 : Byte)).length ≤ 512 := by
  decide +kernel

theorem witness_RefusalChangesNothing : isManagementCommand (.openEdition 7) = true ∧
    (after (.openEdition 7) demo).management.buffer.head? = some 3 ∧
    State.reset.Taken (.openEdition 7) ∧ State.reset.chip.inInit = true ∧ ∀ mask, Instr.openEdition 7 ≠ .enableEvents mask :=
  ⟨rfl, rfl, ⟨rfl, .inr ⟨rfl, rfl⟩⟩, rfl, fun _ => nofun⟩

theorem witness_PartCommands : State.reset.Taken .identify ∧ demo.Taken .readStatus ∧ demo.Ready (.setLinkOrder 1) ∧
    demo.Ready (.setLinkOrder 2) ∧ demo.restore.sequencer.state = .idle ∧
    (committing running demo).restore.sequencer.state ≠ .idle :=
  ⟨⟨rfl, .inr ⟨rfl, rfl⟩⟩, (witness_ready _).1, witness_ready _, witness_ready _, rfl, nofun⟩

theorem witness_EngineReset : demo.Ready .resetEngine ∧ (logged 1 demo).Ready .resetEngine ∧ demo.log.charges = [] ∧
    (logged 1 demo).log.charges ≠ [] ∧ (demo.link.tag 9).state = .queued ∧ (demo.link.tag 31).state = .free ∧
    (transferring (.lineWrite 11 1 [5] 1 (some 2)) demo).port.issueList[0]? = some (.lineWrite 11 1 [5] 1 (some 2)) ∧
    (∀ u, (({ demo with link := {} } : State).link.tag u).state = .free) :=
  ⟨witness_ready _, ⟨⟨rfl, .inr ⟨rfl, rfl⟩⟩, rfl⟩, rfl, nofun, rfl, rfl, rfl, fun _ => rfl⟩

/-- R22: tag 8, READY, keeps its place, and the waiting, decoding and queued reads join as one group. -/
theorem test_resetEngine_order : (after .resetEngine demo).link.readyOrder = [[8], [0, 1, 2, 3, 4, 5, 6, 7, 9, 10, 11]] := by
  decide +kernel

theorem witness_ApertureCommands : demo.Ready (.setAperture 15 1 4 16777215 1 1 255) ∧ (demo.meter.job 1).state = .opened ∧
    (demo.meter.job 2).state ≠ .opened ∧ demo.Ready (.readAperture 15) ∧ demo.Ready (.readAperture 16) :=
  ⟨witness_ready _, rfl, nofun, witness_ready _, witness_ready _⟩

theorem witness_DirectoryCommands : demo.Ready (.createPage 65535 1 31 131071 5 1) ∧ demo.Ready (.finishLoad 2) ∧
    demo.Ready (.setEmbargo 1 131071) ∧ demo.Ready (.setRateClass 1 31) ∧ (demo.store.page 65535).state = .absent ∧
    (demo.store.page 1).state ≠ .absent ∧ demo.store.lastEdition < 7 ∧ demo.store.edition ≠ .none ∧
    (demo.store.page 2).state = .loading ∧ (demo.store.page 2).copies = 0 ∧ (demo.store.page 3).copies ≠ 0 :=
  ⟨witness_ready _, witness_ready _, witness_ready _, witness_ready _, rfl, nofun, by decide, nofun, rfl, rfl, nofun⟩

/-- Page 1's version 0 can be discarded; the other clauses' pages and versions stand in test_discardVersion. -/
theorem witness_VersionCommands : demo.Ready (.discardVersion 1 0) ∧ demo.Ready (.readPage 65535) ∧
    Table.read demo.store.versions 0 = some ⟨1, .edition, 5, .locked, [(0, 10)]⟩ ∧ (demo.store.page 1).pins = 0 ∧
    (demo.store.page 1).committing = false ∧ (demo.store.page 1).copies = 0 ∧ demo.port.holds 10 = false ∧
    (withQueues [someRead] [] demo).port.holds 11 = true ∧ (demo.store.page 5).pins ≠ 0 ∧
    Table.read demo.store.versions 8191 = none :=
  ⟨witness_ready _, witness_ready _, rfl, rfl, rfl, rfl, rfl, rfl, nofun, rfl⟩

/-- The demonstration commit, RUNNING with an examination owed, under that reserve. -/
def owing (reserve : Nat) : State :=
  committing { running with inProgress := false } { demo with store := { demo.store with reserve := reserve } }

/-- The demonstration commit, WAITING with two strips free and a reserve of two. -/
def waitingCommit : State := committing { running with state := .waiting, inProgress := false } demo

/-- The commit runs again under a reserve of 1, and its examination is due. -/
def resumed : State := counted (owing 1)

/-- An edition write that needs a fresh strip has been disposed of. -/
def edited (s : State) : State := after .writeDisposal (withWrite freshWrite s)

theorem witness_WaitingCommitResumes :
    (committing { running with state := .waiting, inProgress := false } demo).restore.sequencer.state = .waiting ∧
    { (committing running demo).store with reserve := 1 }.reserve < (committing running demo).store.freeQueue.length ∧
    demo.restore.sequencer.state ≠ .waiting ∧ demo.Ready (.setStoreReserve 16384) ∧ demo.Ready (.setStoreReserve 16385) ∧
    16384 ≤ demo.chip.strips / 2 ∧ demo.chip.strips / 2 < 16385 ∧
    (owing 2).restore.sequencer.state = .running ∧ (owing 2).restore.sequencer.inProgress = false ∧
    (owing 2).store.resolveFrom 1 1 0 = some 10 ∧ (owing 2).store.freeQueue.length ≤ (owing 2).store.reserve :=
  ⟨rfl, by decide, nofun, witness_ready _, witness_ready _, by decide, by decide, rfl, rfl, by decide, by decide⟩

set_option maxRecDepth 100000 in
/-- R95: the reserve is lowered below the free count, and an edition write comes before the sequencer's allocation: it takes
the count back, and the sequencer is WAITING again. With the allocation first, the edition write takes the next strip. -/
theorem test_commitWaitsAgain :
    after (.setStoreReserve 1) waitingCommit =
      (if Config.restorationFallsLater 0 then resumed else resumed.examine).respond .ok [] ∧
    resumed.restore.sequencer.state = .running ∧ resumed.reports.statuses.commitWaiting = false ∧
    (edited resumed).store.freeQueue = [22] ∧
    (after .commitSegmentIssue (edited resumed)).restore.sequencer.state = .waiting ∧
    (after .commitSegmentIssue (edited resumed)).reports.statuses.commitWaiting = true ∧
    (edited resumed.examine).restore.sequencer.target = 21 ∧ (edited resumed.examine).store.freeQueue = [] :=
  ⟨rfl, by decide +kernel, by decide +kernel, by decide +kernel, by decide +kernel, by decide +kernel, by decide +kernel,
    by decide +kernel⟩

/-- An edition with copies under way, one without, and none. -/
theorem witness_EditionCommands : demo.Ready (.openEdition 7) ∧ demo.Ready .closeEdition ∧ demo.store.edition ≠ .none ∧
    (noEdition demo).store.edition = .none ∧ (noEdition demo).store.lastEdition < 7 ∧ demo.store.EditionCopies ∧
    ¬ { demo.store with copies := [] }.EditionCopies :=
  ⟨witness_ready _, witness_ready _, nofun, rfl, by decide, ⟨_, List.mem_cons_self, _, _, rfl, rfl, rfl, rfl⟩,
    fun h => by obtain ⟨_, h, _⟩ := h; cases h⟩

/-- Page 6 without a record, page 1 with one whose defect ends at column 5 and row 0, and a full pool. -/
theorem witness_RestorationWritten : demo.Ready (.writeRestoration 6 64 64 524288 0 1 0) ∧
    (demo.store.page 6).state ≠ .absent ∧ (demo.store.page 6).record = none ∧ (demo.store.page 6).committing = false ∧
    (demo.store.page 1).record = some 0 ∧
    Table.read demo.restore.records 0 = some ⟨1, 100, 128, 10, 10, 200, 0, [⟨3, 0, 5, 0, 255⟩]⟩ ∧
    Table.has demo.restore.records 1 = false ∧ (∀ m, m < 1 → Table.has demo.restore.records m = true) ∧
    (∀ n, n < 1024 → Table.has ((List.range' 0 1024).map fun m => (m, record5230)) n = true) :=
  ⟨witness_ready _, nofun, rfl, rfl, rfl, rfl, rfl, fun m h => by obtain rfl : m = 0 := by omega
                                                                  rfl,
    fun n h => full_has _ _ _ n (Nat.zero_le n) (by omega)⟩

theorem witness_RecordsAndCurves : demo.Ready (.addDefect 1 0 0 99 9 255) ∧ demo.Ready (.clearDefects 1) ∧
    demo.Ready (.readRestoration 1) ∧ demo.Ready (.detachRestoration 1) ∧
    demo.Ready (.loadCurve 7 3 (List.replicate 64 9)) ∧ (demo.store.page 1).record = some 0 ∧
    Table.read demo.restore.records 0 = some ⟨1, 100, 128, 10, 10, 200, 0, [⟨3, 0, 5, 0, 255⟩]⟩ ∧
    (demo.store.page 1).committing = false ∧ ((committing running demo).store.page 1).committing = true ∧
    (demo.store.page 5).record = none :=
  ⟨witness_ready _, witness_ready _, witness_ready _, witness_ready _, witness_ready _, rfl, rfl, rfl, rfl, rfl⟩

/-- The status of COMMIT RESTORATION where page 1's chain is full, where page 6 gets a record and holds nothing, and where
page 3 has a record and an OPEN head. -/
theorem witness_CommitStartsAndAborts : demo.Ready (.commitRestoration 1) ∧ (committing running demo).Ready .abortCommit ∧
    demo.restore.sequencer.state = .idle ∧ (demo.store.page 1).chain.length < 16 ∧
    Table.has demo.store.versions 5 = false ∧ (∀ m, m < 5 → Table.has demo.store.versions m = true) ∧
    walk demo.store.versions none false 0 (demo.store.page 1).chain = some ⟨0, .edition, 10⟩ ∧
    statuses { demo with store := demo.store.setPage 1 { demo.store.page 1 with chain := List.replicate 16 1 } }
      [.commitRestoration 1] = [15] ∧
    statuses { demo with store := demo.store.setPage 6 { demo.store.page 6 with record := some 1 } }
      [.commitRestoration 6] = [14] ∧
    statuses { demo with store := demo.store.setPage 3 { demo.store.page 3 with record := some 1 } }
      [.commitRestoration 3] = [4] :=
  ⟨witness_ready _, ⟨⟨rfl, .inr ⟨rfl, rfl⟩⟩, rfl⟩, rfl, by decide, by decide, by decide, by decide, by decide +kernel,
    by decide +kernel, by decide +kernel⟩

theorem witness_AccountsKept : demo.Ready (.openAccount 255) ∧ demo.Ready (.creditAccount 1 4294966395) ∧
    demo.Ready (.suspendAccount 1) ∧ demo.Ready (.resumeAccount 2) ∧ demo.Ready (.setDiscount 1 1 128 100 100) ∧
    demo.Ready (.closeAccount 1) ∧ demo.Ready (.readAccount 255) ∧
    ([1, 2, 3].map fun a => (demo.meter.account a).state) = [.active, .suspended, .closed] ∧
    (demo.meter.account 1).balance + 4294966395 ≤ 4294967295 ∧ 4294967295 < (demo.meter.account 1).balance + 4294966396 ∧
    (demo.meter.account 1).jobs ≠ 0 :=
  ⟨witness_ready _, witness_ready _, witness_ready _, witness_ready _, witness_ready _, witness_ready _, witness_ready _, rfl,
    by decide, by decide, by decide⟩

theorem witness_JobCommands : demo.Ready (.openJob 63 1 4294967295) ∧ demo.Ready (.closeJob 1) ∧ demo.Ready (.freeJob 2) ∧
    demo.Ready (.readJob 1 7) ∧ (demo.meter.job 63).state = .free ∧ (demo.meter.job 1).state = .opened ∧
    (demo.meter.job 2).state = .closed ∧ (∃ e ∈ demo.apertures, e.2.kind = .reprint ∧ e.2.job = 2) :=
  ⟨witness_ready _, witness_ready _, witness_ready _, witness_ready _, rfl, rfl, rfl, by decide⟩

theorem witness_TariffCommands : demo.Ready (.setDate 1000) ∧ demo.Ready (.setBands 0 1 255) ∧
    demo.Ready (.setRate 31 0 0 0 65535) ∧ demo.Ready (.setSurcharge 255) ∧ demo.Ready (.readTariff 31) ∧
    demo.meter.date ≤ 1000 ∧ 999 < demo.meter.date :=
  ⟨witness_ready _, witness_ready _, witness_ready _, witness_ready _, witness_ready _, by decide, by decide⟩

theorem witness_LogCommands : demo.Ready (.readCharges 8) ∧ demo.Ready (.setLogMode 1024 1) ∧
    9 ≤ (logged 9 demo).log.charges.length ∧ (logged 9 demo).log.charges.length < 10 :=
  ⟨witness_ready _, witness_ready _, by decide, by decide⟩

theorem witness_PortSettings : demo.Ready (.setStoreTiming 0 101 0 0 0 0) ∧ demo.Ready (.setArbiter 10001 0) ∧
    demo.Ready (.setPagePolicy 1) ∧ demo.Ready (.setPagePolicy 2) ∧ demo.Ready .readStoreSettings ∧
    demo.port.policy = .keepOpen ∧ State.reset.port.quiet = .running 0 ∧
    (∀ a ∈ (twoRows 30 (.opened 4000) 15).port.waitList 3, a.strip ≠ 4000) ∧
    (∃ a ∈ (twoRows 30 (.opened 9100) 15).port.waitList 3, a.strip = 9100) :=
  ⟨witness_ready _, witness_ready _, witness_ready _, witness_ready _, witness_ready _, rfl, rfl, by decide, by decide⟩

theorem witness_FaultsAndEvents : demo.Ready .readFaults ∧ demo.Taken .readEvents ∧ demo.Ready (.ackEvents 1023) ∧
    demo.Taken (.enableEvents 65535) ∧ demo.Ready (.enableJobEvents 63 7) ∧ demo.Ready (.ackJobEvents 64 7) :=
  ⟨witness_ready _, (witness_ready _).1, witness_ready _, (witness_ready _).1, witness_ready _, witness_ready _⟩

theorem witness_AlertFollowsEvents : Table.wf (after (.readDecode 2) demo).reports.jobEvents ∧
    (after (.enableEvents 128) (after (.readDecode 2) demo)).alert = true := by decide +kernel

/-- A running part with one LIVE page of one LOCKED version. -/
def small : State :=
  { State.powerOn 32768 0 0 with
    chip := { strips := 32768, inInit := false }
    link := { linkUp := true, writeCredits := 32 }
    store := {
      reserve := 2048, pages := [(1, { state := .live, edition := 5, chain := [0] })], lastEdition := 5
      versions := [(0, ⟨1, .edition, 5, .locked, [(0, 10)]⟩)], strips := [(10, ⟨.ready, 0, 0⟩)] }
    pending := [.retirePage 1] }

theorem small_page (p : Nat) :
    small.store.page p = if 1 = p then { state := .live, edition := 5, chain := [0] } else {} := by
  by_cases h : 1 = p <;> simp [Store.page, Table.get, Table.read, small, h]

theorem small_chained : small.Chained where
  linked p n h := by
    rw [small_page] at h
    split at h
    · next e => subst e; simp at h; subst h; exact ⟨_, rfl, rfl, nofun⟩
    · simp at h
  nodup p := by rw [small_page]; split <;> decide
  short p := by rw [small_page]; split <;> decide
  building h := absurd rfl h

theorem small_rate (c b : Nat) : small.meter.rate c b = 65535 := rfl

/-- The same part with the numbers `q` in the free strip queue. -/
def queued (q : List Nat) : State := { small with store := { small.store with freeQueue := q } }

section queued
variable {q : List Nat}

theorem queued_page (p : Nat) :
    (queued q).store.page p = if 1 = p then { state := .live, edition := 5, chain := [0] } else {} := small_page p

theorem queued_version (m : Nat) : Table.read (queued q).store.versions m =
    if 0 = m then some ⟨1, .edition, 5, .locked, [(0, 10)]⟩ else none := rfl

theorem queued_strip (n : Nat) : Table.read (queued q).store.strips n = if 10 = n then some ⟨.ready, 0, 0⟩ else none := rfl

theorem queued_strips (hq : q.Nodup) (hm : ∀ n, n ∈ q ↔ n ≠ 10 ∧ n < 32768) : (queued q).StripsKept where
  size := ⟨0, rfl⟩
  queue := hq
  free n h := by
    obtain ⟨h1, h2⟩ := (hm n).1 h
    exact ⟨h2, by rw [queued_strip, if_neg h1.symm]⟩
  owned n e h := by
    rw [queued_strip] at h
    split at h
    · next hn => cases h; subst hn; exact ⟨by show 10 < 32768; decide, _, rfl, rfl⟩
    · cases h
  listed m v i n h hi := by
    rw [queued_version] at h
    split at h
    · next hm =>
      cases h
      change (if 0 = i then some 10 else none) = some n at hi
      split at hi
      · next e => cases hi; exact ⟨_, rfl, hm, e⟩
      · cases hi
    · cases h
  ascending m v h := by
    rw [queued_version] at h
    split at h
    · cases h; decide
    · cases h
  whole _ n hn := by
    by_cases h : n = 10
    · right; subst h; rfl
    · exact .inl ((hm n).2 ⟨h, hn⟩)
  init := nofun

theorem queued_pages : (queued q).PagesKept where
  absent p h := by
    rw [queued_page] at h ⊢
    split at h
    · cases h
    · next hp => rw [if_neg hp]
  pins p := by rw [queued_page]; split <;> rfl
  copies p := by rw [queued_page]; split <;> rfl
  flag p h := by rw [queued_page] at h; split at h <;> cases h

theorem queued_sound (hq : q.Nodup) (hm : ∀ n, n ∈ q ↔ n ≠ 10 ∧ n < 32768) : (queued q).Sound where
  memory := List.Pairwise.nil
  bounded :=
    { writeBuffer := Nat.zero_le _, holdQueue := Nat.zero_le _, defects := fun _ _ h => by cases h
      purchases := fun _ => Nat.zero_le _, charges := Nat.zero_le _, carried := Nat.zero_le _
      issueList := Nat.zero_le _, faults := Nat.zero_le _ }
  credits := ⟨Nat.zero_le _, fun _ => rfl⟩
  engineQueue := nofun
  down := nofun
  solvent _ := ⟨rfl, Nat.zero_le _, Nat.two_pow_pos 64⟩
  sets _ := ⟨List.nodup_nil, nofun, rfl, Nat.le_refl _⟩
  jobs := { counted := fun _ => rfl, closed := fun _ _ => rfl, free := fun _ _ => rfl, numbered := fun _ _ => rfl }
  numbered := nofun
  edition := ⟨by show 5 ≤ 16777215; decide, trivial⟩
  settings :=
    { reserve := by show 2048 ≤ 32768 / 2; decide
      discounts := fun a => by rw [show (queued q).meter.account a = {} from rfl]; decide
      date := Nat.zero_le _
      bands := by rw [show (queued q).meter.bands = {} from rfl]; decide
      rates := fun c b => Nat.le_of_eq (small_rate c b)
      surcharge := Nat.zero_le _
      threshold := by show 1 ≤ 1 ∧ 1 ≤ 1024; decide
      quietTime := by show 500 ≤ 10000; decide
      agingLimit := by show 1 ≤ 50 ∧ 50 ≤ 1000; decide
      timing := by rw [show (queued q).port.timing = {} from rfl]; decide }
  chained := { linked := small_chained.linked, nodup := small_chained.nodup, short := small_chained.short,
               building := fun h => absurd rfl h }
  strips := queued_strips hq hm
  cursor := { ahead := fun h => absurd rfl h, waiting := nofun }
  pages := queued_pages
  response := ⟨nofun, fun _ => rfl, nofun⟩

theorem queued_steps : ∃ t, step (queued q) = .next t ∧ (t.store.page 1).state = .absent := ⟨_, rfl, rfl⟩

end queued

theorem witness_EveryStepKeepsSound : ∃ s, s.Sound ∧ ∃ t, step s = .next t ∧ (t.store.page 1).state = .absent :=
  ⟨queued ((List.range 32768).erase 10),
    queued_sound (List.nodup_range.erase 10) fun n => by rw [List.nodup_range.mem_erase_iff, List.mem_range],
    queued_steps⟩

/-- A line read in the engine-side queue is no sound state: R154 puts segment requests there alone. -/
theorem test_engineQueueHoldsSegments :
    ¬ State.Sound { State.reset with port := { State.reset.port with engineQueue := [.lineRead 0 0 0 false false] } } :=
  fun h => absurd (h.engineQueue _ (List.mem_singleton.2 rfl)) (by decide)

theorem witness_PageRetired : small.Ready (.retirePage 1) ∧ small.Chained ∧ (small.store.page 1).state ≠ .absent ∧
    (small.store.page 1).pins = 0 ∧ (small.store.page 1).committing = false ∧ (small.store.page 1).copies = 0 ∧
    small.port.holds 10 = false :=
  ⟨⟨⟨rfl, .inr ⟨rfl, rfl⟩⟩, rfl⟩, small_chained, nofun, rfl, rfl, rfl, rfl⟩

theorem witness_LockedVersionsStay : small.Chained ∧
    Table.read small.store.versions 0 = some ⟨1, .edition, 5, .locked, [(0, 10)]⟩ ∧
    Table.read (after (.discardVersion 1 0) small).store.versions 0 = none ∧
    Table.read (after .writeDisposal small).store.versions 0 = some ⟨1, .edition, 5, .locked, [(0, 10)]⟩ :=
  ⟨small_chained, by decide, by decide, by decide⟩

theorem witness_OnlyCausesChange : (∀ pins, Instr.transferEnd ≠ .powerOn pins) ∧ Instr.arbiterIssue ≠ .transferEnd ∧
    (exec .arbiterIssue demo matches .next _) = true ∧ ¬ demo.Charges .arbiterIssue ∧
    (exec (.readDecode 5) demo matches .next _) = true ∧ ¬ demo.Charges (.readDecode 5) :=
  ⟨fun _ => nofun, nofun, by decide, witness_charges.2.2, by decide, witness_charges.2.1⟩

theorem witness_ResetIsSound : (exec (.powerOn 3) demo matches .next _) = true := by decide

end Sys2Proof.Tests
end

section
/-! # What each command may change

How a property of the state passes through the two forms in which every command is written, `State.live` and `State.take`,
and the blocks of the state that each command leaves as they were. -/

namespace Sys2Proof.Machine

/-! ### The two forms of a command -/

/-- What holds before a row of the archive link or of the engine, and after its body, holds after the row. -/
theorem State.live_keeps {P : State → Prop} {s : State} {body : State → State} (h : P s)
    (hb : s.chip.resetPin = false → P (body s)) : P (s.live body) := by
  unfold State.live
  split
  · exact h
  · next hp => exact hb (by simpa using hp)

/-- What holds before a management command, after its rule, and stays when a response is made, holds after the command. -/
theorem State.take_keeps {P : State → Prop} {s : State} {c : Instr} {d : Bool} {body : State → Reply} (h : P s)
    (hr : ∀ u status fields, P u → P (u.respond status fields))
    (hb : s.Taken c → (s.chip.inInit = true → d = true) → P (body s).state) : P (s.take c d body) := by
  unfold State.take
  split
  · next ht =>
    split
    · exact hr _ _ _ h
    · next hi => exact hr _ _ _ (hb ((s.takes_iff c).1 ht) (by simpa using hi))
  · exact h

/-- A check of a command's rule: refused, the state is as it was. -/
theorem Reply.of_check {P : State → Prop} {s : State} {c : Prop} [Decidable c] {status : Status} {r : Reply} (h : P s)
    (hr : ¬ c → P r.state) : P (if c then s.refuse status else r).state := by
  split
  · exact h
  · next hc => exact hr hc

@[simp] theorem State.refuse_state (s : State) (status : Status) : (s.refuse status).state = s := rfl
@[simp] theorem State.ok_state (s : State) : s.ok.state = s := rfl
@[simp] theorem State.report_state (s : State) (fields : List Byte) : (s.report fields).state = s := rfl

/-! ### Blocks -/

/-- The blocks of the state, but for the queue of waiting commands. -/
inductive Block where
  | chip | link | apertures | store | restore | meter | log | port | memory | reports | management
  deriving DecidableEq, Repr

/-- `t` differs from `s` at most in the blocks listed. -/
structure State.SameBut (blocks : List Block) (s t : State) : Prop where
  chip : .chip ∉ blocks → t.chip = s.chip
  link : .link ∉ blocks → t.link = s.link
  apertures : .apertures ∉ blocks → t.apertures = s.apertures
  store : .store ∉ blocks → t.store = s.store
  restore : .restore ∉ blocks → t.restore = s.restore
  meter : .meter ∉ blocks → t.meter = s.meter
  log : .log ∉ blocks → t.log = s.log
  port : .port ∉ blocks → t.port = s.port
  memory : .memory ∉ blocks → t.memory = s.memory
  reports : .reports ∉ blocks → t.reports = s.reports
  management : .management ∉ blocks → t.management = s.management

theorem State.SameBut.refl (blocks : List Block) (s : State) : s.SameBut blocks s := by
  constructor <;> exact fun _ => rfl

/-- The blocks that a command changes at most. -/
def touches : Instr → List Block
  | .powerOn _ | .resetEngine =>
    [.chip, .link, .apertures, .store, .restore, .meter, .log, .port, .memory, .reports, .management]
  | .resetPinAssert => [.chip, .reports, .management]
  | .initBuildAppend => [.chip, .store, .reports]
  | .lineRead .. | .lineWrite .. | .archiveLinkDown => [.link, .restore, .port]
  | .readDecode _ => [.link, .port, .meter, .store, .log, .reports]
  | .writeDisposal => [.link, .store, .port, .reports]
  | .archiveLinkUp | .readDataStart _ | .readDataEnd => [.link]
  | .copySegmentIssue _ => [.store, .port]
  | .commitSegmentIssue => [.store, .restore, .port, .reports]
  | .arbiterIssue => [.link, .port]
  | .quietTimerExpiry | .agingClockExpiry | .openDelayExpiry _ | .closeDelayExpiry _ => [.chip, .port]
  | .bankOpenStart _ | .bankCloseStart _ | .transferStart => [.port]
  | .rowCycleExpiry _ | .minimumOpenExpiry _ | .writeRecoveryExpiry _ | .turnaroundExpiry => [.chip]
  | .transferEnd => [.link, .store, .restore, .port, .memory, .reports]
  | .managementTransactionStart _ | .commandFrame _ | .responseTransaction _ | .otherTransaction _ | .identify
  | .readStatus | .readAperture _ | .readPage _ | .readRestoration _ | .readAccount _ | .readJob .. | .readTariff _
  | .readStoreSettings | .readEvents => [.management]
  | .setLinkOrder _ => [.link, .management]
  | .setAperture .. => [.apertures, .management]
  | .createPage .. | .finishLoad _ | .setEmbargo .. | .setRateClass .. | .openEdition _ => [.store, .management]
  | .discardVersion .. | .retirePage _ | .setStoreReserve _ | .commitRestoration _ =>
    [.store, .restore, .reports, .management]
  | .closeEdition => [.store, .reports, .management]
  | .abortCommit => [.store, .restore, .port, .reports, .management]
  | .writeRestoration .. | .detachRestoration _ => [.store, .restore, .management]
  | .addDefect .. | .clearDefects _ | .loadCurve .. => [.restore, .management]
  | .openAccount _ | .creditAccount .. | .suspendAccount _ | .resumeAccount _ | .setDiscount .. | .closeAccount _
  | .openJob .. | .closeJob _ | .setDate _ | .setBands .. | .setRate .. | .setSurcharge _ => [.meter, .management]
  | .freeJob _ => [.store, .meter, .reports, .management]
  | .readCharges _ | .setLogMode .. => [.log, .reports, .management]
  | .setStoreTiming .. | .setPagePolicy _ | .setArbiter .. => [.port, .management]
  | .readFaults | .ackEvents _ | .enableEvents _ | .enableJobEvents .. | .ackJobEvents .. => [.reports, .management]

theorem State.SameBut.trans {blocks : List Block} {s t u : State} (h : s.SameBut blocks t) (g : t.SameBut blocks u) :
    s.SameBut blocks u :=
  ⟨fun b => (g.chip b).trans (h.chip b), fun b => (g.link b).trans (h.link b),
   fun b => (g.apertures b).trans (h.apertures b), fun b => (g.store b).trans (h.store b),
   fun b => (g.restore b).trans (h.restore b), fun b => (g.meter b).trans (h.meter b),
   fun b => (g.log b).trans (h.log b), fun b => (g.port b).trans (h.port b), fun b => (g.memory b).trans (h.memory b),
   fun b => (g.reports b).trans (h.reports b), fun b => (g.management b).trans (h.management b)⟩

theorem State.sameBut_iff (blocks : List Block) (s t : State) :
    s.SameBut blocks t ↔
      (.chip ∉ blocks → t.chip = s.chip) ∧ (.link ∉ blocks → t.link = s.link) ∧
      (.apertures ∉ blocks → t.apertures = s.apertures) ∧ (.store ∉ blocks → t.store = s.store) ∧
      (.restore ∉ blocks → t.restore = s.restore) ∧ (.meter ∉ blocks → t.meter = s.meter) ∧
      (.log ∉ blocks → t.log = s.log) ∧ (.port ∉ blocks → t.port = s.port) ∧ (.memory ∉ blocks → t.memory = s.memory) ∧
      (.reports ∉ blocks → t.reports = s.reports) ∧ (.management ∉ blocks → t.management = s.management) :=
  ⟨fun ⟨a, b, c, d, e, f, g, h, i, j, k⟩ => ⟨a, b, c, d, e, f, g, h, i, j, k⟩,
   fun ⟨a, b, c, d, e, f, g, h, i, j, k⟩ => ⟨a, b, c, d, e, f, g, h, i, j, k⟩⟩

/-- A response changes the management link alone. -/
theorem State.respond_sameBut {blocks : List Block} (hm : .management ∈ blocks) (s : State) (status : Status)
    (fields : List Byte) : s.SameBut blocks (s.respond status fields) := by
  simp [State.sameBut_iff, hm]

/-- A management command changes the management link, and else what its rule changes. -/
theorem State.take_sameBut {blocks : List Block} {s : State} {c : Instr} {d : Bool} {body : State → Reply}
    (hm : .management ∈ blocks) (hb : s.SameBut blocks (body s).state) : s.SameBut blocks (s.take c d body) :=
  State.take_keeps (State.SameBut.refl _ _) (fun u _ _ h => h.trans (u.respond_sameBut hm _ _)) fun _ _ => hb

theorem State.live_sameBut {blocks : List Block} {s : State} {body : State → State} (hb : s.SameBut blocks (body s)) :
    s.SameBut blocks (s.live body) :=
  State.live_keeps (State.SameBut.refl _ _) fun _ => hb

/-- A command leaves the blocks that it does not touch as they were. -/
theorem exec_sameBut {c : Instr} {s t : State} (e : exec c s = .next t) : s.SameBut (touches c) t := by
  cases c with
  | powerOn | resetEngine => constructor <;> simp [touches]
  | resetPinAssert => cases e; simp [State.sameBut_iff, touches]
  | managementTransactionStart | commandFrame | responseTransaction | otherTransaction =>
    cases e
    try dsimp only
    (repeat' split) <;> simp [State.sameBut_iff, touches]
  | initBuildAppend | lineRead | lineWrite | readDecode | writeDisposal | archiveLinkDown | archiveLinkUp | readDataStart
  | readDataEnd | copySegmentIssue | commitSegmentIssue | arbiterIssue | quietTimerExpiry | agingClockExpiry
  | bankOpenStart | rowCycleExpiry | openDelayExpiry | bankCloseStart | minimumOpenExpiry | writeRecoveryExpiry
  | closeDelayExpiry | turnaroundExpiry | transferStart | transferEnd =>
    cases e
    refine State.live_sameBut ?_
    try dsimp only
    (repeat' split) <;> simp [State.sameBut_iff, touches]
  | _ =>
    cases e
    refine State.take_sameBut (by simp [touches]) ?_
    try dsimp only
    (repeat' split) <;> simp [State.sameBut_iff, touches]

end Sys2Proof.Machine
end

section
/-! # The settings of the part

Each setting changes by its command alone (R7, R10, R49, R74, R110, R127, R131 to R133, R145, R163 to R165, R176, R178). -/

namespace Sys2Proof.Machine

/-- The settings of the part, with N: what commands set and nothing else changes. -/
structure Settings where
  strips : Nat
  wrapOrder : WrapOrder
  apertures : Table Aperture
  reserve : Nat
  curves : Table Byte
  date : Nat
  bands : Bands
  rates : Table Nat
  surcharge : Nat
  discounts : Nat → Nat × Nat × Nat × Nat
  threshold : Nat
  mode : ClearMode
  timing : StoreTiming
  policy : PagePolicy
  quietTime : Nat
  agingLimit : Nat
  enables : DeviceEnables
  jobEnables : Nat → Bool × Bool × Bool

/-- The discount settings of an account (R110). -/
def Account.discounts (a : Account) : Nat × Nat × Nat × Nat := (a.t1, a.t2, a.d1, a.d2)

/-- The three enables of a job (R178). -/
def JobEvents.enables (e : JobEvents) : Bool × Bool × Bool := (e.enableCharged, e.enableWithheld, e.enableLimit)

/-- The settings in force. -/
def State.settings (s : State) : Settings where
  strips := s.chip.strips
  wrapOrder := s.link.wrapOrder
  apertures := s.apertures
  reserve := s.store.reserve
  curves := s.restore.curves
  date := s.meter.date
  bands := s.meter.bands
  rates := s.meter.rates
  surcharge := s.meter.surcharge
  discounts := fun a => (s.meter.account a).discounts
  threshold := s.log.threshold
  mode := s.log.mode
  timing := s.port.timing
  policy := s.port.policy
  quietTime := s.port.quietTime
  agingLimit := s.port.agingLimit
  enables := s.reports.enables
  jobEnables := fun j => (s.reports.jobOf j).enables

/-! ### The shared operations keep the settings -/

/-- An account written with the discounts that it has. -/
theorem Meter.discounts_setAccount {m : Meter} {a : Nat} {x : Account} (h : x.discounts = (m.account a).discounts) (b : Nat) :
    ((m.setAccount a x).account b).discounts = (m.account b).discounts := by
  rw [Meter.account_setAccount]
  split
  · next hb => rw [hb, h]
  · rfl

/-- A job's events written with the enables that they have. -/
theorem Reports.enables_setJob {r : Reports} {j : Nat} {x : JobEvents} (h : x.enables = (r.jobOf j).enables) (i : Nat) :
    ((r.setJob j x).jobOf i).enables = (r.jobOf i).enables := by
  rw [Reports.jobOf_setJob]
  split
  · next hi => rw [hi, h]
  · rfl

theorem Reports.offer_enables (r : Reports) (f : FaultRecord) (j : Nat) : (r.offer f).jobOf j = r.jobOf j := by
  simp only [Reports.jobOf, (r.offer_frame f).2]

@[simp] theorem State.respond_settings (s : State) (status : Status) (fields : List Byte) :
    (s.respond status fields).settings = s.settings := rfl
@[simp] theorem State.reach_settings (s : State) (t : Nat) : (s.reach t).settings = s.settings := rfl
@[simp] theorem State.setSequencer_settings (s : State) (q : Sequencer) : (s.setSequencer q).settings = s.settings := rfl
@[simp] theorem State.setStatuses_settings (s : State) (st : Statuses) : (s.setStatuses st).settings = s.settings := rfl
@[simp] theorem State.releaseReads_settings (s : State) : s.releaseReads.settings = s.settings := rfl
@[simp] theorem State.attemptHead_settings (s : State) : s.attemptHead.settings = s.settings := rfl
@[simp] theorem State.headWaits_settings (s : State) : s.headWaits.settings = s.settings := rfl
@[simp] theorem State.headLeaves_settings (s : State) : s.headLeaves.settings = s.settings := rfl
@[simp] theorem State.setCopy_settings (s : State) (k : Fin 4) (c : Copy) : (s.setCopy k c).settings = s.settings := rfl
@[simp] theorem State.joinEngine_settings (s : State) (a : Access) : (s.joinEngine a).settings = s.settings := rfl
@[simp] theorem State.unblock_settings (s : State) : s.unblock.settings = s.settings := rfl
@[simp] theorem State.setRecord_settings (s : State) (n : Nat) (r : Restoration) : (s.setRecord n r).settings = s.settings := rfl
@[simp] theorem State.heldShift_settings (s : State) (n : Nat) : (s.heldShift n).settings = s.settings := rfl
@[simp] theorem State.answerRead_settings (s : State) (t : Fin 32) (a : Answer) : (s.answerRead t a).settings = s.settings := rfl
@[simp] theorem State.queueRead_settings (s : State) (t : Fin 32) (strip line : Nat) (e : Bool) :
    (s.queueRead t strip line e).settings = s.settings := rfl
@[simp] theorem State.carryHead_settings (s : State) (w : HostWrite) (strip : Nat) :
    (s.carryHead w strip).settings = s.settings := rfl
@[simp] theorem State.waitCommit_settings (s : State) : s.waitCommit.settings = s.settings := rfl
@[simp] theorem State.completeCommit_settings (s : State) : s.completeCommit.settings = s.settings := rfl
@[simp] theorem State.freeSlot_settings (s : State) (k : Fin 4) (c : Copy) : (s.freeSlot k c).settings = s.settings := rfl

@[simp] theorem State.judgeStoreLow_settings (s : State) (b : Bool) : (s.judgeStoreLow b).settings = s.settings := by
  unfold State.judgeStoreLow
  split <;> rfl

@[simp] theorem State.linkDown_settings (s : State) : s.linkDown.settings = s.settings := by
  unfold State.linkDown
  dsimp only
  split <;> rfl

@[simp] theorem Store.release_reserve (st : Store) (n : Nat) : (st.release n).reserve = st.reserve := by
  unfold Store.release
  split <;> rfl

@[simp] theorem foldl_release_reserve (chain : List Nat) (st : Store) :
    (chain.foldl Store.release st).reserve = st.reserve := by
  induction chain generalizing st with
  | nil => rfl
  | cons n chain ih => rw [List.foldl_cons, ih, Store.release_reserve]

@[simp] theorem State.endAbort_settings (s : State) : s.endAbort.settings = s.settings := by
  have h := s.store.release_reserve s.restore.sequencer.building
  unfold State.settings
  congr 1

@[simp] theorem State.takeCommitStrip_settings (s : State) (source : Nat) :
    (s.takeCommitStrip source).settings = s.settings := by
  unfold State.takeCommitStrip
  split
  · rfl
  · dsimp only
    rw [State.setSequencer_settings, State.judgeStoreLow_settings]
    rfl

@[simp] theorem State.examine_settings (s : State) : s.examine.settings = s.settings := by
  unfold State.examine
  split
  · simp
  · dsimp only
    split <;> simp

@[simp] theorem State.examineDue_settings (s : State) : s.examineDue.settings = s.settings := by
  unfold State.examineDue
  dsimp only
  split
  · simp
  · rw [State.nowOrLater_eq]
    split
    · rfl
    · rw [State.examine_settings]; rfl

@[simp] theorem State.settleStrip_settings (s : State) : s.settleStrip.settings = s.settings := by
  unfold State.settleStrip
  split <;> simp

@[simp] theorem State.resumeCommit_settings (s : State) : s.resumeCommit.settings = s.settings := by
  unfold State.resumeCommit
  split <;> simp

@[simp] theorem State.finishCommitStrip_settings (s : State) : s.finishCommitStrip.settings = s.settings := by
  unfold State.finishCommitStrip
  rw [State.examineDue_settings]
  rfl

@[simp] theorem State.abortCommit_settings (s : State) : s.abortCommit.settings = s.settings := by
  unfold State.abortCommit
  dsimp only
  split
  · rfl
  · rw [State.endAbort_settings]; rfl

@[simp] theorem State.startCommit_settings (s : State) (p n : Nat) (head : Version) :
    (s.startCommit p n head).settings = s.settings := by
  unfold State.startCommit
  rw [State.examineDue_settings]
  rfl

@[simp] theorem State.discard_settings (s : State) (p n : Nat) : (s.discard p n).settings = s.settings := by
  have h := s.store.release_reserve n
  unfold State.discard
  rw [State.resumeCommit_settings]
  unfold State.settings
  congr 1

@[simp] theorem State.retire_settings (s : State) (p : Nat) : (s.retire p).settings = s.settings := by
  have h := foldl_release_reserve (s.store.page p).chain s.store
  unfold State.retire
  rw [State.resumeCommit_settings]
  unfold State.settings
  congr 1

@[simp] theorem State.testClosing_settings (s : State) : s.testClosing.settings = s.settings := by
  unfold State.testClosing
  split
  · split <;> rfl
  · rfl

@[simp] theorem State.testClosingDue_settings (s : State) : s.testClosingDue.settings = s.settings := by
  unfold State.testClosingDue
  dsimp only
  split
  · rfl
  · rw [State.testClosing_settings]; rfl

@[simp] theorem State.withhold_settings (s : State) (j : Nat) (reason : Reason) :
    (s.withhold j reason).settings = s.settings := by
  have h := Reports.enables_setJob (r := s.reports) (j := j) (x := { s.reports.jobOf j with
    withheld := true, limit := (s.reports.jobOf j).limit || reason.limits }) rfl
  unfold State.settings
  congr 1
  exact funext h

@[simp] theorem State.charge_settings (s : State) (j p : Nat) (c : Charge) : (s.charge j p c).settings = s.settings := by
  have h := Reports.enables_setJob (r := s.reports) (j := j) (x := { s.reports.jobOf j with charged := true }) rfl
  have g := Meter.discounts_setAccount (m := s.meter) (a := (s.meter.job j).account)
    (x := { s.meter.account (s.meter.job j).account with
      balance := (s.meter.account (s.meter.job j).account).balance - c.fee
      charged := (s.meter.account (s.meter.job j).account).charged + c.fee }) rfl
  unfold State.settings
  congr 1
  · exact funext g
  · exact funext h

@[simp] theorem State.walkRead_settings (s : State) (t : Fin 32) (ap : Aperture) (k : Key) :
    (s.walkRead t ap k).settings = s.settings := by
  rcases s.walkRead_cases t ap k with h | ⟨strip, e, h⟩ <;> rw [h] <;> rfl

@[simp] theorem State.decodeRead_settings (s : State) (t : Fin 32) : (s.decodeRead t).settings = s.settings := by
  unfold State.decodeRead
  dsimp only
  (repeat' split) <;> simp

@[simp] theorem State.dropHead_settings (s : State) (w : HostWrite) (kind : FaultKind) :
    (s.dropHead w kind).settings = s.settings := by
  unfold State.dropHead
  rw [State.headLeaves_settings]
  unfold State.settings
  congr 1
  · exact (Reports.offer_frame _ _).1
  · exact funext fun j => congrArg JobEvents.enables (Reports.offer_enables _ _ j)

@[simp] theorem State.holdHead_settings (s : State) (w : HostWrite) (k : Fin 4) (strip : Nat) (released : Bool) :
    (s.holdHead w k strip released).settings = s.settings := by
  unfold State.holdHead
  cases released <;> rfl

@[simp] theorem State.startFresh_settings (s : State) (w : HostWrite) (kind : ApertureKind) (n : Option Nat) (k : Fin 4)
    (strip : Nat) : (s.startFresh w kind n k strip).settings = s.settings := by
  unfold State.startFresh
  rw [State.holdHead_settings, State.judgeStoreLow_settings]
  cases n <;> rfl

@[simp] theorem State.disposeFresh_settings (s : State) (w : HostWrite) (kind : ApertureKind) :
    (s.disposeFresh w kind).settings = s.settings := by
  unfold State.disposeFresh
  dsimp only
  (repeat' split) <;> simp

@[simp] theorem State.disposeHeld_settings (s : State) (w : HostWrite) (strip : Nat) :
    (s.disposeHeld w strip).settings = s.settings := by
  unfold State.disposeHeld
  (repeat' split) <;> simp

@[simp] theorem State.disposeTarget_settings (s : State) (w : HostWrite) (kind : ApertureKind) :
    (s.disposeTarget w kind).settings = s.settings := by
  unfold State.disposeTarget
  dsimp only
  (repeat' split) <;> simp

@[simp] theorem State.disposePage_settings (s : State) (w : HostWrite) (kind : ApertureKind) :
    (s.disposePage w kind).settings = s.settings := by
  unfold State.disposePage
  (repeat' split) <;> simp

@[simp] theorem State.disposeHead_settings (s : State) (w : HostWrite) : (s.disposeHead w).settings = s.settings := by
  unfold State.disposeHead
  dsimp only
  (repeat' split) <;> simp

@[simp] theorem State.slotIdle_settings (s : State) (k : Fin 4) (c : Copy) : (s.slotIdle k c).settings = s.settings := by
  simp [State.slotIdle]

@[simp] theorem State.heldCarriedOut_settings (s : State) (k : Fin 4) : (s.heldCarriedOut k).settings = s.settings := by
  unfold State.heldCarriedOut
  dsimp only
  split
  · rfl
  · split
    · rw [State.slotIdle_settings]; rfl
    · rfl

/-- Only the fields of the store port that hold settings matter to the settings. -/
theorem State.setPort_settings {s : State} {p : Port} (h1 : p.timing = s.port.timing) (h2 : p.policy = s.port.policy)
    (h3 : p.quietTime = s.port.quietTime) (h4 : p.agingLimit = s.port.agingLimit) :
    (s.setPort p).settings = s.settings := by
  unfold State.settings
  congr 1

@[simp] theorem State.copyWritten_settings (s : State) (k : Fin 4) : (s.copyWritten k).settings = s.settings := by
  unfold State.copyWritten State.releaseHeld
  dsimp only
  split
  · rfl
  · split
    · rw [foldl_joinLink]
      rfl
    · rfl

@[simp] theorem State.copyRead_settings (s : State) (k : Fin 4) (bytes : List Byte) :
    (s.copyRead k bytes).settings = s.settings := by
  unfold State.copyRead
  split <;> rfl

@[simp] theorem State.commitWritten_settings (s : State) : s.commitWritten.settings = s.settings := by
  unfold State.commitWritten
  dsimp only
  (repeat' split) <;> simp

@[simp] theorem State.commitRead_settings (s : State) (bytes : List Byte) : (s.commitRead bytes).settings = s.settings := by
  unfold State.commitRead
  dsimp only
  (repeat' split) <;> simp

@[simp] theorem State.arriveAll_settings (s : State) : s.arriveAll.settings = s.settings := by
  have h : ∀ (l : List Arrival) (s : State), (l.foldl State.arrive s).settings = s.settings := by
    intro l
    induction l with
    | nil => exact fun _ => rfl
    | cons a l ih => exact fun s => ih (s.arrive a)
  exact h _ _

/-- The end of a transfer keeps the settings (R162). -/
@[simp] theorem State.carryOut_settings (s : State) (a : Access) : (s.carryOut a).settings = s.settings := by
  cases a with
  | lineRead t strip line eligible abandoned =>
    unfold State.carryOut State.lineReadDone
    dsimp only
    split
    · rfl
    · split
      · rw [State.nowOrLater_eq]
        split
        · rfl
        · rw [State.arriveAll_settings]; rfl
      · rfl
  | lineWrite strip line data enables holder =>
    cases holder with
    | none => rfl
    | some k => exact (State.heldCarriedOut_settings _ k)
  | readSegment engine strip line dropped =>
    unfold State.carryOut State.readSegmentDone
    dsimp only
    (repeat' split) <;> simp
  | writeSegment engine strip line data dropped =>
    have h : (s.setMemory (Memory.store s.memory (lineAddress strip line) data)).settings = s.settings := rfl
    unfold State.carryOut State.writeSegmentDone
    dsimp only
    (repeat' split) <;> simp [h]

@[simp] theorem State.issueCopy_settings (s : State) (k : Fin 4) (c : Copy) : (s.issueCopy k c).settings = s.settings := by
  unfold State.issueCopy
  (repeat' split) <;> rfl

@[simp] theorem State.issueCommit_settings (s : State) : s.issueCommit.settings = s.settings := by
  unfold State.issueCommit
  dsimp only
  (repeat' split) <;> rfl

/-- An access that is issued leaves the port's settings. -/
theorem Port.issue_settings (p : Port) (a : Access) :
    (p.issue a).timing = p.timing ∧ (p.issue a).policy = p.policy ∧ (p.issue a).quietTime = p.quietTime ∧
    (p.issue a).agingLimit = p.agingLimit := by
  unfold Port.issue
  dsimp only
  split <;> exact ⟨rfl, rfl, rfl, rfl⟩

@[simp] theorem State.issueLink_settings (s : State) (now : Nat) (a : Access) (rest : List Access) :
    (s.setPort (s.port.issueLink now a rest)).settings = s.settings := by
  obtain ⟨h1, h2, h3, h4⟩ := s.port.issue_settings a
  unfold Port.issueLink
  dsimp only
  split <;> exact State.setPort_settings h1 h2 h3 h4

@[simp] theorem State.issueEngine_settings (s : State) (a : Access) (rest : List Access) :
    (s.setPort (s.port.issueEngine a rest)).settings = s.settings := by
  obtain ⟨h1, h2, h3, h4⟩ := s.port.issue_settings a
  exact State.setPort_settings h1 h2 h3 h4

@[simp] theorem State.endTransfer_settings (s : State) (now : Nat) (a : Access) (rest : List Access) :
    (s.setPort (s.port.endTransfer now a rest)).settings = s.settings := by
  obtain ⟨-, -, -, -, h1, h2, h3, h4, -⟩ := s.port.endTransfer_frame now a rest
  exact State.setPort_settings h1 h2 h3 h4

/-- A change of policy changes the policy and the bank machines (R164). -/
theorem Port.setPolicy_frame (p : Port) (policy : PagePolicy) :
    ∃ x banks, p.setPolicy policy = { p with policy := x, banks := banks } := by
  unfold Port.setPolicy
  split
  · exact ⟨_, _, rfl⟩
  · rw [foldl_setBank_frame]
    exact ⟨_, _, rfl⟩

/-- An account written with the discounts that it has keeps the settings. -/
theorem State.setAccount_settings {s : State} {a : Nat} {x : Account} (h : x.discounts = (s.meter.account a).discounts) :
    (s.setAccount a x).settings = s.settings := by
  unfold State.settings
  congr 1
  exact funext (Meter.discounts_setAccount h)

@[simp] theorem State.setJob_settings (s : State) (j : Nat) (x : Job) : (s.setJob j x).settings = s.settings := rfl

/-- A job's events written with the enables that they have keep the settings. -/
theorem State.setJobEvents_settings {s : State} {r : Reports} (hr : s.reports = r) {j : Nat} {x : JobEvents}
    (h : x.enables = (r.jobOf j).enables) : (s.setReports (r.setJob j x)).settings = s.settings := by
  subst hr
  unfold State.settings
  congr 1
  exact funext (Reports.enables_setJob h)

/-- Store contents written with the reserve that the store has keep the settings. -/
theorem State.setStore_settings {s : State} {st : Store} (h : st.reserve = s.store.reserve) :
    (s.setStore st).settings = s.settings := by
  unfold State.settings
  congr 1

theorem foldl_unpin_reserve (ps : List Purchase) (st : Store) : (ps.foldl Store.unpin st).reserve = st.reserve := by
  rw [foldl_unpin_frame]

/-! ### The settings after a command -/

/-- The settings `a`, but for those that command `c` sets, which are those of `b`. -/
def Settings.setBy (a b : Settings) : Instr → Settings
  | .powerOn _ => b
  | .resetEngine =>
    { b with
      strips := a.strips, wrapOrder := a.wrapOrder, timing := a.timing, policy := a.policy
      quietTime := a.quietTime, agingLimit := a.agingLimit }
  | .resetPinAssert => { a with enables := b.enables, jobEnables := b.jobEnables }
  | .setLinkOrder _ => { a with wrapOrder := b.wrapOrder }
  | .setAperture .. => { a with apertures := b.apertures }
  | .setStoreReserve _ => { a with reserve := b.reserve }
  | .loadCurve .. => { a with curves := b.curves }
  | .setDate _ => { a with date := b.date }
  | .setBands .. => { a with bands := b.bands }
  | .setRate .. => { a with rates := b.rates }
  | .setSurcharge _ => { a with surcharge := b.surcharge }
  | .openAccount _ | .setDiscount .. => { a with discounts := b.discounts }
  | .setLogMode .. => { a with threshold := b.threshold, mode := b.mode }
  | .setStoreTiming .. => { a with timing := b.timing }
  | .setPagePolicy _ => { a with policy := b.policy }
  | .setArbiter .. => { a with quietTime := b.quietTime, agingLimit := b.agingLimit }
  | .enableEvents _ => { a with enables := b.enables }
  | .enableJobEvents .. => { a with jobEnables := b.jobEnables }
  | _ => a

/-- A row of the archive link or of the engine whose body keeps the settings keeps them. -/
theorem State.live_settings {s : State} {body : State → State} (hb : (body s).settings = s.settings) :
    (s.live body).settings = s.settings :=
  State.live_keeps (P := fun u => u.settings = s.settings) rfl fun _ => hb

/-- A check of a rule keeps the settings. -/
theorem Reply.settings_of_check {s : State} {c : Prop} [Decidable c] {status : Status} {r : Reply}
    (hr : ¬ c → r.state.settings = s.settings) : (if c then s.refuse status else r).state.settings = s.settings :=
  Reply.of_check (P := fun u => u.settings = s.settings) rfl hr

/-- A management command whose rule keeps the settings keeps them. -/
theorem State.take_settings_kept {s : State} {c : Instr} {i : Bool} {body : State → Reply}
    (hb : (body s).state.settings = s.settings) : (s.take c i body).settings = s.settings :=
  State.take_keeps (P := fun u => u.settings = s.settings) rfl (fun _ _ _ h => h) fun _ _ => hb

/-- A management command changes the settings as its rule does. -/
theorem State.take_settings {s : State} {c d : Instr} {i : Bool} {body : State → Reply}
    (hs : s.settings = s.settings.setBy s.settings c)
    (hb : (body s).state.settings = s.settings.setBy (body s).state.settings c) :
    (s.take d i body).settings = s.settings.setBy (s.take d i body).settings c :=
  State.take_keeps (P := fun u => u.settings = s.settings.setBy u.settings c) hs (fun _ _ _ h => h) fun _ _ => hb

/-- What a command sets changes, and every other setting is kept. -/
theorem exec_settings {c : Instr} {s t : State} (e : exec c s = .next t) : t.settings = s.settings.setBy t.settings c := by
  cases c with
  | powerOn pins => rfl
  | resetPinAssert => cases e; rfl
  | managementTransactionStart | commandFrame | responseTransaction | otherTransaction =>
    cases e
    try dsimp only
    (repeat' split) <;> rfl
  | initBuildAppend | archiveLinkUp | readDataStart | readDataEnd | quietTimerExpiry | agingClockExpiry | bankOpenStart
  | rowCycleExpiry | openDelayExpiry | bankCloseStart | minimumOpenExpiry | writeRecoveryExpiry | closeDelayExpiry
  | turnaroundExpiry | transferStart =>
    cases e
    refine State.live_settings ?_
    try dsimp only
    (repeat' split) <;> rfl
  | lineRead tag address beat =>
    cases e
    refine State.live_settings ?_
    split
    · split
      · rfl
      · simp
    · rfl
  | lineWrite address data enables =>
    cases e
    refine State.live_settings ?_
    split
    · split
      · rfl
      · simp
    · rfl
  | readDecode | writeDisposal | archiveLinkDown | copySegmentIssue | transferEnd =>
    cases e
    refine State.live_settings ?_
    (repeat' split) <;> simp
  | arbiterIssue =>
    cases e
    refine State.live_settings ?_
    dsimp only
    (repeat' split) <;> simp
  | commitSegmentIssue =>
    cases e
    refine State.live_settings ?_
    dsimp only
    (repeat' split) <;> simp only [State.examine_settings, State.issueCommit_settings]
  | suspendAccount account | resumeAccount account =>
    cases e
    exact State.take_settings_kept (Reply.settings_of_check fun _ => Reply.settings_of_check fun _ =>
      State.setAccount_settings rfl)
  | closeAccount account =>
    cases e
    exact State.take_settings_kept (Reply.settings_of_check fun _ => Reply.settings_of_check fun _ =>
      Reply.settings_of_check fun _ => State.setAccount_settings rfl)
  | creditAccount account amount =>
    cases e
    exact State.take_settings_kept (Reply.settings_of_check fun _ => Reply.settings_of_check fun _ =>
      Reply.settings_of_check fun _ => Reply.settings_of_check fun _ => State.setAccount_settings rfl)
  | openJob job account ceiling =>
    cases e
    refine State.take_settings_kept (Reply.settings_of_check fun _ => Reply.settings_of_check fun _ =>
      Reply.settings_of_check fun _ => Reply.settings_of_check fun _ => Reply.settings_of_check fun _ => ?_)
    rw [State.ok_state, State.setAccount_settings, State.setJob_settings]
    rfl
  | freeJob job =>
    cases e
    refine State.take_settings_kept ?_
    dsimp only
    refine Reply.settings_of_check fun _ => Reply.settings_of_check fun _ => Reply.settings_of_check fun _ => ?_
    rw [State.ok_state, State.setJobEvents_settings, State.setJob_settings, State.setAccount_settings,
      State.setStore_settings (foldl_unpin_reserve _ _)] <;> rfl
  | ackJobEvents job mask =>
    cases e
    refine State.take_settings rfl ?_
    split
    · rfl
    · exact State.setJobEvents_settings rfl rfl
  | setPagePolicy policy =>
    cases e
    refine State.take_settings rfl ?_
    split
    · rfl
    · next x _ =>
      obtain ⟨y, banks, hx⟩ := s.port.setPolicy_frame x
      dsimp only [State.ok]
      rw [hx]
      rfl
  | setStoreReserve reserve =>
    cases e
    refine State.take_settings rfl ?_
    split
    · rfl
    · simp only [State.ok_state, State.resumeCommit_settings, State.judgeStoreLow_settings]
      rfl
  | closeEdition =>
    cases e
    refine State.take_settings rfl ?_
    split
    · exact State.testClosing_settings _
    · rfl
  | discardVersion | retirePage | commitRestoration | abortCommit =>
    cases e
    refine State.take_settings_kept ?_
    try dsimp only
    (repeat' split) <;> simp
  | _ =>
    cases e
    refine State.take_settings rfl ?_
    try dsimp only
    (repeat' split) <;> rfl

end Sys2Proof.Machine
end

section
/-! # Only its causes change a thing

The money of the accounts, the charge log and the store's bytes, and the settlement of OnlyCausesChange. -/

namespace Sys2Proof.Machine

/-! ### What a decode does -/

/-- The four ends of a decode: answered UNMAPPED, withheld, or walked, after a charge where the metering decision says so
(R19, R120). -/
theorem State.decodeRead_cases (s : State) (t : Fin 32) {ap : Aperture} {k : Key}
    (hap : ap = s.aperture (addressAperture (s.link.tag t).address)) (hk : k = addressKey (s.link.tag t).address) :
    s.decodeRead t = s.answerRead t unmappedAnswer ∨
    (∃ reason, s.decodeRead t = (s.withhold ap.job reason).answerRead t (fillAnswer .withheld ap.fill)) ∨
    s.decodeRead t = s.walkRead t ap k ∨
    ∃ c, s.chip.inInit = false ∧ ap.state = .enabled ∧ ap.kind = .reprint ∧
      s.meterDecision ap.restored ap.job k.page = .charged c ∧
      s.decodeRead t = (s.charge ap.job k.page c).walkRead t ap k := by
  unfold State.decodeRead
  dsimp only
  rw [← hap, ← hk]
  split
  · exact .inl rfl
  · next hi =>
    split
    · exact .inl rfl
    · next hs =>
      split
      · next hr =>
        split
        · next reason _ => exact .inr (.inl ⟨reason, rfl⟩)
        · exact .inr (.inr (.inl rfl))
        · next c hc =>
          refine .inr (.inr (.inr ⟨c, by simpa using hi, ?_, hr, hc, rfl⟩))
          cases h : ap.state with
          | disabled => exact absurd h hs
          | enabled => rfl
      · exact .inr (.inr (.inl rfl))

/-- A decode that the metering decision does not charge changes neither the accounts nor the log (R120, R141). -/
theorem State.decodeRead_of_not_charges {s : State} {t : Fin 32} (hd : (s.link.tag t).state = .decoding)
    (h : ¬ s.Charges (.readDecode t)) :
    (s.decodeRead t).meter.accounts = s.meter.accounts ∧ (s.decodeRead t).log = s.log := by
  rcases s.decodeRead_cases t rfl rfl with e | ⟨reason, e⟩ | e | ⟨c, hi, ha, hk, hc, -⟩
  · rw [e]; exact ⟨rfl, rfl⟩
  · rw [e]; exact ⟨rfl, rfl⟩
  · rw [e]; simp
  · exact absurd ⟨t, _, c, rfl, hd, hi, rfl, ha, hk, hc⟩ h

/-! ### The store's bytes -/

/-- The store's bytes change by the end of a transfer alone, POWER_ON apart (R151, R162). -/
theorem exec_memory {c : Instr} {s t : State} (e : exec c s = .next t) (hp : ∀ pins, c ≠ .powerOn pins)
    (hc : c ≠ .transferEnd) : t.memory = s.memory := by
  by_cases hm : .memory ∈ touches c
  · cases c with
    | powerOn pins => exact absurd rfl (hp pins)
    | transferEnd => exact absurd rfl hc
    | resetEngine =>
      cases e
      refine State.take_keeps (P := fun u => u.memory = s.memory) rfl (fun _ _ _ h => h) fun _ _ => ?_
      split <;> rfl
    | _ => simp [touches] at hm
  · exact (exec_sameBut e).memory hm

/-! ### The charge log -/

/-- Only charged reads number records (R141, R142); a reset goes on with the next number (R148, R192). -/
theorem exec_nextSequence {c : Instr} {s t : State} (e : exec c s = .next t) (hp : ∀ pins, c ≠ .powerOn pins)
    (hc : ¬ s.Charges c) : t.log.nextSequence = s.log.nextSequence := by
  by_cases hm : .log ∈ touches c
  · cases c with
    | powerOn pins => exact absurd rfl (hp pins)
    | readDecode tag =>
      cases e
      refine State.live_keeps (P := fun u => u.log.nextSequence = s.log.nextSequence) rfl fun _ => ?_
      split
      · next hd => rw [(State.decodeRead_of_not_charges hd hc).2]
      · rfl
    | resetEngine | readCharges | setLogMode =>
      cases e
      refine State.take_keeps (P := fun u => u.log.nextSequence = s.log.nextSequence) rfl (fun _ _ _ h => h) fun _ _ => ?_
      (repeat' split) <;> rfl
    | _ => simp [touches] at hm
  · rw [(exec_sameBut e).log hm]

/-- Records join the log by charged reads, and leave it by READ CHARGES (R141, R143). -/
theorem exec_charges {c : Instr} {s t : State} (e : exec c s = .next t) (hp : ∀ pins, c ≠ .powerOn pins)
    (hc : ¬ s.Charges c) (hr : ∀ k, c ≠ .readCharges k) : t.log.charges = s.log.charges := by
  by_cases hm : .log ∈ touches c
  · cases c with
    | powerOn pins => exact absurd rfl (hp pins)
    | readCharges most => exact absurd rfl (hr most)
    | readDecode tag =>
      cases e
      refine State.live_keeps (P := fun u => u.log.charges = s.log.charges) rfl fun _ => ?_
      split
      · next hd => rw [(State.decodeRead_of_not_charges hd hc).2]
      · rfl
    | resetEngine | setLogMode =>
      cases e
      refine State.take_keeps (P := fun u => u.log.charges = s.log.charges) rfl (fun _ _ _ h => h) fun _ _ => ?_
      (repeat' split) <;> rfl
    | _ => simp [touches] at hm
  · rw [(exec_sameBut e).log hm]

/-! ### The money of the accounts -/

/-- The figures of an account (R105). -/
def Account.money (a : Account) : Nat × Nat × Nat := (a.balance, a.credited, a.charged)

/-- Every account's figures are as they were. -/
def State.SameMoney (s t : State) : Prop := ∀ a, (t.meter.account a).money = (s.meter.account a).money

theorem State.SameMoney.refl (s : State) : s.SameMoney s := fun _ => rfl

/-- An account written with the figures that it has. -/
theorem State.setAccount_sameMoney {s u : State} {a : Nat} {x : Account} (hu : u.meter.accounts = s.meter.accounts)
    (h : x.money = (s.meter.account a).money) : s.SameMoney (u.setAccount a x) := by
  intro b
  have hb : u.meter.account b = s.meter.account b := by simp only [Meter.account, hu]
  show ((u.meter.setAccount a x).account b).money = _
  rw [Meter.account_setAccount]
  split
  · next e => rw [e, h]
  · rw [hb]

/-- A check of a rule keeps the money. -/
theorem Reply.sameMoney_of_check {s : State} {c : Prop} [Decidable c] {status : Status} {r : Reply}
    (hr : ¬ c → s.SameMoney r.state) : s.SameMoney (if c then s.refuse status else r).state :=
  Reply.of_check (P := s.SameMoney) (State.SameMoney.refl s) hr

theorem State.take_sameMoney {s : State} {c : Instr} {i : Bool} {body : State → Reply}
    (hb : s.SameMoney (body s).state) : s.SameMoney (s.take c i body) :=
  State.take_keeps (P := s.SameMoney) (State.SameMoney.refl s) (fun _ _ _ h => h) fun _ _ => hb

/-- The figures of an account change by CREDIT ACCOUNT, OPEN ACCOUNT and charged reads, resets apart (R105). -/
theorem exec_sameMoney {c : Instr} {s t : State} (e : exec c s = .next t) (hp : ∀ pins, c ≠ .powerOn pins)
    (hr : c ≠ .resetEngine) (hc : ¬ s.Charges c) (ho : ∀ a, c ≠ .openAccount a) (ha : ∀ a n, c ≠ .creditAccount a n) :
    s.SameMoney t := by
  by_cases hm : .meter ∈ touches c
  · cases c with
    | powerOn pins => exact absurd rfl (hp pins)
    | resetEngine => exact absurd rfl hr
    | openAccount a => exact absurd rfl (ho a)
    | creditAccount a n => exact absurd rfl (ha a n)
    | readDecode tag =>
      cases e
      refine State.live_keeps (P := s.SameMoney) (State.SameMoney.refl s) fun _ => ?_
      split
      · next hd =>
        intro a
        simp only [Meter.account, (State.decodeRead_of_not_charges hd hc).1]
      · exact State.SameMoney.refl s
    | suspendAccount | resumeAccount =>
      cases e
      exact State.take_sameMoney (Reply.sameMoney_of_check fun _ => Reply.sameMoney_of_check fun _ =>
        State.setAccount_sameMoney rfl rfl)
    | closeAccount account =>
      cases e
      exact State.take_sameMoney (Reply.sameMoney_of_check fun _ => Reply.sameMoney_of_check fun _ =>
        Reply.sameMoney_of_check fun _ => State.setAccount_sameMoney rfl rfl)
    | setDiscount account t1 t2 d1 d2 =>
      cases e
      exact State.take_sameMoney (Reply.sameMoney_of_check fun _ => Reply.sameMoney_of_check fun _ =>
        Reply.sameMoney_of_check fun _ => Reply.sameMoney_of_check fun _ => State.setAccount_sameMoney rfl rfl)
    | openJob job account ceiling =>
      cases e
      exact State.take_sameMoney (Reply.sameMoney_of_check fun _ => Reply.sameMoney_of_check fun _ =>
        Reply.sameMoney_of_check fun _ => Reply.sameMoney_of_check fun _ => Reply.sameMoney_of_check fun _ =>
          State.setAccount_sameMoney rfl rfl)
    | freeJob job =>
      cases e
      refine State.take_sameMoney (Reply.sameMoney_of_check fun _ => Reply.sameMoney_of_check fun _ =>
        Reply.sameMoney_of_check fun _ => ?_)
      intro a
      have h := State.setAccount_sameMoney (s := s) (u := s) (a := (s.meter.job job).account) (x :=
        { s.meter.account (s.meter.job job).account with jobs := (s.meter.account (s.meter.job job).account).jobs - 1 })
        rfl rfl a
      exact h
    | closeJob | setDate | setBands | setRate | setSurcharge =>
      cases e
      refine State.take_sameMoney ?_
      try dsimp only
      (repeat' split) <;> exact fun _ => rfl
    | _ => simp [touches] at hm
  · exact fun a => by rw [(exec_sameBut e).meter hm]

/-! ### The settlement -/

/-- Settles O60: by the blocks that a command touches, and the settings that it sets. -/
theorem onlyCausesChange : Obligations.OnlyCausesChange := by
  intro c s t e hp
  have hs := exec_settings e
  have get : ∀ {α : Type} (f : Settings → α), f t.settings = f (s.settings.setBy t.settings c) := fun f => congrArg f hs
  refine ⟨exec_memory e hp, ?_, exec_nextSequence e hp, exec_charges e hp, ?_, ?_, ?_, ?_, fun hr => ?_⟩
  · cases c with
    | powerOn pins => exact absurd rfl (hp pins)
    | _ => exact get Settings.strips
  · intro h
    cases c with
    | setLinkOrder o => exact absurd rfl (h o)
    | powerOn pins => exact absurd rfl (hp pins)
    | _ => exact get Settings.wrapOrder
  · intro h
    cases c with
    | setStoreTiming o l m r w d => exact absurd rfl (h o l m r w d)
    | powerOn pins => exact absurd rfl (hp pins)
    | _ => exact get Settings.timing
  · intro h
    cases c with
    | setPagePolicy p => exact absurd rfl (h p)
    | powerOn pins => exact absurd rfl (hp pins)
    | _ => exact get Settings.policy
  · intro h
    cases c with
    | setArbiter q a => exact absurd rfl (h q a)
    | powerOn pins => exact absurd rfl (hp pins)
    | _ => exact ⟨get Settings.quietTime, get Settings.agingLimit⟩
  · refine ⟨?_, ?_, ?_, ?_, ?_, ?_, ?_, ?_, ?_, ?_, ?_, ?_⟩
    · intro h
      cases c with
      | setStoreReserve r => exact absurd rfl (h r)
      | resetEngine => exact absurd rfl hr
      | powerOn pins => exact absurd rfl (hp pins)
      | _ => exact get Settings.reserve
    · intro h
      cases c with
      | setDate d => exact absurd rfl (h d)
      | resetEngine => exact absurd rfl hr
      | powerOn pins => exact absurd rfl (hp pins)
      | _ => exact get Settings.date
    · intro h
      cases c with
      | setBands a b d => exact absurd rfl (h a b d)
      | resetEngine => exact absurd rfl hr
      | powerOn pins => exact absurd rfl (hp pins)
      | _ => exact get Settings.bands
    · intro h
      cases c with
      | setRate k a b d f => exact absurd rfl (h k a b d f)
      | resetEngine => exact absurd rfl hr
      | powerOn pins => exact absurd rfl (hp pins)
      | _ => exact get Settings.rates
    · intro h
      cases c with
      | setSurcharge n => exact absurd rfl (h n)
      | resetEngine => exact absurd rfl hr
      | powerOn pins => exact absurd rfl (hp pins)
      | _ => exact get Settings.surcharge
    · intro h
      cases c with
      | setLogMode n m => exact absurd rfl (h n m)
      | resetEngine => exact absurd rfl hr
      | powerOn pins => exact absurd rfl (hp pins)
      | _ => exact ⟨get Settings.threshold, get Settings.mode⟩
    · intro h
      cases c with
      | setAperture a st k f r j g => exact absurd rfl (h a st k f r j g)
      | resetEngine => exact absurd rfl hr
      | powerOn pins => exact absurd rfl (hp pins)
      | _ => exact get Settings.apertures
    · intro h
      cases c with
      | loadCurve k q vs => exact absurd rfl (h k q vs)
      | resetEngine => exact absurd rfl hr
      | powerOn pins => exact absurd rfl (hp pins)
      | _ => exact get Settings.curves
    · intro h hx
      cases c with
      | enableEvents m => exact absurd rfl (h m)
      | resetPinAssert => exact absurd rfl hx
      | resetEngine => exact absurd rfl hr
      | powerOn pins => exact absurd rfl (hp pins)
      | _ => exact get Settings.enables
    · intro h hx j
      cases c with
      | enableJobEvents i m => exact absurd rfl (h i m)
      | resetPinAssert => exact absurd rfl hx
      | resetEngine => exact absurd rfl hr
      | powerOn pins => exact absurd rfl (hp pins)
      | _ => 
        have g := congrFun (get Settings.jobEnables) j
        exact ⟨congrArg (·.1) g, congrArg (·.2.1) g, congrArg (·.2.2) g⟩
    · intro ho h a
      cases c with
      | openAccount b => exact absurd rfl (ho b)
      | setDiscount b x y d f => exact absurd rfl (h b x y d f)
      | resetEngine => exact absurd rfl hr
      | powerOn pins => exact absurd rfl (hp pins)
      | _ => 
        have g := congrFun (get Settings.discounts) a
        exact ⟨congrArg (·.1) g, congrArg (·.2.1) g, congrArg (·.2.2.1) g, congrArg (·.2.2.2) g⟩
    · intro hc ho ha a
      have g := exec_sameMoney e hp hr hc ho ha a
      exact ⟨congrArg (·.1) g, congrArg (·.2.1) g, congrArg (·.2.2) g⟩

end Sys2Proof.Machine
end

section
/-! # What a step keeps: settings, memory, log, faults and the management link

The parts of `State.Sound` that rest on one block alone. -/

namespace Sys2Proof.Machine

/-! ### The settings in their ranges -/

/-- Ranges of settings are kept with the settings. -/
theorem State.SettingsInRange.congr {s t : State} (h : s.SettingsInRange) (e : t.settings = s.settings) :
    t.SettingsInRange where
  reserve := by
    rw [show t.store.reserve = s.store.reserve from congrArg Settings.reserve e,
      show t.chip.strips = s.chip.strips from congrArg Settings.strips e]
    exact h.reserve
  discounts a := by
    have g := congrFun (congrArg Settings.discounts e) a
    rw [show (t.meter.account a).t1 = (s.meter.account a).t1 from congrArg (·.1) g,
      show (t.meter.account a).t2 = (s.meter.account a).t2 from congrArg (·.2.1) g,
      show (t.meter.account a).d1 = (s.meter.account a).d1 from congrArg (·.2.2.1) g,
      show (t.meter.account a).d2 = (s.meter.account a).d2 from congrArg (·.2.2.2) g]
    exact h.discounts a
  date := by
    rw [show t.meter.date = s.meter.date from congrArg Settings.date e]
    exact h.date
  bands := by
    rw [show t.meter.bands = s.meter.bands from congrArg Settings.bands e]
    exact h.bands
  rates c b := by
    have g : t.meter.rates = s.meter.rates := congrArg Settings.rates e
    rw [Meter.rate, g]
    exact h.rates c b
  surcharge := by
    rw [show t.meter.surcharge = s.meter.surcharge from congrArg Settings.surcharge e]
    exact h.surcharge
  threshold := by
    rw [show t.log.threshold = s.log.threshold from congrArg Settings.threshold e]
    exact h.threshold
  quietTime := by
    rw [show t.port.quietTime = s.port.quietTime from congrArg Settings.quietTime e]
    exact h.quietTime
  agingLimit := by
    rw [show t.port.agingLimit = s.port.agingLimit from congrArg Settings.agingLimit e]
    exact h.agingLimit
  timing := by
    rw [show t.port.timing = s.port.timing from congrArg Settings.timing e]
    exact h.timing

/-- A setting is stored in its range. -/
theorem State.take_settingsInRange {s : State} {c : Instr} {i : Bool} {body : State → Reply} (h : s.SettingsInRange)
    (hb : (body s).state.SettingsInRange) : (s.take c i body).SettingsInRange :=
  State.take_keeps h (fun _ _ _ h => h.congr rfl) fun _ _ => hb

theorem Meter.rate_setRate_le {m : Meter} {v : Nat} (hv : v ≤ 65535) (k b : Nat) (h : ∀ c d, m.rate c d ≤ 65535) (c d : Nat) :
    (m.setRate k b v).rate c d ≤ 65535 := by
  have := Table.get_put m.rates 65535 (4 * k + b) v (4 * c + d)
  unfold Meter.rate Meter.setRate
  rw [this]
  split
  · exact hv
  · exact h c d

/-- The discounts of a written account are in their ranges when those written are. -/
theorem Meter.discounts_setAccount_inRange {m : Meter} {a : Nat} {x : Account}
    (h : ∀ b, 1 ≤ (m.account b).t1 ∧ (m.account b).t1 < (m.account b).t2 ∧ (m.account b).t2 ≤ 128 ∧
      (m.account b).d1 ≤ 100 ∧ (m.account b).d2 ≤ 100)
    (hx : 1 ≤ x.t1 ∧ x.t1 < x.t2 ∧ x.t2 ≤ 128 ∧ x.d1 ≤ 100 ∧ x.d2 ≤ 100) (b : Nat) :
    1 ≤ ((m.setAccount a x).account b).t1 ∧ ((m.setAccount a x).account b).t1 < ((m.setAccount a x).account b).t2 ∧
      ((m.setAccount a x).account b).t2 ≤ 128 ∧ ((m.setAccount a x).account b).d1 ≤ 100 ∧
      ((m.setAccount a x).account b).d2 ≤ 100 := by
  rw [Meter.account_setAccount]
  split
  · exact hx
  · exact h b

/-- The timings are stored in their ranges (R163). -/
theorem storedTiming_inRange (o c m r w t : Nat) :
    5 ≤ (storedTiming o c m r w t).openDelay ∧ (storedTiming o c m r w t).openDelay ≤ 100 ∧
    5 ≤ (storedTiming o c m r w t).closeDelay ∧ (storedTiming o c m r w t).closeDelay ≤ 100 ∧
    10 ≤ (storedTiming o c m r w t).minimumOpen ∧ (storedTiming o c m r w t).minimumOpen ≤ 200 ∧
    (storedTiming o c m r w t).minimumOpen + (storedTiming o c m r w t).closeDelay ≤ (storedTiming o c m r w t).rowCycle ∧
    (storedTiming o c m r w t).rowCycle ≤ 300 ∧
    5 ≤ (storedTiming o c m r w t).writeRecovery ∧ (storedTiming o c m r w t).writeRecovery ≤ 100 ∧
    1 ≤ (storedTiming o c m r w t).turnaround ∧ (storedTiming o c m r w t).turnaround ≤ 50 := by
  simp only [storedTiming, clamp]
  omega

/-- The settings that power-on and an engine reset leave are in their ranges. -/
theorem State.engineReset_settingsInRange {s : State} (h : s.SettingsInRange) : s.engineReset.SettingsInRange where
  reserve := by
    show s.chip.strips / 16 ≤ s.chip.strips / 2
    omega
  discounts _ := by
    show 1 ≤ 64 ∧ 64 < 128 ∧ 128 ≤ 128 ∧ 0 ≤ 100 ∧ 0 ≤ 100
    omega
  date := Nat.zero_le _
  bands := by
    show 1 < 25 ∧ 25 < 75 ∧ 75 ≤ 255
    omega
  rates _ _ := Nat.le_refl _
  surcharge := Nat.zero_le _
  threshold := by
    show 1 ≤ 1 ∧ 1 ≤ 1024
    omega
  quietTime := h.quietTime
  agingLimit := h.agingLimit
  timing := h.timing

theorem State.powerOn_settingsInRange (n now k : Nat) : (State.powerOn n now k).SettingsInRange where
  reserve := by
    show n / 16 ≤ n / 2
    omega
  discounts _ := by
    show 1 ≤ 64 ∧ 64 < 128 ∧ 128 ≤ 128 ∧ 0 ≤ 100 ∧ 0 ≤ 100
    omega
  date := Nat.zero_le _
  bands := by
    show 1 < 25 ∧ 25 < 75 ∧ 75 ≤ 255
    omega
  rates _ _ := Nat.le_refl _
  surcharge := Nat.zero_le _
  threshold := by
    show 1 ≤ 1 ∧ 1 ≤ 1024
    omega
  quietTime := by
    show 500 ≤ 10000
    omega
  agingLimit := by
    show 1 ≤ 50 ∧ 50 ≤ 1000
    omega
  timing := by
    show 5 ≤ 15 ∧ 15 ≤ 100 ∧ 5 ≤ 15 ∧ 15 ≤ 100 ∧ 10 ≤ 40 ∧ 40 ≤ 200 ∧ 40 + 15 ≤ 60 ∧ 60 ≤ 300 ∧ 5 ≤ 15 ∧ 15 ≤ 100 ∧
      1 ≤ 8 ∧ 8 ≤ 50
    omega

/-- Every command keeps the settings in their ranges. -/
theorem exec_settingsInRange {c : Instr} {s t : State} (e : exec c s = .next t) (h : s.SettingsInRange) :
    t.SettingsInRange := by
  have hs := exec_settings e
  cases c with
  | powerOn pins => cases e; exact (State.powerOn_settingsInRange _ s.chip.now (s.chip.powerOns + 1)).congr rfl
  | resetEngine =>
    cases e
    refine State.take_settingsInRange h ?_
    split
    · exact State.engineReset_settingsInRange h
    · exact h
  | resetPinAssert =>
    cases e
    exact { h with }
  | setLinkOrder order =>
    cases e
    refine State.take_settingsInRange h ?_
    split
    · exact h
    · exact { h with }
  | setAperture =>
    cases e
    refine State.take_settingsInRange h ?_
    (repeat' split) <;> exact { h with }
  | setStoreReserve reserve =>
    cases e
    refine State.take_settingsInRange h (Reply.of_check h fun hr => ?_)
    refine State.SettingsInRange.congr (s := s.setStore { s.store with reserve := reserve })
      { h with reserve := by simpa using hr } ?_
    simp
  | loadCurve =>
    cases e
    exact State.take_settingsInRange h (Reply.of_check h fun hr => { h with })
  | setDate day =>
    cases e
    exact State.take_settingsInRange h (Reply.of_check h fun h1 => Reply.of_check h fun h2 =>
      { h with date := Nat.le_of_not_lt h1 })
  | setBands a1 a2 a3 =>
    cases e
    refine State.take_settingsInRange h (Reply.of_check h fun h1 => Reply.of_check h fun h2 => { h with bands := ?_ })
    show a1 < a2 ∧ a2 < a3 ∧ a3 ≤ 255
    omega
  | setRate k r0 r1 r2 r3 =>
    cases e
    refine State.take_settingsInRange h (Reply.of_check h fun h1 => { h with rates := ?_ })
    exact Meter.rate_setRate_le (by omega) _ _ (Meter.rate_setRate_le (by omega) _ _
      (Meter.rate_setRate_le (by omega) _ _ (Meter.rate_setRate_le (by omega) _ _ h.rates)))
  | setSurcharge surcharge =>
    cases e
    exact State.take_settingsInRange h (Reply.of_check h fun h1 => { h with surcharge := Nat.min_le_left _ _ })
  | openAccount a =>
    cases e
    refine State.take_settingsInRange h (Reply.of_check h fun h1 => Reply.of_check h fun h2 => { h with discounts := ?_ })
    refine Meter.discounts_setAccount_inRange h.discounts ?_
    show 1 ≤ 64 ∧ 64 < 128 ∧ 128 ≤ 128 ∧ 0 ≤ 100 ∧ 0 ≤ 100
    omega
  | setDiscount a t1 t2 d1 d2 =>
    cases e
    refine State.take_settingsInRange h (Reply.of_check h fun h1 => Reply.of_check h fun h2 => Reply.of_check h fun h3 =>
      Reply.of_check h fun h4 => { h with discounts := ?_ })
    refine Meter.discounts_setAccount_inRange h.discounts ?_
    show 1 ≤ t1 ∧ t1 < t2 ∧ t2 ≤ 128 ∧ min 100 d1 ≤ 100 ∧ min 100 d2 ≤ 100
    omega
  | setLogMode threshold mode =>
    cases e
    refine State.take_settingsInRange h ?_
    split
    · exact h
    · refine Reply.of_check h fun h1 => { h with threshold := ?_ }
      show 1 ≤ threshold ∧ threshold ≤ 1024
      have : Config.logCapacity = 1024 := rfl
      omega
  | setStoreTiming o c m r w t =>
    cases e
    exact State.take_settingsInRange h { h with timing := storedTiming_inRange o c m r w t }
  | setPagePolicy policy =>
    cases e
    refine State.take_settingsInRange h ?_
    split
    · exact h
    · next x _ =>
      obtain ⟨y, banks, hx⟩ := s.port.setPolicy_frame x
      dsimp only [State.ok]
      rw [hx]
      exact { h with }
  | setArbiter quietTime agingLimit =>
    cases e
    refine State.take_settingsInRange h { h with quietTime := Nat.min_le_left _ _, agingLimit := ?_ }
    show 1 ≤ clamp 1 1000 agingLimit ∧ clamp 1 1000 agingLimit ≤ 1000
    simp only [clamp]
    omega
  | enableEvents mask =>
    cases e
    exact State.take_settingsInRange h { h with }
  | enableJobEvents job mask =>
    cases e
    refine State.take_settingsInRange h (Reply.of_check h fun _ => ?_)
    dsimp only [State.ok]
    exact { h with }
  | _ => exact h.congr hs

end Sys2Proof.Machine
end

section
/-! # What the sequencer's operations and the end of a transfer change

The fields that an examination, an abort, a release or the end of a transfer changes at most: whatever rests on the others is
kept by all of them. -/

namespace Sys2Proof.Machine

/-! ### The sequencer's operations -/

/-- `t` differs from `s` at most in what the commit sequencer works on: pages, versions, strips and the free strip queue, the
sequencer itself with the count of occasions, and the device statuses. -/
def State.OnlyCommit (s t : State) : Prop :=
  t = { s with
    store := { s.store with
      pages := t.store.pages, versions := t.store.versions, strips := t.store.strips, freeQueue := t.store.freeQueue }
    restore := { s.restore with sequencer := t.restore.sequencer, occasions := t.restore.occasions }
    reports := { s.reports with statuses := t.reports.statuses } }

theorem State.OnlyCommit.refl (s : State) : s.OnlyCommit s := rfl

theorem State.OnlyCommit.trans {s t u : State} (h : s.OnlyCommit t) (g : t.OnlyCommit u) : s.OnlyCommit u := by
  unfold State.OnlyCommit at h g ⊢
  rw [h] at g
  exact g

theorem State.setSequencer_onlyCommit (s : State) (q : Sequencer) : s.OnlyCommit (s.setSequencer q) := rfl

theorem State.judgeStoreLow_onlyCommit (s : State) (b : Bool) : s.OnlyCommit (s.judgeStoreLow b) := by
  unfold State.judgeStoreLow
  split <;> rfl

theorem State.completeCommit_onlyCommit (s : State) : s.OnlyCommit s.completeCommit := rfl

theorem State.waitCommit_onlyCommit (s : State) : s.OnlyCommit s.waitCommit := rfl

/-- A release changes versions, strips and the free strip queue (R29). -/
theorem Store.release_frame (st : Store) (n : Nat) :
    st.release n = { st with
      versions := (st.release n).versions, strips := (st.release n).strips, freeQueue := (st.release n).freeQueue } := by
  unfold Store.release
  split <;> rfl

theorem State.endAbort_onlyCommit (s : State) : s.OnlyCommit s.endAbort := by
  unfold State.OnlyCommit State.endAbort
  dsimp only
  rw [s.store.release_frame s.restore.sequencer.building]
  rfl

theorem State.takeCommitStrip_onlyCommit (s : State) (source : Nat) : s.OnlyCommit (s.takeCommitStrip source) := by
  unfold State.takeCommitStrip
  split
  · exact .refl s
  · dsimp only
    refine .trans ?_ (State.setSequencer_onlyCommit _ _)
    refine .trans ?_ (State.judgeStoreLow_onlyCommit _ _)
    rfl

theorem State.examine_onlyCommit (s : State) : s.OnlyCommit s.examine := by
  unfold State.examine
  split
  · exact s.completeCommit_onlyCommit
  · dsimp only
    split
    · exact .trans (s.setSequencer_onlyCommit _) (State.takeCommitStrip_onlyCommit _ _)
    · exact .trans (s.setSequencer_onlyCommit _) (State.waitCommit_onlyCommit _)

theorem State.examineDue_onlyCommit (s : State) : s.OnlyCommit s.examineDue := by
  unfold State.examineDue
  dsimp only
  split
  · exact s.completeCommit_onlyCommit
  · rw [State.nowOrLater_eq]
    split
    · rfl
    · refine .trans ?_ (State.examine_onlyCommit _)
      rfl

theorem State.settleStrip_onlyCommit (s : State) : s.OnlyCommit s.settleStrip := by
  unfold State.settleStrip
  split
  · exact s.examine_onlyCommit
  · exact .refl s

theorem State.resumeCommit_onlyCommit (s : State) : s.OnlyCommit s.resumeCommit := by
  unfold State.resumeCommit
  split
  · exact .trans (s.setSequencer_onlyCommit _) (State.examineDue_onlyCommit _)
  · exact .refl s

theorem State.finishCommitStrip_onlyCommit (s : State) : s.OnlyCommit s.finishCommitStrip := by
  unfold State.finishCommitStrip
  refine .trans ?_ (State.examineDue_onlyCommit _)
  rfl

theorem State.startCommit_onlyCommit (s : State) (p n : Nat) (head : Version) : s.OnlyCommit (s.startCommit p n head) := by
  unfold State.startCommit
  refine .trans ?_ (State.examineDue_onlyCommit _)
  rfl

theorem State.discard_onlyCommit (s : State) (p n : Nat) : s.OnlyCommit (s.discard p n) := by
  unfold State.discard
  refine .trans ?_ (State.resumeCommit_onlyCommit _)
  rw [s.store.release_frame n]
  rfl

theorem foldl_release_frame (chain : List Nat) (st : Store) :
    chain.foldl Store.release st = { st with
      versions := (chain.foldl Store.release st).versions, strips := (chain.foldl Store.release st).strips
      freeQueue := (chain.foldl Store.release st).freeQueue } := by
  induction chain generalizing st with
  | nil => rfl
  | cons n chain ih =>
    have h := ih (st.release n)
    rw [List.foldl_cons]
    generalize chain.foldl Store.release (st.release n) = x at h ⊢
    rw [st.release_frame n] at h
    exact h

theorem State.commitWritten_onlyCommit (s : State) : s.OnlyCommit s.commitWritten := by
  unfold State.commitWritten
  dsimp only
  split
  · exact .refl s
  · exact .refl s
  · exact s.endAbort_onlyCommit
  · split
    · exact s.finishCommitStrip_onlyCommit
    · exact s.setSequencer_onlyCommit _

theorem State.commitRead_onlyCommit (s : State) (bytes : List Byte) : s.OnlyCommit (s.commitRead bytes) := by
  unfold State.commitRead
  dsimp only
  split
  · exact .refl s
  · exact .refl s
  · exact s.endAbort_onlyCommit
  · exact s.setSequencer_onlyCommit _

/-! ### The ends of a write's disposal -/

/-- What the disposal of `w` has found when it starts a fresh strip (R56 to R59): an ENABLED aperture, a page that is present,
no OPEN head that holds the strip index, a version to write or room and a free record for one, a free strip, an IDLE slot
and a place in the hold queue. -/
structure State.StartsFresh (s : State) (w : HostWrite) (n : Option Nat) (slot : Fin 4) (strip : Nat) : Prop where
  enabled : (s.aperture (addressAperture w.address)).state = .enabled
  present : (s.store.page (addressKey w.address).page).state ≠ .absent
  needs : s.NeedsFresh (addressKey w.address)
  version :
    n = none ∧ s.store.needsVersion (addressKey w.address).page = false ∨
    ∃ m, n = some m ∧ s.store.needsVersion (addressKey w.address).page = true ∧
      (s.store.page (addressKey w.address).page).versionCount < 16 ∧ s.store.freeVersion = some m
  queue : ∃ rest, s.store.freeQueue = strip :: rest
  idle : s.store.idleSlot = some slot
  room : s.store.holdFree = true

/-- The ends of a disposal: the head is dropped, has no effect, is carried, held or waits, or starts a fresh strip (R56 to
R59). -/
inductive State.Disposed (s : State) (w : HostWrite) : State → Prop
  | dropped (kind : FaultKind) : s.Disposed w (s.dropHead w kind)
  | left : s.Disposed w s.headLeaves
  | carried (strip : Nat) : s.Disposed w (s.carryHead w strip)
  | held (k : Fin 4) (strip : Nat) (released : Bool) (room : s.store.holdFree = true) :
    s.Disposed w (s.holdHead w k strip released)
  | waits : s.Disposed w s.headWaits
  | fresh (kind : ApertureKind) (n : Option Nat) (slot : Fin 4) (strip : Nat) (start : s.StartsFresh w n slot strip) :
    s.Disposed w (s.startFresh w kind n slot strip)

theorem State.disposeFresh_disposed {s : State} {w : HostWrite} (kind : ApertureKind)
    (ha : (s.aperture (addressAperture w.address)).state = .enabled)
    (hp : (s.store.page (addressKey w.address).page).state ≠ .absent) (hn : s.NeedsFresh (addressKey w.address)) :
    s.Disposed w (s.disposeFresh w kind) := by
  unfold State.disposeFresh
  dsimp only
  split
  · exact .dropped _
  · next hc =>
    split
    · exact .dropped _
    · next n hv =>
      split
      · exact .dropped _
      · next strip rest hq =>
        split
        · exact .dropped _
        · split
          · next slot hi hr =>
            refine .fresh kind n slot strip ⟨ha, hp, hn, ?_, ⟨rest, hq⟩, hi, hr⟩
            by_cases hw : s.store.needsVersion (addressKey w.address).page = true
            · rw [if_pos hw] at hv
              obtain ⟨m, hm, rfl⟩ := Option.map_eq_some_iff.1 hv
              exact .inr ⟨m, rfl, hw, Nat.lt_of_not_le fun h => hc ⟨hw, h⟩, hm⟩
            · rw [if_neg hw] at hv
              cases hv
              exact .inl ⟨rfl, by simpa using hw⟩
          · exact .waits

theorem State.disposeHeld_disposed (s : State) (w : HostWrite) (strip : Nat) : s.Disposed w (s.disposeHeld w strip) := by
  unfold State.disposeHeld
  split
  · exact .carried _
  · split
    · next hr => exact .held _ _ _ hr
    · exact .waits
  · exact .waits
  · exact .waits

theorem State.disposeTarget_disposed {s : State} {w : HostWrite} (kind : ApertureKind)
    (ha : (s.aperture (addressAperture w.address)).state = .enabled)
    (hp : (s.store.page (addressKey w.address).page).state ≠ .absent) : s.Disposed w (s.disposeTarget w kind) := by
  unfold State.disposeTarget
  dsimp only
  split
  · exact .left
  · split
    · next hh => exact State.disposeFresh_disposed kind ha hp fun v hv => by rw [hh] at hv; cases hv
    · next v hh =>
      split
      · exact s.disposeHeld_disposed w _
      · next hx =>
        refine State.disposeFresh_disposed kind ha hp fun u hu hl => ?_
        rw [hh] at hu
        cases hu
        cases hd : Table.read v.delta (addressKey w.address).strip with
        | none => rfl
        | some strip => exact absurd hd (hx strip (by simpa using hl))

theorem State.disposePage_disposed {s : State} {w : HostWrite} (kind : ApertureKind)
    (ha : (s.aperture (addressAperture w.address)).state = .enabled) : s.Disposed w (s.disposePage w kind) := by
  unfold State.disposePage
  split
  · exact .dropped _
  · exact .dropped _
  · exact .dropped _
  · next hp _ _ => exact State.disposeTarget_disposed _ ha fun h => hp h

/-- The disposal of the head comes to one of the ends. -/
theorem State.disposeHead_disposed (s : State) (w : HostWrite) : s.Disposed w (s.disposeHead w) := by
  unfold State.disposeHead
  dsimp only
  split
  · exact .dropped _
  · next ha =>
    have ha : (s.aperture (addressAperture w.address)).state = .enabled := by
      cases h : (s.aperture (addressAperture w.address)).state with
      | disabled => exact absurd h ha
      | enabled => rfl
    split
    · exact .dropped _
    · exact .dropped _
    · exact .dropped _
    · exact .dropped _
    · exact .dropped _
    · exact State.disposePage_disposed _ ha
    · exact State.disposePage_disposed _ ha

/-! ### The ends of an access -/

/-- `t` differs from `s` at most in what the end of an access hands on: tags and their order, an attempt that falls due, the
store but its reserve and last edition, the sequencer and the data on its way, the link-side queue with the quiet timer,
the memory and the device statuses (R162). -/
def State.OnlyCarried (s t : State) : Prop :=
  t = { s with
    link := { s.link with tags := t.link.tags, readyOrder := t.link.readyOrder, attemptDue := t.link.attemptDue }
    store := { t.store with reserve := s.store.reserve, lastEdition := s.store.lastEdition }
    restore := { s.restore with
      sequencer := t.restore.sequencer, occasions := t.restore.occasions, arriving := t.restore.arriving }
    port := { s.port with linkQueue := t.port.linkQueue, quiet := t.port.quiet }
    memory := t.memory
    reports := { s.reports with statuses := t.reports.statuses } }

theorem State.OnlyCarried.refl (s : State) : s.OnlyCarried s := rfl

theorem State.OnlyCarried.trans {s t u : State} (h : s.OnlyCarried t) (g : t.OnlyCarried u) : s.OnlyCarried u := by
  unfold State.OnlyCarried at h g ⊢
  rw [h] at g
  exact g

theorem State.OnlyCommit.onlyCarried {s t : State} (h : s.OnlyCommit t) : s.OnlyCarried t := by
  unfold State.OnlyCommit at h
  rw [h]
  rfl

/-- The test of the end of CLOSING (R54). -/
theorem State.testClosing_cases (s : State) :
    s.testClosing = s ∨ (∃ n, s.store.edition = .closing n) ∧ s.testClosing = { s with
      store := { s.store with versions := lockEditions s.store.versions, edition := .none }
      reports := { s.reports with statuses := { s.reports.statuses with editionClosed := true } } } := by
  unfold State.testClosing
  split
  · next n hn =>
    split
    · exact .inr ⟨⟨n, hn⟩, rfl⟩
    · exact .inl rfl
  · exact .inl rfl

theorem State.testClosingDue_cases (s : State) :
    ∃ u : State, u = { s with store := { s.store with closingTests := s.store.closingTests + 1 } } ∧
      (s.testClosingDue = u ∨ s.testClosingDue = u.testClosing) := by
  refine ⟨_, rfl, ?_⟩
  unfold State.testClosingDue
  dsimp only
  split
  · exact .inl rfl
  · exact .inr rfl

theorem State.testClosing_onlyCarried (s : State) : s.OnlyCarried s.testClosing := by
  rcases s.testClosing_cases with h | ⟨-, h⟩
  · rw [h]; exact .refl s
  · rw [h]; rfl

theorem State.slotIdle_onlyCarried (s : State) (k : Fin 4) (c : Copy) : s.OnlyCarried (s.slotIdle k c) := by
  obtain ⟨u, hu, h⟩ := (s.freeSlot k c).testClosingDue_cases
  have hf : s.OnlyCarried (s.freeSlot k c) := rfl
  have hu' : (s.freeSlot k c).OnlyCarried u := by rw [hu]; rfl
  unfold State.slotIdle
  rcases h with h | h
  · rw [h]; exact hf.trans hu'
  · rw [h]; exact (hf.trans hu').trans u.testClosing_onlyCarried

theorem State.heldCarriedOut_onlyCarried (s : State) (k : Fin 4) : s.OnlyCarried (s.heldCarriedOut k) := by
  unfold State.heldCarriedOut
  dsimp only
  split
  · rfl
  · split
    · refine .trans ?_ (State.slotIdle_onlyCarried _ _ _)
      rfl
    · rfl

theorem State.foldl_arrive_onlyCarried (l : List Arrival) (s : State) : s.OnlyCarried (l.foldl State.arrive s) := by
  induction l generalizing s with
  | nil => exact .refl s
  | cons a l ih =>
    refine .trans ?_ (ih (s.arrive a))
    rfl

theorem State.arriveAll_onlyCarried (s : State) : s.OnlyCarried s.arriveAll := by
  unfold State.arriveAll
  refine .trans ?_ (State.foldl_arrive_onlyCarried _ _)
  rfl

theorem State.copyWritten_onlyCarried (s : State) (k : Fin 4) : s.OnlyCarried (s.copyWritten k) := by
  unfold State.copyWritten State.releaseHeld
  dsimp only
  split
  · exact .refl s
  · split
    · rw [foldl_joinLink]
      rfl
    · rfl

theorem State.copyRead_onlyCarried (s : State) (k : Fin 4) (bytes : List Byte) : s.OnlyCarried (s.copyRead k bytes) := by
  unfold State.copyRead
  split
  · exact .refl s
  · rfl

/-- The end of an access changes what it hands on alone (R162). -/
theorem State.carryOut_onlyCarried (s : State) (a : Access) : s.OnlyCarried (s.carryOut a) := by
  cases a with
  | lineRead t strip line eligible abandoned =>
    unfold State.carryOut State.lineReadDone
    dsimp only
    split
    · exact .refl s
    · split
      · rw [State.nowOrLater_eq]
        split
        · rfl
        · refine .trans ?_ (State.arriveAll_onlyCarried _)
          rfl
      · rfl
  | lineWrite strip line data enables holder =>
    have h : s.OnlyCarried (State.unblock (s.setMemory
      (Memory.storeEnabled s.memory (lineAddress strip line) 0 enables data))) := rfl
    cases holder with
    | none => exact h
    | some k => exact h.trans (State.heldCarriedOut_onlyCarried _ k)
  | readSegment engine strip line dropped =>
    unfold State.carryOut State.readSegmentDone
    dsimp only
    split
    · exact .refl s
    · split
      · exact s.copyRead_onlyCarried _ _
      · exact (s.commitRead_onlyCommit _).onlyCarried
  | writeSegment engine strip line data dropped =>
    have h : s.OnlyCarried (s.setMemory (Memory.store s.memory (lineAddress strip line) data)) := rfl
    unfold State.carryOut State.writeSegmentDone
    dsimp only
    split
    · exact h
    · split
      · exact h.trans (State.copyWritten_onlyCarried _ _)
      · exact h.trans (State.commitWritten_onlyCommit _).onlyCarried

end Sys2Proof.Machine
end

section
/-! # What a step keeps: memory, log, faults, records, held writes, edition and the management link -/

namespace Sys2Proof.Machine

/-! ### The store's memory -/

theorem State.carryOut_memory (s : State) (a : Access) :
    (s.carryOut a).memory = match a with
      | .lineRead .. => s.memory
      | .lineWrite strip line data enables _ => Memory.storeEnabled s.memory (lineAddress strip line) 0 enables data
      | .readSegment .. => s.memory
      | .writeSegment _ strip line data _ => Memory.store s.memory (lineAddress strip line) data := by
  cases a with
  | lineRead => simp [State.carryOut]
  | lineWrite strip line data enables holder => cases holder <;> simp [State.carryOut, State.lineWriteDone]
  | readSegment => simp [State.carryOut]
  | writeSegment engine strip line data dropped =>
    unfold State.carryOut State.writeSegmentDone
    dsimp only
    (repeat' split) <;> simp

/-- Every command keeps the form of the memory. -/
theorem exec_memory_wf {c : Instr} {s t : State} (e : exec c s = .next t) (h : Memory.wf s.memory) : Memory.wf t.memory := by
  by_cases hp : ∃ pins, c = .powerOn pins
  · obtain ⟨pins, rfl⟩ := hp
    cases e
    exact Table.wf_nil
  · by_cases hc : c = .transferEnd
    · subst hc
      cases e
      refine State.live_keeps (P := fun u => Memory.wf u.memory) h fun _ => ?_
      split
      · next a rest _ _ =>
        rw [State.carryOut_memory]
        cases a with
        | lineRead => exact h
        | lineWrite => exact Memory.wf_storeEnabled h _ _ _ _
        | readSegment => exact h
        | writeSegment => exact Memory.wf_store h _ _
      · simpa using h
    · rw [exec_memory e (fun pins hx => hp ⟨pins, hx⟩) hc]
      exact h

/-! ### The charge log -/

/-- The log holds at most 1,024 records, numbered as R141 says. -/
structure ChargeLog.Kept (l : ChargeLog) : Prop where
  length : l.charges.length ≤ 1024
  numbered : ∀ i r, l.charges[i]? = some r → r.sequence = l.nextSequence - BitVec.ofNat 32 (l.charges.length - i)

/-- A record joins a log that has room (R142). -/
theorem ChargeLog.Kept.append {l : ChargeLog} (h : l.Kept) (hl : l.charges.length < 1024) (record : ChargeRecord) :
    (l.append record).Kept where
  length := by simp [ChargeLog.append]; omega
  numbered i r hr := by
    have hlen : (l.append record).charges.length = l.charges.length + 1 := by simp [ChargeLog.append]
    have hnext : (l.append record).nextSequence = l.nextSequence + 1 := rfl
    rw [hlen, hnext]
    rcases Nat.lt_or_ge i l.charges.length with hi | hi
    · have hr : l.charges[i]? = some r := by simpa [ChargeLog.append, List.getElem?_append_left hi] using hr
      rw [h.numbered i r hr, show l.charges.length + 1 - i = (l.charges.length - i) + 1 by omega]
      bv_omega
    · have hi' : i = l.charges.length := by
        have := (List.getElem?_eq_some_iff.1 hr).1
        omega
      subst hi'
      obtain rfl : { record with sequence := l.nextSequence } = r := by simpa [ChargeLog.append] using hr
      rw [show l.charges.length + 1 - l.charges.length = 1 by omega]
      bv_omega

/-- Records leave at the head (R143). -/
theorem ChargeLog.Kept.drain {l : ChargeLog} (h : l.Kept) (most : Nat) : (l.drain most).Kept where
  length := by
    have := h.length
    simp only [ChargeLog.drain, List.length_drop]
    omega
  numbered i r hr := by
    have hr : l.charges[most + i]? = some r := by simpa [ChargeLog.drain] using hr
    have hi := (List.getElem?_eq_some_iff.1 hr).1
    rw [h.numbered _ r hr]
    show _ = l.nextSequence - BitVec.ofNat 32 ((l.charges.drop most).length - i)
    rw [List.length_drop, show l.charges.length - (most + i) = l.charges.length - most - i by omega]

theorem ChargeLog.kept_of_nil {l : ChargeLog} (h : l.charges = []) : l.Kept :=
  ⟨by simp [h], fun i r hr => by simp [h] at hr⟩

/-- A read is charged only while the log has room (R120, check 9). -/
theorem State.log_room_of_charged {s : State} {restored : Bool} {j p : Nat} {c : Charge}
    (h : s.meterDecision restored j p = .charged c) : s.log.charges.length < 1024 := by
  have hc : Config.logCapacity = 1024 := rfl
  unfold State.meterDecision at h
  dsimp only at h
  split_ifs at h
  omega

theorem State.decodeRead_logKept {s : State} (h : s.log.Kept) (t : Fin 32) : (s.decodeRead t).log.Kept := by
  rcases s.decodeRead_cases t rfl rfl with e | ⟨reason, e⟩ | e | ⟨c, -, -, -, hc, e⟩
  · rw [e]; exact h
  · rw [e]; exact h
  · rw [e]; simpa using h
  · rw [e, (State.walkRead_frame _ _ _ _).2.2.2.2.2.1]
    exact h.append (State.log_room_of_charged hc) _

/-- Every command keeps the log. -/
theorem exec_logKept {c : Instr} {s t : State} (e : exec c s = .next t) (h : s.log.Kept) : t.log.Kept := by
  by_cases hm : .log ∈ touches c
  · cases c with
    | powerOn pins => cases e; exact ChargeLog.kept_of_nil rfl
    | readDecode tag =>
      cases e
      refine State.live_keeps (P := fun u => u.log.Kept) h fun _ => ?_
      split
      · exact State.decodeRead_logKept h tag
      · exact h
    | resetEngine =>
      cases e
      refine State.take_keeps (P := fun u => u.log.Kept) h (fun _ _ _ h => h) fun _ _ => ?_
      split
      · exact ⟨h.length, h.numbered⟩
      · exact h
    | readCharges most =>
      cases e
      exact State.take_keeps (P := fun u => u.log.Kept) h (fun _ _ _ h => h) fun _ _ =>
        Reply.of_check (P := fun u => u.log.Kept) h fun _ => h.drain most
    | setLogMode threshold mode =>
      cases e
      refine State.take_keeps (P := fun u => u.log.Kept) h (fun _ _ _ h => h) fun _ _ => ?_
      split
      · exact h
      · exact Reply.of_check (P := fun u => u.log.Kept) h fun _ => ⟨h.length, h.numbered⟩
    | _ => simp [touches] at hm
  · rw [(exec_sameBut e).log hm]
    exact h

/-! ### The fault queue -/

theorem State.OnlyCommit.faults {s t : State} (h : s.OnlyCommit t) : t.reports.faults = s.reports.faults := by
  rw [h]

theorem State.OnlyCarried.faults {s t : State} (h : s.OnlyCarried t) : t.reports.faults = s.reports.faults := by
  rw [h]

@[simp] theorem State.resumeCommit_faults (s : State) : s.resumeCommit.reports.faults = s.reports.faults :=
  s.resumeCommit_onlyCommit.faults

@[simp] theorem State.judgeStoreLow_faults (s : State) (b : Bool) :
    (s.judgeStoreLow b).reports.faults = s.reports.faults :=
  (s.judgeStoreLow_onlyCommit b).faults

@[simp] theorem State.examine_faults (s : State) : s.examine.reports.faults = s.reports.faults :=
  s.examine_onlyCommit.faults

@[simp] theorem State.startCommit_faults (s : State) (p n : Nat) (head : Version) :
    (s.startCommit p n head).reports.faults = s.reports.faults :=
  (s.startCommit_onlyCommit p n head).faults

@[simp] theorem State.discard_faults (s : State) (p n : Nat) : (s.discard p n).reports.faults = s.reports.faults :=
  (s.discard_onlyCommit p n).faults

@[simp] theorem State.retire_faults (s : State) (p : Nat) : (s.retire p).reports.faults = s.reports.faults := by
  unfold State.retire
  simp

@[simp] theorem State.testClosing_faults (s : State) : s.testClosing.reports.faults = s.reports.faults :=
  s.testClosing_onlyCarried.faults

@[simp] theorem State.carryOut_faults (s : State) (a : Access) : (s.carryOut a).reports.faults = s.reports.faults :=
  (s.carryOut_onlyCarried a).faults

@[simp] theorem State.abortCommit_faults (s : State) : s.abortCommit.reports.faults = s.reports.faults := by
  unfold State.abortCommit
  dsimp only
  split
  · rfl
  · rw [(State.endAbort_onlyCommit _).faults]

@[simp] theorem State.settleStrip_faults (s : State) : s.settleStrip.reports.faults = s.reports.faults :=
  s.settleStrip_onlyCommit.faults

/-- The disposal of a write offers at most one fault (R56, R58, R171). -/
theorem State.Disposed.faults {s t : State} {w : HostWrite} (h : s.Disposed w t) (hb : s.reports.faults.length ≤ 32) :
    t.reports.faults.length ≤ 32 := by
  cases h with
  | dropped kind => exact Reports.offer_bounded _ _ hb
  | left => exact hb
  | carried strip => exact hb
  | held k strip released room => simpa using hb
  | waits => exact hb
  | fresh kind n slot strip start =>
    unfold State.startFresh
    rw [(State.holdHead_frame _ _ _ _ _).2.2.2.2.2.2.1]
    rw [(State.judgeStoreLow_onlyCommit _ _).faults]
    cases n <;> exact hb

@[simp] theorem State.decodeRead_faults (s : State) (t : Fin 32) : (s.decodeRead t).reports.faults = s.reports.faults := by
  rcases s.decodeRead_cases t rfl rfl with e | ⟨reason, e⟩ | e | ⟨c, -, -, -, -, e⟩ <;> rw [e]
  · rfl
  · rfl
  · simp
  · simp [State.charge]

/-- Only the disposal of a write adds a fault record, and READ FAULTS and the resets alone remove some (R170 to R172). -/
theorem exec_faults_same {c : Instr} {s t : State} (e : exec c s = .next t) (hp : ∀ pins, c ≠ .powerOn pins)
    (hr : c ≠ .resetEngine) (hw : c ≠ .writeDisposal) (hf : c ≠ .readFaults) : t.reports.faults = s.reports.faults := by
  by_cases hm : .reports ∈ touches c
  · cases c with
    | powerOn pins => exact absurd rfl (hp pins)
    | resetEngine => exact absurd rfl hr
    | writeDisposal => exact absurd rfl hw
    | readFaults => exact absurd rfl hf
    | resetPinAssert => cases e; rfl
    | initBuildAppend | readDecode | commitSegmentIssue | transferEnd =>
      cases e
      refine State.live_keeps (P := fun u => u.reports.faults = s.reports.faults) rfl fun _ => ?_
      try dsimp only
      (repeat' split) <;> simp
    | discardVersion | retirePage | setStoreReserve | commitRestoration | abortCommit | closeEdition | freeJob
    | readCharges | setLogMode | ackEvents | enableEvents | enableJobEvents | ackJobEvents =>
      cases e
      refine State.take_keeps (P := fun u => u.reports.faults = s.reports.faults) rfl (fun _ _ _ h => h) fun _ _ => ?_
      try dsimp only
      (repeat' split) <;> simp
    | _ => simp [touches] at hm
  · rw [(exec_sameBut e).reports hm]

/-- Every command keeps the fault queue within its 32 records (R170). -/
theorem exec_faults {c : Instr} {s t : State} (e : exec c s = .next t) (h : s.reports.faults.length ≤ 32) :
    t.reports.faults.length ≤ 32 := by
  have same := exec_faults_same e
  cases c with
  | powerOn => cases e; exact Nat.zero_le _
  | resetEngine =>
    cases e
    refine State.take_keeps (P := fun u => u.reports.faults.length ≤ 32) h (fun _ _ _ h => h) fun _ _ => ?_
    split
    · exact Nat.zero_le _
    · exact h
  | writeDisposal =>
    cases e
    refine State.live_keeps (P := fun u => u.reports.faults.length ≤ 32) h fun _ => ?_
    split
    · exact h
    · next w rest _ =>
      split
      · exact (s.disposeHead_disposed w).faults h
      · exact h
  | readFaults =>
    cases e
    refine State.take_keeps (P := fun u => u.reports.faults.length ≤ 32) h (fun _ _ _ h => h) fun _ _ => ?_
    show (s.reports.faults.drop 4).length ≤ 32
    rw [List.length_drop]
    omega
  | _ =>
    rw [same nofun nofun nofun nofun]
    exact h

/-! ### The restoration records -/

/-- No defect list holds more than 32 entries (R73). -/
def State.DefectsBounded (s : State) : Prop :=
  ∀ n r, Table.read s.restore.records n = some r → r.defects.length ≤ 32

theorem State.DefectsBounded.congr {s t : State} (h : s.DefectsBounded) (e : t.restore.records = s.restore.records) :
    t.DefectsBounded := by
  intro n x hx
  rw [e] at hx
  exact h n x hx

theorem State.DefectsBounded.write {s t : State} (h : s.DefectsBounded) {n : Nat} {x : Restoration}
    (hx : x.defects.length ≤ 32) (e : t.restore.records = Table.write s.restore.records n x) : t.DefectsBounded := by
  intro m y hy
  rw [e, Table.read_write] at hy
  split at hy
  · cases hy; exact hx
  · exact h m y hy

theorem State.DefectsBounded.remove {s t : State} (h : s.DefectsBounded) {n : Nat}
    (e : t.restore.records = Table.remove s.restore.records n) : t.DefectsBounded := by
  intro m y hy
  rw [e, Table.read_remove] at hy
  split at hy
  · cases hy
  · exact h m y hy

theorem State.recordEntry_read {s : State} {p n : Nat} {r : Restoration} (h : s.recordEntry p = some (n, r)) :
    Table.read s.restore.records n = some r := by
  unfold State.recordEntry at h
  split at h
  · cases h
  · obtain ⟨x, hx, e⟩ := Option.map_eq_some_iff.1 h
    cases e
    exact hx

theorem State.OnlyCommit.records {s t : State} (h : s.OnlyCommit t) : t.restore.records = s.restore.records := by
  rw [h]

theorem State.OnlyCarried.records {s t : State} (h : s.OnlyCarried t) : t.restore.records = s.restore.records := by
  rw [h]

/-- An abort changes the port beside what the sequencer's operations change (R101). -/
theorem State.abortCommit_onlyCommit (s : State) :
    ∃ p, (s.setPort p).OnlyCommit s.abortCommit ∧ p.linkQueue = s.port.linkQueue ∧ p.issueList = s.port.issueList ∧
      (p.engineQueue = s.port.engineQueue.filter fun a => a.engine != some .sequencer) := by
  refine ⟨s.port.withdraw .sequencer, ?_, rfl, rfl, rfl⟩
  unfold State.abortCommit
  dsimp only
  split
  · rfl
  · refine .trans ?_ (State.endAbort_onlyCommit _)
    rfl

theorem State.retire_defectsBounded {s : State} (h : s.DefectsBounded) (page : Nat) : (s.retire page).DefectsBounded := by
  unfold State.retire
  refine State.DefectsBounded.congr ?_ (State.resumeCommit_onlyCommit _).records
  dsimp only
  split
  · exact h.remove rfl
  · exact h.congr rfl

/-- Every command keeps the defect lists within their capacity (R73, R77). -/
theorem exec_defects {c : Instr} {s t : State} (e : exec c s = .next t) (h : s.DefectsBounded) : t.DefectsBounded := by
  by_cases hm : .restore ∈ touches c
  · cases c with
    | powerOn => cases e; exact fun _ _ hx => nomatch hx
    | resetEngine =>
      cases e
      refine State.take_keeps h (fun _ _ _ h => h) fun _ _ => ?_
      split
      · exact fun _ _ hx => nomatch hx
      · exact h
    | lineRead | lineWrite | archiveLinkDown =>
      cases e
      refine State.live_keeps h fun _ => ?_
      (repeat' split) <;> exact h.congr rfl
    | commitSegmentIssue =>
      cases e
      refine State.live_keeps h fun _ => ?_
      dsimp only
      split
      · exact h
      · split
        · exact h.congr s.examine_onlyCommit.records
        · split
          · unfold State.issueCommit
            dsimp only
            (repeat' split) <;> exact h
          · exact h
    | transferEnd =>
      cases e
      refine State.live_keeps h fun _ => ?_
      split
      · exact h.congr (State.carryOut_onlyCarried _ _).records
      · exact h.congr ((s.arriveAll_onlyCarried.trans (State.testClosing_onlyCarried _)).records)
    | discardVersion page version =>
      cases e
      refine State.take_keeps h (fun _ _ _ h => h) fun _ _ => ?_
      refine Reply.of_check h fun _ => Reply.of_check h fun _ => ?_
      split
      · exact h
      · exact Reply.of_check h fun _ => Reply.of_check h fun _ => Reply.of_check h fun _ => Reply.of_check h fun _ =>
          h.congr (s.discard_onlyCommit page version).records
    | retirePage page =>
      cases e
      exact State.take_keeps h (fun _ _ _ h => h) fun _ _ => Reply.of_check h fun _ => Reply.of_check h fun _ =>
        Reply.of_check h fun _ => Reply.of_check h fun _ => Reply.of_check h fun _ => State.retire_defectsBounded h page
    | setStoreReserve reserve =>
      cases e
      exact State.take_keeps h (fun _ _ _ h => h) fun _ _ => Reply.of_check h fun _ =>
        h.congr ((State.judgeStoreLow_onlyCommit _ _).trans (State.resumeCommit_onlyCommit _)).records
    | commitRestoration page =>
      cases e
      refine State.take_keeps h (fun _ _ _ h => h) fun _ _ => ?_
      refine Reply.of_check h fun _ => Reply.of_check h fun _ => Reply.of_check h fun _ => Reply.of_check h fun _ =>
        Reply.of_check h fun _ => ?_
      split
      · exact h
      · next n _ =>
        split
        · exact h
        · next head _ =>
          split
          · dsimp only
            exact h.congr (s.startCommit_onlyCommit page n head).records
          · exact h
    | abortCommit =>
      cases e
      have abort : ∀ u : State, u.abortCommit.restore.records = u.restore.records := by
        intro u
        obtain ⟨p, hp, -⟩ := u.abortCommit_onlyCommit
        exact hp.records
      refine State.take_keeps h (fun _ _ _ h => h) fun _ _ => ?_
      split
      · exact h
      · exact h
      · exact h.congr ((abort _).trans s.settleStrip_onlyCommit.records)
      · exact h.congr (abort s)
    | writeRestoration page width pitch height black white curve =>
      cases e
      refine State.take_keeps h (fun _ _ _ h => h) fun _ _ => ?_
      refine Reply.of_check h fun _ => Reply.of_check h fun _ => Reply.of_check h fun _ => ?_
      split
      · next n r hr =>
        exact Reply.of_check h fun _ =>
          h.write (x := { r with width, pitch, height, black, white, curve }) (h n r (State.recordEntry_read hr)) rfl
      · split
        · exact h
        · exact h.write (x := ⟨page, width, pitch, height, black, white, curve, []⟩) (Nat.zero_le _) rfl
    | addDefect page x0 y0 x1 y1 fill =>
      cases e
      refine State.take_keeps h (fun _ _ _ h => h) fun _ _ => ?_
      refine Reply.of_check h fun _ => Reply.of_check h fun _ => ?_
      split
      · exact h
      · next n r _ =>
        refine Reply.of_check h fun _ => Reply.of_check h fun hl => ?_
        refine h.write (x := { r with defects := r.defects ++ [⟨x0, y0, x1, y1, BitVec.ofNat 8 fill⟩] }) ?_ rfl
        have : Config.defectCapacity = 32 := rfl
        simp only [List.length_append, List.length_singleton]
        omega
    | clearDefects page =>
      cases e
      refine State.take_keeps h (fun _ _ _ h => h) fun _ _ => ?_
      refine Reply.of_check h fun _ => Reply.of_check h fun _ => ?_
      split
      · exact h
      · next n r _ => exact h.write (x := { r with defects := [] }) (Nat.zero_le _) rfl
    | detachRestoration page =>
      cases e
      refine State.take_keeps h (fun _ _ _ h => h) fun _ _ => ?_
      refine Reply.of_check h fun _ => Reply.of_check h fun _ => ?_
      split
      · exact h
      · exact Reply.of_check h fun _ => h.remove rfl
    | loadCurve curve quarter values =>
      cases e
      exact State.take_keeps h (fun _ _ _ h => h) fun _ _ => Reply.of_check h fun _ =>
        h.congr (Restore.setCurve_frame _ _ _ _).1
    | _ => simp [touches] at hm
  · exact h.congr (by rw [(exec_sameBut e).restore hm])

/-! ### The hold queue and the edition -/

/-- The hold queue keeps its bound (R66) and the edition its number (R51). -/
def State.EditionSound (s : State) : Prop :=
  s.store.holdQueue.length ≤ 16 ∧ s.EditionKept

theorem State.EditionSound.holdQueue {s : State} (h : s.EditionSound) : s.store.holdQueue.length ≤ 16 := h.1

theorem State.EditionSound.edition {s : State} (h : s.EditionSound) : s.EditionKept := h.2

theorem State.EditionSound.congr {s t : State} (h : s.EditionSound) (hq : t.store.holdQueue.length ≤ s.store.holdQueue.length)
    (he : t.store.edition = s.store.edition) (hl : t.store.lastEdition = s.store.lastEdition) : t.EditionSound := by
  refine ⟨hq.trans h.holdQueue, ?_⟩
  unfold State.EditionKept
  rw [he, hl]
  exact h.edition

theorem State.OnlyCommit.editionSound {s t : State} (h : s.OnlyCommit t) (hs : s.EditionSound) : t.EditionSound :=
  hs.congr (by rw [h]) (by rw [h]) (by rw [h])

theorem State.testClosing_editionSound {s : State} (h : s.EditionSound) : s.testClosing.EditionSound := by
  rcases s.testClosing_cases with e | ⟨-, e⟩
  · rw [e]; exact h
  · rw [e]; exact ⟨h.holdQueue, h.edition.1, trivial⟩

theorem State.testClosingDue_editionSound {s : State} (h : s.EditionSound) : s.testClosingDue.EditionSound := by
  obtain ⟨u, hu, e⟩ := s.testClosingDue_cases
  have hu : u.EditionSound := h.congr (by rw [hu]) (by rw [hu]) (by rw [hu])
  rcases e with e | e
  · rw [e]; exact hu
  · rw [e]; exact State.testClosing_editionSound hu

theorem State.heldCarriedOut_editionSound {s : State} (h : s.EditionSound) (k : Fin 4) :
    (s.heldCarriedOut k).EditionSound := by
  unfold State.heldCarriedOut
  dsimp only
  split
  · exact h.congr (length_removeHeld _ _) rfl rfl
  · split
    · exact State.testClosingDue_editionSound (h.congr (length_removeHeld _ _) rfl rfl)
    · exact h.congr (length_removeHeld _ _) rfl rfl

theorem State.copyWritten_editionSound {s : State} (h : s.EditionSound) (k : Fin 4) : (s.copyWritten k).EditionSound := by
  unfold State.copyWritten State.releaseHeld
  dsimp only
  split
  · exact h
  · split
    · exact h.congr (Nat.le_of_eq (List.length_map _)) rfl rfl
    · exact h.congr (Nat.le_refl _) rfl rfl

theorem State.carryOut_editionSound {s : State} (h : s.EditionSound) (a : Access) : (s.carryOut a).EditionSound := by
  cases a with
  | lineRead t strip line eligible abandoned =>
    refine h.congr (Nat.le_of_eq ?_) ?_ ?_ <;> simp [State.carryOut]
  | lineWrite strip line data enables holder =>
    have hu : (State.unblock (s.setMemory
      (Memory.storeEnabled s.memory (lineAddress strip line) 0 enables data))).EditionSound :=
      h.congr (Nat.le_refl _) rfl rfl
    cases holder with
    | none => exact hu
    | some k => exact State.heldCarriedOut_editionSound hu k
  | readSegment engine strip line dropped =>
    unfold State.carryOut State.readSegmentDone
    dsimp only
    split
    · exact h
    · split
      · unfold State.copyRead
        split
        · exact h
        · exact h.congr (Nat.le_refl _) rfl rfl
      · exact (s.commitRead_onlyCommit _).editionSound h
  | writeSegment engine strip line data dropped =>
    have hm : (s.setMemory (Memory.store s.memory (lineAddress strip line) data)).EditionSound :=
      h.congr (Nat.le_refl _) rfl rfl
    unfold State.carryOut State.writeSegmentDone
    dsimp only
    split
    · exact hm
    · split
      · exact State.copyWritten_editionSound hm _
      · exact (State.commitWritten_onlyCommit _).editionSound hm

/-- The hold queue takes an entry while one is free (R57, R66). -/
theorem State.holdHead_editionSound {s u : State} (h : s.EditionSound) (hr : s.store.holdFree = true)
    (hq : u.store.holdQueue = s.store.holdQueue) (he : u.store.edition = s.store.edition)
    (hl : u.store.lastEdition = s.store.lastEdition) (w : HostWrite) (k : Fin 4) (strip : Nat) (released : Bool) :
    (u.holdHead w k strip released).EditionSound := by
  have hc : Config.holdCapacity = 16 := rfl
  have hr : s.store.holdQueue.length < 16 := by simpa [Store.holdFree, hc] using hr
  have hst : (u.holdHead w k strip released).store =
      { u.store with holdQueue := u.store.holdQueue ++ [⟨w, k, released⟩] } := by
    unfold State.holdHead
    cases released <;> rfl
  constructor
  · rw [hst, hq, List.length_append, List.length_singleton]
    omega
  · unfold State.EditionKept
    rw [hst, he, hl]
    exact h.edition

theorem State.Disposed.editionSound {s t : State} {w : HostWrite} (hd : s.Disposed w t) (h : s.EditionSound) :
    t.EditionSound := by
  cases hd with
  | dropped kind => exact h.congr (Nat.le_refl _) rfl rfl
  | left => exact h.congr (Nat.le_refl _) rfl rfl
  | carried strip => exact h.congr (Nat.le_refl _) rfl rfl
  | held k strip released room => exact State.holdHead_editionSound h room rfl rfl rfl _ _ _ _
  | waits => exact h.congr (Nat.le_refl _) rfl rfl
  | fresh kind n slot strip start =>
    unfold State.startFresh
    refine State.holdHead_editionSound h start.room ?_ ?_ ?_ _ _ _ _
    all_goals
      rw [(State.judgeStoreLow_frame _ _).2.2.2.1]
      cases n <;> rfl

/-- Every command keeps the hold queue's bound and the edition. -/
theorem exec_editionSound {c : Instr} {s t : State} (e : exec c s = .next t) (h : s.EditionSound) : t.EditionSound := by
  by_cases hm : .store ∈ touches c
  · cases c with
    | powerOn => cases e; exact ⟨Nat.zero_le _, Nat.zero_le _, trivial⟩
    | resetEngine =>
      cases e
      refine State.take_keeps h (fun _ _ _ h => h) fun _ _ => ?_
      split
      · exact ⟨Nat.zero_le _, Nat.zero_le _, trivial⟩
      · exact h
    | initBuildAppend =>
      cases e
      refine State.live_keeps h fun _ => ?_
      dsimp only
      (repeat' split) <;> exact h.congr (Nat.le_refl _) rfl rfl
    | readDecode tag =>
      cases e
      refine State.live_keeps h fun _ => ?_
      split
      · rcases s.decodeRead_cases tag rfl rfl with e | ⟨reason, e⟩ | e | ⟨c, -, -, -, -, e⟩ <;> rw [e]
        · exact h.congr (Nat.le_refl _) rfl rfl
        · exact h.congr (Nat.le_refl _) rfl rfl
        · refine h.congr (Nat.le_of_eq ?_) ?_ ?_ <;> simp
        · refine h.congr (Nat.le_of_eq ?_) ?_ ?_ <;> simp [State.charge, Store.setPage]
      · exact h
    | writeDisposal =>
      cases e
      refine State.live_keeps h fun _ => ?_
      split
      · exact h
      · split
        · exact (s.disposeHead_disposed _).editionSound h
        · exact h
    | copySegmentIssue slot =>
      cases e
      refine State.live_keeps h fun _ => ?_
      split
      · exact h
      · split
        · unfold State.issueCopy
          (repeat' split) <;> exact h.congr (Nat.le_refl _) rfl rfl
        · exact h
    | commitSegmentIssue =>
      cases e
      refine State.live_keeps h fun _ => ?_
      dsimp only
      split
      · exact h
      · split
        · exact s.examine_onlyCommit.editionSound h
        · split
          · refine h.congr (Nat.le_of_eq ?_) ?_ ?_ <;> simp
          · exact h
    | transferEnd =>
      cases e
      refine State.live_keeps h fun _ => ?_
      split
      · next a rest _ _ =>
        exact State.carryOut_editionSound (s := s.setPort (s.port.endTransfer s.chip.now a rest)) h a
      · refine State.testClosing_editionSound (h.congr (Nat.le_of_eq ?_) ?_ ?_) <;> simp
    | openEdition n =>
      cases e
      refine State.take_keeps h (fun _ _ _ h => h) fun _ _ => Reply.of_check h fun h1 => Reply.of_check h fun _ =>
        Reply.of_check h fun _ => ⟨h.holdQueue, ?_⟩
      have hc : Config.maxEdition = 16777215 := rfl
      show n ≤ 16777215 ∧ 1 ≤ n ∧ n = n
      omega
    | closeEdition =>
      cases e
      refine State.take_keeps h (fun _ _ _ h => h) fun _ _ => ?_
      split
      · next n hn =>
        refine State.testClosing_editionSound ⟨h.holdQueue, h.edition.1, ?_⟩
        have := h.edition.2
        rw [hn] at this
        exact this
      · exact h
    | createPage =>
      cases e
      refine State.take_keeps h (fun _ _ _ h => h) fun _ _ => ?_
      (repeat' split) <;> exact h.congr (Nat.le_refl _) rfl rfl
    | finishLoad | setEmbargo | setRateClass | writeRestoration | detachRestoration =>
      cases e
      refine State.take_keeps h (fun _ _ _ h => h) fun _ _ => ?_
      dsimp only
      (repeat' split) <;> exact h.congr (Nat.le_refl _) rfl rfl
    | freeJob job =>
      cases e
      refine State.take_keeps h (fun _ _ _ h => h) fun _ _ => Reply.of_check h fun _ => Reply.of_check h fun _ =>
        Reply.of_check h fun _ => h.congr (Nat.le_of_eq ?_) ?_ ?_
      all_goals
        simp
        rw [foldl_unpin_frame]
    | discardVersion page version =>
      cases e
      refine State.take_keeps h (fun _ _ _ h => h) fun _ _ => ?_
      refine Reply.of_check h fun _ => Reply.of_check h fun _ => ?_
      split
      · exact h
      · exact Reply.of_check h fun _ => Reply.of_check h fun _ => Reply.of_check h fun _ => Reply.of_check h fun _ =>
          (s.discard_onlyCommit page version).editionSound h
    | retirePage page =>
      cases e
      refine State.take_keeps h (fun _ _ _ h => h) fun _ _ => Reply.of_check h fun _ => Reply.of_check h fun _ =>
        Reply.of_check h fun _ => Reply.of_check h fun _ => Reply.of_check h fun _ =>
          (State.resumeCommit_onlyCommit _).editionSound (h.congr (Nat.le_of_eq ?_) ?_ ?_)
      all_goals
        simp [Store.setPage]
        rw [foldl_release_frame]
    | setStoreReserve reserve =>
      cases e
      exact State.take_keeps h (fun _ _ _ h => h) fun _ _ => Reply.of_check h fun _ =>
        ((State.judgeStoreLow_onlyCommit _ _).trans (State.resumeCommit_onlyCommit _)).editionSound
          (h.congr (Nat.le_refl _) rfl rfl)
    | commitRestoration page =>
      cases e
      refine State.take_keeps h (fun _ _ _ h => h) fun _ _ => ?_
      refine Reply.of_check h fun _ => Reply.of_check h fun _ => Reply.of_check h fun _ => Reply.of_check h fun _ =>
        Reply.of_check h fun _ => ?_
      split
      · exact h
      · next n _ =>
        split
        · exact h
        · next head _ =>
          split
          · dsimp only
            exact (s.startCommit_onlyCommit page n head).editionSound h
          · exact h
    | abortCommit =>
      cases e
      have abort : ∀ u : State, u.EditionSound → u.abortCommit.EditionSound := by
        intro u hu
        obtain ⟨p, hp, -⟩ := u.abortCommit_onlyCommit
        exact hp.editionSound (hu.congr (Nat.le_refl _) rfl rfl)
      refine State.take_keeps h (fun _ _ _ h => h) fun _ _ => ?_
      split
      · exact h
      · exact h
      · exact abort _ (s.settleStrip_onlyCommit.editionSound h)
      · exact abort s h
    | _ => simp [touches] at hm
  · have hst := (exec_sameBut e).store hm
    exact h.congr (by rw [hst]) (by rw [hst]) (by rw [hst])

end Sys2Proof.Machine
end

section
/-! # The archive link: the address, the arrival of requests, the link's state, the return of data (R1 to R9, R15, R150) -/

namespace Sys2Proof.Machine

/-! ### The split of an address -/

theorem bankOf_lt (line : Nat) : bankOf line < 8 := Nat.mod_lt _ (by decide)

theorem rowPositionOf_lt {line : Nat} (h : line < 1024) : rowPositionOf line < 128 := by
  unfold rowPositionOf
  omega

/-- A line is determined by its bank and its row position (R150). -/
theorem eq_of_bankOf_rowPositionOf {line other : Nat} (hb : bankOf other = bankOf line)
    (hr : rowPositionOf other = rowPositionOf line) : other = line := by
  unfold bankOf at hb
  unfold rowPositionOf at hr
  omega

/-- The lines of a segment lie in one bank, one after the other (R150). -/
theorem segment_place {line i : Nat} (h : line % 4 = 0) (hi : i < 4) :
    bankOf (line + i) = bankOf line ∧ rowPositionOf (line + i) = rowPositionOf line + i := by
  unfold bankOf rowPositionOf
  omega

/-- An address is put together again from its parts and its place within the line. -/
theorem address_parts (a : Address) :
    a.toNat = addressAperture a * 2 ^ 41 + (addressKey a).page * 2 ^ 25 + (addressKey a).strip * 2 ^ 16 +
      (addressKey a).line * 64 + a.toNat % 64 := by
  unfold addressAperture addressKey
  dsimp only
  omega

/-- Settles O6, part by part. -/
theorem addressSplit : Obligations.AddressSplit := by
  refine ⟨fun line hl => ⟨rfl, bankOf_lt line, rfl, rowPositionOf_lt hl, fun other _ => eq_of_bankOf_rowPositionOf,
    fun i => segment_place⟩, fun a => rfl, fun a => ?_⟩
  have ha : a.toNat < 2 ^ 45 := a.isLt
  refine ⟨rfl, ?_, rfl, ?_, rfl, ?_, rfl, ?_, address_parts a⟩
  · unfold addressAperture
    omega
  all_goals
    dsimp only [addressKey]
    omega

/-! ### The arrival of requests -/

/-- A LINE READ of a FREE tag is taken (R1, R16). -/
theorem exec_lineRead_free {s : State} {tag : Fin 32} (hp : s.chip.resetPin = false) (hu : s.link.linkUp = true)
    (hf : (s.link.tag tag).state = .free) (address : Address) (beat : Fin 8) :
    exec (.lineRead tag address beat) s = .next (s.setLink
      { s.link.setTag tag ⟨if s.keyPending (addressKey address) then .waiting else .decoding, address, beat, none⟩ with
        readCredits := s.link.readCredits - 1 }) := by
  simp [exec, execLineRead, State.live_released hp, hu, hf]

/-- Settles O7: the branches of LINE_READ, then those of LINE_WRITE. -/
theorem lineRequestsArrive : Obligations.LineRequestsArrive := by
  refine ⟨fun tag address beat s hp => ⟨fun hd => ?_, fun hu hf => ?_, fun hu hf => ?_⟩,
    fun address data enables s hp => ⟨fun hd => ?_, fun hu hl => ?_, fun hu hl => ?_⟩⟩
  · simp [exec, execLineRead, State.live_released hp, hd]
  · simp [exec, execLineRead, execArchiveLinkDown, State.live_released hp, hu, hf]
  · have tag_after := s.link.tag_setTag tag
      ⟨if s.keyPending (addressKey address) then .waiting else .decoding, address, beat, none⟩
    refine ⟨_, exec_lineRead_free hp hu hf address beat, fun hw => ?_, fun hw => ?_, fun u hne => ?_, rfl⟩
    · refine (tag_after tag).trans ((if_pos rfl).trans ?_)
      rw [if_pos ((s.keyPending_iff _).2 hw)]
    · refine (tag_after tag).trans ((if_pos rfl).trans ?_)
      rw [(s.keyPending_false _).2 hw]
      rfl
    · exact (tag_after u).trans (if_neg hne)
  · simp [exec, execLineWrite, State.live_released hp, hd]
  · have hc : ¬ s.link.writeBuffer.length < Config.writeBufferCapacity := Nat.not_lt.2 hl
    simp [exec, execLineWrite, execArchiveLinkDown, State.live_released hp, hu, hc]
  · have hc : s.link.writeBuffer.length < Config.writeBufferCapacity := hl
    simp [exec, execLineWrite, State.live_released hp, hu, hc, State.setLink]

/-! ### The link goes down and up -/

/-- The access as the link that goes down leaves it in the issue list: the bytes of a line read are to be discarded (R8). -/
def Access.abandon : Access → Access
  | .lineRead t r l e _ => .lineRead t r l e true
  | a => a

theorem Access.abandon_of_not_read {a : Access} (h : a.isRead = false) : a.abandon = a := by
  cases a with
  | lineRead => cases h
  | lineWrite | readSegment | writeSegment => rfl

/-- The port as the link that goes down leaves it (R8, R156, R167): its line reads withdrawn or abandoned, and the quiet
timer started when that empties the link-side queue. -/
theorem State.linkDown_port (s : State) :
    s.linkDown.port = { s.port with
      linkQueue := s.port.linkQueue.filter fun a => !a.isRead
      issueList := s.port.issueList.map Access.abandon
      quiet :=
        if (s.port.linkQueue.filter fun a => !a.isRead) = [] ∧ s.port.linkQueue ≠ [] then
          if s.port.quietTime = 0 then .expired else .running s.chip.now
        else s.port.quiet } := by
  by_cases h : (s.port.linkQueue.filter fun a => !a.isRead) = [] ∧ s.port.linkQueue ≠ []
  · rw [if_pos h]
    simp only [State.linkDown, Port.startQuiet, h.1, List.isEmpty_nil, Bool.true_and, Bool.not_eq_true',
      List.isEmpty_eq_false_iff.2 h.2, if_true, State.setRestore_port]
    rfl
  · rw [if_neg h]
    have hc : ¬ (((s.port.linkQueue.filter fun a => !a.isRead).isEmpty && !s.port.linkQueue.isEmpty) = true) := by
      simpa only [Bool.and_eq_true, List.isEmpty_iff, Bool.not_eq_true', List.isEmpty_eq_false_iff] using h
    simp only [State.linkDown, if_neg hc, State.setRestore_port]
    rfl

/-- Settles O8: the link goes down once, and comes up again. -/
theorem archiveLinkGoesDownAndUp : Obligations.ArchiveLinkGoesDownAndUp := by
  intro s hp
  refine ⟨fun hu => ⟨s.linkDown, ?_, rfl, fun _ => rfl, ?_, ?_, fun i a ha => ?_, fun hq hn => ?_, fun hq => ?_, ?_⟩,
    fun hd => ⟨?_, ?_⟩⟩
  · simp [exec, execArchiveLinkDown, State.live_released hp, hu]
  · rw [s.linkDown_port]
  · rw [s.linkDown_port]
    exact List.length_map _
  · have at_i : s.linkDown.port.issueList[i]? = some a.abandon := by
      rw [s.linkDown_port]
      simp [ha]
    refine ⟨fun hr => ?_, ?_⟩
    · rw [at_i, Access.abandon_of_not_read hr]
    · rintro u r l e d rfl
      exact at_i
  · rw [s.linkDown_port] at hq ⊢
    exact if_pos ⟨hq, hn⟩
  · rw [s.linkDown_port] at hq ⊢
    exact if_neg fun h => hq.elim (fun hn => hn h.1) h.2
  · rw [s.linkDown_port]
    exact State.eq_of_blocks rfl rfl rfl rfl rfl rfl rfl (by rw [s.linkDown_port]) rfl rfl rfl rfl
  · simp [exec, execArchiveLinkDown, State.live_released hp, hd]
  · simp [exec, execArchiveLinkUp, State.live_released hp, hd, State.setLink, Config.tagCount, Config.writeBufferCapacity]

/-! ### The return of data -/

theorem takeFromFront_cons (t : Fin 32) (first : List (Fin 32)) (rest : List (List (Fin 32))) :
    takeFromFront t (first :: rest) =
      if first.filter (· != t) = [] then rest else first.filter (· != t) :: rest := by
  show (match first.filter fun u => u != t with | [] => rest | left => left :: rest) = _
  split
  · next h => rw [if_pos h]
  · next h => rw [if_neg h]

/-- READ_DATA_START of a READY entry of the first group (R4, R6). -/
theorem exec_readDataStart_ready {s : State} {tag : Fin 32} {first : List (Fin 32)} {rest : List (List (Fin 32))}
    {a : Answer} (hp : s.chip.resetPin = false) (hs : s.link.sending = none) (ho : s.link.readyOrder = first :: rest)
    (hm : tag ∈ first) (hr : (s.link.tag tag).state = .ready) (ha : (s.link.tag tag).answer = some a) :
    exec (.readDataStart tag) s = .next (s.setLink
      { s.link.setTag tag { s.link.tag tag with state := .sending } with
        readyOrder := takeFromFront tag (first :: rest)
        sending := some ⟨tag, a.note, s.link.wrapOrder.beats (s.link.tag tag).beat.val a.bytes⟩ }) := by
  simp [exec, execReadDataStart, State.live_released hp, hs, ho, hm, hr, ha]

theorem exec_readDataStart_idle {s : State} {tag : Fin 32} (hp : s.chip.resetPin = false)
    (h : s.link.sending ≠ none ∨ (∀ first ∈ s.link.readyOrder.head?, tag ∉ first) ∨ (s.link.tag tag).state ≠ .ready) :
    exec (.readDataStart tag) s = .next s := by
  simp only [exec, execReadDataStart, State.live_released hp]
  split
  · next first a hs ho ha =>
    rw [if_neg]
    rintro ⟨hm, hr⟩
    rcases h with h | h | h
    · exact h hs
    · exact h first ho (by simpa using hm)
    · exact h hr
  · rfl

/-- Beat `i` of the eight is the one that the wrap order puts there (R6). -/
theorem WrapOrder.getElem?_beats (o : WrapOrder) (c : Nat) (bytes : List Byte) {i : Nat} (h : i < 8) :
    (o.beats c bytes)[i]? = some ((bytes.drop (8 * o.beatAt c i)).take 8) := by
  simp [WrapOrder.beats, h, beatOf]

/-- Settles O9: the start of READ DATA, nothing to start, and its end. -/
theorem readDataIsSent : Obligations.ReadDataIsSent := by
  intro tag s hp
  refine ⟨fun first rest a hs ho hm hr ha => ?_, exec_readDataStart_idle hp, fun d hd => ?_⟩
  · have tag_after := s.link.tag_setTag tag { s.link.tag tag with state := .sending }
    refine ⟨_, _, exec_readDataStart_ready hp hs ho hm hr ha, rfl, rfl, rfl, ?_, fun i hi => ?_, ?_, fun u hu => ?_,
      takeFromFront_cons tag first rest, rfl⟩
    · simp [WrapOrder.beats]
    · exact s.link.wrapOrder.getElem?_beats _ _ hi
    · exact congrArg TagEntry.state ((tag_after tag).trans (if_pos rfl))
    · exact (tag_after u).trans (if_neg hu)
  · have tag_after := s.link.tag_setTag d.tag {}
    refine ⟨s.setLink { s.link.setTag d.tag {} with sending := none, readCredits := s.link.readCredits + 1 }, ?_,
      (tag_after d.tag).trans (if_pos rfl), fun u hu => (tag_after u).trans (if_neg hu), rfl⟩
    simp [exec, execReadDataEnd, State.live_released hp, hd]

end Sys2Proof.Machine
end

section
/-! # The decode of a read (R19, R20, R23, R32) -/

namespace Sys2Proof.Machine

/-! ### The decode's first checks -/

theorem exec_readDecode_decoding {s : State} {tag : Fin 32} (hp : s.chip.resetPin = false)
    (hd : (s.link.tag tag).state = .decoding) : exec (.readDecode tag) s = .next (s.decodeRead tag) := by
  simp [exec, execReadDecode, State.live_released hp, hd]

/-- In INIT and through a DISABLED descriptor a read is answered UNMAPPED (R19 checks 1 and 2). -/
theorem State.decodeRead_unmapped {s : State} {tag : Fin 32} (h : s.chip.inInit = true ∨
    (s.aperture (addressAperture (s.link.tag tag).address)).state = .disabled) :
    s.decodeRead tag = s.answerRead tag unmappedAnswer := by
  unfold State.decodeRead
  by_cases hi : s.chip.inInit = true
  · simp [hi]
  · simp [hi, h.resolve_left hi]

/-- Settles O10: the answer of the decode's first two checks. -/
theorem readDecodeUnmapped : Obligations.ReadDecodeUnmapped := by
  intro tag s hp hd h
  refine ⟨s.answerRead tag unmappedAnswer, ?_, s.link.answer_spec tag unmappedAnswer, rfl⟩
  rw [exec_readDecode_decoding hp hd, State.decodeRead_unmapped h]

/-! ### The walk -/

/-- A version further down the chain is found when none before it is considered and holds the index (R32). -/
theorem walk_append {versions : Table Version} {e : Option Nat} {p : Bool} {i : Nat} {front : List Nat}
    (h : ∀ m ∈ front, ∀ w r, ¬ ViewHolds versions e p i m w r) (rest : List Nat) :
    walk versions e p i (front ++ rest) = walk versions e p i rest := by
  induction front with
  | nil => rfl
  | cons m front ih =>
    rw [List.cons_append, walk_of_not_holds (h m (List.mem_cons_self ..)),
      ih fun x hx => h x (List.mem_cons_of_mem _ hx)]

/-- The walk finds nothing exactly when no version of the chain is considered and holds the index (R32). -/
theorem walk_eq_none_iff {versions : Table Version} {e : Option Nat} {p : Bool} {i : Nat} {chain : List Nat} :
    walk versions e p i chain = none ↔ ∀ n ∈ chain, ∀ v strip, ¬ ViewHolds versions e p i n v strip := by
  induction chain with
  | nil => simp [walk]
  | cons n rest ih =>
    by_cases h : ∃ v strip, ViewHolds versions e p i n v strip
    · obtain ⟨v, strip, hv⟩ := h
      rw [walk_of_holds hv]
      exact ⟨nofun, fun g => absurd hv (g n (List.mem_cons_self ..) v strip)⟩
    · simp only [not_exists] at h
      rw [walk_of_not_holds h, ih, List.forall_mem_cons]
      exact ⟨fun g => ⟨h, g⟩, And.right⟩

/-! ### The answer of a walked read -/

/-- In `u` the reads of page `p` stand as in `s`: the same tags, port, chain, versions, strips and slots. -/
structure State.ReadsAs (s u : State) (p : Nat) : Prop where
  link : u.link = s.link
  port : u.port = s.port
  versions : u.store.versions = s.store.versions
  strips : u.store.strips = s.store.strips
  copies : u.store.copies = s.store.copies
  chain : (u.store.page p).chain = (s.store.page p).chain

theorem State.charge_readsAs (s : State) (j p : Nat) (c : Charge) : s.ReadsAs (s.charge j p c) p where
  link := rfl
  port := rfl
  versions := rfl
  strips := rfl
  copies := rfl
  chain := by
    show ((s.store.setPage p { s.store.page p with pins := (s.store.page p).pins + 1 }).page p).chain = _
    rw [Store.page_setPage_self]

/-- A read that the aperture lets through is walked, after its charge if it is charged (R19 step 4, R123). -/
theorem State.decodeRead_walks {s : State} {tag : Fin 32} {ap : Aperture} {k : Key} (hd : (s.link.tag tag).state = .decoding)
    (hi : s.chip.inInit = false) (hap : ap = s.aperture (addressAperture (s.link.tag tag).address))
    (hs : ap.state = .enabled) (hk : k = addressKey (s.link.tag tag).address)
    (hw : ap.kind = .reprint → ∀ reason, s.meterDecision ap.restored ap.job k.page ≠ .withheld reason) :
    ∃ u, s.decodeRead tag = u.walkRead tag ap k ∧ s.ReadsAs u k.page ∧ (¬ s.Charges (.readDecode tag) → u = s) := by
  have same : s.ReadsAs s k.page := ⟨rfl, rfl, rfl, rfl, rfl, rfl⟩
  unfold State.decodeRead
  simp only [← hap, ← hk, hi, hs, Bool.false_eq_true, reduceCtorEq, if_false]
  by_cases hr : ap.kind = .reprint
  · rw [if_pos hr]
    cases hm : s.meterDecision ap.restored ap.job k.page with
    | withheld reason => exact absurd hm (hw hr reason)
    | served => exact ⟨s, rfl, same, fun _ => rfl⟩
    | charged c =>
      exact ⟨s.charge ap.job k.page c, rfl, s.charge_readsAs ap.job k.page c,
        fun h => absurd ⟨tag, ap, c, rfl, hd, hi, hap, hs, hr, hk ▸ hm⟩ h⟩
  · rw [if_neg hr]
    exact ⟨s, rfl, same, fun _ => rfl⟩

theorem State.walkRead_of_none {u : State} {ap : Aperture} {k : Key}
    (h : walk u.store.versions ap.view.1 ap.view.2 k.strip (u.store.page k.page).chain = none) (tag : Fin 32) :
    u.walkRead tag ap k = u.answerRead tag blankAnswer := by
  unfold State.walkRead
  rw [h]

theorem State.walkRead_of_blank {u : State} {ap : Aperture} {k : Key} {hit : Hit}
    (h : walk u.store.versions ap.view.1 ap.view.2 k.strip (u.store.page k.page).chain = some hit)
    (hs : u.store.readSource hit.strip = none) (tag : Fin 32) : u.walkRead tag ap k = u.answerRead tag blankAnswer := by
  unfold State.walkRead
  rw [h]
  dsimp only
  rw [hs]

theorem State.walkRead_of_source {u : State} {ap : Aperture} {k : Key} {hit : Hit} {strip : Nat}
    (h : walk u.store.versions ap.view.1 ap.view.2 k.strip (u.store.page k.page).chain = some hit)
    (hs : u.store.readSource hit.strip = some strip) (tag : Fin 32) :
    u.walkRead tag ap k = u.queueRead tag strip k.line (ap.eligible hit.origin) := by
  unfold State.walkRead
  rw [h]
  dsimp only
  rw [hs]

theorem Store.readSource_ready {st : Store} {strip o i : Nat} (h : Table.read st.strips strip = some ⟨.ready, o, i⟩) :
    st.readSource strip = some strip := by
  unfold Store.readSource
  rw [h]

theorem Store.readSource_filling {st : Store} {strip o i : Nat} {j : Fin 4} {c : Copy}
    (h : Table.read st.strips strip = some ⟨.filling (.slot j), o, i⟩) (hc : Table.read st.copies j.val = some c) :
    st.readSource strip = c.source := by
  unfold Store.readSource
  rw [h]
  simp [hc]

/-- A walked read changes link and port alone. -/
theorem State.walkRead_frame_eq (u : State) (tag : Fin 32) (ap : Aperture) (k : Key) :
    u.walkRead tag ap k = { u with link := (u.walkRead tag ap k).link, port := (u.walkRead tag ap k).port } := by
  rcases u.walkRead_cases tag ap k with e | ⟨strip, eligible, e⟩ <;> rw [e] <;> rfl

/-- The answer BLANK, seen from a state in which the reads stand the same. -/
theorem State.ReadsAs.answered_blank {s u : State} {p : Nat} (h : s.ReadsAs u p) (tag : Fin 32) :
    s.link.Answered (u.answerRead tag blankAnswer).link tag ⟨.blank, List.replicate 64 255⟩ ∧
      (u.answerRead tag blankAnswer).port = s.port := by
  refine ⟨?_, h.port⟩
  rw [← h.link]
  exact u.link.answer_spec tag blankAnswer

theorem State.ReadsAs.queued {s u : State} {p : Nat} (h : s.ReadsAs u p) (tag : Fin 32) (strip line : Nat)
    (eligible : Bool) : s.Queued (u.queueRead tag strip line eligible) tag strip line eligible := by
  have hq := (u.queueRead_spec tag strip line eligible).1
  unfold State.Queued at hq ⊢
  rwa [h.link, h.port] at hq

/-- A hit is eligible exactly when the view prefers restored versions and the hit is none (R20, R33). -/
theorem Aperture.eligible_eq (ap : Aperture) (o : Origin) : ap.eligible o = (ap.view.2 && decide (o ≠ .restored)) := by
  have ne : (o != .restored) = decide (o ≠ .restored) := by cases o <;> rfl
  unfold Aperture.eligible Aperture.view
  rw [ne]
  cases ap.kind <;> simp

/-- Settles O11: the walk by the lemmas of the walk; a read by the cases of its walk. -/
theorem readDecodeWalks : Obligations.ReadDecodeWalks := by
  refine ⟨fun versions e p i chain => ⟨?_, walk_eq_none_iff⟩, ?_⟩
  · rintro front n back v strip rfl hv hf
    rw [walk_append hf, walk_of_holds hv]
  · intro tag s ap k e p hp hd hi hap hs hk hkind
    have hw : ap.kind = .reprint → ∀ reason, s.meterDecision ap.restored ap.job k.page ≠ .withheld reason := by
      intro hr
      rw [hr] at hkind
      exact hkind.2.2
    have hview : ap.view = (e, p) := by
      unfold Aperture.view
      cases hkd : ap.kind <;> rw [hkd] at hkind
      case reprint =>
        obtain ⟨rfl, rfl, -⟩ := hkind
        rfl
      all_goals
        obtain ⟨rfl, rfl⟩ := hkind
        rfl
    have heligible : ∀ o, ap.eligible o = (p && decide (o ≠ .restored)) := by
      intro o
      rw [ap.eligible_eq, hview]
    obtain ⟨u, hu, same, idle⟩ := State.decodeRead_walks hd hi hap hs hk hw
    refine ⟨u.walkRead tag ap k, by rw [exec_readDecode_decoding hp hd, hu], fun h => ?_, ?_⟩
    · rw [← idle h]
      exact u.walkRead_frame_eq tag ap k
    · have hwalk : walk u.store.versions ap.view.1 ap.view.2 k.strip (u.store.page k.page).chain =
          walk s.store.versions e p k.strip (s.store.page k.page).chain := by
        rw [same.versions, same.chain, hview]
      cases hr : walk s.store.versions e p k.strip (s.store.page k.page).chain with
      | none =>
        rw [State.walkRead_of_none (hwalk.trans hr)]
        exact same.answered_blank tag
      | some hit =>
        have hwalk := hwalk.trans hr
        refine ⟨fun o i ho => ?_, fun j o i c ho hc => ?_⟩
        · have hsource := Store.readSource_ready (same.strips ▸ ho)
          rw [State.walkRead_of_source hwalk hsource, ← heligible]
          exact same.queued tag _ _ _
        · have hsource := Store.readSource_filling (same.strips ▸ ho) (same.copies ▸ hc)
          cases hcs : c.source with
          | none =>
            rw [State.walkRead_of_blank hwalk (hsource.trans hcs)]
            exact same.answered_blank tag
          | some source =>
            rw [State.walkRead_of_source hwalk (hsource.trans hcs), ← heligible]
            exact same.queued tag _ _ _

end Sys2Proof.Machine
end

section
/-! # Write disposal without a carried write, the part commands and the aperture commands -/

namespace Sys2Proof.Machine

/-! ### Write disposal (R21, R56, R57) -/

/-- The fourth check drops a write to a page that is in no state for its aperture's kind (R56). -/
theorem State.disposePage_absent {s : State} {w : HostWrite}
    (h : (s.store.page (addressKey w.address).page).state = .absent) (kind : ApertureKind) :
    s.disposePage w kind = s.dropHead w .noPage := by
  unfold State.disposePage
  rw [h]

theorem State.disposePage_loading {s : State} {w : HostWrite}
    (h : (s.store.page (addressKey w.address).page).state = .loading) :
    s.disposePage w .edition = s.dropHead w .pageState := by
  unfold State.disposePage
  rw [h]

theorem State.disposePage_live {s : State} {w : HostWrite}
    (h : (s.store.page (addressKey w.address).page).state = .live) :
    s.disposePage w .load = s.dropHead w .pageState := by
  unfold State.disposePage
  rw [h]

theorem State.disposeHead_disabled {s : State} {w : HostWrite}
    (h : (s.aperture (addressAperture w.address)).state = .disabled) : s.disposeHead w = s.dropHead w .unmapped := by
  unfold State.disposeHead
  rw [if_pos h]

section
variable {s : State} {w : HostWrite} (hs : (s.aperture (addressAperture w.address)).state = .enabled)
include hs

theorem State.disposeHead_protect (hk : (s.aperture (addressAperture w.address)).kind = .historic ∨
    (s.aperture (addressAperture w.address)).kind = .restored ∨ (s.aperture (addressAperture w.address)).kind = .reprint) :
    s.disposeHead w = s.dropHead w .protect := by
  unfold State.disposeHead
  rcases hk with hk | hk | hk <;> simp [hs, hk]

theorem State.disposeHead_noEdition (hk : (s.aperture (addressAperture w.address)).kind = .edition)
    (he : s.store.edition = .none) : s.disposeHead w = s.dropHead w .noEdition := by
  simp [State.disposeHead, hs, hk, he]

theorem State.disposeHead_closing (hk : (s.aperture (addressAperture w.address)).kind = .edition) {n : Nat}
    (he : s.store.edition = .closing n) : s.disposeHead w = s.dropHead w .lateWrite := by
  simp [State.disposeHead, hs, hk, he]

theorem State.disposeHead_opened (hk : (s.aperture (addressAperture w.address)).kind = .edition) {n : Nat}
    (he : s.store.edition = .opened n) : s.disposeHead w = s.disposePage w .edition := by
  simp [State.disposeHead, hs, hk, he]

theorem State.disposeHead_load (hk : (s.aperture (addressAperture w.address)).kind = .load) :
    s.disposeHead w = s.disposePage w .load := by
  simp [State.disposeHead, hs, hk]

end

/-- Settles O17: each of the first four checks drops the head with its fault. -/
theorem disposalDrops : Obligations.DisposalDrops := by
  intro s w rest ap page ha hap hpage
  subst hap hpage
  have drop := State.dropHead_spec (w := w) ha.2.1
  refine ⟨s.disposeHead w, execWriteDisposal_of_attempted ha, fun hs => ?_, fun hs => ⟨fun hk => ?_, fun hk => ?_, fun hk => ?_⟩⟩
  · rw [State.disposeHead_disabled hs]
    exact drop .unmapped
  · rw [State.disposeHead_protect hs hk]
    exact drop .protect
  · refine ⟨fun he => ?_, fun n he => ?_, fun n he => ?_⟩
    · rw [State.disposeHead_noEdition hs hk he]
      exact drop .noEdition
    · rw [State.disposeHead_closing hs hk he]
      exact drop .lateWrite
    · rw [State.disposeHead_opened hs hk he]
      exact ⟨fun hp => State.disposePage_absent hp _ ▸ drop .noPage, fun hp => State.disposePage_loading hp ▸ drop .pageState⟩
  · rw [State.disposeHead_load hs hk]
    exact ⟨fun hp => State.disposePage_absent hp _ ▸ drop .noPage, fun hp => State.disposePage_live hp ▸ drop .pageState⟩

/-- With no attempt owed, no head, or no place for a carried write, there is no disposal (R21, R153). -/
theorem exec_writeDisposal_idle {s : State}
    (h : 64 ≤ s.port.carriedCount ∨ s.link.attemptDue = false ∨ s.link.writeBuffer = []) :
    exec .writeDisposal s = .next s := by
  refine congrArg _ (State.live_keeps (P := fun u => u = s) rfl fun _ => ?_)
  split
  · rfl
  · next w rest hw =>
    refine if_neg fun ⟨hd, hc⟩ => ?_
    rcases h with h | h | h
    · exact absurd hc (Nat.not_lt.2 h)
    · rw [h] at hd
      cases hd
    · rw [h] at hw
      cases hw

/-- Settles O18: the fifth check lets the head leave; else there is no attempt. -/
theorem disposalWithoutEffect : Obligations.DisposalWithoutEffect := by
  refine fun s => ⟨fun w rest kind ha hp he => ⟨s.headLeaves, ?_, State.headLeaves_spec ha.2.1⟩, exec_writeDisposal_idle⟩
  have htarget : s.disposeTarget w kind = s.headLeaves := if_pos he
  exact (execWriteDisposal_of_attempted ha).trans (congrArg _ ((State.disposeHead_of_passes hp).1.trans htarget))

/-! ### Commands taken by their rules -/

/-- A command that is ready answers by its rule (R182, R189). -/
theorem State.take_ready_eq {s : State} {c : Instr} (h : s.Ready c) (d : Bool) (body : State → Reply) :
    s.take c d body = { (body s).state with management := (body s).state.answered (body s).status (body s).fields } :=
  State.take_of_ready h d body

/-- A refusal changes nothing but the response (R185). -/
theorem State.take_refused {s : State} {c : Instr} {status : Status} {body : State → Reply} (h : s.Ready c)
    (hb : body s = s.refuse status) (d : Bool) : s.Refused (s.take c d body) status := by
  rw [State.take_ready_eq h, hb]
  rfl

/-! ### The part (R7, R190, R191) -/

theorem wrapOrderOf_above {order : Nat} (h : 1 < order) : wrapOrderOf order = none := by
  obtain ⟨n, rfl⟩ := Nat.exists_eq_add_of_le' h
  rfl

theorem wrapOrderOf_code {order : Nat} (h : order ≤ 1) :
    wrapOrderOf order = some (if order = 0 then .sequential else .interleaved) := by
  obtain rfl | rfl : order = 0 ∨ order = 1 := by omega
  all_goals rfl

/-- Settles O39: the two reports, and the wrap order by its code. -/
theorem partCommands : Obligations.PartCommands := by
  refine fun s => ⟨fun h => ?_, fun h => ?_, fun order h => ⟨_, rfl, fun ho => ?_, fun ho => ?_⟩⟩
  · exact congrArg _ (State.take_of_taken h _)
  · refine ⟨if s.restore.sequencer.state = .idle then 0 else s.restore.sequencer.page,
      if s.restore.sequencer.state = .idle then 0 else s.restore.sequencer.cursor, ?_, fun hi => ?_, fun hi => ?_⟩
    · refine congrArg _ ((State.take_of_taken h _).trans ?_)
      show s.respond .ok s.statusFields = _
      simp [State.respond_eq, State.statusFields, Config.recordCount, Store.freeVersions, Config.versionCount,
        Restore.freeRecords]
    · exact ⟨if_pos hi, if_pos hi⟩
    · exact ⟨if_neg hi, if_neg hi⟩
  · exact State.take_refused h (by rw [wrapOrderOf_above ho]) false
  · refine (State.take_ready_eq h false _).trans ?_
    rw [wrapOrderOf_code ho]
    rfl

/-! ### The aperture descriptors (R11, R14) -/

theorem apertureStateOf_code {st : Nat} (h : st ≤ 1) :
    apertureStateOf st = some (if st = 0 then .disabled else .enabled) := by
  obtain rfl | rfl : st = 0 ∨ st = 1 := by omega
  all_goals rfl

theorem flagOf_code {r : Nat} (h : r ≤ 1) : flagOf r = some (decide (r = 1)) := by
  obtain rfl | rfl : r = 0 ∨ r = 1 := by omega
  all_goals rfl

theorem selectorOf_code {sel : Nat} (h : sel ≤ 16777215) : selectorOf sel = some (if sel = 0 then none else some sel) := by
  have hc : Config.maxEdition = 16777215 := rfl
  unfold selectorOf
  by_cases h0 : sel = 0
  · rw [if_pos h0, if_pos h0]
  · rw [if_neg h0, if_neg h0, if_pos (by omega)]

theorem apertureStateOf_above {st : Nat} (h : 1 < st) : apertureStateOf st = none := by
  obtain ⟨n, rfl⟩ := Nat.exists_eq_add_of_le' h
  rfl

theorem flagOf_above {r : Nat} (h : 1 < r) : flagOf r = none := by
  obtain ⟨n, rfl⟩ := Nat.exists_eq_add_of_le' h
  rfl

theorem apertureKindOf_above {k : Nat} (h : 4 < k) : apertureKindOf k = none := by
  obtain ⟨n, rfl⟩ := Nat.exists_eq_add_of_le' h
  rfl

theorem selectorOf_above {sel : Nat} (h : 16777215 < sel) : selectorOf sel = none := by
  have hc : Config.maxEdition = 16777215 := rfl
  unfold selectorOf
  rw [if_neg (by omega), if_neg (by omega)]

/-- A field outside its values gives no descriptor (R11). -/
theorem apertureOf_eq_none {st k sel r job : Nat} (h : 1 < st ∨ 4 < k ∨ 16777215 < sel ∨ 1 < r ∨ 64 ≤ job) (fill : Nat) :
    apertureOf st k sel r job fill = none := by
  unfold apertureOf
  split
  · next hst hk hsel hr =>
    rcases h with h | h | h | h | h
    · rw [apertureStateOf_above h] at hst
      cases hst
    · rw [apertureKindOf_above h] at hk
      cases hk
    · rw [selectorOf_above h] at hsel
      cases hsel
    · rw [flagOf_above h] at hr
      cases hr
    · exact if_neg (Nat.not_lt.2 h)
  · rfl

/-- The descriptor that fields within their values give. -/
theorem apertureOf_eq_some {st k sel r job : Nat} {kind : ApertureKind} (hst : st ≤ 1) (hk : apertureKindOf k = some kind)
    (hsel : sel ≤ 16777215) (hr : r ≤ 1) (hj : job < 64) (fill : Nat) :
    apertureOf st k sel r job fill = some ⟨if st = 0 then .disabled else .enabled, kind,
      if sel = 0 then none else some sel, decide (r = 1), job, BitVec.ofNat 8 fill⟩ := by
  unfold apertureOf
  rw [apertureStateOf_code hst, hk, selectorOf_code hsel, flagOf_code hr]
  exact if_pos hj

/-- A descriptor that passes its checks is replaced as a whole by its canonical form (R11). -/
theorem take_setAperture {a st k sel r job fill : Nat} {s : State} {ap : Aperture}
    (h : s.Ready (.setAperture a st k sel r job fill)) (ha : a < 16) (hap : apertureOf st k sel r job fill = some ap)
    (hj : ap.kind = .reprint → (s.meter.job ap.job).state = .opened) :
    exec (.setAperture a st k sel r job fill) s = .next { s with
      apertures := Table.put s.apertures {} a ap.canonical, management := s.answered .ok [] } := by
  have hc : ¬ Config.apertureCount ≤ a := Nat.not_le.2 ha
  have hn : ¬ (ap.kind = .reprint ∧ (s.meter.job ap.job).state ≠ .opened) := fun ⟨h1, h2⟩ => h2 (hj h1)
  refine congrArg _ ((State.take_ready_eq h false _).trans ?_)
  simp only [if_neg hc, hap, if_neg hn]
  rfl

/-- Settles O41: the checks and the canonical form kind by kind, and the report. -/
theorem apertureCommands : Obligations.ApertureCommands := by
  intro a st k sel r job fill s
  refine ⟨fun h => ?_, fun h => ⟨_, rfl, fun ha => State.take_refused h (if_pos ha) false, fun d ha hd => ?_⟩⟩
  · obtain ⟨t, ht⟩ : ∃ t, exec (.setAperture a st k sel r job fill) s = .next t := ⟨_, rfl⟩
    refine ⟨t, ht, fun hr => ?_, fun ha hst hk hsel hr hj => ⟨fun h4 ho => ?_, fun ho => ?_⟩⟩
    · cases ht
      refine State.take_refused h ?_ false
      rcases hr with ha | hr
      · exact if_pos ha
      · rw [apertureOf_eq_none hr]
        exact ite_self _
    · cases ht
      subst h4
      refine State.take_refused h ?_ false
      rw [if_neg (Nat.not_le.2 ha), apertureOf_eq_some hst rfl hsel hr hj]
      exact if_pos ⟨rfl, ho⟩
    · obtain ⟨kind, hkind, hj4⟩ : ∃ kind, apertureKindOf k = some kind ∧ (kind = .reprint → k = 4) := by
        interval_cases k <;> exact ⟨_, rfl, by decide⟩
      have hap := apertureOf_eq_some hst hkind hsel hr hj fill
      cases ht.symm.trans (take_setAperture h ha hap fun hr => ho (hj4 hr))
      have at_a := Table.get_put_self s.apertures ({} : Aperture) a
      interval_cases k
      all_goals
        cases hkind
        refine ⟨?_, ?_, ?_, ?_, ?_, ?_, fun b hb => Table.get_put_other _ _ _ _ hb, rfl⟩
      all_goals
        unfold State.aperture
        rw [at_a]
        simp [Aperture.canonical]
  · subst hd
    refine (State.take_ready_eq h false _).trans ?_
    rw [if_neg (Nat.not_le.2 ha)]
    cases hs : (s.aperture a).selector <;> simp [State.report, Aperture.fields, State.answered, selectorCode, flagCode, hs]

end Sys2Proof.Machine
end

section
/-! # The end of a line read and the arrival of its bytes (R20, R82, R86, R87, R162) -/

namespace Sys2Proof.Machine

/-! ### The arrival of data -/

/-- The arrivals change the link alone. -/
theorem State.foldl_arrive_frame (l : List Arrival) (s : State) :
    l.foldl State.arrive s = { s with link := (l.foldl State.arrive s).link } := by
  induction l generalizing s with
  | nil => rfl
  | cons a l ih => rw [List.foldl_cons, ih]; rfl

/-- Of the link they change the tags, and the reads join the order one by one. -/
theorem State.foldl_arrive_link (l : List Arrival) (s : State) :
    (l.foldl State.arrive s).link = { s.link with
      tags := (l.foldl State.arrive s).link.tags, readyOrder := s.link.readyOrder ++ l.map fun a => [a.tag] } := by
  induction l generalizing s with
  | nil => simp
  | cons a l ih =>
    rw [List.foldl_cons, ih]
    simp [State.arrive, State.answerRead, Link.answer, Link.setTag]

/-- The answer that an arrival brings (R82, R86). -/
def State.arrivalAnswer (s : State) (a : Arrival) (k : Key) : Answer :=
  ⟨.data, s.restoreBytes k.page k.strip k.line a.bytes⟩

theorem State.tag_arrive_self (s : State) (a : Arrival) : (s.arrive a).link.tag a.tag =
    { s.link.tag a.tag with
      state := .ready, answer := some (s.arrivalAnswer a (addressKey (s.link.tag a.tag).address)) } :=
  (s.link.answer_spec a.tag _).2.1

theorem State.tag_arrive_other (s : State) {a : Arrival} {u : Fin 32} (h : u ≠ a.tag) :
    (s.arrive a).link.tag u = s.link.tag u :=
  (s.link.answer_spec a.tag _).2.2 u h

/-- A tag that no arrival names stays as it is. -/
theorem State.tag_foldl_arrive_other {l : List Arrival} {u : Fin 32} (h : ∀ a ∈ l, a.tag ≠ u) (s : State) :
    (l.foldl State.arrive s).link.tag u = s.link.tag u := by
  induction l generalizing s with
  | nil => rfl
  | cons a l ih =>
    rw [List.foldl_cons, ih fun b hb => h b (List.mem_cons_of_mem _ hb),
      s.tag_arrive_other (h a (List.mem_cons_self ..)).symm]

/-- The read behind a tag keeps its address and its critical beat. -/
theorem State.tag_foldl_arrive_read (l : List Arrival) (s : State) (u : Fin 32) :
    ((l.foldl State.arrive s).link.tag u).address = (s.link.tag u).address ∧
      ((l.foldl State.arrive s).link.tag u).beat = (s.link.tag u).beat := by
  induction l generalizing s with
  | nil => exact ⟨rfl, rfl⟩
  | cons a l ih =>
    obtain ⟨ha, hb⟩ := ih (s.arrive a)
    rw [List.foldl_cons, ha, hb]
    by_cases h : u = a.tag
    · rw [h, s.tag_arrive_self]
      exact ⟨rfl, rfl⟩
    · rw [s.tag_arrive_other h]
      exact ⟨rfl, rfl⟩

theorem TagEntry.answered_congr {e f : TagEntry} (ha : e.address = f.address) (hb : e.beat = f.beat) (x : Answer) :
    { e with state := .ready, answer := some x } = { f with state := .ready, answer := some x } := by
  rw [TagEntry.mk.injEq]
  exact ⟨rfl, ha, hb, rfl⟩

/-- The last arrival that names a tag is its answer. -/
theorem State.tag_foldl_arrive_last {front back : List Arrival} {a : Arrival} (h : ∀ c ∈ back, c.tag ≠ a.tag) {s : State}
    {k : Key} (hk : k = addressKey (s.link.tag a.tag).address) :
    ((front ++ a :: back).foldl State.arrive s).link.tag a.tag = { s.link.tag a.tag with
      state := .ready, answer := some (s.arrivalAnswer a k) } := by
  obtain ⟨haddress, hbeat⟩ := s.tag_foldl_arrive_read front a.tag
  have hanswer : (front.foldl State.arrive s).arrivalAnswer a k = s.arrivalAnswer a k := by
    rw [s.foldl_arrive_frame front]
    rfl
  rw [List.foldl_append, List.foldl_cons, State.tag_foldl_arrive_other h, State.tag_arrive_self, haddress, ← hk, hanswer]
  exact TagEntry.answered_congr haddress hbeat _

/-- Without a record the bytes are as stored (R82). -/
theorem State.restoreBytes_of_none {s : State} {p : Nat} (h : (s.store.page p).record = none) (strip line : Nat)
    (bytes : List Byte) : s.restoreBytes p strip line bytes = bytes := by
  simp [State.restoreBytes, State.recordOf, h]

/-- With a record each byte is transformed at its page byte offset (R82, R83). -/
theorem State.restoreBytes_of_some {s : State} {p n : Nat} {r : Restoration} (h : (s.store.page p).record = some n)
    (hr : Table.read s.restore.records n = some r) (strip line : Nat) (bytes : List Byte) :
    s.restoreBytes p strip line bytes = s.restore.transform r (strip * 65536 + line * 64) bytes := by
  simp [State.restoreBytes, State.recordOf, h, hr, pageOffset]

/-- All data on its way arrives (R82, R86, R87). -/
theorem State.arriveAll_spec (s : State) : s.Arrived s.arriveAll := by
  refine ⟨s.arriveAll_frame_eq, State.foldl_arrive_link _ _, fun u hu => State.tag_foldl_arrive_other hu _, ?_⟩
  intro front a back k hl hb hk
  have hanswer : s.arriveAll.link.tag a.tag = { s.link.tag a.tag with
      state := .ready, answer := some ((s.setRestore { s.restore with arriving := [] }).arrivalAnswer a k) } := by
    unfold State.arriveAll
    rw [hl]
    exact State.tag_foldl_arrive_last hb hk
  refine ⟨_, hanswer, fun hn => State.restoreBytes_of_none (by exact hn) _ _ _, fun n r hn hr => ?_⟩
  rw [State.restoreBytes_of_some (s := s.setRestore { s.restore with arriving := [] }) hn hr]
  exact ⟨Restore.length_transform _ _ _ _, fun i b hb => Restore.getElem_transform _ _ _ _ hb⟩

/-! ### The end of a transfer -/

theorem exec_transferEnd_first {s : State} {a : Access} {rest : List Access} (hp : s.chip.resetPin = false)
    (ht : s.port.transferring = true) (hq : s.port.issueList = a :: rest) :
    exec .transferEnd s = .next ((s.setPort (s.port.endTransfer s.chip.now a rest)).carryOut a) := by
  simp [exec, execTransferEnd, State.live_released hp, ht, hq]

theorem exec_transferEnd_none {s : State} (hp : s.chip.resetPin = false)
    (h : s.port.transferring = false ∨ s.port.issueList = []) :
    exec .transferEnd s = .next s.arriveAll.testClosing := by
  rcases h with h | h <;> simp [exec, execTransferEnd, State.live_released hp, h]

/-- Bytes that are byte by byte those of the store are the line's or segment's bytes (R149, R151). -/
theorem Memory.eq_bytesAt {m : Memory} {p a n : Nat} {stored : List Byte} (hl : stored.length = n)
    (h : ∀ i, i < n → stored[i]? = some ((Memory.read m (a + i)).getD (Config.storePowerOn p (a + i)))) :
    stored = Memory.bytesAt m p a n := by
  refine List.ext_getElem? fun i => ?_
  by_cases hi : i < n
  · rw [h i hi, Memory.getElem_bytesAt m p a n i hi]
    rfl
  · rw [List.getElem?_eq_none (by omega), List.getElem?_eq_none (by simp; omega)]

/-- The bytes of an eligible read are on their way to the restoration unit (R82). -/
def State.readOnItsWay (s : State) (tag : Fin 32) (stored : List Byte) : State :=
  s.setRestore { s.restore with
    arriving := s.restore.arriving ++ [⟨tag, stored⟩], occasions := s.restore.occasions + 1 }

/-- The end of an eligible read: its bytes arrive now or later (assumption 36). -/
theorem State.carryOut_eligible (s : State) (tag : Fin 32) (strip line : Nat) {u : State}
    (hu : u = s.readOnItsWay tag (Memory.bytesAt s.memory s.chip.powerOns (lineAddress strip line) 64)) :
    (s.carryOut (.lineRead tag strip line true false)).port = s.port ∧
      if Config.restorationFallsLater s.restore.occasions then s.carryOut (.lineRead tag strip line true false) = u
      else u.Arrived (s.carryOut (.lineRead tag strip line true false)) := by
  have e : s.carryOut (.lineRead tag strip line true false) =
      if Config.restorationFallsLater s.restore.occasions then u else u.arriveAll := by
    rw [hu]
    rfl
  rw [e]
  split
  · exact ⟨by rw [hu]; rfl, rfl⟩
  · exact ⟨by rw [u.arriveAll_frame_eq, hu]; rfl, u.arriveAll_spec⟩

/-- Settles O29: the answer of a read, now or by an arrival, and the row without a transfer. -/
theorem transferEndReads : Obligations.TransferEndReads := by
  refine ⟨fun rest tag strip line eligible stored s hp ht hq hl hs => ⟨_, exec_transferEnd_first hp ht hq, ?_, ?_⟩,
    fun s hp h => ⟨s.arriveAll, _, exec_transferEnd_none hp h, s.arriveAll_spec, State.testClosing_spec _⟩⟩
  all_goals
    obtain rfl := Memory.eq_bytesAt hl hs
  · rintro rfl
    exact ⟨s.link.answer_spec tag _, rfl⟩
  · rintro rfl
    obtain ⟨hport, harrive⟩ := State.carryOut_eligible
      (s.setPort (s.port.endTransfer s.chip.now (.lineRead tag strip line true false) rest)) tag strip line rfl
    exact ⟨_, by rw [hport]; rfl, harrive⟩

end Sys2Proof.Machine
end

section
/-! # The copy slots: their segments and their last held write (R63 to R65) -/

namespace Sys2Proof.Machine

/-! ### The end of a slot's segment -/

/-- A read segment of a COPYING slot hands its bytes to the slot (R63). -/
theorem State.carryOut_copyRead {s : State} {k : Fin 4} {c : Copy} (h : Table.read s.store.copies k.val = some c)
    (strip line : Nat) : s.carryOut (.readSegment (.slot k) strip line false) = s.setCopy k { c with
      phase := .none, held := some (Memory.bytesAt s.memory s.chip.powerOns (lineAddress strip line) 256) } := by
  simp [State.carryOut, State.readSegmentDone, State.copyRead, h]

/-- A write segment of a COPYING slot raises its next line, and after the last the slot's held writes are released (R63,
R64). -/
theorem State.carryOut_copyWritten {s : State} {k : Fin 4} {c : Copy} (h : Table.read s.store.copies k.val = some c)
    (strip line : Nat) (data : List Byte) : s.carryOut (.writeSegment (.slot k) strip line data false) =
      if c.nextLine + 4 = 1024 then
        (((s.setMemory (Memory.store s.memory (lineAddress strip line) data)).setCopy k
          { c with nextLine := c.nextLine + 4, phase := .none }).releaseHeld k c.target)
      else (s.setMemory (Memory.store s.memory (lineAddress strip line) data)).setCopy k
          { c with nextLine := c.nextLine + 4, phase := .none } := by
  simp [State.carryOut, State.writeSegmentDone, State.copyWritten, h, Config.stripLines]

/-- The released held writes stand at the tail of the link-side queue, and the quiet timer is cancelled if there are any
(R64, R156). -/
theorem State.releaseHeld_eq (s : State) (k : Fin 4) (strip : Nat) : s.releaseHeld k strip = { s with
    store := { s.store with holdQueue := s.store.holdQueue.map fun h =>
      if h.slot = k then { h with released := true } else h }
    port := { s.port with
      linkQueue := s.port.linkQueue ++ ((s.store.holdQueue.filter fun h => h.slot = k && !h.released).map fun h =>
        .lineWrite strip (addressKey h.write.address).line h.write.data h.write.enables (some k))
      quiet := if ∃ h ∈ s.store.holdQueue, h.slot = k ∧ h.released = false then .stopped else s.port.quiet } } := by
  have haccess : ((s.store.holdQueue.filter fun h => h.slot = k && !h.released).map fun h => h.access strip) =
      (s.store.holdQueue.filter fun h => h.slot = k && !h.released).map fun h =>
        .lineWrite strip (addressKey h.write.address).line h.write.data h.write.enables (some k) := by
    refine List.map_congr_left fun h hh => ?_
    have hk : h.slot = k := by simpa using (Bool.and_eq_true_iff.1 (List.mem_filter.1 hh).2).1
    rw [HeldWrite.access, hk]
  have hmine : (s.store.holdQueue.filter fun h => h.slot = k && !h.released) = [] ↔
      ¬ ∃ h ∈ s.store.holdQueue, h.slot = k ∧ h.released = false := by
    simp [List.filter_eq_nil_iff]
  unfold State.releaseHeld
  dsimp only
  rw [foldl_joinLink, haccess]
  simp only [hmine, ite_not]

theorem State.read_setCopy (s : State) (k : Fin 4) (c : Copy) (j : Nat) :
    Table.read (s.setCopy k c).store.copies j = if j = k.val then some c else Table.read s.store.copies j :=
  Table.read_write ..

/-! ### The slot's last held write -/

theorem removedKey_append {k : Fin 4} {front back : List HeldWrite} {h : HeldWrite} (hk : h.slot = k)
    (hr : h.released = true) (hf : ∀ g ∈ front, ¬ (g.slot = k ∧ g.released = true)) :
    removedKey k (front ++ h :: back) = some (addressKey h.write.address) := by
  have hnone : (front.find? fun h => h.slot = k ∧ h.released = true) = none :=
    List.find?_eq_none.2 fun g hg => by simpa using hf g hg
  rw [removedKey, List.find?_append, hnone]
  simp [hk, hr]

/-- The held write with that key, carried out, has left the hold queue `queue` behind: its key stays pending for slot `k`, and
an attempt at the write buffer's head falls due (R64, R65; assumption 9). -/
def State.heldGone (s : State) (k : Fin 4) (key : Key) (queue : List HeldWrite) : State :=
  (s.setStore { s.store with holdQueue := queue, settling := s.store.settling ++ [(k, key)] }).attemptHead

/-- The slot becomes IDLE with its last entry of the hold queue, and not before (R65). -/
theorem State.heldCarriedOut_eq {s : State} {k : Fin 4} {c : Copy} {front back : List HeldWrite} {h : HeldWrite}
    (hc : Table.read s.store.copies k.val = some c) (hn : c.nextLine = 1024)
    (hq : s.store.holdQueue = front ++ h :: back) (hk : h.slot = k) (hr : h.released = true)
    (hf : ∀ g ∈ front, ¬ (g.slot = k ∧ g.released = true)) :
    ((∀ g ∈ front ++ back, g.slot ≠ k) →
      s.heldCarriedOut k = (s.heldGone k (addressKey h.write.address) (front ++ back)).slotIdle k c) ∧
    ((∃ g ∈ front ++ back, g.slot = k) →
      s.heldCarriedOut k = s.heldGone k (addressKey h.write.address) (front ++ back)) := by
  unfold State.heldCarriedOut
  dsimp only
  rw [hc, hq, removedKey_append hk hr hf, removeHeld_append hk hr hf]
  dsimp only
  constructor
  · intro hl
    exact if_pos ⟨hn, by simpa only [List.all_eq_true, bne_iff_ne] using hl⟩
  · rintro ⟨g, hg, hs⟩
    exact if_neg fun hl => by simpa [hs] using List.all_eq_true.1 hl.2 g hg

/-- What an IDLE slot leaves behind (R17, R65). -/
theorem State.freeSlot_spec (s : State) (k : Fin 4) (c : Copy) :
    (s.freeSlot k c).link = { s.link with tags := (s.freeSlot k c).link.tags, attemptDue := true } ∧
    Table.read (s.freeSlot k c).store.copies k.val = none ∧
    (∀ j, j ≠ k.val → Table.read (s.freeSlot k c).store.copies j = Table.read s.store.copies j) ∧
    (s.freeSlot k c).store.startOrder = s.store.startOrder.filter (· != k) ∧
    Table.read (s.freeSlot k c).store.strips c.target =
      (Table.read s.store.strips c.target).map (fun e => { e with state := .ready }) ∧
    (∀ n, n ≠ c.target → Table.read (s.freeSlot k c).store.strips n = Table.read s.store.strips n) ∧
    (∀ p, (s.freeSlot k c).store.page p = if p = c.page
      then { s.store.page c.page with copies := (s.store.page c.page).copies - 1 } else s.store.page p) ∧
    (s.freeSlot k c).store.settling = s.store.settling.filter (fun e => e.1 != k) ∧
    (∀ v, (s.freeSlot k c).link.tag v =
      if (s.link.tag v).state = .waiting ∧ (s.freeSlot k c).keyPending (addressKey (s.link.tag v).address) = false
      then { s.link.tag v with state := .decoding } else s.link.tag v) ∧
    s.freeSlot k c = { s with link := (s.freeSlot k c).link, store := { s.store with
      pages := (s.freeSlot k c).store.pages, strips := (s.freeSlot k c).store.strips
      copies := (s.freeSlot k c).store.copies, startOrder := (s.freeSlot k c).store.startOrder
      settling := (s.freeSlot k c).store.settling } } := by
  have hcopies := Table.read_remove s.store.copies k.val
  have hstrips := Table.read_adjust s.store.strips c.target fun e => { e with state := .ready }
  refine ⟨rfl, (hcopies _).trans (if_pos rfl), fun j hj => (hcopies j).trans (if_neg hj), rfl, (hstrips _).trans (if_pos rfl),
    fun n hn => (hstrips n).trans (if_neg hn), Store.page_setPage _ _ _, rfl, fun v => State.tag_releaseReads _ v, rfl⟩

/-- The held write of a slot has been carried out: its bytes are written, no slot and not the sequencer is blocked any more,
and it has left the hold queue (R63, R64). -/
def State.heldWritten (s : State) (strip line : Nat) (data : List Byte) (enables : Enables) (k : Fin 4) (key : Key)
    (queue : List HeldWrite) : State :=
  (s.setMemory (Memory.storeEnabled s.memory (lineAddress strip line) 0 enables data)).unblock.heldGone k key queue

theorem State.read_copies_heldWritten (s : State) (strip line : Nat) (data : List Byte) (enables : Enables) (k : Fin 4)
    (key : Key) (queue : List HeldWrite) (j : Nat) :
    Table.read (s.heldWritten strip line data enables k key queue).store.copies j =
      (Table.read s.store.copies j).map fun c => { c with blocked := false } := by
  have h := Table.read_map s.store.copies (fun _ (c : Copy) => { c with blocked := false }) j
  exact h

/-- The end of a held write's transfer: the slot becomes IDLE with its last entry, and not before (R65). -/
theorem State.carryOut_held {s : State} {k : Fin 4} {c : Copy} {front back : List HeldWrite} {h : HeldWrite}
    (hc : Table.read s.store.copies k.val = some c) (hn : c.nextLine = 1024)
    (hq : s.store.holdQueue = front ++ h :: back) (hk : h.slot = k) (hr : h.released = true)
    (hf : ∀ g ∈ front, ¬ (g.slot = k ∧ g.released = true)) (strip line : Nat) (data : List Byte) (enables : Enables)
    {v : State} (hv : v = s.heldWritten strip line data enables k (addressKey h.write.address) (front ++ back)) :
    ((∀ g ∈ front ++ back, g.slot ≠ k) → s.carryOut (.lineWrite strip line data enables (some k)) =
      (v.freeSlot k { c with blocked := false }).testClosingDue) ∧
    ((∃ g ∈ front ++ back, g.slot = k) → s.carryOut (.lineWrite strip line data enables (some k)) = v) := by
  have hck : Table.read (s.setMemory
      (Memory.storeEnabled s.memory (lineAddress strip line) 0 enables data)).unblock.store.copies k.val =
      some { c with blocked := false } := by
    have h := Table.read_map s.store.copies (fun _ (c : Copy) => { c with blocked := false }) k.val
    rw [hc] at h
    exact h
  subst hv
  exact State.heldCarriedOut_eq hck hn hq hk hr hf

/-- Settles O30: the slot's segments, then its last held write. -/
theorem copySlotWorks : Obligations.CopySlotWorks := by
  refine ⟨fun rest k strip line c s hp ht hc => ⟨fun hq => ?_, fun data hq => ?_⟩, ?_⟩
  · have hcopies := State.read_setCopy (s.setPort (s.port.endTransfer s.chip.now (.readSegment (.slot k) strip line false) rest))
      k { c with
        phase := .none, held := some (Memory.bytesAt s.memory s.chip.powerOns (lineAddress strip line) 256) }
    refine ⟨_, Memory.bytesAt s.memory s.chip.powerOns (lineAddress strip line) 256,
      (exec_transferEnd_first hp ht hq).trans (congrArg _ (State.carryOut_copyRead (by exact hc) strip line)),
      (hcopies _).trans (if_pos rfl), Memory.length_bytesAt _ _ _ _, fun i hi => Memory.getElem_bytesAt _ _ _ _ i hi,
      fun j hj => (hcopies j).trans (if_neg hj), rfl⟩
  · have hcopies := State.read_setCopy ((s.setPort
        (s.port.endTransfer s.chip.now (.writeSegment (.slot k) strip line data false) rest)).setMemory
        (Memory.store s.memory (lineAddress strip line) data)) k { c with nextLine := c.nextLine + 4, phase := .none }
    obtain ⟨-, -, -, -, -, -, -, -, -, hlink, hquiet⟩ :=
      s.port.endTransfer_frame s.chip.now (.writeSegment (.slot k) strip line data false) rest
    refine ⟨_, (exec_transferEnd_first hp ht hq).trans
      (congrArg _ (State.carryOut_copyWritten (by exact hc) strip line data)), ?_⟩
    by_cases hn : c.nextLine + 4 = 1024
    · rw [if_pos hn, State.releaseHeld_eq]
      exact ⟨(hcopies _).trans (if_pos rfl), fun j hj => (hcopies j).trans (if_neg hj), fun h => absurd hn h,
        fun _ => ⟨rfl, hlink ▸ rfl, hquiet ▸ rfl⟩, rfl⟩
    · rw [if_neg hn]
      exact ⟨(hcopies _).trans (if_pos rfl), fun j hj => (hcopies j).trans (if_neg hj),
        fun _ => ⟨rfl, hlink, hquiet⟩, fun h => absurd h hn, rfl⟩
  · intro rest k strip line data enables c front back h s hp ht hi hc hn hq hk hr hf
    obtain ⟨v, hv⟩ : ∃ v, v = (s.setPort (s.port.endTransfer s.chip.now (.lineWrite strip line data enables (some k))
      rest)).heldWritten strip line data enables k (addressKey h.write.address) (front ++ back) := ⟨_, rfl⟩
    obtain ⟨hlast, hleft⟩ := State.carryOut_held (by exact hc) hn (by exact hq) hk hr hf strip line data enables hv
    have hcopies : ∀ j, Table.read v.store.copies j = (Table.read s.store.copies j).map fun c => { c with blocked := false } := by
      rw [hv]
      exact State.read_copies_heldWritten _ _ _ _ _ _ _ _
    have hstore : v.store = { s.store with
        copies := v.store.copies, holdQueue := front ++ back
        settling := s.store.settling ++ [(k, addressKey h.write.address)] } := by
      rw [hv]
      rfl
    have hlink : v.link = { s.link with attemptDue := true } := by
      rw [hv]
      rfl
    have hframe : v = { s with
        link := v.link, store := v.store, port := v.port, memory := v.memory
        restore := { s.restore with sequencer := { s.restore.sequencer with blocked := false } } } := by
      rw [hv]
      rfl
    have hpages : ∀ p, v.store.page p = s.store.page p := fun p => Store.page_congr (by rw [hstore]) p
    have htag : ∀ x, v.link.tag x = s.link.tag x := fun x => Link.tag_congr (by rw [hlink]) x
    by_cases hl : ∀ g ∈ front ++ back, g.slot ≠ k
    · obtain ⟨hulink, hgone, hothers, horder, hstrip, hstrips, hpage, hsettling, htags, hu⟩ :=
        v.freeSlot_spec k { c with blocked := false }
      refine ⟨v.freeSlot k { c with blocked := false }, _,
        (exec_transferEnd_first hp ht hi).trans (congrArg _ (hlast hl)), ?_, ?_, fun j hj => (hothers j hj).trans (hcopies j),
        ?_, fun _ => ⟨hgone, ?_, ?_, fun n hn => ?_, ?_, fun p hp => ?_, ?_, fun x => ⟨fun hx => ?_, fun hx => ?_⟩, ?_,
        State.testClosingDue_spec _⟩, fun ⟨g, hg, hs⟩ => absurd hs (hl g hg)⟩
      · rw [hu, hstore]
      · rw [hulink, hlink]
      · rw [hu, hframe]
      · rw [horder, hstore]
      · rw [hstrip, hstore]
      · rw [hstrips n hn, hstore]
      · rw [hpage, if_pos rfl, hpages]
      · rw [hpage, if_neg hp, hpages]
      · rw [hsettling, hstore]
        simp
      · rw [htags, if_pos]
        · rw [htag]
        · rw [htag]
          exact ⟨hx.1, (State.keyPending_false _ _).2 hx.2⟩
      · rw [htags, if_neg, htag]
        rw [htag]
        exact fun hy => hx ⟨hy.1, (State.keyPending_false _ _).1 hy.2⟩
      · rw [hu, hstore]
    · refine ⟨v, v, (exec_transferEnd_first hp ht hi).trans (congrArg _ (hleft (by simpa using hl))), by rw [hstore], ?_,
        fun j _ => hcopies j, hframe, fun h => absurd h hl, fun _ => ⟨?_, ?_, hstore, rfl⟩⟩
      · rw [hlink]
      · rw [hcopies, hc]
        rfl
      · rw [hlink]

end Sys2Proof.Machine
end

section
/-! # RESET ENGINE (R22, R168, R192) -/

namespace Sys2Proof.Machine

/-! ### The link at engine reset (R22) -/

theorem TagEntry.atReset_of_settled {e : TagEntry} (h : e.state = .free ∨ e.state = .sending) : e.atReset = e := by
  unfold TagEntry.atReset
  rcases h with h | h <;> rw [h]

theorem TagEntry.atReset_of_outstanding {e : TagEntry} (hf : e.state ≠ .free) (hs : e.state ≠ .sending) :
    e.atReset = { e with state := .ready, answer := some unmappedAnswer } := by
  unfold TagEntry.atReset
  split
  · next h => exact absurd h hf
  · next h => exact absurd h hs
  · rfl

theorem Link.tag_atReset (l : Link) (u : Fin 32) : l.atReset.tag u = (l.tag u).atReset := by
  have h := Table.read_map l.tags (fun _ e => e.atReset) u.val
  unfold Link.tag Table.get Link.atReset
  dsimp only
  rw [h]
  cases Table.read l.tags u.val <;> rfl

theorem TagState.undecided_iff (x : TagState) :
    x.undecided = true ↔ x = .waiting ∨ x = .decoding ∨ x = .queued := by
  cases x <;> simp [TagState.undecided]

/-- The tags whose reads join the order of R4 together at an engine reset (R22). -/
def Link.joining (l : Link) : List (Fin 32) := (List.finRange 32).filter fun t => (l.tag t).state.undecided

theorem Link.mem_joining (l : Link) (u : Fin 32) : u ∈ l.joining ↔
    (l.tag u).state = .waiting ∨ (l.tag u).state = .decoding ∨ (l.tag u).state = .queued := by
  rw [← TagState.undecided_iff]
  simp [Link.joining]

theorem Link.nodup_joining (l : Link) : l.joining.Nodup := (List.nodup_finRange 32).filter _

theorem Link.readyOrder_atReset (l : Link) :
    l.atReset.readyOrder = if l.joining = [] then l.readyOrder else l.readyOrder ++ [l.joining] := by
  show (if l.joining.isEmpty then _ else _) = _
  simp only [List.isEmpty_iff]
  rfl

/-! ### The tables at engine reset -/

theorem State.engineReset_cleared (s : State) (m : Management) : State.Cleared { s.engineReset with management := m } where
  apertures _ := rfl
  pages _ := rfl
  versions _ := rfl
  strips _ := rfl
  freeQueue := rfl
  edition := ⟨rfl, rfl⟩
  copies := ⟨fun _ => rfl, rfl⟩
  holdQueue := ⟨rfl, rfl⟩
  records _ := rfl
  curves _ _ _ := rfl
  sequencer := ⟨rfl, rfl⟩
  arriving := rfl
  accounts _ := rfl
  jobs _ := rfl
  date := rfl
  bands := rfl
  rates _ _ := rfl
  surcharge := rfl
  logMode := ⟨rfl, rfl⟩
  faults := rfl
  statuses := rfl
  enables := rfl
  jobEvents _ := rfl

/-! ### The store port at engine reset (R168) -/

theorem Port.atReset_eq (p : Port) (now : Nat) : p.atReset now = { p with
    linkQueue := [], engineQueue := [], issueList := p.issueList.map Access.atReset, aging := .stopped
    quiet := if p.quietTime = 0 then .expired else .running now
    resetClosing := !(p.issueList.isEmpty && p.allIdle) } := by
  have hl : (p.issueList.map Access.atReset).isEmpty = p.issueList.isEmpty := by simp
  rw [← hl]
  rfl

/-- Settles O40. -/
theorem engineReset : Obligations.EngineReset := by
  intro s h
  obtain ⟨t, ht⟩ : ∃ t, exec .resetEngine s = .next t := ⟨_, rfl⟩
  refine ⟨t, ht, fun hl => ?_, fun hl => ?_⟩
  · cases ht
    exact State.take_refused h (if_neg (by simpa using hl)) false
  · have hexec : exec .resetEngine s = .next { s.engineReset with management := s.answered .accepted [] } := by
      refine congrArg _ ((State.take_ready_eq h false _).trans ?_)
      rw [if_pos (by simpa using hl)]
      rfl
    cases ht.symm.trans hexec
    have htag : ∀ u, s.engineReset.link.tag u = (s.link.tag u).atReset := s.link.tag_atReset
    have horder : s.engineReset.link.readyOrder =
        if s.link.joining = [] then s.link.readyOrder else s.link.readyOrder ++ [s.link.joining] := s.link.readyOrder_atReset
    have hport : s.engineReset.port = _ := s.port.atReset_eq s.chip.now
    refine ⟨s.engineReset_cleared _, rfl, rfl, hl, rfl, rfl, rfl, rfl, rfl, rfl, rfl, rfl, rfl, fun u hu => ?_,
      fun u hf hs => ?_, fun joins hj => ⟨fun hn => ?_, fun ⟨u, hu⟩ => ?_⟩, rfl, ?_, ?_, ?_, fun i a ha => ?_, ?_, ?_⟩
    all_goals dsimp only
    · exact (htag u).trans (TagEntry.atReset_of_settled hu)
    · exact (htag u).trans (TagEntry.atReset_of_outstanding hf hs)
    · rw [horder, if_pos]
      exact List.eq_nil_iff_forall_not_mem.2 fun u hu => hn u ((hj u).2 ((s.link.mem_joining u).1 hu))
    · refine ⟨s.link.joining, ?_, s.link.nodup_joining, fun v => (s.link.mem_joining v).trans (hj v).symm⟩
      rw [horder, if_neg]
      exact List.ne_nil_of_mem ((s.link.mem_joining u).2 ((hj u).1 hu))
    · rw [hport]
    · rw [hport]
    · rw [hport]
      exact List.length_map _
    · have hi : s.engineReset.port.issueList[i]? = some a.atReset := by
        rw [hport]
        simp [ha]
      refine ⟨?_, ?_, ?_, ?_⟩
      · rintro u r l e d rfl
        exact hi
      · rintro r l data e holder rfl
        exact hi
      · rintro g r l d rfl
        exact hi
      · rintro g r l data d rfl
        exact hi
    · rw [hport]
    · rw [hport]

end Sys2Proof.Machine
end

section
/-! # What a step keeps: the link's credits, the queues of the store port, a link that is down -/

namespace Sys2Proof.Machine

/-- The link interface, the data on its way to the restoration unit and the store port agree: the write credits are right
(R3), the port's queues keep their bounds and kinds (R152, R154, R155), and nothing of a read outlives a link that went
down (R8). -/
structure TrafficKept (l : Link) (arriving : List Arrival) (p : Port) : Prop where
  buffer : l.writeBuffer.length ≤ 32
  credits : l.linkUp = true → l.writeCredits + l.writeBuffer.length = 32
  carried : p.carriedCount ≤ 64
  issued : p.issueList.length ≤ 8
  engine : ∀ a ∈ p.engineQueue, a.isSegment = true
  tags : l.linkUp = false → l.tags = []
  order : l.linkUp = false → l.readyOrder = []
  sending : l.linkUp = false → l.sending = none
  arriving : l.linkUp = false → arriving = []
  queued : l.linkUp = false → ∀ a ∈ p.linkQueue, a.isRead = false
  started : l.linkUp = false → ∀ a ∈ p.issueList, a.isRead = true → ∃ t r l e, a = .lineRead t r l e true

def State.Traffic (s : State) : Prop := TrafficKept s.link s.restore.arriving s.port

namespace TrafficKept

variable {l m : Link} {ar : List Arrival} {p q : Port}

theorem up (h : TrafficKept l ar p) {t : Fin 32} (ht : (l.tag t).state ≠ .free) : l.linkUp = true := by
  by_contra hd
  have := h.tags (by simpa using hd)
  exact ht (by simp [Link.tag, this])

/-- The bank machines, the timers and the settings of the port bear on none of it. -/
theorem port (h : TrafficKept l ar p) (hl : q.linkQueue = p.linkQueue) (he : q.engineQueue = p.engineQueue)
    (hi : q.issueList = p.issueList) : TrafficKept l ar q where
  buffer := h.buffer
  credits := h.credits
  carried := by rw [Port.carriedCount, hl]; exact h.carried
  issued := hi ▸ h.issued
  engine := he ▸ h.engine
  tags := h.tags
  order := h.order
  sending := h.sending
  arriving := h.arriving
  queued := hl ▸ h.queued
  started := hi ▸ h.started

/-- A request of the engine joins its queue (R154). -/
theorem joinEngine (h : TrafficKept l ar p) (order : List (Fin 4)) (now : Nat) {a : Access} (ha : a.isSegment = true) :
    TrafficKept l ar (p.joinEngine order now a) where
  __ := h
  engine := fun b hb => (mem_insertRequest hb).elim (fun e => e ▸ ha) (h.engine b)

theorem withdraw (h : TrafficKept l ar p) (e : Engine) : TrafficKept l ar (p.withdraw e) where
  __ := h
  engine := fun b hb => h.engine b (List.mem_of_mem_filter hb)

/-- A write joins the link-side queue, with a place free if it is carried from the write buffer (R152). -/
theorem joinLink (h : TrafficKept l ar p) {a : Access} (hr : a.isRead = false)
    (hc : a.isCarried = false ∨ p.carriedCount < 64) : TrafficKept l ar (p.joinLink a) where
  __ := h
  carried := by
    show (p.linkQueue ++ [a]).countP Access.isCarried ≤ 64
    rw [List.countP_append]
    have hp := h.carried
    unfold Port.carriedCount at hp hc
    rcases hc with hc | hc
    · simpa [hc] using hp
    · have := List.countP_le_length (p := Access.isCarried) (l := [a])
      simp only [List.length_singleton] at this
      omega
  queued := fun hd b hb => (List.mem_append.1 hb).elim (h.queued hd b) fun hb => List.mem_singleton.1 hb ▸ hr

/-- The link head is issued (R155). -/
theorem issueLink (h : TrafficKept l ar p) {a : Access} {rest : List Access} (hq : p.linkQueue = a :: rest)
    (hc : p.issueList.length < 8) (now : Nat) : TrafficKept l ar (p.issueLink now a rest) := by
  obtain ⟨⟨hp, -⟩, -, he, -⟩ := p.issue_spec a
  have hlink : (p.issueLink now a rest).linkQueue = rest := by unfold Port.issueLink; split <;> rfl
  have hengine : (p.issueLink now a rest).engineQueue = p.engineQueue := by unfold Port.issueLink; split <;> exact he
  have hissue : (p.issueLink now a rest).issueList = p.issueList ++ [a] := by
    unfold Port.issueLink
    split <;> exact congrArg Port.issueList hp
  have hold : (a :: rest).countP Access.isCarried ≤ 64 := hq ▸ h.carried
  have hdown : l.linkUp = false → ∀ b ∈ a :: rest, b.isRead = false := hq ▸ h.queued
  refine { h with
    carried := ?_, issued := ?_, engine := hengine ▸ h.engine
    queued := fun hd b hb => hdown hd b (List.mem_cons_of_mem _ (by rwa [hlink] at hb))
    started := fun hd b hb hr => ?_ }
  · rw [Port.carriedCount, hlink]
    exact ((List.sublist_cons_self a rest).countP_le).trans hold
  · rw [hissue, List.length_append]
    exact hc
  · rw [hissue] at hb
    rcases List.mem_append.1 hb with hb | hb
    · exact h.started hd b hb hr
    · rw [List.mem_singleton.1 hb, hdown hd a (List.mem_cons_self ..)] at hr
      cases hr

/-- The engine head is issued (R155). -/
theorem issueEngine (h : TrafficKept l ar p) {a : Access} {rest : List Access} (hq : p.engineQueue = a :: rest)
    (hc : p.issueList.length < 8) : TrafficKept l ar (p.issueEngine a rest) := by
  obtain ⟨⟨hp, -⟩, hl, -⟩ := p.issue_spec a
  have hissue : (p.issueEngine a rest).issueList = p.issueList ++ [a] := congrArg Port.issueList hp
  have hsegment := h.engine
  rw [hq] at hsegment
  refine { h with
    carried := ?_, issued := ?_, engine := fun b hb => hsegment b (List.mem_cons_of_mem _ hb)
    queued := ?_, started := fun hd b hb hr => ?_ }
  · show (p.issue a).linkQueue.countP _ ≤ 64
    rw [hl]
    exact h.carried
  · rw [hissue, List.length_append]
    exact hc
  · show _ → ∀ b ∈ (p.issue a).linkQueue, _
    rw [hl]
    exact h.queued
  · rw [hissue] at hb
    rcases List.mem_append.1 hb with hb | hb
    · exact h.started hd b hb hr
    · rw [List.mem_singleton.1 hb] at hr
      have := hsegment a (List.mem_cons_self ..)
      cases a <;> simp [Access.isRead, Access.isSegment, Access.engine] at hr this

/-- The front of the issue list leaves it (R162). -/
theorem endTransfer (h : TrafficKept l ar p) {a : Access} {rest : List Access} (hq : p.issueList = a :: rest) (now : Nat) :
    TrafficKept l ar (p.endTransfer now a rest) := by
  obtain ⟨hi, -, -, -, -, -, -, -, he, hl, -⟩ := p.endTransfer_frame now a rest
  have hlength := h.issued
  rw [hq] at hlength
  have h' : TrafficKept l ar { p with issueList := rest } := { h with
    issued := (Nat.le_succ _).trans hlength
    started := fun hd b hb => h.started hd b (hq ▸ List.mem_cons_of_mem _ hb) }
  exact h'.port hl he hi

/-- The tags, their order and what is sent bear on it only while the link is down. -/
theorem link (h : TrafficKept l ar p) (hu : m.linkUp = l.linkUp) (hb : m.writeBuffer = l.writeBuffer)
    (hc : m.writeCredits = l.writeCredits)
    (hd : l.linkUp = false → m.tags = [] ∧ m.readyOrder = [] ∧ m.sending = none) : TrafficKept m ar p where
  __ := h
  buffer := hb ▸ h.buffer
  credits := by rw [hu, hb, hc]; exact h.credits
  tags := fun hm => (hd (hu ▸ hm)).1
  order := fun hm => (hd (hu ▸ hm)).2.1
  sending := fun hm => (hd (hu ▸ hm)).2.2
  arriving := fun hm => h.arriving (hu ▸ hm)
  queued := fun hm => h.queued (hu ▸ hm)
  started := fun hm => h.started (hu ▸ hm)

/-- The head leaves the write buffer, and its credit returns while the link is up (R3). -/
theorem leave (h : TrafficKept l ar p) (hne : l.writeBuffer ≠ []) (hu : m.linkUp = l.linkUp)
    (hb : m.writeBuffer = l.writeBuffer.tail)
    (hc : m.writeCredits = if l.linkUp then l.writeCredits + 1 else l.writeCredits)
    (hd : l.linkUp = false → m.tags = [] ∧ m.readyOrder = [] ∧ m.sending = none) : TrafficKept m ar p := by
  have hl : l.writeBuffer.length = l.writeBuffer.tail.length + 1 := by
    cases hw : l.writeBuffer with
    | nil => exact absurd hw hne
    | cons w rest => rfl
  have hbuffer := h.buffer
  refine { h with
    buffer := by rw [hb]; omega
    credits := fun hm => ?_, tags := fun hm => (hd (hu ▸ hm)).1, order := fun hm => (hd (hu ▸ hm)).2.1
    sending := fun hm => (hd (hu ▸ hm)).2.2, arriving := fun hm => h.arriving (hu ▸ hm)
    queued := fun hm => h.queued (hu ▸ hm), started := fun hm => h.started (hu ▸ hm) }
  have hcredits := h.credits (hu ▸ hm)
  rw [hc, hb, if_pos (hu ▸ hm)]
  omega

end TrafficKept

/-! ### Traffic through the operations -/

theorem State.OnlyCommit.traffic {s t : State} (h : s.OnlyCommit t) (hs : s.Traffic) : t.Traffic := by
  unfold State.OnlyCommit at h
  rw [h]
  exact hs

/-- An answer goes to a read, so the link is up (R8). -/
theorem State.Traffic.answerRead {s : State} (h : s.Traffic) (hu : s.link.linkUp = true) (tag : Fin 32) (a : Answer) :
    (s.answerRead tag a).Traffic :=
  h.link rfl rfl rfl fun hd => by rw [hu] at hd; cases hd

theorem State.Traffic.queueRead {s : State} (h : s.Traffic) (hu : s.link.linkUp = true) (tag : Fin 32) (strip line : Nat)
    (eligible : Bool) : (s.queueRead tag strip line eligible).Traffic := by
  have hd : ¬ s.link.linkUp = false := by simp [hu]
  have hl := TrafficKept.link (m := (s.queueRead tag strip line eligible).link) h rfl rfl rfl fun g => absurd g hd
  exact { hl with
    carried := by
      show (s.port.linkQueue ++ [Access.lineRead tag strip line eligible false]).countP Access.isCarried ≤ 64
      rw [List.countP_append]
      exact h.carried
    queued := fun g => absurd g hd }

theorem State.Traffic.walkRead {s : State} (h : s.Traffic) (hu : s.link.linkUp = true) (tag : Fin 32) (ap : Aperture) (k : Key) :
    (s.walkRead tag ap k).Traffic := by
  rcases s.walkRead_cases tag ap k with e | ⟨strip, eligible, e⟩ <;> rw [e]
  · exact h.answerRead hu tag _
  · exact h.queueRead hu tag strip k.line eligible

/-- While the link is down a reexamination of the waits finds no read. -/
theorem State.releaseReads_tags_nil {s : State} (h : s.link.tags = []) : s.releaseReads.link.tags = [] := by
  show List.map _ s.link.tags = []
  rw [h]
  rfl

theorem State.Traffic.headLeaves {s : State} (h : s.Traffic) (hw : s.link.writeBuffer ≠ []) : s.headLeaves.Traffic :=
  TrafficKept.leave h hw rfl rfl rfl fun hd => ⟨State.releaseReads_tags_nil (h.tags hd), h.order hd, h.sending hd⟩

/-- The hold queue bears on the port alone, by a released write (R57). -/
theorem State.Traffic.holdHead {s : State} (h : s.Traffic) (hw : s.link.writeBuffer ≠ []) (w : HostWrite) (k : Fin 4)
    (strip : Nat) (released : Bool) : (s.holdHead w k strip released).Traffic := by
  unfold State.holdHead
  cases released with
  | false => exact State.Traffic.headLeaves (s := s.setStore _) h hw
  | true =>
    exact State.Traffic.headLeaves (s := State.setPort (s.setStore _) _) (TrafficKept.joinLink h rfl (.inl rfl)) hw

theorem State.Disposed.traffic {s t : State} {w : HostWrite} (hd : s.Disposed w t) (h : s.Traffic)
    (hw : s.link.writeBuffer ≠ []) (hc : s.port.carriedCount < 64) : t.Traffic := by
  cases hd with
  | dropped kind => exact State.Traffic.headLeaves (s := s.setReports _) h hw
  | left => exact h.headLeaves hw
  | carried strip => exact State.Traffic.headLeaves (s := s.setPort _) (TrafficKept.joinLink h rfl (.inr hc)) hw
  | held k strip released room => exact h.holdHead hw _ _ _ _
  | waits => exact h.link rfl rfl rfl fun hd => ⟨h.tags hd, h.order hd, h.sending hd⟩
  | fresh kind n slot strip start =>
    unfold State.startFresh
    refine State.Traffic.holdHead ?_ ?_ _ _ _ _
    · unfold State.Traffic
      simp only [State.judgeStoreLow_frame]
      exact h
    · simpa only [State.judgeStoreLow_frame] using hw

/-- The link goes down (R8). -/
theorem State.Traffic.linkDown {s : State} (h : s.Traffic) : s.linkDown.Traffic := by
  unfold State.Traffic
  rw [s.linkDown_port]
  refine { h with
    credits := nofun, carried := ?_, issued := ?_, tags := fun _ => rfl, order := fun _ => rfl, sending := fun _ => rfl
    arriving := fun _ => rfl, queued := fun _ a ha => ?_, started := fun _ a ha hr => ?_ }
  · exact (List.filter_sublist.countP_le).trans h.carried
  · rw [List.length_map]
    exact h.issued
  · simpa using (List.mem_filter.1 ha).2
  · obtain ⟨b, -, rfl⟩ := List.mem_map.1 ha
    cases b with
    | lineRead t r l e _ => exact ⟨t, r, l, e, rfl⟩
    | lineWrite | readSegment | writeSegment => cases hr

/-- The accesses that an end of a transfer places in the link-side queue are held writes (R64). -/
theorem State.carryOut_linkQueue (s : State) (a : Access) : ∃ ws, (s.carryOut a).port.linkQueue = s.port.linkQueue ++ ws ∧
    ∀ w ∈ ws, w.isRead = false ∧ w.isCarried = false := by
  by_cases h : ∀ k strip line data, a ≠ .writeSegment (.slot k) strip line data false
  · exact ⟨[], by rw [s.carryOut_port_of_ne a h, List.append_nil], nofun⟩
  · push Not at h
    obtain ⟨k, strip, line, data, rfl⟩ := h
    show ∃ ws, (State.copyWritten (s.setMemory _) k).port.linkQueue = _ ∧ _
    unfold State.copyWritten
    dsimp only
    split
    · exact ⟨[], (List.append_nil _).symm, nofun⟩
    · split
      · rw [State.releaseHeld_eq]
        refine ⟨_, rfl, fun w hw => ?_⟩
        obtain ⟨held, -, rfl⟩ := List.mem_map.1 hw
        exact ⟨rfl, rfl⟩
      · exact ⟨[], (List.append_nil _).symm, nofun⟩

/-- No tag is in use and no data is on its way. -/
def State.Silent (s : State) : Prop := s.link.tags = [] ∧ s.link.readyOrder = [] ∧ s.restore.arriving = []

theorem State.Silent.releaseReads {s : State} (h : s.Silent) : s.releaseReads.Silent := by
  refine ⟨State.releaseReads_tags_nil h.1, h.2.1, ?_⟩
  rw [s.releaseReads_frame.2.2.2.1]
  exact h.2.2

theorem State.OnlyCommit.silent {s t : State} (h : s.OnlyCommit t) (hs : s.Silent) : t.Silent := by
  unfold State.OnlyCommit at h
  rw [h]
  exact hs

theorem State.Silent.testClosing {s : State} (h : s.Silent) : s.testClosing.Silent := by
  rcases s.testClosing_cases with e | ⟨-, e⟩ <;> rw [e] <;> exact h

theorem State.Silent.slotIdle {s : State} (h : s.Silent) (k : Fin 4) (c : Copy) : (s.slotIdle k c).Silent := by
  have hf : (s.freeSlot k c).Silent := State.Silent.releaseReads (s := State.attemptHead _) h
  obtain ⟨u, hu, e⟩ := (s.freeSlot k c).testClosingDue_cases
  have hu : u.Silent := by rw [hu]; exact hf
  unfold State.slotIdle
  rcases e with e | e <;> rw [e]
  · exact hu
  · exact hu.testClosing

/-- With no tag in use and its read, if it is one, abandoned, an access answers nothing (R8). -/
theorem State.Silent.carryOut {s : State} (h : s.Silent) {a : Access}
    (ha : a.isRead = true → ∃ t r l e, a = .lineRead t r l e true) : (s.carryOut a).Silent := by
  cases a with
  | lineRead t strip line eligible abandoned =>
    obtain ⟨t, r, l, e, he⟩ := ha rfl
    cases he
    exact h
  | lineWrite strip line data enables holder =>
    cases holder with
    | none => exact h
    | some k =>
      show (State.heldCarriedOut (State.unblock _) k).Silent
      unfold State.heldCarriedOut
      dsimp only
      split
      · exact h
      · split
        · exact State.Silent.slotIdle (by exact h) _ _
        · exact h
  | readSegment engine strip line dropped =>
    unfold State.carryOut State.readSegmentDone
    dsimp only
    split
    · exact h
    · split
      · unfold State.copyRead
        split <;> exact h
      · exact (s.commitRead_onlyCommit _).silent h
  | writeSegment engine strip line data dropped =>
    unfold State.carryOut State.writeSegmentDone
    dsimp only
    split
    · exact h
    · split
      · unfold State.copyWritten
        dsimp only
        split
        · exact h
        · split
          · rw [State.releaseHeld_eq]
            exact h
          · exact h
      · exact (State.commitWritten_onlyCommit _).silent h

theorem State.Silent.arriveAll {s : State} (h : s.Silent) : s.arriveAll.Silent := by
  unfold State.arriveAll
  rw [h.2.2]
  exact ⟨h.1, h.2.1, rfl⟩

/-- An end of a transfer that adds held writes alone to the link-side queue, and nothing while the link is down, keeps the
traffic. -/
theorem State.OnlyCarried.traffic {s t : State} (h : s.OnlyCarried t) (hs : s.Traffic) {ws : List Access}
    (hq : t.port.linkQueue = s.port.linkQueue ++ ws) (hw : ∀ w ∈ ws, w.isRead = false ∧ w.isCarried = false)
    (hd : s.link.linkUp = false → t.Silent) : t.Traffic := by
  have hport : t.port = { s.port with linkQueue := t.port.linkQueue, quiet := t.port.quiet } := congrArg State.port h
  have hlink : t.link = { s.link with
    tags := t.link.tags, readyOrder := t.link.readyOrder, attemptDue := t.link.attemptDue } := congrArg State.link h
  have hup : t.link.linkUp = s.link.linkUp := by rw [hlink]
  constructor
  case buffer => rw [hlink]; exact hs.buffer
  case credits => rw [hlink]; exact hs.credits
  case carried =>
    have hnone : ws.countP Access.isCarried = 0 := List.countP_eq_zero.2 fun w h => by simp [(hw w h).2]
    rw [Port.carriedCount, hq, List.countP_append, hnone]
    exact hs.carried
  case issued => rw [hport]; exact hs.issued
  case engine => rw [hport]; exact hs.engine
  case tags => exact fun g => (hd (hup ▸ g)).1
  case order => exact fun g => (hd (hup ▸ g)).2.1
  case sending => rw [hlink]; exact hs.sending
  case arriving => exact fun g => (hd (hup ▸ g)).2.2
  case queued =>
    intro g a ha
    rw [hq] at ha
    exact (List.mem_append.1 ha).elim (hs.queued (hup ▸ g) a) fun ha => (hw a ha).1
  case started => rw [hport, hlink]; exact hs.started

theorem State.Traffic.silent {s : State} (h : s.Traffic) (hd : s.link.linkUp = false) : s.Silent :=
  ⟨h.tags hd, h.order hd, h.arriving hd⟩

/-- The end of a transfer keeps the traffic (R162). -/
theorem State.Traffic.transferEnd {s : State} (h : s.Traffic) {a : Access} {rest : List Access}
    (hq : s.port.issueList = a :: rest) :
    ((s.setPort (s.port.endTransfer s.chip.now a rest)).carryOut a).Traffic := by
  have hs : (s.setPort (s.port.endTransfer s.chip.now a rest)).Traffic := TrafficKept.endTransfer h hq _
  obtain ⟨ws, hws, hkind⟩ := State.carryOut_linkQueue (s.setPort (s.port.endTransfer s.chip.now a rest)) a
  refine (State.carryOut_onlyCarried _ a).traffic hs hws hkind fun hd => (hs.silent hd).carryOut fun hr => ?_
  exact h.started hd a (hq ▸ List.mem_cons_self ..) hr

/-- The row without a transfer keeps the traffic (R54, R87). -/
theorem State.Traffic.arriveAll {s : State} (h : s.Traffic) : s.arriveAll.testClosing.Traffic := by
  have hport : s.arriveAll.testClosing.port = s.port := by
    have ha : s.arriveAll.port = s.port := by rw [s.arriveAll_frame_eq]
    rcases s.arriveAll.testClosing_cases with e | ⟨-, e⟩ <;> rw [e] <;> exact ha
  refine (s.arriveAll_onlyCarried.trans (State.testClosing_onlyCarried _)).traffic h (ws := []) ?_ nofun fun hd =>
    (h.silent hd).arriveAll.testClosing
  rw [hport, List.append_nil]

theorem State.Traffic.issueCopy {s : State} (h : s.Traffic) (k : Fin 4) (c : Copy) : (s.issueCopy k c).Traffic := by
  have join : ∀ (x : Copy) (a : Access), a.isSegment = true → ((s.setCopy k x).joinEngine a).Traffic :=
    fun x a ha => TrafficKept.joinEngine h _ _ ha
  unfold State.issueCopy
  split
  · exact join _ _ rfl
  · exact join _ _ rfl
  · split
    · exact h
    · exact join _ _ rfl

theorem State.Traffic.issueCommit {s : State} (h : s.Traffic) : s.issueCommit.Traffic := by
  have join : ∀ (q : Sequencer) (a : Access), a.isSegment = true → ((s.setSequencer q).joinEngine a).Traffic :=
    fun q a ha => TrafficKept.joinEngine h _ _ ha
  unfold State.issueCommit
  dsimp only
  split
  · exact join _ _ rfl
  · split
    · exact h
    · exact join _ _ rfl

@[simp] theorem Restore.setCurve_arriving (r : Restore) (c i : Nat) (vs : List Byte) :
    (r.setCurve c i vs).arriving = r.arriving := by
  induction vs generalizing r i with
  | nil => rfl
  | cons v vs ih => rw [Restore.setCurve]; exact ih _ _

/-- The arbiter's choice finds room in the issue list (R155). -/
theorem Port.room_of_choose {p : Port} (h : p.choose ≠ .nothing) : p.issueList.length < 8 := by
  by_contra hl
  exact h (if_pos (Nat.not_lt.1 hl))

/-- An engine reset empties the queues, and the started accesses are carried out with what they read discarded (R22,
R168). -/
theorem State.Traffic.engineReset {s : State} (h : s.Traffic) : s.engineReset.Traffic := by
  have hport : s.engineReset.port = _ := s.port.atReset_eq s.chip.now
  have hbuffer := h.buffer
  constructor
  case buffer => exact Nat.zero_le _
  case credits =>
    intro hu
    have hc := h.credits hu
    show (if s.link.linkUp then _ else _) + 0 = 32
    exact (if_pos hu).trans hc
  case carried => rw [hport]; exact Nat.zero_le _
  case issued =>
    rw [hport, List.length_map]
    exact h.issued
  case engine => rw [hport]; nofun
  case tags =>
    intro hd
    show List.map _ s.link.tags = []
    rw [h.tags hd]
    rfl
  case order =>
    intro hd
    have hnone : s.link.joining = [] := List.eq_nil_iff_forall_not_mem.2 fun u hu => by
      have hfree : (s.link.tag u).state = .free := by rw [Link.tag, h.tags hd]; rfl
      rw [Link.mem_joining, hfree] at hu
      simp at hu
    exact s.link.readyOrder_atReset.trans ((if_pos hnone).trans (h.order hd))
  case sending => exact h.sending
  case arriving => exact fun _ => rfl
  case queued => rw [hport]; nofun
  case started =>
    intro hd a ha hr
    rw [hport] at ha
    obtain ⟨b, -, rfl⟩ := List.mem_map.1 ha
    cases b with
    | lineRead t r l e _ => exact ⟨t, r, l, e, rfl⟩
    | lineWrite | readSegment | writeSegment => cases hr

/-- Every command keeps the traffic. -/
theorem exec_traffic {c : Instr} {s t : State} (e : exec c s = .next t) (h : s.Traffic) : t.Traffic := by
  by_cases hm : .link ∈ touches c ∨ .port ∈ touches c ∨ .restore ∈ touches c
  · cases c with
    | powerOn =>
      cases e
      exact ⟨Nat.zero_le _, nofun, Nat.zero_le _, Nat.zero_le _, nofun, fun _ => rfl, fun _ => rfl, fun _ => rfl, fun _ => rfl,
        nofun, nofun⟩
    | resetEngine =>
      cases e
      refine State.take_keeps h (fun _ _ _ h => h) fun _ _ => ?_
      split
      · exact h.engineReset
      · exact h
    | lineRead tag address beat =>
      cases e
      refine State.live_keeps h fun _ => ?_
      split
      · next hu =>
        split
        · exact h.link rfl rfl rfl fun hd => by rw [hu] at hd; cases hd
        · exact h.linkDown
      · exact h
    | lineWrite address data enables =>
      cases e
      refine State.live_keeps h fun _ => ?_
      split
      · next hu =>
        split
        · next hl =>
          have hc := h.credits hu
          have hcap : Config.writeBufferCapacity = 32 := rfl
          refine { h with buffer := ?_, credits := fun _ => ?_ }
          · show (s.link.writeBuffer ++ [_]).length ≤ 32
            rw [List.length_append, List.length_singleton]
            omega
          · show s.link.writeCredits - 1 + (s.link.writeBuffer ++ [_]).length = 32
            rw [List.length_append, List.length_singleton]
            omega
        · exact h.linkDown
      · exact h
    | archiveLinkDown =>
      cases e
      refine State.live_keeps h fun _ => ?_
      split
      · exact h.linkDown
      · exact h
    | archiveLinkUp =>
      cases e
      refine State.live_keeps h fun _ => ?_
      split
      · exact h
      · have hb := h.buffer
        exact { h with
          credits := fun _ => Nat.sub_add_cancel hb
          tags := nofun, order := nofun, sending := nofun, arriving := nofun, queued := nofun, started := nofun }
    | readDataStart tag =>
      cases e
      refine State.live_keeps h fun _ => ?_
      dsimp only
      split
      · next hr _ =>
        split
        · exact h.link rfl rfl rfl fun hd => by rw [h.order hd] at hr; cases hr
        · exact h
      · exact h
    | readDataEnd =>
      cases e
      refine State.live_keeps h fun _ => ?_
      split
      · exact h
      · next d hs => exact h.link rfl rfl rfl fun hd => by rw [h.sending hd] at hs; cases hs
    | readDecode tag =>
      cases e
      refine State.live_keeps h fun _ => ?_
      split
      · next ht =>
        have hu : s.link.linkUp = true := TrafficKept.up h (t := tag) (by rw [ht]; decide)
        rcases s.decodeRead_cases tag rfl rfl with e | ⟨reason, e⟩ | e | ⟨c, -, -, -, -, e⟩ <;> rw [e]
        · exact h.answerRead hu tag _
        · exact State.Traffic.answerRead (s := s.withhold _ _) h hu tag _
        · exact h.walkRead hu tag _ _
        · exact State.Traffic.walkRead (s := s.charge _ _ _) h hu tag _ _
      · exact h
    | writeDisposal =>
      cases e
      refine State.live_keeps h fun _ => ?_
      split
      · exact h
      · next w rest hw =>
        split
        · next hd => exact (s.disposeHead_disposed w).traffic h (by rw [hw]; nofun) hd.2
        · exact h
    | copySegmentIssue slot =>
      cases e
      refine State.live_keeps h fun _ => ?_
      split
      · exact h
      · split
        · exact h.issueCopy slot _
        · exact h
    | commitSegmentIssue =>
      cases e
      refine State.live_keeps h fun _ => ?_
      dsimp only
      split
      · exact h
      · split
        · exact s.examine_onlyCommit.traffic h
        · split
          · exact h.issueCommit
          · exact h
    | arbiterIssue =>
      cases e
      refine State.live_keeps h fun _ => ?_
      split
      · exact h
      · next hc =>
        split
        · exact h
        · next a rest hq =>
          have hi : (s.setPort (s.port.issueLink s.chip.now a rest)).Traffic :=
            TrafficKept.issueLink h hq (Port.room_of_choose (by rw [hc]; decide)) _
          dsimp only
          split
          · exact hi.link rfl rfl rfl fun hd => ⟨hi.tags hd, hi.order hd, hi.sending hd⟩
          · exact hi
      · next hc =>
        split
        · exact h
        · next a rest hq => exact TrafficKept.issueEngine h hq (Port.room_of_choose (by rw [hc]; decide))
    | quietTimerExpiry | agingClockExpiry | openDelayExpiry | closeDelayExpiry | bankOpenStart | bankCloseStart
    | transferStart =>
      cases e
      refine State.live_keeps h fun _ => ?_
      try dsimp only
      (repeat' split) <;> exact TrafficKept.port h rfl rfl rfl
    | transferEnd =>
      cases e
      refine State.live_keeps h fun _ => ?_
      split
      · next hq => exact h.transferEnd hq
      · exact h.arriveAll
    | setLinkOrder =>
      cases e
      refine State.take_keeps h (fun _ _ _ h => h) fun _ _ => ?_
      split
      · exact h
      · exact h.link rfl rfl rfl fun hd => ⟨h.tags hd, h.order hd, h.sending hd⟩
    | setStoreTiming | setArbiter =>
      cases e
      exact State.take_keeps h (fun _ _ _ h => h) fun _ _ => TrafficKept.port h rfl rfl rfl
    | setPagePolicy policy =>
      cases e
      refine State.take_keeps h (fun _ _ _ h => h) fun _ _ => ?_
      split
      · exact h
      · next x _ =>
        obtain ⟨y, banks, hx⟩ := s.port.setPolicy_frame x
        show TrafficKept s.link s.restore.arriving (s.port.setPolicy x)
        rw [hx]
        exact h.port rfl rfl rfl
    | writeRestoration | detachRestoration =>
      cases e
      refine State.take_keeps h (fun _ _ _ h => h) fun _ _ => ?_
      dsimp only
      (repeat' split) <;> exact h
    | addDefect | clearDefects =>
      cases e
      refine State.take_keeps h (fun _ _ _ h => h) fun _ _ => ?_
      (repeat' split) <;> exact h
    | loadCurve curve quarter values =>
      cases e
      refine State.take_keeps h (fun _ _ _ h => h) fun _ _ => Reply.of_check h fun _ => ?_
      show TrafficKept s.link (s.restore.setCurve curve (64 * quarter) values).arriving s.port
      rw [Restore.setCurve_arriving]
      exact h
    | discardVersion page version =>
      cases e
      refine State.take_keeps h (fun _ _ _ h => h) fun _ _ => ?_
      refine Reply.of_check h fun _ => Reply.of_check h fun _ => ?_
      split
      · exact h
      · exact Reply.of_check h fun _ => Reply.of_check h fun _ => Reply.of_check h fun _ => Reply.of_check h fun _ =>
          (s.discard_onlyCommit page version).traffic h
    | retirePage page =>
      cases e
      exact State.take_keeps h (fun _ _ _ h => h) fun _ _ => Reply.of_check h fun _ => Reply.of_check h fun _ =>
        Reply.of_check h fun _ => Reply.of_check h fun _ => Reply.of_check h fun _ =>
          (State.resumeCommit_onlyCommit _).traffic (by exact h)
    | setStoreReserve reserve =>
      cases e
      exact State.take_keeps h (fun _ _ _ h => h) fun _ _ => Reply.of_check h fun _ =>
        ((State.judgeStoreLow_onlyCommit _ _).trans (State.resumeCommit_onlyCommit _)).traffic (by exact h)
    | commitRestoration page =>
      cases e
      refine State.take_keeps h (fun _ _ _ h => h) fun _ _ => ?_
      refine Reply.of_check h fun _ => Reply.of_check h fun _ => Reply.of_check h fun _ => Reply.of_check h fun _ =>
        Reply.of_check h fun _ => ?_
      split
      · exact h
      · next n _ =>
        split
        · exact h
        · next head _ =>
          split
          · dsimp only
            exact (s.startCommit_onlyCommit page n head).traffic h
          · exact h
    | abortCommit =>
      cases e
      have abort : ∀ u : State, u.Traffic → u.abortCommit.Traffic := by
        intro u hu
        obtain ⟨p, hp, hl, hi, he⟩ := u.abortCommit_onlyCommit
        exact hp.traffic (TrafficKept.port (hu.withdraw .sequencer) hl he hi)
      refine State.take_keeps h (fun _ _ _ h => h) fun _ _ => ?_
      split
      · exact h
      · exact h
      · exact abort _ (s.settleStrip_onlyCommit.traffic h)
      · exact abort s h
    | _ => simp [touches] at hm
  · simp only [not_or] at hm
    obtain ⟨hlink, hport, hrestore⟩ := hm
    have hf := exec_sameBut e
    unfold State.Traffic
    rw [hf.link hlink, hf.port hport, hf.restore hrestore]
    exact h

end Sys2Proof.Machine
end

section
/-! # What a step keeps: the response buffer -/

namespace Sys2Proof.Machine

/-- The response buffer of a management link, as `State.ResponseKept` says it (R182, R184). -/
def Management.ResponseKept (m : Management) : Prop :=
  (m.phase = .pending → ∃ status fields, m.buffer = responseFrame status fields) ∧
  (m.phase ≠ .pending → m.buffer = []) ∧
  ∀ t, m.transaction = some t → t.phase = .idle → m.phase = .idle

theorem State.responseKept_iff (s : State) : s.ResponseKept ↔ s.management.ResponseKept := Iff.rfl

theorem Management.ResponseKept.congr {m n : Management} (h : m.ResponseKept) (hp : n.phase = m.phase)
    (hb : n.buffer = m.buffer) (ht : n.transaction = m.transaction ∨ n.transaction = none) : n.ResponseKept := by
  obtain ⟨hpending, hempty, hidle⟩ := h
  refine ⟨fun h => ?_, fun h => ?_, fun t h hi => ?_⟩
  · rw [hb]; exact hpending (hp ▸ h)
  · rw [hb]; exact hempty (hp ▸ h)
  · rw [hp]
    rcases ht with ht | ht
    · exact hidle t (ht ▸ h) hi
    · rw [ht] at h
      cases h

/-- A command that is taken finds no transaction that began in phase IDLE (R182). -/
theorem State.Taken.transaction {s : State} {c : Instr} (h : s.Taken c) (hs : s.ResponseKept) :
    ∀ t, s.management.transaction = some t → t.phase ≠ .idle := by
  intro t ht hi
  have hphase := hs.2.2 t ht hi
  rcases h.2 with hp | ⟨-, hn⟩
  · rw [hphase] at hp
    cases hp
  · rw [hn] at ht
    cases ht

/-- A management command makes its response ready, with the transaction as it was (R184). -/
theorem State.take_responseKept {s : State} {c : Instr} {d : Bool} {body : State → Reply} (h : s.ResponseKept)
    (hb : (body s).state.management = s.management) : (s.take c d body).ResponseKept := by
  have answered : ∀ (u : State) (status : Status) (fields : List Byte), s.Taken c → u.management = s.management →
      (u.respond status fields).ResponseKept := by
    intro u status fields ht hu
    refine ⟨fun _ => ⟨status, fields, rfl⟩, fun hp => absurd rfl hp, fun t hx hi => ?_⟩
    exact absurd hi (ht.transaction h t (hu ▸ hx))
  unfold State.take
  split
  · next ht =>
    have ht := (s.takes_iff c).1 ht
    split
    · exact answered s _ _ ht rfl
    · exact answered _ _ _ ht hb
  · exact h

/-- The phase at the start of the transaction that ends was IDLE only if it is IDLE now (R182). -/
theorem State.phase_of_phaseAtStart {s : State} (h : s.ResponseKept) {p : Byte → Bool}
    (hi : s.phaseAtStart p = some .idle) : s.management.phase = .idle := by
  unfold State.phaseAtStart at hi
  split at hi
  · cases hp : s.management.phase <;> simp [hp, Phase.name] at hi
    rfl
  · next t ht =>
    split at hi
    · exact h.2.2 t ht (by simpa using hi)
    · cases hi

theorem exec_responseKept {c : Instr} {s t : State} (e : exec c s = .next t) (h : s.ResponseKept) : t.ResponseKept := by
  by_cases hm : .management ∈ touches c
  · cases c with
    | powerOn => cases e; exact ⟨nofun, fun _ => rfl, nofun⟩
    | resetPinAssert => cases e; exact Management.ResponseKept.congr h rfl rfl (.inr rfl)
    | managementTransactionStart direction =>
      cases e
      split
      · exact h
      · split
        · exact h
        · obtain ⟨hpending, hempty, -⟩ := h
          refine ⟨hpending, hempty, fun t ht hi => ?_⟩
          cases ht
          have hname : s.management.phase.name = .idle := hi
          cases hp : s.management.phase <;> simp [hp, Phase.name] at hname ⊢
    | commandFrame bytes =>
      cases e
      split
      · exact h
      · split
        · exact h
        · next phase hphase =>
          have hend : (s.management.endTransaction [linkByte commandDirection phase]).ResponseKept :=
            Management.ResponseKept.congr h rfl rfl (.inr rfl)
          dsimp only
          split
          · have hidle := State.phase_of_phaseAtStart h hphase
            split
            · exact ⟨fun _ => ⟨_, _, rfl⟩, fun hp => absurd rfl hp, nofun⟩
            · exact ⟨nofun, fun _ => h.2.1 (by rw [hidle]; nofun), nofun⟩
          · exact hend
    | responseTransaction clocked =>
      cases e
      split
      · exact h
      · split
        · exact h
        · dsimp only
          split
          · exact ⟨nofun, fun _ => rfl, nofun⟩
          · exact Management.ResponseKept.congr h rfl rfl (.inr rfl)
    | otherTransaction clocked =>
      cases e
      split
      · exact h
      · split
        · exact h
        · exact Management.ResponseKept.congr h rfl rfl (.inr rfl)
    | initBuildAppend | lineRead | lineWrite | readDecode | writeDisposal | archiveLinkDown | archiveLinkUp | readDataStart
    | readDataEnd | copySegmentIssue | commitSegmentIssue | arbiterIssue | quietTimerExpiry | agingClockExpiry
    | bankOpenStart | rowCycleExpiry | openDelayExpiry | bankCloseStart | minimumOpenExpiry | writeRecoveryExpiry
    | closeDelayExpiry | turnaroundExpiry | transferStart | transferEnd => simp [touches] at hm
    | _ =>
      cases e
      refine State.take_responseKept h ?_
      (try dsimp only) <;> (repeat' split) <;> simp
  · rw [State.responseKept_iff, (exec_sameBut e).management hm]
    exact h

end Sys2Proof.Machine
end

section
/-! # What a step keeps: the accounts and the jobs (R105, R113, R119) -/

namespace Sys2Proof.Machine

/-- Balance plus charged total is the credited total, each in its range (R105). -/
def Account.Solvent (a : Account) : Prop :=
  a.balance + a.charged = a.credited ∧ a.balance ≤ 4294967295 ∧ a.credited < 2 ^ 64

/-- The charged set is kept as R119 says. -/
structure Job.SetKept (j : Job) : Prop where
  short : j.purchases.length ≤ 128
  nodup : (j.purchases.map Purchase.page).Nodup
  ordinals : ∀ i e, j.purchases[i]? = some e → e.ordinal = i + 1
  total : j.total = (j.purchases.map Purchase.fee).sum
  ceiling : j.total ≤ j.ceiling

/-- The number of the jobs, not FREE, that name the account. -/
def Meter.jobsOf (m : Meter) (a : Nat) : Nat :=
  (List.range 64).countP fun j => (m.job j).state != .free && (m.job j).account == a

/-- The accounts and the jobs of a meter are well kept. -/
structure Meter.Kept (m : Meter) : Prop where
  solvent : ∀ a, (m.account a).Solvent
  sets : ∀ j, (m.job j).SetKept
  counted : ∀ a, (m.account a).jobs = m.jobsOf a
  closed : ∀ a, (m.account a).state = .closed → (m.account a).jobs = 0
  free : ∀ j, (m.job j).state = .free → (m.job j).purchases = []
  numbered : ∀ j, 64 ≤ j → (m.job j).state = .free

def State.MeterKept (s : State) : Prop := s.meter.Kept

theorem State.meterKept_iff (s : State) : s.MeterKept ↔
    (∀ j, (s.meter.job j).purchases.length ≤ 128) ∧ s.Solvent ∧ s.SetsKept ∧ s.JobsKept := by
  constructor
  · intro h
    exact ⟨fun j => (h.sets j).short, h.solvent, fun j => ⟨(h.sets j).nodup, (h.sets j).ordinals, (h.sets j).total,
      (h.sets j).ceiling⟩, ⟨h.counted, h.closed, h.free, h.numbered⟩⟩
  · rintro ⟨hshort, hsolvent, hsets, hjobs⟩
    refine ⟨hsolvent, fun j => ?_, hjobs.counted, hjobs.closed, hjobs.free, hjobs.numbered⟩
    obtain ⟨hnodup, hordinals, htotal, hceiling⟩ := hsets j
    exact ⟨hshort j, hnodup, hordinals, htotal, hceiling⟩

namespace Meter.Kept

variable {m n : Meter}

/-- Only the accounts and the jobs bear on it. -/
theorem congr (h : m.Kept) (ha : n.accounts = m.accounts) (hj : n.jobs = m.jobs) : n.Kept := by
  have account : ∀ a, n.account a = m.account a := fun a => by simp only [Meter.account, ha]
  have job : ∀ j, n.job j = m.job j := fun j => by simp only [Meter.job, hj]
  constructor
  case solvent => intro a; rw [account]; exact h.solvent a
  case sets => intro j; rw [job]; exact h.sets j
  case counted =>
    intro a
    simp only [Meter.jobsOf, job, account]
    exact h.counted a
  case closed => intro a; rw [account]; exact h.closed a
  case free => intro j; rw [job]; exact h.free j
  case numbered => intro j; rw [job]; exact h.numbered j

/-- An account written with the job count that it has. -/
theorem setAccount (h : m.Kept) {a : Nat} {x : Account} (hs : x.Solvent) (hj : x.jobs = (m.account a).jobs)
    (hc : x.state = .closed → x.jobs = 0) : (m.setAccount a x).Kept := by
  constructor
  case solvent =>
    intro b
    rw [Meter.account_setAccount]
    split
    · exact hs
    · exact h.solvent b
  case sets => exact fun j => m.job_setAccount a x j ▸ h.sets j
  case counted =>
    intro b
    simp only [Meter.jobsOf, Meter.account_setAccount, Meter.job_setAccount]
    split
    · next e => rw [e, hj]; exact h.counted a
    · exact h.counted b
  case closed =>
    intro b
    rw [Meter.account_setAccount]
    split
    · exact hc
    · exact h.closed b
  case free => exact fun j => m.job_setAccount a x j ▸ h.free j
  case numbered => exact fun j => m.job_setAccount a x j ▸ h.numbered j

/-- A job written that is FREE or not, and names its account, as before. -/
theorem setJob (h : m.Kept) {j : Nat} {x : Job} (hs : x.SetKept) (hf : x.state = .free ↔ (m.job j).state = .free)
    (ha : x.account = (m.job j).account) (he : x.state = .free → x.purchases = []) : (m.setJob j x).Kept := by
  constructor
  case solvent => exact fun a => m.account_setJob j x a ▸ h.solvent a
  case sets =>
    intro i
    rw [Meter.job_setJob]
    split
    · exact hs
    · exact h.sets i
  case counted =>
    intro a
    rw [Meter.account_setJob, h.counted]
    unfold Meter.jobsOf
    congr 1
    funext i
    rw [Meter.job_setJob]
    split
    · next e => rw [e, ha]; simp only [bne, hf, beq_eq_decide]
    · rfl
  case closed => exact fun a => m.account_setJob j x a ▸ h.closed a
  case free =>
    intro i
    rw [Meter.job_setJob]
    split
    · exact he
    · exact h.free i
  case numbered =>
    intro i hi
    rw [Meter.job_setJob]
    split
    · next e => rw [hf, ← e]; exact h.numbered i hi
    · exact h.numbered i hi

theorem lt_of_not_free (h : m.Kept) {j : Nat} (hj : (m.job j).state ≠ .free) : j < 64 := by
  by_contra hl
  exact hj (h.numbered j (Nat.not_lt.1 hl))

end Meter.Kept

/-- One job more that is not FREE counts for its account (R105, R113). -/
theorem Meter.jobsOf_one_more {m n : Meter} {j : Nat} (hj : j < 64) (hm : (m.job j).state = .free)
    (hn : (n.job j).state ≠ .free) (h : ∀ i, i ≠ j → n.job i = m.job i) (a : Nat) :
    n.jobsOf a = m.jobsOf a + if a = (n.job j).account then 1 else 0 := by
  unfold Meter.jobsOf
  by_cases ha : a = (n.job j).account
  · rw [if_pos ha]
    refine countP_one_more List.nodup_range (List.mem_range.2 hj) (by simp [hm]) (by simp [hn, ha]) fun i _ hi => ?_
    rw [h i hi]
  · rw [if_neg ha, Nat.add_zero]
    refine List.countP_congr fun i _ => ?_
    by_cases hi : i = j
    · simp [hi, hm, Ne.symm ha]
    · rw [h i hi]

/-- A job with an empty charged set is well kept. -/
theorem Job.setKept_empty {j : Job} (hp : j.purchases = []) (ht : j.total = 0) : j.SetKept := by
  refine ⟨?_, ?_, fun i e h => ?_, ?_, ?_⟩ <;> simp_all

/-- OPEN JOB (R115). -/
theorem Meter.Kept.openJob {m : Meter} (h : m.Kept) {j a ceiling day : Nat} (hj : j < 64) (hf : (m.job j).state = .free)
    (ha : (m.account a).state ≠ .closed) :
    ((m.setJob j { state := .opened, account := a, ceiling := ceiling, openingDay := day }).setAccount a
      { m.account a with jobs := (m.account a).jobs + 1 }).Kept := by
  have job := m.job_setJob j { state := .opened, account := a, ceiling := ceiling, openingDay := day }
  constructor
  case solvent =>
    intro b
    rw [Meter.account_setAccount]
    split
    · exact h.solvent a
    · exact h.solvent b
  case sets =>
    intro i
    rw [Meter.job_setAccount, job]
    split
    · exact Job.setKept_empty rfl rfl
    · exact h.sets i
  case counted =>
    intro b
    have hmore := Meter.jobsOf_one_more (n := (m.setJob j
      { state := .opened, account := a, ceiling := ceiling, openingDay := day }).setAccount a
      { m.account a with jobs := (m.account a).jobs + 1 }) hj hf (by rw [Meter.job_setAccount, job, if_pos rfl]; nofun)
      (fun i hi => by rw [Meter.job_setAccount, job, if_neg hi]) b
    rw [Meter.job_setAccount, job, if_pos rfl] at hmore
    rw [hmore, Meter.account_setAccount, ← h.counted]
    split
    · next e => rw [e]
    · rfl
  case closed =>
    intro b
    rw [Meter.account_setAccount]
    split
    · exact fun hc => absurd hc ha
    · exact h.closed b
  case free =>
    intro i
    rw [Meter.job_setAccount, job]
    split
    · exact fun _ => rfl
    · exact h.free i
  case numbered =>
    intro i hi
    rw [Meter.job_setAccount, job, if_neg (by omega)]
    exact h.numbered i hi

/-- FREE JOB (R117). -/
theorem Meter.Kept.freeJob {m : Meter} (h : m.Kept) {j : Nat} (hf : (m.job j).state ≠ .free) :
    ((m.setAccount (m.job j).account
      { m.account (m.job j).account with jobs := (m.account (m.job j).account).jobs - 1 }).setJob j {}).Kept := by
  have job : ∀ i, ((m.setAccount (m.job j).account
      { m.account (m.job j).account with jobs := (m.account (m.job j).account).jobs - 1 }).setJob j {}).job i =
      if i = j then {} else m.job i := fun i => Meter.job_setJob _ _ _ _
  have account : ∀ b, ((m.setAccount (m.job j).account
      { m.account (m.job j).account with jobs := (m.account (m.job j).account).jobs - 1 }).setJob j {}).account b =
      if b = (m.job j).account then
        { m.account (m.job j).account with jobs := (m.account (m.job j).account).jobs - 1 } else m.account b :=
    fun b => Meter.account_setAccount _ _ _ _
  have hmore := Meter.jobsOf_one_more (n := m) (h.lt_of_not_free hf) (by rw [job, if_pos rfl]) hf
    (fun i hi => by rw [job, if_neg hi])
  constructor
  case solvent =>
    intro b
    rw [account]
    split
    · exact h.solvent _
    · exact h.solvent b
  case sets =>
    intro i
    rw [job]
    split
    · exact Job.setKept_empty rfl rfl
    · exact h.sets i
  case counted =>
    intro b
    have hb := h.counted b
    rw [hmore b] at hb
    rw [account]
    split
    · next e =>
      rw [if_pos e, e] at hb
      rw [e]
      exact Nat.sub_eq_of_eq_add hb
    · next e =>
      rw [if_neg e] at hb
      exact hb
  case closed =>
    intro b
    rw [account]
    split
    · next e =>
      intro hc
      have := h.closed _ hc
      show (m.account (m.job j).account).jobs - 1 = 0
      omega
    · exact h.closed b
  case free =>
    intro i
    rw [job]
    split
    · exact fun _ => rfl
    · exact h.free i
  case numbered =>
    intro i hi
    rw [job]
    split
    · rfl
    · exact h.numbered i hi

/-- What the metering decision has found when it charges a read (R120). -/
structure State.Affords (s : State) (j p : Nat) (c : Charge) : Prop where
  opened : (s.meter.job j).state = .opened
  present : (s.store.page p).state ≠ .absent
  fresh : ∀ e ∈ (s.meter.job j).purchases, e.page ≠ p
  room : (s.meter.job j).purchases.length < 128
  ceiling : (s.meter.job j).total + c.fee ≤ (s.meter.job j).ceiling
  balance : c.fee ≤ (s.meter.account (s.meter.job j).account).balance
  ordinal : c.ordinal = (s.meter.job j).purchases.length + 1

theorem State.affords_of_charged {s : State} {restored : Bool} {j p : Nat} {c : Charge}
    (h : s.meterDecision restored j p = .charged c) : s.Affords j p c := by
  unfold State.meterDecision at h
  dsimp only at h
  have hset : Config.chargedSetCapacity = 128 := rfl
  split at h
  · cases h
  next hopened =>
  split at h
  · cases h
  next hpresent =>
  split at h
  · cases h
  next hfresh =>
  split at h
  · cases h
  split at h
  · cases h
  split at h
  · cases h
  next hroom =>
  split at h
  · cases h
  next hceiling =>
  split at h
  · cases h
  next hbalance =>
  split at h
  · cases h
  cases h
  exact ⟨by simpa using hopened, hpresent, by simpa using hfresh, by omega, Nat.not_lt.1 hceiling, Nat.not_lt.1 hbalance, rfl⟩

/-- A charge (R123). -/
theorem State.MeterKept.charge {s : State} (h : s.MeterKept) {j p : Nat} {c : Charge} (hc : s.Affords j p c) :
    (s.charge j p c).MeterKept := by
  have hset := h.sets j
  obtain ⟨hbalance, hrange, hcredited⟩ := h.solvent (s.meter.job j).account
  have hafford := hc.balance
  have hopened : (s.meter.job j).state ≠ .free := by rw [hc.opened]; nofun
  have haccount := Meter.Kept.setAccount (a := (s.meter.job j).account)
    (x := { s.meter.account (s.meter.job j).account with
      balance := (s.meter.account (s.meter.job j).account).balance - c.fee
      charged := (s.meter.account (s.meter.job j).account).charged + c.fee }) h
    ⟨by dsimp only; omega, by dsimp only; omega, hcredited⟩ rfl (h.closed _)
  refine Meter.Kept.setJob (j := j) (x := { s.meter.job j with
    total := (s.meter.job j).total + c.fee
    purchases := (s.meter.job j).purchases ++ [⟨p, c.fee, c.ordinal⟩] }) haccount ⟨?_, ?_, ?_, ?_, ?_⟩ Iff.rfl rfl
    fun hf => absurd hf hopened
  · rw [List.length_append]
    exact hc.room
  · rw [List.map_append, List.nodup_append]
    refine ⟨hset.nodup, List.nodup_singleton _, fun q hq r hr => ?_⟩
    obtain ⟨e, he, rfl⟩ := List.mem_map.1 hq
    rw [List.mem_singleton.1 hr]
    exact hc.fresh e he
  · intro i e hi
    rcases Nat.lt_or_ge i (s.meter.job j).purchases.length with hl | hl
    · exact hset.ordinals i e (by rwa [List.getElem?_append_left hl] at hi)
    · rw [List.getElem?_append_right hl] at hi
      obtain ⟨hi0, he⟩ : i - (s.meter.job j).purchases.length = 0 ∧ (⟨p, c.fee, c.ordinal⟩ : Purchase) = e := by
        simpa [List.getElem?_singleton] using hi
      rw [← he]
      show c.ordinal = i + 1
      rw [hc.ordinal]
      omega
  · rw [List.map_append, List.sum_append, hset.total]
    rfl
  · exact hc.ceiling

/-- A withheld read (R122). -/
theorem State.MeterKept.withhold {s : State} (h : s.MeterKept) (j : Nat) (reason : Reason) :
    (s.withhold j reason).MeterKept := by
  obtain ⟨hshort, hnodup, hordinals, htotal, hceiling⟩ := h.sets j
  exact Meter.Kept.setJob h ⟨hshort, hnodup, hordinals, htotal, hceiling⟩ Iff.rfl rfl (h.free j)

/-- Every command keeps the accounts and the jobs well. -/
theorem exec_meterKept {c : Instr} {s t : State} (e : exec c s = .next t) (h : s.MeterKept) : t.MeterKept := by
  by_cases hm : .meter ∈ touches c
  · have cleared : Meter.Kept {} := by
      refine ⟨fun _ => ⟨rfl, Nat.zero_le _, Nat.two_pow_pos 64⟩, fun _ => Job.setKept_empty rfl rfl, fun _ => rfl, fun _ _ => rfl,
        fun _ _ => rfl, fun _ _ => rfl⟩
    cases c with
    | powerOn => cases e; exact cleared
    | resetEngine =>
      cases e
      refine State.take_keeps h (fun _ _ _ h => h) fun _ _ => ?_
      split
      · exact cleared
      · exact h
    | readDecode tag =>
      cases e
      refine State.live_keeps h fun _ => ?_
      split
      · rcases s.decodeRead_cases tag rfl rfl with e | ⟨reason, e⟩ | e | ⟨c, -, -, -, hc, e⟩ <;> rw [e]
        · exact h
        · exact h.withhold _ reason
        · simpa [State.MeterKept] using h
        · simpa [State.MeterKept] using h.charge (State.affords_of_charged hc)
      · exact h
    | openAccount a =>
      cases e
      refine State.take_keeps h (fun _ _ _ h => h) fun _ _ => Reply.of_check h fun _ => Reply.of_check h fun hs => ?_
      have hclosed : (s.meter.account a).state = .closed := by simpa using hs
      exact h.setAccount ⟨rfl, Nat.zero_le _, by decide⟩ (h.closed a hclosed).symm fun _ => rfl
    | creditAccount a amount =>
      cases e
      refine State.take_keeps h (fun _ _ _ h => h) fun _ _ => Reply.of_check h fun _ => Reply.of_check h fun _ =>
        Reply.of_check h fun _ => Reply.of_check h fun hr => ?_
      have hunits : Config.maxUnits = 4294967295 := rfl
      have htotal : maxTotal = 2 ^ 64 - 1 := rfl
      obtain ⟨hsum, hbalance, hcredited⟩ := h.solvent a
      refine h.setAccount ⟨?_, ?_, ?_⟩ rfl (h.closed a) <;> dsimp only <;> omega
    | suspendAccount a =>
      cases e
      exact State.take_keeps h (fun _ _ _ h => h) fun _ _ => Reply.of_check h fun _ => Reply.of_check h fun _ =>
        h.setAccount (h.solvent a) rfl nofun
    | resumeAccount a =>
      cases e
      exact State.take_keeps h (fun _ _ _ h => h) fun _ _ => Reply.of_check h fun _ => Reply.of_check h fun _ =>
        h.setAccount (h.solvent a) rfl nofun
    | setDiscount a t1 t2 d1 d2 =>
      cases e
      exact State.take_keeps h (fun _ _ _ h => h) fun _ _ => Reply.of_check h fun _ => Reply.of_check h fun _ =>
        Reply.of_check h fun _ => Reply.of_check h fun _ => h.setAccount (h.solvent a) rfl (h.closed a)
    | closeAccount a =>
      cases e
      exact State.take_keeps h (fun _ _ _ h => h) fun _ _ => Reply.of_check h fun _ => Reply.of_check h fun _ =>
        Reply.of_check h fun hj => h.setAccount (h.solvent a) rfl fun _ => by simpa using hj
    | openJob j a ceiling =>
      cases e
      refine State.take_keeps h (fun _ _ _ h => h) fun _ _ => Reply.of_check h fun hj => Reply.of_check h fun _ =>
        Reply.of_check h fun hf => Reply.of_check h fun ha => Reply.of_check h fun _ => ?_
      exact Meter.Kept.openJob h (Nat.not_le.1 hj) (by simpa using hf) ha
    | closeJob j =>
      cases e
      refine State.take_keeps h (fun _ _ _ h => h) fun _ _ => Reply.of_check h fun _ => Reply.of_check h fun ho => ?_
      have hopened : (s.meter.job j).state = .opened := by simpa using ho
      obtain ⟨hshort, hnodup, hordinals, htotal, hceiling⟩ := h.sets j
      exact h.setJob ⟨hshort, hnodup, hordinals, htotal, hceiling⟩ (by simp [hopened]) rfl nofun
    | freeJob j =>
      cases e
      refine State.take_keeps h (fun _ _ _ h => h) fun _ _ => Reply.of_check h fun _ => Reply.of_check h fun hc =>
        Reply.of_check h fun _ => ?_
      have hclosed : (s.meter.job j).state = .closed := by simpa using hc
      exact Meter.Kept.freeJob h (by rw [hclosed]; nofun)
    | setDate | setBands | setRate | setSurcharge =>
      cases e
      refine State.take_keeps h (fun _ _ _ h => h) fun _ _ => ?_
      (repeat' split) <;> exact h.congr rfl rfl
    | _ => simp [touches] at hm
  · unfold State.MeterKept
    rw [(exec_sameBut e).meter hm]
    exact h

end Sys2Proof.Machine
end

section
/-! # What a step keeps: the directory, by the parts of the state that it rests on

Chains, strips, cursor and counters rest on few parts of the state. What changes none of them keeps them all; what changes
one of them is a lemma of its own. -/

namespace Sys2Proof.Machine

/-- The chains, the store strips and the commit sequencer's cursor are well kept. -/
structure State.LinkageKept (s : State) : Prop where
  chained : s.Chained
  strips : s.StripsKept
  cursor : s.CursorKept

/-- The linkage and the counters of the directory are well kept. -/
structure State.DirectoryKept (s : State) : Prop extends s.LinkageKept where
  pages : s.PagesKept

/-- The parts of the state on which the directory's invariants rest. -/
structure Directory where
  inInit : Bool
  size : Nat
  apertures : Nat → ApertureState
  page : Nat → Page
  version : Nat → Option Version
  strip : Nat → Option StripEntry
  freeQueue : List Nat
  copyPage : Nat → Option Nat
  commit : SequencerState
  commitPage : Nat
  building : Nat
  cursor : Nat
  inProgress : Bool
  purchases : Nat → List Purchase

def State.directory (s : State) : Directory where
  inInit := s.chip.inInit
  size := s.chip.strips
  apertures a := (s.aperture a).state
  page := s.store.page
  version := Table.read s.store.versions
  strip := Table.read s.store.strips
  freeQueue := s.store.freeQueue
  copyPage k := (Table.read s.store.copies k).map Copy.page
  commit := s.restore.sequencer.state
  commitPage := s.restore.sequencer.page
  building := s.restore.sequencer.building
  cursor := s.restore.sequencer.cursor
  inProgress := s.restore.sequencer.inProgress
  purchases j := (s.meter.job j).purchases

/-- The pages of the copy slots decide which slots work for a page. -/
theorem State.copies_any_congr {s t : State} (h : t.directory.copyPage = s.directory.copyPage) (p : Nat) :
    (fun k => (Table.read t.store.copies k).any fun c => c.page == p) =
      fun k => (Table.read s.store.copies k).any fun c => c.page == p := by
  have key : ∀ (u : State) (k : Nat), (Table.read u.store.copies k).any (fun c => c.page == p) =
      (u.directory.copyPage k).any (· == p) := by
    intro u k
    show _ = ((Table.read u.store.copies k).map Copy.page).any (· == p)
    cases Table.read u.store.copies k <;> rfl
  funext k
  rw [key, key, h]

/-! ### Entries and versions that change in what the invariants do not look at -/

/-- Entry `y` has the chain, the building version and the flag of `x`, and is present if `x` is. -/
structure Page.SameLinks (x y : Page) : Prop where
  chain : y.chain = x.chain
  building : y.building = x.building
  committing : y.committing = x.committing
  present : x.state ≠ .absent → y.state ≠ .absent

/-- Entry `y` has the counts of `x`, and an ABSENT one holds the values of R24. -/
structure Page.SameCounts (x y : Page) : Prop where
  pins : y.pins = x.pins
  copies : y.copies = x.copies
  empty : y.state = .absent → y = {}

/-- Entry `y` has the links and the counts of `x`. -/
structure Page.Alike (x y : Page) : Prop extends x.SameLinks y, x.SameCounts y

theorem Page.SameLinks.refl (x : Page) : x.SameLinks x := ⟨rfl, rfl, rfl, id⟩

/-- Version `w` has the page and the origin of `v`, and is BUILDING exactly when `v` is. -/
structure Version.Akin (v w : Version) : Prop where
  page : w.page = v.page
  origin : w.origin = v.origin
  building : w.lock = .building ↔ v.lock = .building

/-- Version `w` is akin to `v` and has its delta list. -/
structure Version.Alike (v w : Version) : Prop extends v.Akin w where
  delta : w.delta = v.delta

theorem Version.Akin.refl (v : Version) : v.Akin v := ⟨rfl, rfl, Iff.rfl⟩

theorem Version.Alike.refl (v : Version) : v.Alike v := ⟨.refl v, rfl⟩

theorem State.PagesKept.sameCounts {s : State} (h : s.PagesKept) (p : Nat) :
    (s.store.page p).SameCounts (s.store.page p) := ⟨rfl, rfl, h.absent p⟩

theorem State.PagesKept.alike {s : State} (h : s.PagesKept) (p : Nat) : (s.store.page p).Alike (s.store.page p) :=
  ⟨.refl _, h.sameCounts p⟩

/-- In `t` the entries have the links that they have in `s`, and the versions are alike. -/
structure State.SameLinks (s t : State) : Prop where
  page : ∀ p, (s.store.page p).SameLinks (t.store.page p)
  kept : ∀ n v, Table.read s.store.versions n = some v → ∃ w, Table.read t.store.versions n = some w ∧ v.Alike w
  found : ∀ n w, Table.read t.store.versions n = some w → ∃ v, Table.read s.store.versions n = some v ∧ v.Alike w

theorem State.SameLinks.of_versions {s t : State} (hp : ∀ p, (s.store.page p).SameLinks (t.store.page p))
    (hv : t.store.versions = s.store.versions) : s.SameLinks t :=
  ⟨hp, fun _ v h => ⟨v, hv ▸ h, .refl v⟩, fun _ w h => ⟨w, hv ▸ h, .refl w⟩⟩

/-- A sequencer `r` that works on for the commit of `q`, and is not behind it. -/
structure Sequencer.Forward (q r : Sequencer) : Prop where
  busy : q.state ≠ .idle
  page : r.page = q.page
  building : r.building = q.building
  cursor : q.cursor ≤ r.cursor
  strip : q.inProgress = true → r.inProgress = true ∨ q.cursor < r.cursor
  waiting : r.state = .waiting → r.inProgress = false

/-! ### Each invariant through such a change -/

theorem State.Chained.regrade {s t : State} (h : s.Chained) (hp : ∀ p, (s.store.page p).SameLinks (t.store.page p))
    (hv : ∀ n v, Table.read s.store.versions n = some v → ∃ w, Table.read t.store.versions n = some w ∧ v.Akin w)
    (hq : t.restore.sequencer.state ≠ .idle → s.restore.sequencer.Forward t.restore.sequencer) : t.Chained where
  linked := by
    intro p n hn
    rw [(hp p).chain] at hn
    obtain ⟨v, hr, hpage, hlock⟩ := h.linked p n hn
    obtain ⟨w, hr, ha⟩ := hv n v hr
    exact ⟨w, hr, ha.page.trans hpage, fun hl => hlock (ha.building.1 hl)⟩
  nodup p := (hp p).chain ▸ h.nodup p
  short := by
    intro p
    rw [Page.versionCount, (hp p).chain, (hp p).building]
    exact h.short p
  building := by
    intro hc
    have f := hq hc
    obtain ⟨hpresent, hflag, hbuilding, v, hr, hpage, hlock, horigin⟩ := h.building f.busy
    obtain ⟨w, hr, ha⟩ := hv _ v hr
    rw [f.page, f.building]
    exact ⟨(hp _).present hpresent, (hp _).committing.trans hflag, (hp _).building.trans hbuilding, w, hr,
      ha.page.trans hpage, ha.building.2 hlock, ha.origin.trans horigin⟩

theorem State.CursorKept.regrade {s t : State} (h : s.CursorKept)
    (hw : t.restore.sequencer.state ≠ .idle → ∀ w,
      Table.read t.store.versions t.restore.sequencer.building = some w →
        ∃ v, Table.read s.store.versions t.restore.sequencer.building = some v ∧ w.delta = v.delta)
    (hq : t.restore.sequencer.state ≠ .idle → s.restore.sequencer.Forward t.restore.sequencer) : t.CursorKept where
  ahead := by
    intro hc w i hr hi hd
    have f := hq hc
    obtain ⟨v, hr, he⟩ := hw hc w hr
    obtain ⟨here, hprogress⟩ := h.ahead f.busy v i (f.building ▸ hr) (f.cursor.trans hi) (he ▸ hd)
    have := f.strip hprogress
    exact ⟨Nat.le_antisymm (here ▸ f.cursor) hi, this.resolve_right (by omega)⟩
  waiting hc := (hq (by rw [hc]; nofun)).waiting hc

/-- The strips rest on the strip table, the free strip queue and the delta lists. -/
theorem State.StripsKept.regrade {s t : State} (h : s.StripsKept) (hs : s.SameLinks t)
    (e : t.directory = { t.directory with
      inInit := s.directory.inInit, size := s.directory.size, apertures := s.directory.apertures
      strip := s.directory.strip, freeQueue := s.directory.freeQueue })
    (hq : t.chip.inInit = true → t.restore.sequencer.state = .idle) : t.StripsKept := by
  obtain ⟨inInit, size, apertures, -, -, strip, freeQueue, -, -, -, -, -, -, -⟩ := Directory.mk.inj e
  replace inInit : t.chip.inInit = s.chip.inInit := inInit
  replace size : t.chip.strips = s.chip.strips := size
  replace freeQueue : t.store.freeQueue = s.store.freeQueue := freeQueue
  have apertures : ∀ a, (t.aperture a).state = (s.aperture a).state := congrFun apertures
  have strip : ∀ n, Table.read t.store.strips n = Table.read s.store.strips n := congrFun strip
  constructor
  case size => rw [size]; exact h.size
  case queue => rw [freeQueue]; exact h.queue
  case free => simp only [freeQueue, size, strip]; exact h.free
  case owned =>
    intro n x hx
    rw [strip] at hx
    obtain ⟨hn, v, hr, hd⟩ := h.owned n x hx
    obtain ⟨w, hr, ha⟩ := hs.kept _ v hr
    exact ⟨size ▸ hn, w, hr, ha.delta ▸ hd⟩
  case listed =>
    intro m w i n hm hi
    obtain ⟨v, hr, ha⟩ := hs.found m w hm
    rw [strip]
    exact h.listed m v i n hr (ha.delta ▸ hi)
  case ascending =>
    intro m w hm
    obtain ⟨v, hr, ha⟩ := hs.found m w hm
    exact ha.delta ▸ h.ascending m v hr
  case whole => simp only [inInit, size, freeQueue, Table.has, strip]; exact h.whole
  case init =>
    intro hi
    obtain ⟨hqueue, hlength, hfree, hclosed, -⟩ := h.init (inInit ▸ hi)
    exact ⟨freeQueue ▸ hqueue, by rw [freeQueue, size]; exact hlength, by simpa only [strip] using hfree,
      by simpa only [apertures] using hclosed, hq hi⟩

/-- The counters rest on the counts in the entries, the charged sets and the copy slots. -/
theorem State.PagesKept.regrade {s t : State} (h : s.PagesKept)
    (hp : ∀ p, (s.store.page p).SameCounts (t.store.page p))
    (e : t.directory = { t.directory with copyPage := s.directory.copyPage, purchases := s.directory.purchases })
    (hf : ∀ p, (t.store.page p).committing = true →
      t.restore.sequencer.state ≠ .idle ∧ t.restore.sequencer.page = p) : t.PagesKept := by
  obtain ⟨-, -, -, -, -, -, -, copyPage, -, -, -, -, -, purchases⟩ := Directory.mk.inj e
  have purchases : ∀ j, (t.meter.job j).purchases = (s.meter.job j).purchases := congrFun purchases
  constructor
  case absent => exact fun p => (hp p).empty
  case pins =>
    intro p
    simp only [purchases, (hp p).pins]
    exact h.pins p
  case copies =>
    intro p
    rw [(hp p).copies, State.copies_any_congr copyPage]
    exact h.copies p
  case flag => exact hf

/-- While the sequencer works on for its commit, or its state stays, the flags stay right. -/
theorem State.PagesKept.flag_regrade {s t : State} (h : s.PagesKept)
    (hp : ∀ p, (t.store.page p).committing = true → (s.store.page p).committing = true)
    (hq : t.restore.sequencer.state = s.restore.sequencer.state ∨ t.restore.sequencer.state ≠ .idle)
    (hpage : t.restore.sequencer.page = s.restore.sequencer.page) (p : Nat) (hf : (t.store.page p).committing = true) :
    t.restore.sequencer.state ≠ .idle ∧ t.restore.sequencer.page = p := by
  obtain ⟨hbusy, rfl⟩ := h.flag p (hp p hf)
  exact ⟨hq.elim (fun e => e ▸ hbusy) id, hpage⟩

/-- The sequencer as the invariants see it. -/
theorem State.CursorKept.forward_same {s t : State} (h : s.CursorKept)
    (e : t.directory = { t.directory with
      commit := s.directory.commit, commitPage := s.directory.commitPage, building := s.directory.building
      cursor := s.directory.cursor, inProgress := s.directory.inProgress })
    (hq : t.restore.sequencer.state ≠ .idle) : s.restore.sequencer.Forward t.restore.sequencer := by
  obtain ⟨-, -, -, -, -, -, -, -, commit, commitPage, building, cursor, inProgress, -⟩ := Directory.mk.inj e
  replace commit : t.restore.sequencer.state = s.restore.sequencer.state := commit
  replace inProgress : t.restore.sequencer.inProgress = s.restore.sequencer.inProgress := inProgress
  exact ⟨commit ▸ hq, commitPage, building, Nat.le_of_eq cursor.symm, fun hp => .inl (inProgress.trans hp),
    fun hw => inProgress.trans (h.waiting (commit ▸ hw))⟩

/-! ### The directory through such a change -/

/-- What changes entries and versions in no way that the links show keeps the linkage. -/
theorem State.LinkageKept.regrade {s t : State} (h : s.LinkageKept) (hs : s.SameLinks t)
    (e : t.directory = { s.directory with
      page := t.store.page, version := Table.read t.store.versions, copyPage := t.directory.copyPage
      purchases := t.directory.purchases }) : t.LinkageKept := by
  have hq := h.cursor.forward_same (t := t) (by rw [e])
  have hi : t.chip.inInit = s.chip.inInit := congrArg Directory.inInit e
  have hc : t.restore.sequencer.state = s.restore.sequencer.state := congrArg Directory.commit e
  refine ⟨h.chained.regrade hs.page (fun n v hv => ?_) hq,
    h.strips.regrade hs (by rw [e]) fun hi' => hc ▸ (h.strips.init (hi ▸ hi')).2.2.2.2,
    h.cursor.regrade (fun _ w hw => ?_) hq⟩
  · obtain ⟨w, hw, ha⟩ := hs.kept n v hv
    exact ⟨w, hw, ha.toAkin⟩
  · obtain ⟨v, hv, ha⟩ := hs.found _ w hw
    exact ⟨v, hv, ha.delta⟩

/-- What changes entries and versions in no way that the invariants look at keeps the directory. -/
theorem State.DirectoryKept.regrade {s t : State} (h : s.DirectoryKept) (hp : ∀ p, (s.store.page p).Alike (t.store.page p))
    (hs : s.SameLinks t)
    (e : t.directory = { s.directory with page := t.store.page, version := Table.read t.store.versions }) :
    t.DirectoryKept where
  __ := h.toLinkageKept.regrade hs (by rw [e])
  pages := h.pages.regrade (fun p => (hp p).toSameCounts) (by rw [e])
    (h.pages.flag_regrade (fun p => (hp p).committing ▸ id) (.inl (congrArg Directory.commit e))
      (congrArg Directory.commitPage e))

/-- What leaves these parts as they were keeps the directory. -/
theorem State.DirectoryKept.congr {s t : State} (h : s.DirectoryKept) (e : t.directory = s.directory) : t.DirectoryKept := by
  have hpage : t.store.page = s.store.page := congrArg Directory.page e
  have hversion : Table.read t.store.versions = Table.read s.store.versions := congrArg Directory.version e
  refine h.regrade (fun p => hpage ▸ h.pages.alike p) ⟨fun p => hpage ▸ .refl _, fun n v hv => ?_, fun n w hw => ?_⟩
    (by rw [hpage, hversion]; exact e)
  · exact ⟨v, hversion ▸ hv, .refl v⟩
  · exact ⟨w, hversion ▸ hw, .refl w⟩

theorem State.DirectoryKept.respond (u : State) (status : Status) (fields : List Byte) (h : u.DirectoryKept) :
    (u.respond status fields).DirectoryKept := h.congr rfl

/-- An entry written anew in what the invariants do not look at. -/
theorem State.DirectoryKept.setPage {s t : State} (h : s.DirectoryKept) {p : Nat} {x : Page}
    (hv : t.store.versions = s.store.versions)
    (e : t.directory = { s.directory with page := (s.store.setPage p x).page }) (hx : (s.store.page p).Alike x) :
    t.DirectoryKept := by
  have hpage : t.store.page = (s.store.setPage p x).page := congrArg Directory.page e
  have alike : ∀ q, (s.store.page q).Alike (t.store.page q) := by
    intro q
    rw [hpage, Store.page_setPage]
    split
    · next hq => rw [hq]; exact hx
    · exact h.pages.alike q
  exact h.regrade alike (.of_versions (fun q => (alike q).toSameLinks) hv) (by rw [hpage, hv]; exact e)

/-- Versions that become LOCKED keep the directory (R38, R54). -/
theorem State.DirectoryKept.relock {s t : State} (h : s.DirectoryKept) {f : Nat → Version → Version}
    (hf : ∀ n (v : Version), v.Alike (f n v))
    (hv : ∀ n, Table.read t.store.versions n = (Table.read s.store.versions n).map (f n))
    (e : t.directory = { s.directory with version := Table.read t.store.versions }) : t.DirectoryKept := by
  have hpage : t.store.page = s.store.page := congrArg Directory.page e
  refine h.regrade (fun p => hpage ▸ h.pages.alike p) ⟨fun p => hpage ▸ .refl _, fun n v hr => ?_, fun n w hr => ?_⟩
    (by rw [hpage]; exact e)
  · exact ⟨f n v, by rw [hv, hr]; rfl, hf n v⟩
  · rw [hv] at hr
    obtain ⟨v, hv, rfl⟩ := Option.map_eq_some_iff.1 hr
    exact ⟨v, hv, hf n v⟩

end Sys2Proof.Machine
end

section
/-! # What a step keeps: the directory through charges, jobs and copy slots -/

namespace Sys2Proof.Machine

/-! ### Charges and jobs (R117, R119, R123) -/

theorem State.purchases_setJob_same {s : State} {j : Nat} {x : Job} (h : x.purchases = (s.meter.job j).purchases) :
    (fun i => ((s.meter.setJob j x).job i).purchases) = fun i => (s.meter.job i).purchases := by
  funext i
  rw [Meter.job_setJob]
  split
  · next e => rw [h, e]
  · rfl

/-- A job that keeps its charged set. -/
theorem State.DirectoryKept.setJob {s : State} (h : s.DirectoryKept) {j : Nat} {x : Job}
    (hx : x.purchases = (s.meter.job j).purchases) : (s.setJob j x).DirectoryKept := by
  refine h.congr ?_
  unfold State.directory
  congr 1
  exact State.purchases_setJob_same hx

theorem State.DirectoryKept.withhold {s : State} (h : s.DirectoryKept) (j : Nat) (reason : Reason) :
    (s.withhold j reason).DirectoryKept :=
  (h.setJob (x := { s.meter.job j with withheld := min Config.maxUnits ((s.meter.job j).withheld + 1), reason := reason })
    rfl).congr rfl

/-- A charge pins the page for the job (R123). -/
theorem State.DirectoryKept.charge {s : State} (h : s.DirectoryKept) (hm : s.MeterKept) {j p : Nat} {c : Charge}
    (hc : s.Affords j p c) : (s.charge j p c).DirectoryKept := by
  have page : ∀ q, (s.charge j p c).store.page q =
      if q = p then { s.store.page p with pins := (s.store.page p).pins + 1 } else s.store.page q :=
    Store.page_setPage s.store p _
  have job : ∀ i, ((s.charge j p c).meter.job i).purchases =
      if i = j then (s.meter.job j).purchases ++ [⟨p, c.fee, c.ordinal⟩] else (s.meter.job i).purchases := by
    intro i
    show (((s.meter.setAccount _ _).setJob j _).job i).purchases = _
    rw [Meter.job_setJob]
    split <;> rfl
  have links : ∀ q, (s.store.page q).SameLinks ((s.charge j p c).store.page q) := by
    intro q
    rw [page]
    split
    · next e => rw [e]; exact ⟨rfl, rfl, rfl, id⟩
    · exact .refl _
  refine ⟨h.toLinkageKept.regrade (.of_versions links rfl) rfl, ?_⟩
  constructor
  case absent =>
    intro q
    rw [page]
    split
    · exact fun ha => absurd ha hc.present
    · exact h.pages.absent q
  case pins =>
    intro q
    have hj : j < 64 := hm.lt_of_not_free (by rw [hc.opened]; nofun)
    simp only [job]
    rw [page]
    split
    · next e =>
      rw [e, h.pages.pins p]
      refine (countP_one_more List.nodup_range (List.mem_range.2 hj) ?_ ?_ fun i _ hi => ?_).symm
      · simpa using hc.fresh
      · simp
      · rw [if_neg hi]
    · next e =>
      rw [h.pages.pins q]
      refine List.countP_congr fun i _ => ?_
      split
      · next hi => simp [hi, Ne.symm e]
      · rfl
  case copies =>
    intro q
    refine Eq.trans ?_ (h.pages.copies q)
    rw [page]
    split
    · next e => rw [e]
    · rfl
  case flag =>
    intro q
    rw [(links q).committing]
    exact h.pages.flag q

/-- FREE JOB takes the job's pins from the pages of its charged set (R117). -/
theorem State.DirectoryKept.freeJob {s t : State} (h : s.DirectoryKept) (hm : s.MeterKept) {j : Nat} (hj : j < 64)
    (ht : t.store = (s.meter.job j).purchases.foldl Store.unpin s.store) (hc : t.chip = s.chip)
    (ha : t.apertures = s.apertures) (hr : t.restore = s.restore)
    (hp : ∀ i, (t.meter.job i).purchases = if i = j then [] else (s.meter.job i).purchases) : t.DirectoryKept := by
  have hst := foldl_unpin_frame (s.meter.job j).purchases s.store
  have page := page_foldl_unpin (s.meter.job j).purchases s.store
  rw [← ht] at hst page
  have links : ∀ q, (s.store.page q).SameLinks (t.store.page q) := fun q => page q ▸ ⟨rfl, rfl, rfl, id⟩
  have pins : ∀ q, (t.store.page q).pins =
      (List.range 64).countP fun i => (t.meter.job i).purchases.any fun e => e.page == q := by
    intro q
    rw [page, length_filter_page (hm.sets j).nodup, h.pages.pins q]
    simp only [hp]
    by_cases hq : (s.meter.job j).purchases.any (fun e => e.page == q) = true
    · rw [if_pos hq]
      refine Nat.sub_eq_of_eq_add (countP_one_more List.nodup_range (List.mem_range.2 hj) ?_ hq fun i _ hi => ?_)
      · simp
      · rw [if_neg hi]
    · rw [if_neg hq]
      refine List.countP_congr fun i _ => ?_
      split
      · next hi => simp [hi, hq]
      · rfl
  refine ⟨h.toLinkageKept.regrade (.of_versions links (by rw [hst])) ?_, ?_⟩
  · unfold State.directory State.aperture
    rw [hst, hc, ha, hr]
  · constructor
    case absent =>
      intro q hq
      have hs : (s.store.page q).state = .absent := by rw [page] at hq; exact hq
      simp [page, h.pages.absent q hs]
    case pins => exact pins
    case copies =>
      intro q
      rw [page, hst]
      exact h.pages.copies q
    case flag =>
      intro q
      rw [(links q).committing, hr]
      exact h.pages.flag q

/-! ### Copy slots (R26, R65) -/

theorem State.DirectoryKept.setCopy {s : State} (h : s.DirectoryKept) {k : Fin 4} {c x : Copy}
    (hc : Table.read s.store.copies k.val = some c) (hx : x.page = c.page) : (s.setCopy k x).DirectoryKept := by
  refine h.congr ?_
  unfold State.directory
  congr 1
  funext i
  rw [State.read_setCopy]
  split
  · next e => rw [e, hc]; exact congrArg some hx
  · rfl

theorem State.DirectoryKept.unblock {s : State} (h : s.DirectoryKept) : s.unblock.DirectoryKept := by
  refine h.congr ?_
  unfold State.directory
  congr 1
  funext i
  have hread := Table.read_map s.store.copies (fun _ (c : Copy) => { c with blocked := false }) i
  show (Table.read (s.store.copies.map _) i).map Copy.page = _
  rw [hread]
  cases Table.read s.store.copies i <;> rfl

/-- A slot that becomes IDLE leaves its strip READY and one copy less in flight to its page (R65). -/
theorem State.DirectoryKept.freeSlot {s : State} (h : s.DirectoryKept) {k : Fin 4} {c : Copy}
    (hc : Table.read s.store.copies k.val = some c) : (s.freeSlot k c).DirectoryKept := by
  obtain ⟨-, hgone, hothers, -, -, -, page, -, -, -⟩ := s.freeSlot_spec k c
  have links : ∀ q, (s.store.page q).SameLinks ((s.freeSlot k c).store.page q) := by
    intro q
    rw [page]
    split
    · next e => rw [e]; exact ⟨rfl, rfl, rfl, id⟩
    · exact .refl _
  have hk : k.val ∈ List.range 4 := List.mem_range.2 k.isLt
  have copies : ∀ q, ((s.freeSlot k c).store.page q).copies =
      (List.range 4).countP fun i => (Table.read (s.freeSlot k c).store.copies i).any fun d => d.page == q := by
    intro q
    have same : ∀ i, i ≠ k.val → ((Table.read (s.freeSlot k c).store.copies i).any fun d => d.page == q) =
        (Table.read s.store.copies i).any fun d => d.page == q := fun i hi => by rw [hothers i hi]
    rw [page]
    split
    · next e =>
      rw [e] at same ⊢
      show (s.store.page c.page).copies - 1 = _
      rw [h.pages.copies c.page]
      exact Nat.sub_eq_of_eq_add (countP_one_more List.nodup_range hk (by rw [hgone]; rfl) (by rw [hc]; simp)
        fun i _ hi => (same i hi).symm)
    · next e =>
      rw [h.pages.copies q]
      refine List.countP_congr fun i _ => ?_
      by_cases hi : i = k.val
      · rw [hi, hgone, hc]
        simp [Ne.symm e]
      · rw [same i hi]
  have hstrips : (s.freeSlot k c).StripsKept :=
    h.strips.ready (n := c.target) rfl rfl (fun hi => (h.strips.init hi).2.2.2.2) rfl rfl rfl
  have hsame := fun q => h.cursor.forward_same (t := s.freeSlot k c) rfl q
  refine ⟨⟨h.chained.regrade links (fun n v hv => ⟨v, hv, .refl v⟩) hsame, hstrips,
    h.cursor.regrade (fun n w hw => ⟨w, hw, rfl⟩) hsame⟩, ?_⟩
  constructor
  case absent =>
    intro q
    rw [page]
    split
    · next e => exact fun ha => by simp [h.pages.absent c.page ha]
    · exact h.pages.absent q
  case pins =>
    intro q
    refine Eq.trans ?_ (h.pages.pins q)
    rw [page]
    split
    · next e => rw [e]
    · rfl
  case copies => exact copies
  case flag => exact h.pages.flag_regrade (fun q => (links q).committing ▸ id) (.inl rfl) rfl

end Sys2Proof.Machine
end

section
/-! # What a step keeps: the directory through the commit sequencer's work (R94 to R102) -/

namespace Sys2Proof.Machine

/-- The strip table, the queue and the pools stand outside INIT while the sequencer is busy (R192). -/
theorem State.StripsKept.not_init {s : State} (h : s.StripsKept) (hq : s.restore.sequencer.state ≠ .idle) :
    s.chip.inInit = false :=
  Bool.eq_false_iff.2 fun hi => hq (h.init hi).2.2.2.2

/-- The judgement of STORE LOW changes a status alone (R50). -/
theorem State.judgeStoreLow_eq (s : State) (b : Bool) : s.judgeStoreLow b = s.setReports (s.judgeStoreLow b).reports := by
  unfold State.judgeStoreLow
  split <;> rfl

theorem State.judgeStoreLow_directory (s : State) (b : Bool) : (s.judgeStoreLow b).directory = s.directory := by
  rw [s.judgeStoreLow_eq]
  rfl

/-- The sequencer works on, and nothing else changes. -/
theorem State.DirectoryKept.setSequencer {s : State} (h : s.DirectoryKept) {q : Sequencer} (hf : s.restore.sequencer.Forward q)
    (hq : q.state ≠ .idle) : (s.setSequencer q).DirectoryKept where
  chained := h.chained.regrade (fun _ => .refl _) (fun _ v hv => ⟨v, hv, .refl v⟩) fun _ => hf
  strips := h.strips.regrade (.of_versions (fun _ => .refl _) rfl) rfl fun hi =>
    absurd (h.strips.init hi).2.2.2.2 hf.busy
  cursor := h.cursor.regrade (fun _ w hw => ⟨w, hw, rfl⟩) fun _ => hf
  pages := h.pages.regrade h.pages.sameCounts rfl (h.pages.flag_regrade (fun _ => id) (.inr hq) hf.page)

theorem State.DirectoryKept.waitCommit {s : State} (h : s.DirectoryKept) (hq : s.restore.sequencer.state ≠ .idle)
    (hp : s.restore.sequencer.inProgress = false) : s.waitCommit.DirectoryKept :=
  (h.setSequencer (q := { s.restore.sequencer with state := .waiting })
    ⟨hq, rfl, rfl, Nat.le_refl _, .inl, fun _ => hp⟩ nofun).congr rfl

/-- The strip that the sequencer takes joins the building version at the cursor (R96). -/
theorem State.DirectoryKept.takeCommitStrip {s : State} (h : s.DirectoryKept) (hq : s.restore.sequencer.state = .running)
    (hp : s.restore.sequencer.inProgress = false) (source : Nat) : (s.takeCommitStrip source).DirectoryKept := by
  have hbusy : s.restore.sequencer.state ≠ .idle := by rw [hq]; nofun
  unfold State.takeCommitStrip
  dsimp only
  split
  · exact h
  · next strip rest hqueue =>
    obtain ⟨-, -, -, v, hv, -⟩ := h.chained.building hbusy
    have hfree : Table.read v.delta s.restore.sequencer.cursor = none := h.cursor.cursor_free hbusy hp hv (Nat.le_refl _)
    have versions : ∀ m, Table.read (Table.adjust s.store.versions s.restore.sequencer.building
        fun v => { v with delta := Table.write v.delta s.restore.sequencer.cursor strip }) m =
        if m = s.restore.sequencer.building then some { v with delta := Table.write v.delta s.restore.sequencer.cursor strip }
        else Table.read s.store.versions m := by
      intro m
      rw [Table.read_adjust]
      split
      · next e => rw [e, hv]; rfl
      · rfl
    refine State.DirectoryKept.congr (s := (s.setStore { s.store.allocate with
        versions := Table.adjust s.store.versions s.restore.sequencer.building
          fun v => { v with delta := Table.write v.delta s.restore.sequencer.cursor strip }
        strips := Table.write s.store.strips strip
          ⟨.filling .sequencer, s.restore.sequencer.building, s.restore.sequencer.cursor⟩ }).setSequencer
      { s.restore.sequencer with source := source, target := strip, nextLine := 0, inProgress := true, phase := .none
                                 held := none, blocked := false }) ?_ ?_
    · have hf : s.restore.sequencer.Forward { s.restore.sequencer with
          source := source, target := strip, nextLine := 0, inProgress := true, phase := .none, held := none
          blocked := false } := ⟨hbusy, rfl, rfl, Nat.le_refl _, fun _ => .inl rfl, fun hw => by rw [hq] at hw; cases hw⟩
      refine ⟨⟨h.chained.regrade (fun _ => .refl _) (fun n w hw => ?_) fun _ => hf, ?_, ?_⟩, ?_⟩
      · refine (versions n).symm ▸ ?_
        split
        · next e =>
          rw [e, hv] at hw
          cases hw
          exact ⟨_, rfl, rfl, rfl, Iff.rfl⟩
        · exact ⟨w, hw, .refl w⟩
      · exact h.strips.taken (h.strips.not_init hbusy) (rest := rest) hqueue hv hfree rfl rfl rfl
          (by simp [Store.allocate, hqueue]) versions fun k => Table.read_write _ _ _ _
      · constructor
        · intro _ w i hw hi hd
          refine ⟨?_, rfl⟩
          by_contra hne
          have hw' := (versions _).symm.trans hw
          rw [if_pos rfl] at hw'
          cases hw'
          have hnone := h.cursor.cursor_free hbusy hp hv hi
          rw [Table.has, Table.read_write, if_neg hne, hnone] at hd
          cases hd
        · intro hw
          rw [show s.restore.sequencer.state = .waiting from hw] at hq
          cases hq
      · exact h.pages.regrade h.pages.sameCounts rfl (h.pages.flag_regrade (fun _ => id) (.inl rfl) rfl)
    · rw [State.judgeStoreLow_eq]
      rfl

/-- The commit's page without its building version and its flag, and the sequencer IDLE: what the end of a commit and that of
an abort do to the counters. -/
theorem State.PagesKept.endCommit {s t : State} (h : s.PagesKept) {p : Nat} {x : Page}
    (hpage : t.store.page = (s.store.setPage p x).page) (hp : s.restore.sequencer.state ≠ .idle → s.restore.sequencer.page = p)
    (hx : (s.store.page p).SameCounts x) (hf : x.committing = false)
    (e : t.directory = { t.directory with copyPage := s.directory.copyPage, purchases := s.directory.purchases }) :
    t.PagesKept := by
  refine h.regrade (fun q => ?_) e fun q hq => ?_
  · rw [hpage, Store.page_setPage]
    split
    · next e => rw [e]; exact hx
    · exact h.sameCounts q
  · rw [hpage, Store.page_setPage] at hq
    split at hq
    · rw [hf] at hq; cases hq
    · next hne =>
      obtain ⟨hbusy, rfl⟩ := h.flag q hq
      exact absurd (hp hbusy) hne

/-- The commit completes: the building version is LOCKED and linked above the snapshot head (R100). -/
theorem State.DirectoryKept.completeCommit {s : State} (h : s.DirectoryKept) (hq : s.restore.sequencer.state ≠ .idle) :
    s.completeCommit.DirectoryKept := by
  obtain ⟨hpresent, -, hbuilding, v, hv, hvpage, -, -⟩ := h.chained.building hq
  have page : s.completeCommit.store.page = (s.store.setPage s.restore.sequencer.page
      { s.store.page s.restore.sequencer.page with
        chain := linkAbove s.restore.sequencer.building s.restore.sequencer.snapshot
          (s.store.page s.restore.sequencer.page).chain
        building := none, committing := false }).page := rfl
  have versions : ∀ m, Table.read s.completeCommit.store.versions m =
      if m = s.restore.sequencer.building then some { v with lock := .locked } else Table.read s.store.versions m := by
    intro m
    show Table.read (Table.adjust s.store.versions s.restore.sequencer.building fun v => { v with lock := .locked }) m = _
    rw [Table.read_adjust]
    split
    · next e => rw [e, hv]; rfl
    · rfl
  refine ⟨⟨?_, ?_, ⟨fun hi => absurd rfl hi, nofun⟩⟩, ?_⟩
  · constructor
    case linked =>
      have kept : ∀ p n, n ∈ (s.store.page p).chain →
          ∃ w, Table.read s.completeCommit.store.versions n = some w ∧ w.page = p ∧ w.lock ≠ .building := by
        intro p n hn
        have hne : n ≠ s.restore.sequencer.building := fun e => h.chained.building_not_linked hq p (e ▸ hn)
        rw [versions, if_neg hne]
        exact h.chained.linked p n hn
      intro p n hn
      rw [page, Store.page_setPage] at hn
      split at hn
      · next e =>
        rcases mem_linkAbove hn with rfl | hn
        · exact ⟨{ v with lock := .locked }, by rw [versions, if_pos rfl], by rw [e]; exact hvpage, nofun⟩
        · exact kept p n (by rw [e]; exact hn)
      · exact kept p n hn
    case nodup =>
      intro p
      rw [page, Store.page_setPage]
      split
      · exact nodup_linkAbove (h.chained.nodup _) (h.chained.building_not_linked hq _)
      · exact h.chained.nodup p
    case short =>
      intro p
      rw [page, Store.page_setPage]
      split
      · have hlength := length_linkAbove s.restore.sequencer.building s.restore.sequencer.snapshot
          (s.store.page s.restore.sequencer.page).chain
        have hshort := h.chained.short s.restore.sequencer.page
        rw [Page.versionCount, hbuilding] at hshort
        simp only [Page.versionCount, Option.isSome] at hshort ⊢
        simp only [if_true] at hshort
        simpa using hlength.trans hshort
      · exact h.chained.short p
    case building => exact fun hi => absurd rfl hi
  · refine h.strips.versions rfl rfl (fun _ => rfl) rfl rfl (fun m w hw => ?_) fun m w hw => ?_
    · rw [versions]
      split
      · next e =>
        rw [e, hv] at hw
        cases hw
        exact ⟨_, rfl, rfl⟩
      · exact ⟨w, hw, rfl⟩
    · rw [versions] at hw
      split at hw
      · next e =>
        cases hw
        exact .inr ⟨v, e ▸ hv, rfl⟩
      · exact .inr ⟨w, hw, rfl⟩
  · exact h.pages.endCommit page (fun _ => rfl) ⟨rfl, rfl, fun ha => absurd ha hpresent⟩ rfl rfl

/-- Versions that leave the chains and the pool keep the chains (R29, R30). -/
theorem State.Chained.shrink {s t : State} (h : s.Chained)
    (sub : ∀ p, (t.store.page p).chain.Sublist (s.store.page p).chain)
    (kept : ∀ p, ∀ n ∈ (t.store.page p).chain, Table.read t.store.versions n = Table.read s.store.versions n)
    (count : ∀ p, (t.store.page p).versionCount ≤ (s.store.page p).versionCount)
    (building : t.restore.sequencer.state ≠ .idle → t.restore.sequencer = s.restore.sequencer ∧
      t.store.page s.restore.sequencer.page = s.store.page s.restore.sequencer.page ∧
      Table.read t.store.versions s.restore.sequencer.building = Table.read s.store.versions s.restore.sequencer.building) :
    t.Chained where
  linked p n hn := by rw [kept p n hn]; exact h.linked p n ((sub p).subset hn)
  nodup p := (h.nodup p).sublist (sub p)
  short p := (count p).trans (h.short p)
  building hq := by
    obtain ⟨hseq, hpage, hread⟩ := building hq
    rw [hseq] at hq ⊢
    rw [hpage, hread]
    exact h.building hq

/-- The abort ends: the building version is released (R102). -/
theorem State.DirectoryKept.endAbort {s : State} (h : s.DirectoryKept) (hq : s.restore.sequencer.state ≠ .idle) :
    s.endAbort.DirectoryKept := by
  obtain ⟨hpresent, -, -, v, hv, -⟩ := h.chained.building hq
  have released := (Store.release_spec hv).1
  have others := released.2.2.2.2
  have page : s.endAbort.store.page = (s.store.setPage s.restore.sequencer.page
      { s.store.page s.restore.sequencer.page with building := none, committing := false }).page := by
    obtain ⟨-, hself, hrest, -⟩ := s.endAbort_spec
    funext p
    rw [Store.page_setPage]
    split
    · next e => rw [e, hself]
    · next e => exact hrest p e
  have chain : ∀ p, (s.endAbort.store.page p).chain = (s.store.page p).chain := by
    intro p
    rw [page, Store.page_setPage]
    split
    · next e => rw [e]
    · rfl
  refine ⟨⟨?_, ?_, ⟨fun hi => absurd rfl hi, nofun⟩⟩, ?_⟩
  · refine h.chained.shrink (fun p => chain p ▸ .refl _) (fun p n hn => others n fun e => ?_) (fun p => ?_)
      fun hi => absurd rfl hi
    · exact h.chained.building_not_linked hq p (e ▸ chain p ▸ hn)
    · rw [page, Store.page_setPage]
      split
      · next e => rw [e]; exact Nat.add_le_add_left (Nat.zero_le _) _
      · exact Nat.le_refl _
  · exact h.strips.released hv released rfl rfl fun _ => rfl
  · refine h.pages.endCommit page (fun _ => rfl) ⟨rfl, rfl, fun ha => absurd ha hpresent⟩ rfl ?_
    unfold State.directory
    rw [(s.endAbort_spec).2.2.2.1]
    rfl

end Sys2Proof.Machine
end

section
/-! # What a step keeps: the directory through a commit's examinations, its start and its end (R91 to R102) -/

namespace Sys2Proof.Machine

/-- The sequencer passes over the strip indices that do not resolve (R94). -/
theorem State.DirectoryKept.passOver {s : State} (h : s.DirectoryKept) (hq : s.restore.sequencer.state ≠ .idle)
    (hp : s.restore.sequencer.inProgress = false) {i source : Nat}
    (hn : s.store.nextStrip s.restore.sequencer = some (i, source)) :
    (s.setSequencer { s.restore.sequencer with cursor := i }).DirectoryKept :=
  h.setSequencer ⟨hq, rfl, rfl, Store.cursor_le_nextStrip hn, fun hx => absurd (hp.symm.trans hx) nofun, fun _ => hp⟩ hq

/-- The RUNNING sequencer, with no strip in progress, makes its examination (R94). -/
theorem State.DirectoryKept.examine {s : State} (h : s.DirectoryKept) (hq : s.restore.sequencer.state = .running)
    (hp : s.restore.sequencer.inProgress = false) : s.examine.DirectoryKept := by
  have hbusy : s.restore.sequencer.state ≠ .idle := by rw [hq]; nofun
  unfold State.examine
  split
  · exact h.completeCommit hbusy
  · next index source hn =>
    have moved := h.passOver hbusy hp hn
    dsimp only
    split
    · exact moved.takeCommitStrip hq hp source
    · exact moved.waitCommit hbusy hp

/-- The examination falls due (R94). -/
theorem State.DirectoryKept.examineDue {s : State} (h : s.DirectoryKept) (hq : s.restore.sequencer.state = .running)
    (hp : s.restore.sequencer.inProgress = false) : s.examineDue.DirectoryKept := by
  have hbusy : s.restore.sequencer.state ≠ .idle := by rw [hq]; nofun
  unfold State.examineDue
  dsimp only
  split
  · exact h.completeCommit hbusy
  · next index source hn =>
    have moved := h.passOver hbusy hp hn
    rw [State.nowOrLater_eq]
    split
    · exact moved.congr rfl
    · exact State.DirectoryKept.examine (moved.congr rfl) hq hp

theorem State.DirectoryKept.resumeCommit {s : State} (h : s.DirectoryKept) : s.resumeCommit.DirectoryKept := by
  unfold State.resumeCommit
  split
  · next hw =>
    have hp := h.cursor.waiting hw.1
    have hf : s.restore.sequencer.Forward { s.restore.sequencer with state := .running } :=
      ⟨by rw [hw.1]; nofun, rfl, rfl, Nat.le_refl _, .inl, nofun⟩
    exact (h.setSequencer hf nofun).examineDue rfl hp
  · exact h

theorem State.DirectoryKept.settleStrip {s : State} (h : s.DirectoryKept) : s.settleStrip.DirectoryKept := by
  by_cases ho : s.OwesStrip
  · rw [s.settleStrip_spec.1 ho]
    exact h.examine ho.1 ho.2.1
  · rw [s.settleStrip_spec.2 ho]
    exact h

theorem State.takeCommitStrip_busy (s : State) (source : Nat) :
    (s.takeCommitStrip source).restore.sequencer.state = s.restore.sequencer.state := by
  unfold State.takeCommitStrip
  dsimp only
  split <;> rfl

/-- With a strip index left that resolves, the examination does not complete the commit (R94). -/
theorem State.settleStrip_busy {s : State} (hq : s.restore.sequencer.state ≠ .idle) :
    s.settleStrip.restore.sequencer.state ≠ .idle := by
  by_cases ho : s.OwesStrip
  · rw [s.settleStrip_spec.1 ho]
    obtain ⟨-, -, i, hi⟩ := ho
    obtain ⟨source, hn⟩ := (s.nextResolves_iff i).1 hi
    unfold State.examine
    rw [hn]
    dsimp only
    split
    · rw [State.takeCommitStrip_busy]
      exact hq
    · nofun
  · rw [s.settleStrip_spec.2 ho]
    exact hq

/-- A strip that becomes READY (R65, R99). -/
theorem State.DirectoryKept.readyStrip {s : State} (h : s.DirectoryKept) (n : Nat) :
    (s.setStore { s.store with
      strips := Table.adjust s.store.strips n fun e => { e with state := .ready } }).DirectoryKept := by
  have hq := fun x => h.cursor.forward_same (t := s.setStore { s.store with
      strips := Table.adjust s.store.strips n fun e => { e with state := .ready } }) rfl x
  exact ⟨⟨h.chained.regrade (fun _ => .refl _) (fun _ v hv => ⟨v, hv, .refl v⟩) hq,
    h.strips.ready rfl rfl (fun hi => (h.strips.init hi).2.2.2.2) rfl rfl rfl,
    h.cursor.regrade (fun _ w hw => ⟨w, hw, rfl⟩) hq⟩,
    h.pages.regrade h.pages.sameCounts rfl (h.pages.flag_regrade (fun _ => id) (.inl rfl) rfl)⟩

/-- The building of a strip ends (R99). -/
theorem State.DirectoryKept.finishCommitStrip {s : State} (h : s.DirectoryKept) (hq : s.restore.sequencer.state = .running) :
    s.finishCommitStrip.DirectoryKept := by
  have hf : s.restore.sequencer.Forward { s.restore.sequencer with
      cursor := s.restore.sequencer.cursor + 1, nextLine := 1024, inProgress := false, phase := .none, held := none } :=
    ⟨by rw [hq]; nofun, rfl, rfl, Nat.le_succ _, fun _ => .inr (Nat.lt_succ_self _), fun _ => rfl⟩
  exact ((h.readyStrip s.restore.sequencer.target).setSequencer hf (by rw [hq]; nofun)).examineDue hq rfl

/-- A commit begins: the page's new version is BUILDING (R92). -/
theorem State.DirectoryKept.beginCommit {s : State} (h : s.DirectoryKept) (hi : s.chip.inInit = false) {p n : Nat}
    (hq : s.restore.sequencer.state = .idle) (hpresent : (s.store.page p).state ≠ .absent)
    (hshort : (s.store.page p).chain.length < 16) (hn : Table.read s.store.versions n = none) (head : Version) :
    (s.beginCommit p n head).DirectoryKept := by
  have page : (s.beginCommit p n head).store.page =
      (s.store.setPage p { s.store.page p with building := some n, committing := true }).page := rfl
  have versions : ∀ m, Table.read (s.beginCommit p n head).store.versions m =
      if m = n then some ⟨p, .restored, head.edition, .building, []⟩ else Table.read s.store.versions m := by
    intro m
    exact Table.read_write _ _ _ _
  have chain : ∀ q, ((s.beginCommit p n head).store.page q).chain = (s.store.page q).chain := by
    intro q
    rw [page, Store.page_setPage]
    split
    · next e => rw [e]
    · rfl
  have hself : (s.beginCommit p n head).store.page p = { s.store.page p with building := some n, committing := true } := by
    rw [page, Store.page_setPage, if_pos rfl]
  refine ⟨⟨?_, ?_, ?_⟩, ?_⟩
  · constructor
    case linked =>
      intro q m hm
      rw [chain] at hm
      obtain ⟨v, hv, hlinked⟩ := h.chained.linked q m hm
      have hne : m ≠ n := fun e => by rw [e, hn] at hv; cases hv
      exact ⟨v, by rw [versions, if_neg hne]; exact hv, hlinked⟩
    case nodup => exact fun q => chain q ▸ h.chained.nodup q
    case short =>
      intro q
      rw [page, Store.page_setPage]
      split
      · exact hshort
      · exact h.chained.short q
    case building =>
      intro _
      exact ⟨by rw [show (s.beginCommit p n head).restore.sequencer.page = p from rfl, hself]; exact hpresent,
        by rw [show (s.beginCommit p n head).restore.sequencer.page = p from rfl, hself],
        by rw [show (s.beginCommit p n head).restore.sequencer.page = p from rfl, hself]; rfl,
        _, (versions n).trans (if_pos rfl), rfl, rfl, rfl⟩
  · refine h.strips.versions rfl rfl (fun hi' => ?_) rfl rfl (fun m v hv => ?_) fun m w hw => ?_
    · rw [show s.chip.inInit = true from hi'] at hi
      cases hi
    · have hne : m ≠ n := fun e => by rw [e, hn] at hv; cases hv
      exact ⟨v, by rw [versions, if_neg hne]; exact hv, rfl⟩
    · rw [versions] at hw
      split at hw
      · cases hw; exact .inl rfl
      · exact .inr ⟨w, hw, rfl⟩
  · refine ⟨fun _ v i hv _ hd => ?_, nofun⟩
    have hv' := (versions n).symm.trans hv
    rw [if_pos rfl] at hv'
    cases hv'
    cases hd
  · refine h.pages.regrade (fun q => ?_) rfl fun q hf => ?_
    · rw [page, Store.page_setPage]
      split
      · next e => rw [e]; exact ⟨rfl, rfl, fun ha => absurd ha hpresent⟩
      · exact h.pages.sameCounts q
    · rw [page, Store.page_setPage] at hf
      split at hf
      · next e => exact ⟨nofun, e.symm⟩
      · exact absurd hq (h.pages.flag q hf).1

theorem State.DirectoryKept.startCommit {s : State} (h : s.DirectoryKept) (hi : s.chip.inInit = false) {p n : Nat}
    (hq : s.restore.sequencer.state = .idle) (hpresent : (s.store.page p).state ≠ .absent)
    (hshort : (s.store.page p).chain.length < 16) (hn : Table.read s.store.versions n = none) (head : Version) :
    (s.startCommit p n head).DirectoryKept :=
  (h.beginCommit hi hq hpresent hshort hn head).examineDue rfl rfl

/-- ABORT COMMIT on a busy sequencer (R101, R102). -/
theorem State.DirectoryKept.abortCommit {s : State} (h : s.DirectoryKept) (hq : s.restore.sequencer.state ≠ .idle) :
    s.abortCommit.DirectoryKept := by
  have hf : s.restore.sequencer.Forward { s.restore.sequencer with state := .aborting } :=
    ⟨hq, rfl, rfl, Nat.le_refl _, .inl, nofun⟩
  have aborting := h.setSequencer hf nofun
  unfold State.abortCommit
  dsimp only
  split
  · exact aborting.congr rfl
  · exact State.DirectoryKept.endAbort (aborting.congr rfl) nofun

theorem State.DirectoryKept.issueCommit {s : State} (h : s.DirectoryKept) : s.issueCommit.DirectoryKept := by
  unfold State.issueCommit
  dsimp only
  (repeat' split) <;> exact h.congr rfl

theorem State.DirectoryKept.commitRead {s : State} (h : s.DirectoryKept) (bytes : List Byte) :
    (s.commitRead bytes).DirectoryKept := by
  unfold State.commitRead
  dsimp only
  split
  · exact h
  · exact h
  · next hq => exact h.endAbort (by rw [hq]; nofun)
  · exact h.congr rfl

theorem State.DirectoryKept.commitWritten {s : State} (h : s.DirectoryKept) : s.commitWritten.DirectoryKept := by
  unfold State.commitWritten
  dsimp only
  split
  · exact h
  · exact h
  · next hq => exact h.endAbort (by rw [hq]; nofun)
  · next hq =>
    split
    · exact h.finishCommitStrip hq
    · exact h.congr rfl

end Sys2Proof.Machine
end

section
/-! # What a step keeps: the directory through the end of a transfer (R54, R63 to R65, R162) -/

namespace Sys2Proof.Machine

/-- A version that becomes LOCKED by a rule that finds it OPEN keeps all that the invariants look at. -/
theorem Version.alike_locked {v : Version} {c : Prop} [Decidable c] (h : c → v.lock = .openLock) :
    v.Alike (if c then { v with lock := .locked } else v) := by
  split
  · next hc =>
    exact { page := rfl, origin := rfl, delta := rfl, building := ⟨nofun, fun hb => absurd ((h hc).symm.trans hb) nofun⟩ }
  · exact .refl v

theorem State.DirectoryKept.testClosing {s : State} (h : s.DirectoryKept) : s.testClosing.DirectoryKept := by
  rcases s.testClosing_cases with e | ⟨-, e⟩ <;> rw [e]
  · exact h
  · exact h.relock (f := fun _ v => if v.lock = .openLock ∧ v.origin = .edition then { v with lock := .locked } else v)
      (fun _ _ => Version.alike_locked And.left) (lockEditions_read s.store.versions) rfl

theorem State.DirectoryKept.slotIdle {s : State} (h : s.DirectoryKept) {k : Fin 4} {c : Copy}
    (hc : Table.read s.store.copies k.val = some c) : (s.slotIdle k c).DirectoryKept := by
  obtain ⟨u, hu, e⟩ := (s.freeSlot k c).testClosingDue_cases
  have hkept : u.DirectoryKept := (h.freeSlot hc).congr (by rw [hu]; rfl)
  unfold State.slotIdle
  rcases e with e | e <;> rw [e]
  · exact hkept
  · exact hkept.testClosing

theorem State.DirectoryKept.heldCarriedOut {s : State} (h : s.DirectoryKept) (k : Fin 4) :
    (s.heldCarriedOut k).DirectoryKept := by
  have gone : ∀ queue settling, ((s.setStore { s.store with
      holdQueue := queue, settling := settling }).attemptHead).DirectoryKept := fun _ _ => h.congr rfl
  unfold State.heldCarriedOut
  dsimp only
  split
  · exact gone _ _
  · next c hc =>
    split
    · exact (gone _ _).slotIdle hc
    · exact gone _ _

theorem State.DirectoryKept.copyRead {s : State} (h : s.DirectoryKept) (k : Fin 4) (bytes : List Byte) :
    (s.copyRead k bytes).DirectoryKept := by
  unfold State.copyRead
  split
  · exact h
  · next c hc => exact h.setCopy hc rfl

theorem State.DirectoryKept.copyWritten {s : State} (h : s.DirectoryKept) (k : Fin 4) : (s.copyWritten k).DirectoryKept := by
  unfold State.copyWritten
  split
  · exact h
  · next c hc =>
    have written := h.setCopy (x := { c with nextLine := c.nextLine + 4, phase := .none }) hc rfl
    dsimp only
    split
    · rw [State.releaseHeld_eq]
      exact written.congr rfl
    · exact written

theorem State.DirectoryKept.lineReadDone {s : State} (h : s.DirectoryKept) (t : Fin 32) (strip line : Nat)
    (eligible abandoned : Bool) : (s.lineReadDone t strip line eligible abandoned).DirectoryKept := by
  unfold State.lineReadDone
  dsimp only
  split
  · exact h
  · split
    · rw [State.nowOrLater_eq]
      split
      · exact h.congr rfl
      · rw [State.arriveAll_frame_eq]
        exact h.congr rfl
    · exact h.congr rfl

/-- What the end of a transfer hands on keeps the directory (R162). -/
theorem State.DirectoryKept.carryOut {s : State} (h : s.DirectoryKept) (a : Access) : (s.carryOut a).DirectoryKept := by
  cases a with
  | lineRead t strip line eligible abandoned => exact h.lineReadDone t strip line eligible abandoned
  | lineWrite strip line data enables holder =>
    have written : (s.setMemory (Memory.storeEnabled s.memory (lineAddress strip line) 0 enables data)).unblock.DirectoryKept :=
      State.DirectoryKept.unblock (h.congr rfl)
    cases holder with
    | none => exact written
    | some k => exact written.heldCarriedOut k
  | readSegment engine strip line dropped =>
    unfold State.carryOut State.readSegmentDone
    dsimp only
    split
    · exact h
    · split
      · exact h.copyRead _ _
      · exact h.commitRead _
  | writeSegment engine strip line data dropped =>
    have written : (s.setMemory (Memory.store s.memory (lineAddress strip line) data)).DirectoryKept := h.congr rfl
    unfold State.carryOut State.writeSegmentDone
    dsimp only
    split
    · exact written
    · split
      · exact written.copyWritten _
      · exact written.commitWritten

theorem State.DirectoryKept.arriveAll {s : State} (h : s.DirectoryKept) : s.arriveAll.DirectoryKept := by
  rw [State.arriveAll_frame_eq]
  exact h.congr rfl

theorem State.DirectoryKept.issueCopy {s : State} (h : s.DirectoryKept) {k : Fin 4} {c : Copy}
    (hc : Table.read s.store.copies k.val = some c) : (s.issueCopy k c).DirectoryKept := by
  unfold State.issueCopy
  split
  · exact (h.setCopy (x := { c with phase := .write }) hc rfl).congr rfl
  · exact (h.setCopy (x := { c with phase := .write, held := none }) hc rfl).congr rfl
  · split
    · exact h.setCopy hc rfl
    · exact (h.setCopy (x := { c with phase := .read }) hc rfl).congr rfl

end Sys2Proof.Machine
end

section
/-! # What a step keeps: the directory through a fresh strip's start (R58 to R60) -/

namespace Sys2Proof.Machine

/-- A new OPEN version is linked at the head of its page's chain (R59). -/
theorem State.DirectoryKept.linkVersion {s : State} (h : s.DirectoryKept) {kind : ApertureKind} {p n : Nat}
    (hpresent : (s.store.page p).state ≠ .absent) (hroom : (s.store.page p).versionCount < 16)
    (hn : Table.read s.store.versions n = none) : (s.setStore (s.store.linkVersion kind p n)).DirectoryKept := by
  have page : ∀ q, (s.store.linkVersion kind p n).page q =
      if q = p then { s.store.page p with chain := n :: (s.store.page p).chain } else s.store.page q :=
    Store.page_setPage _ _ _
  have versions : ∀ m, Table.read (s.store.linkVersion kind p n).versions m =
      if m = n then some (s.store.newVersion kind p) else Table.read s.store.versions m :=
    Table.read_write _ _ _
  have hnew : (s.store.newVersion kind p).page = p ∧ (s.store.newVersion kind p).lock = .openLock ∧
      (s.store.newVersion kind p).delta = [] := by
    cases kind <;> exact ⟨rfl, rfl, rfl⟩
  obtain ⟨hpage, hlock, hdelta⟩ := hnew
  have old : ∀ m v, Table.read s.store.versions m = some v → Table.read (s.store.linkVersion kind p n).versions m = some v := by
    intro m v hv
    have hne : m ≠ n := fun e => by rw [e, hn] at hv; cases hv
    rw [versions, if_neg hne]
    exact hv
  have linked : ∀ q, ∀ m ∈ (s.store.page q).chain, ∃ v,
      Table.read (s.store.linkVersion kind p n).versions m = some v ∧ v.page = q ∧ v.lock ≠ .building := by
    intro q m hm
    obtain ⟨v, hv, hx⟩ := h.chained.linked q m hm
    exact ⟨v, old m v hv, hx⟩
  have hsame := fun hq => h.cursor.forward_same (t := s.setStore (s.store.linkVersion kind p n)) rfl hq
  refine ⟨⟨?_, ?_, ?_⟩, ?_⟩
  · constructor
    case linked =>
      intro q m hm
      show ∃ v, Table.read (s.store.linkVersion kind p n).versions m = some v ∧ _
      change m ∈ ((s.store.linkVersion kind p n).page q).chain at hm
      rw [page] at hm
      split at hm
      · next e =>
        rcases List.mem_cons.1 hm with rfl | hm
        · exact ⟨_, by rw [versions, if_pos rfl], hpage.trans e.symm, by rw [hlock]; nofun⟩
        · exact linked q m (by rw [e]; exact hm)
      · exact linked q m hm
    case nodup =>
      intro q
      show ((s.store.linkVersion kind p n).page q).chain.Nodup
      rw [page]
      split
      · refine List.nodup_cons.2 ⟨fun hm => ?_, h.chained.nodup p⟩
        obtain ⟨v, hv, -⟩ := h.chained.linked p n hm
        rw [hn] at hv
        cases hv
      · exact h.chained.nodup q
    case short =>
      intro q
      show ((s.store.linkVersion kind p n).page q).versionCount ≤ 16
      rw [page]
      split
      · rw [Page.versionCount] at hroom ⊢
        simp only [List.length_cons]
        omega
      · exact h.chained.short q
    case building =>
      intro hq
      obtain ⟨hbusy, hflag, hbuilding, v, hv, hx⟩ := h.chained.building hq
      have links : ∀ q, ((s.store.linkVersion kind p n).page q).state = (s.store.page q).state ∧
          ((s.store.linkVersion kind p n).page q).committing = (s.store.page q).committing ∧
          ((s.store.linkVersion kind p n).page q).building = (s.store.page q).building := by
        intro q
        rw [page]
        split
        · next e => rw [e]; exact ⟨rfl, rfl, rfl⟩
        · exact ⟨rfl, rfl, rfl⟩
      obtain ⟨estate, eflag, ebuilding⟩ := links s.restore.sequencer.page
      exact ⟨by rw [← estate] at hbusy; exact hbusy, eflag.trans hflag, ebuilding.trans hbuilding, v, old _ v hv, hx⟩
  · refine h.strips.versions rfl rfl (fun hi => (h.strips.init hi).2.2.2.2) rfl rfl (fun m v hv => ⟨v, old m v hv, rfl⟩)
      fun m w hw => ?_
    have hw := (versions m).symm.trans hw
    split at hw
    · cases hw; exact .inl hdelta
    · exact .inr ⟨w, hw, rfl⟩
  · refine h.cursor.regrade (fun hq w hw => ?_) hsame
    obtain ⟨-, -, -, v, hv, -⟩ := h.chained.building hq
    have hw := (old _ v hv).symm.trans hw
    cases hw
    exact ⟨_, hv, rfl⟩
  · refine h.pages.regrade (fun q => ?_) rfl (h.pages.flag_regrade (fun q hf => ?_) (.inl rfl) rfl)
    · show (s.store.page q).SameCounts ((s.store.linkVersion kind p n).page q)
      rw [page]
      split
      · next e => rw [e]; exact ⟨rfl, rfl, fun ha => absurd ha hpresent⟩
      · exact h.pages.sameCounts q
    · change ((s.store.linkVersion kind p n).page q).committing = true at hf
      rw [page] at hf
      split at hf
      · next e => rw [e]; exact hf
      · exact hf

/-- The store after a fresh strip's start, its held write apart: `owner` is the version that takes the strip (R59). -/
def Store.freshStrip (st : Store) (k : Key) (source : Option Nat) (slot : Fin 4) (strip owner : Nat) : Store :=
  { st.allocate with
    versions := Table.adjust st.versions owner fun v => { v with delta := Table.write v.delta k.strip strip }
    strips := Table.write st.strips strip ⟨.filling (.slot slot), owner, k.strip⟩
    copies := Table.write st.copies slot.val { source := source, target := strip, page := k.page, index := k.strip }
    startOrder := st.startOrder ++ [slot] }.setPage k.page { st.page k.page with copies := (st.page k.page).copies + 1 }

/-- A strip goes to an IDLE slot and to a linked version that does not hold the strip index (R59, R60). -/
theorem State.DirectoryKept.freshStrip {s : State} (h : s.DirectoryKept) (hi : s.chip.inInit = false) {k : Key}
    {slot : Fin 4} {strip owner : Nat} {rest : List Nat} {v : Version} (hpresent : (s.store.page k.page).state ≠ .absent)
    (hqueue : s.store.freeQueue = strip :: rest) (hidle : Table.read s.store.copies slot.val = none)
    (howner : owner ∈ (s.store.page k.page).chain) (hv : Table.read s.store.versions owner = some v)
    (hfree : Table.read v.delta k.strip = none) (source : Option Nat) :
    (s.setStore (s.store.freshStrip k source slot strip owner)).DirectoryKept := by
  have page : ∀ q, (s.store.freshStrip k source slot strip owner).page q =
      if q = k.page then { s.store.page k.page with copies := (s.store.page k.page).copies + 1 } else s.store.page q :=
    Store.page_setPage _ _ _
  have links : ∀ q, (s.store.page q).SameLinks ((s.store.freshStrip k source slot strip owner).page q) := by
    intro q
    rw [page]
    split
    · next e => rw [e]; exact ⟨rfl, rfl, rfl, id⟩
    · exact .refl _
  have versions : ∀ m, Table.read (s.store.freshStrip k source slot strip owner).versions m =
      if m = owner then some { v with delta := Table.write v.delta k.strip strip } else Table.read s.store.versions m := by
    intro m
    show Table.read (Table.adjust s.store.versions owner fun v => { v with delta := Table.write v.delta k.strip strip }) m = _
    rw [Table.read_adjust]
    split
    · next e => rw [e, hv]; rfl
    · rfl
  have copies : ∀ i, Table.read (s.store.freshStrip k source slot strip owner).copies i =
      if i = slot.val then some { source := source, target := strip, page := k.page, index := k.strip }
      else Table.read s.store.copies i :=
    Table.read_write _ _ _
  have hsame := fun hq => h.cursor.forward_same (t := s.setStore (s.store.freshStrip k source slot strip owner)) rfl hq
  refine ⟨⟨h.chained.regrade links (fun m w hw => ?_) hsame, ?_, h.cursor.regrade (fun hq w hw => ?_) hsame⟩, ?_⟩
  · show ∃ x, Table.read (s.store.freshStrip k source slot strip owner).versions m = some x ∧ _
    rw [versions]
    split
    · next e =>
      rw [e, hv] at hw
      cases hw
      exact ⟨_, rfl, rfl, rfl, Iff.rfl⟩
    · exact ⟨w, hw, .refl w⟩
  · exact h.strips.taken hi (rest := rest) hqueue hv hfree rfl rfl rfl
      (by simp [Store.freshStrip, Store.setPage, Store.allocate, hqueue]) versions (Table.read_write _ _ _)
  · have hne : s.restore.sequencer.building ≠ owner := fun e => h.chained.building_not_linked hq k.page (e ▸ howner)
    have hw := (versions _).symm.trans hw
    rw [if_neg hne] at hw
    exact ⟨w, hw, rfl⟩
  · constructor
    case absent =>
      intro q
      show ((s.store.freshStrip k source slot strip owner).page q).state = .absent →
        (s.store.freshStrip k source slot strip owner).page q = {}
      rw [page]
      split
      · exact fun ha => absurd ha hpresent
      · exact h.pages.absent q
    case pins =>
      intro q
      refine Eq.trans ?_ (h.pages.pins q)
      show ((s.store.freshStrip k source slot strip owner).page q).pins = _
      rw [page]
      split
      · next e => rw [e]
      · rfl
    case copies =>
      intro q
      show ((s.store.freshStrip k source slot strip owner).page q).copies = (List.range 4).countP fun i =>
        (Table.read (s.store.freshStrip k source slot strip owner).copies i).any fun c => c.page == q
      simp only [copies]
      rw [page]
      split
      · next e =>
        rw [e]
        show (s.store.page k.page).copies + 1 = _
        rw [h.pages.copies k.page]
        refine (countP_one_more List.nodup_range (List.mem_range.2 slot.isLt) ?_ ?_ fun i _ hne => ?_).symm
        · rw [hidle]; rfl
        · simp
        · rw [if_neg hne]
      · next e =>
        rw [h.pages.copies q]
        refine List.countP_congr fun i _ => ?_
        split
        · next hs => simp [hs, hidle, Ne.symm e]
        · rfl
    case flag => exact h.pages.flag_regrade (fun q => (links q).committing ▸ id) (.inl rfl) rfl

/-- The page's chain has an OPEN head that does not hold the strip index: with a new version linked, or as it was (R58). -/
theorem State.StartsFresh.linked {s : State} (h : s.DirectoryKept) {w : HostWrite} {n : Option Nat} {slot : Fin 4} {strip : Nat}
    (hs : s.StartsFresh w n slot strip) (kind : ApertureKind) {st : Store}
    (hst : st = n.elim s.store (s.store.linkVersion kind (addressKey w.address).page)) :
    (s.setStore st).DirectoryKept ∧ (st.page (addressKey w.address).page).state ≠ .absent ∧
      st.freeQueue = s.store.freeQueue ∧ st.copies = s.store.copies ∧
      ∃ owner chain v, (st.page (addressKey w.address).page).chain = owner :: chain ∧
        Table.read st.versions owner = some v ∧ Table.read v.delta (addressKey w.address).strip = none := by
  subst hst
  rcases hs.version with ⟨rfl, hneeds⟩ | ⟨m, rfl, -, hroom, hfree⟩
  · refine ⟨h, hs.present, rfl, rfl, ?_⟩
    unfold Store.needsVersion at hneeds
    split at hneeds
    · next v hv =>
      have hlock : v.lock = .openLock := by simpa using hneeds
      have hdelta := hs.needs v hv hlock
      obtain ⟨owner, ho, hr⟩ := Option.bind_eq_some_iff.1 hv
      obtain ⟨chain, hc⟩ := List.head?_eq_some_iff.1 ho
      exact ⟨owner, chain, v, hc, hr, hdelta⟩
    · cases hneeds
  · obtain ⟨-, -, hnone, -⟩ := Table.lowestFree_spec _ _ _ _ hfree
    refine ⟨h.linkVersion hs.present hroom hnone, ?_, rfl, rfl, m, (s.store.page (addressKey w.address).page).chain,
      s.store.newVersion kind (addressKey w.address).page, ?_, Table.read_write_self _ _ _, ?_⟩
    · show ((Store.setPage _ _ _).page _).state ≠ _
      rw [Store.page_setPage_self]
      exact hs.present
    · show ((Store.setPage _ _ _).page _).chain = _
      rw [Store.page_setPage_self]
    · cases kind <;> rfl

theorem State.DirectoryKept.startFresh {s : State} (h : s.DirectoryKept) {w : HostWrite} {n : Option Nat} {slot : Fin 4}
    {strip : Nat} (hs : s.StartsFresh w n slot strip) (kind : ApertureKind) :
    (s.startFresh w kind n slot strip).DirectoryKept := by
  obtain ⟨st, hst⟩ : ∃ st, st = n.elim s.store (s.store.linkVersion kind (addressKey w.address).page) := ⟨_, rfl⟩
  obtain ⟨linked, hpresent, hqueue, hcopies, owner, chain, v, hchain, hv, hfree⟩ := hs.linked h kind hst
  obtain ⟨rest, hrest⟩ := hs.queue
  have hi : s.chip.inInit = false := Bool.eq_false_iff.2 fun hi => by
    have := hs.enabled.symm.trans ((h.strips.init hi).2.2.2.1 _)
    cases this
  have hidle : Table.read st.copies slot.val = none := by
    rw [hcopies, ← Table.has_eq_false]
    simpa using List.find?_some hs.idle
  have fresh := linked.freshStrip (k := addressKey w.address) hi hpresent (hqueue.trans hrest) hidle
    (by rw [show (s.setStore st).store = st from rfl, hchain]; exact List.mem_cons_self) hv hfree
    (s.store.copySource kind (addressKey w.address).page (addressKey w.address).strip)
  refine fresh.congr ?_
  have hhead : owner = ((st.page (addressKey w.address).page).chain.headD 0) := by rw [hchain]; rfl
  subst hst
  cases n <;> rw [hhead] <;> exact (State.judgeStoreLow_directory _ _)

/-- A disposal keeps the directory (R56 to R59). -/
theorem State.DirectoryKept.dispose {s t : State} (h : s.DirectoryKept) {w : HostWrite} (hd : s.Disposed w t) :
    t.DirectoryKept := by
  cases hd with
  | dropped kind => exact h.congr rfl
  | left => exact h.congr rfl
  | carried strip => exact h.congr rfl
  | held k strip released room => cases released <;> exact h.congr rfl
  | waits => exact h.congr rfl
  | fresh kind n slot strip start => exact h.startFresh start kind

end Sys2Proof.Machine
end

section
/-! # What a step keeps: the directory through releases and the commands on pages (R36 to R44, R92) -/

namespace Sys2Proof.Machine

/-! ### DISCARD VERSION and RETIRE PAGE -/

/-- A page that is not flagged is not the one that the sequencer commits (R92). -/
theorem State.Chained.not_committed {s : State} (h : s.Chained) {p : Nat} (hf : (s.store.page p).committing = false)
    (hq : s.restore.sequencer.state ≠ .idle) : s.restore.sequencer.page ≠ p := by
  rintro rfl
  obtain ⟨-, hflag, -⟩ := h.building hq
  rw [hf] at hflag
  cases hflag

/-- The version discarded leaves the chain and the pool (R42). -/
theorem State.DirectoryKept.discard {s : State} (h : s.DirectoryKept) {p n : Nat} {v : Version}
    (hv : Table.read s.store.versions n = some v) (hpage : v.page = p) (hlock : v.lock = .locked)
    (hpresent : (s.store.page p).state ≠ .absent) (hf : (s.store.page p).committing = false) :
    (s.discard p n).DirectoryKept := by
  have released := (Store.release_spec hv).1
  have others := released.2.2.2.2
  obtain ⟨st, hst⟩ : ∃ st, st = (s.store.release n).setPage p { (s.store.release n).page p with
      chain := ((s.store.release n).page p).chain.filter fun m => m != n } := ⟨_, rfl⟩
  have page : ∀ q, st.page q = if q = p
      then { s.store.page p with chain := (s.store.page p).chain.filter fun m => m != n } else s.store.page q := by
    intro q
    rw [hst, Store.page_setPage, Store.page_release, Store.page_release]
  have versions : ∀ m, Table.read st.versions m = if m = n then none else Table.read s.store.versions m := by
    intro m
    rw [hst]
    split
    · next e => rw [e]; exact released.2.2.2.1
    · next e => exact others m e
  have others : ∀ q, ∀ m ∈ (st.page q).chain, m ≠ n := by
    intro q m hm
    rw [page] at hm
    split at hm
    · simpa using (List.mem_filter.1 hm).2
    · next e =>
      rintro rfl
      obtain ⟨w, hw, hwp, -⟩ := h.chained.linked q _ hm
      rw [hv] at hw
      cases hw
      exact e (hwp.symm.trans hpage)
  have kept : (s.setStore st).DirectoryKept := by
    have hcopies : st.copies = s.store.copies := by
      rw [hst, (Store.release_spec hv).2]
      rfl
    refine ⟨⟨h.chained.shrink (fun q => ?_) (fun q m hm => ?_) (fun q => ?_) fun hq => ⟨rfl, ?_, ?_⟩, ?_, ?_⟩, ?_⟩
    · show (st.page q).chain.Sublist _
      rw [page]
      split
      · next e => rw [e]; exact List.filter_sublist
      · exact .refl _
    · exact (versions m).trans (if_neg (others q m hm))
    · show (st.page q).versionCount ≤ _
      rw [page]
      split
      · next e => rw [e]; exact Nat.add_le_add_right (List.length_filter_le _ _) _
      · exact Nat.le_refl _
    · exact (page _).trans (if_neg (h.chained.not_committed hf hq))
    · refine (versions _).trans (if_neg ?_)
      rintro e
      obtain ⟨-, -, -, w, hw, -, hb, -⟩ := h.chained.building hq
      rw [e, hv] at hw
      cases hw
      rw [hlock] at hb
      cases hb
    · subst hst
      exact h.strips.released hv released rfl rfl id
    · refine h.cursor.regrade (fun _ w hw => ⟨w, ?_, rfl⟩) fun hq => h.cursor.forward_same (t := s.setStore st) rfl hq
      have hw := (versions _).symm.trans hw
      split at hw
      · cases hw
      · exact hw
    · have same : ∀ q, (s.store.page q).SameCounts (st.page q) ∧
          ((st.page q).committing = true → (s.store.page q).committing = true) := by
        intro q
        rw [page]
        split
        · next e => rw [e]; exact ⟨⟨rfl, rfl, fun ha => absurd ha hpresent⟩, id⟩
        · exact ⟨h.pages.sameCounts q, id⟩
      refine h.pages.regrade (fun q => (same q).1) ?_ (h.pages.flag_regrade (fun q => (same q).2) (.inl rfl) rfl)
      unfold State.directory
      rw [show (s.setStore st).store.copies = s.store.copies from hcopies]
  subst hst
  exact kept.resumeCommit

/-- The release of versions one after another keeps the strips (R29). -/
theorem State.StripsKept.released_all {chain : List Nat} {s : State} (h : s.StripsKept) :
    (s.setStore (chain.foldl Store.release s.store)).StripsKept := by
  induction chain generalizing s with
  | nil => exact h
  | cons n chain ih =>
    refine ih (s := s.setStore (s.store.release n)) ?_
    cases hv : Table.read s.store.versions n with
    | none => rw [Store.release_free hv]; exact h
    | some v => exact h.released hv (Store.release_spec hv).1 rfl rfl id

/-- The page's versions leave the pool, and its entry is that of an ABSENT page (R44). -/
theorem State.DirectoryKept.retire {s : State} (h : s.DirectoryKept) {p : Nat} (hpins : (s.store.page p).pins = 0)
    (hcopies : (s.store.page p).copies = 0) (hf : (s.store.page p).committing = false) : (s.retire p).DirectoryKept := by
  obtain ⟨-, gone, stay, -, -, -, hpages, hframe⟩ := foldl_release (s.store.page p).chain (h.chained.nodup p) s.store
  obtain ⟨st, hst⟩ : ∃ st, st = ((s.store.page p).chain.foldl Store.release s.store).setPage p {} := ⟨_, rfl⟩
  have page : ∀ q, st.page q = if q = p then {} else s.store.page q := by
    intro q
    rw [hst, Store.page_setPage, hpages]
  have versions : ∀ m, m ∉ (s.store.page p).chain → Table.read st.versions m = Table.read s.store.versions m := by
    intro m hm
    rw [hst]
    exact stay m hm
  have kept : (s.setStore st).DirectoryKept := by
    refine ⟨⟨h.chained.shrink (fun q => ?_) (fun q m hm => versions m fun hp => ?_) (fun q => ?_)
      fun hq => ⟨rfl, ?_, versions _ (h.chained.building_not_linked hq p)⟩, ?_, ?_⟩, ?_⟩
    · show (st.page q).chain.Sublist _
      rw [page]
      split
      · exact List.nil_sublist _
      · exact .refl _
    · change m ∈ (st.page q).chain at hm
      rw [page] at hm
      split at hm
      · cases hm
      · next e =>
        obtain ⟨v, hv, rfl, -⟩ := h.chained.linked p m hp
        obtain ⟨w, hw, rfl, -⟩ := h.chained.linked q m hm
        rw [hv] at hw
        cases hw
        exact e rfl
    · show (st.page q).versionCount ≤ _
      rw [page]
      split
      · exact Nat.zero_le _
      · exact Nat.le_refl _
    · exact (page _).trans (if_neg (h.chained.not_committed hf hq))
    · subst hst
      exact (h.strips.released_all (chain := (s.store.page p).chain)).versions rfl rfl
        (fun hi => (h.strips.init hi).2.2.2.2) rfl rfl (fun m v hv => ⟨v, hv, rfl⟩) fun m w hw => .inr ⟨w, hw, rfl⟩
    · refine h.cursor.regrade (fun hq w hw => ⟨w, ?_, rfl⟩) fun hq => h.cursor.forward_same (t := s.setStore st) rfl hq
      exact (versions _ (h.chained.building_not_linked hq p)).symm.trans hw
    · have same : ∀ q, (s.store.page q).SameCounts (st.page q) ∧
          ((st.page q).committing = true → (s.store.page q).committing = true) := by
        intro q
        rw [page]
        split
        · next e => rw [e]; exact ⟨⟨hpins.symm, hcopies.symm, fun _ => rfl⟩, nofun⟩
        · exact ⟨h.pages.sameCounts q, id⟩
      have hslots : (s.setStore st).store.copies = s.store.copies := by
        rw [show (s.setStore st).store = st from rfl, hst]
        show (List.foldl Store.release s.store (s.store.page p).chain).copies = _
        rw [hframe]
      refine h.pages.regrade (fun q => (same q).1) ?_ (h.pages.flag_regrade (fun q => (same q).2) (.inl rfl) rfl)
      unfold State.directory
      rw [hslots]
  subst hst
  exact State.DirectoryKept.resumeCommit (kept.congr rfl)

/-! ### FINISH LOAD -/

theorem lockHead_read (versions : Table Version) (chain : List Nat) (n : Nat) :
    Table.read (lockHead versions chain) n = (Table.read versions n).map fun v =>
      if chain.head? = some n ∧ v.lock = .openLock then { v with lock := .locked } else v := by
  cases chain with
  | nil => simp [lockHead]
  | cons m chain =>
    rw [lockHead, Table.read_adjust]
    split
    · next e => simp [e]
    · next e => simp [Ne.symm e]

theorem State.DirectoryKept.finishLoad {s : State} (h : s.DirectoryKept) (p : Nat) :
    (s.setStore ({ s.store with versions := lockHead s.store.versions (s.store.page p).chain }.setPage p
      { s.store.page p with state := .live })).DirectoryKept := by
  have locked := h.relock (t := s.setStore { s.store with versions := lockHead s.store.versions (s.store.page p).chain })
    (fun n v => Version.alike_locked (c := (s.store.page p).chain.head? = some n ∧ v.lock = .openLock) And.right)
    (lockHead_read s.store.versions (s.store.page p).chain) rfl
  exact locked.setPage (p := p) (x := { s.store.page p with state := .live }) rfl rfl
    ⟨⟨rfl, rfl, rfl, fun _ => nofun⟩, ⟨rfl, rfl, nofun⟩⟩

end Sys2Proof.Machine
end

section
/-! # What a step keeps: the directory through every command -/

namespace Sys2Proof.Machine

/-! ### INIT (R48, R149, R192) -/

/-- What power-on and an engine reset leave of the directory. -/
theorem State.DirectoryKept.of_init {t : State} {reserve tests : Nat} (hsize : ∃ pins, t.chip.strips = Config.stripsOfPins pins)
    (hi : t.chip.inInit = true) (ha : t.apertures = []) (hst : t.store = { reserve := reserve, closingTests := tests })
    (hq : t.restore.sequencer = {}) (hm : t.meter = {}) : t.DirectoryKept := by
  have hpage : ∀ p, t.store.page p = {} := fun p => by rw [hst]; rfl
  have hversion : ∀ n, Table.read t.store.versions n = none := fun n => by rw [hst]; rfl
  have hstrip : ∀ n, Table.read t.store.strips n = none := fun n => by rw [hst]; rfl
  have hqueue : t.store.freeQueue = [] := by rw [hst]
  have hidle : t.restore.sequencer.state = .idle := by rw [hq]
  refine ⟨⟨?_, ?_, ⟨fun hb => absurd hidle hb, fun hw => by rw [hidle] at hw; cases hw⟩⟩, ?_⟩
  · refine ⟨fun p n hn => ?_, fun p => ?_, fun p => ?_, fun hb => absurd hidle hb⟩ <;> simp [hpage] at *
    exact Nat.zero_le _
  · refine ⟨hsize, by simp [hqueue], by simp [hqueue], by simp [hstrip], by simp [hversion], by simp [hversion], ?_, fun _ => ?_⟩
    · rw [hi]; nofun
    · refine ⟨by simp [hqueue], ?_, hstrip, fun a => ?_, hidle⟩
      · obtain ⟨pins, hpins⟩ := hsize
        rw [hqueue, hpins]
        exact Nat.mul_pos (by decide) (Nat.two_pow_pos _)
      · rw [State.aperture, ha]; rfl
  · refine ⟨fun p _ => hpage p, fun p => ?_, fun p => ?_, fun p hf => ?_⟩
    · rw [hpage, hm]; rfl
    · rw [hpage, hst]; rfl
    · rw [hpage] at hf; cases hf

/-- The build of the free strip queue appends the next strip number, and INIT ends with the last one (R48). -/
theorem State.DirectoryKept.append {s t : State} (h : s.DirectoryKept) (hi : s.chip.inInit = true)
    (e : t.directory = { s.directory with
      freeQueue := s.store.freeQueue ++ [s.store.freeQueue.length], inInit := t.chip.inInit })
    (hv : t.store.versions = s.store.versions)
    (hn : t.chip.inInit = decide (s.store.freeQueue.length + 1 < s.chip.strips)) : t.DirectoryKept := by
  obtain ⟨-, size, apertures, page, -, strip, freeQueue, copyPage, commit, commitPage, -, -, -, purchases⟩ :=
    Directory.mk.inj e
  replace size : t.chip.strips = s.chip.strips := size
  replace freeQueue : t.store.freeQueue = s.store.freeQueue ++ [s.store.freeQueue.length] := freeQueue
  have page : ∀ p, t.store.page p = s.store.page p := congrFun page
  have strip : ∀ n, Table.read t.store.strips n = Table.read s.store.strips n := congrFun strip
  obtain ⟨hqueue, hlength, hfree, hclosed, hidle⟩ := h.strips.init hi
  have hrange : t.store.freeQueue = List.range (s.store.freeQueue.length + 1) := by
    rw [freeQueue, List.range_succ, ← hqueue]
  have hsame := fun hq => h.cursor.forward_same (t := t) (by rw [e]) hq
  have links : ∀ p, (s.store.page p).SameLinks (t.store.page p) := fun p => page p ▸ .refl _
  refine ⟨⟨h.chained.regrade links (fun n v hr => ⟨v, hv ▸ hr, .refl v⟩) hsame, ?_,
    h.cursor.regrade (fun _ w hr => ⟨w, hv ▸ hr, rfl⟩) hsame⟩, ?_⟩
  · constructor
    case size => rw [size]; exact h.strips.size
    case queue => rw [hrange]; exact List.nodup_range
    case free =>
      intro n hn
      rw [hrange, List.mem_range] at hn
      exact ⟨by omega, (strip n).trans (hfree n)⟩
    case owned => exact fun n x hx => by rw [strip, hfree] at hx; cases hx
    case listed => rw [hv]; simp only [strip]; exact h.strips.listed
    case ascending => rw [hv]; exact h.strips.ascending
    case whole =>
      intro hend n hlt
      rw [hn, decide_eq_false_iff_not] at hend
      exact .inl (by rw [hrange, List.mem_range]; omega)
    case init =>
      intro hgoes
      rw [hn, decide_eq_true_eq] at hgoes
      refine ⟨by rw [hrange, List.length_range], by rw [hrange, List.length_range, size]; exact hgoes,
        fun n => (strip n).trans (hfree n), fun a => (congrFun apertures a).trans (hclosed a), commit.trans hidle⟩
  · exact h.pages.regrade (fun p => page p ▸ h.pages.sameCounts p) (by rw [e])
      (h.pages.flag_regrade (fun p hf => page p ▸ hf) (.inl commit) commitPage)

theorem State.DirectoryKept.walkRead {s : State} (h : s.DirectoryKept) (t : Fin 32) (ap : Aperture) (k : Key) :
    (s.walkRead t ap k).DirectoryKept := by
  rw [State.walkRead_frame_eq]
  exact h.congr rfl

/-- Outside INIT the descriptors are free (R10, R23). -/
theorem State.DirectoryKept.setApertures {s : State} (h : s.DirectoryKept) (hi : s.chip.inInit = false) (x : Table Aperture) :
    (s.setApertures x).DirectoryKept := by
  have hsame := fun hq => h.cursor.forward_same (t := s.setApertures x) rfl hq
  refine ⟨⟨h.chained.regrade (fun _ => .refl _) (fun n v hv => ⟨v, hv, .refl v⟩) hsame, ?_,
    h.cursor.regrade (fun _ w hw => ⟨w, hw, rfl⟩) hsame⟩,
    h.pages.regrade h.pages.sameCounts rfl (h.pages.flag_regrade (fun _ => id) (.inl rfl) rfl)⟩
  obtain ⟨size, queue, free, owned, listed, ascending, whole, -⟩ := h.strips
  exact ⟨size, queue, free, owned, listed, ascending, whole, fun hx => absurd (hi.symm.trans hx) nofun⟩

/-- What leaves these blocks as they were keeps the directory. -/
theorem State.DirectoryKept.sameBut {s t : State} {blocks : List Block} (h : s.DirectoryKept) (hf : s.SameBut blocks t)
    (hb : ∀ b ∈ [Block.chip, .apertures, .store, .restore, .meter], b ∉ blocks) : t.DirectoryKept := by
  refine h.congr ?_
  unfold State.directory State.aperture
  rw [hf.chip (hb _ (by simp)), hf.apertures (hb _ (by simp)), hf.store (hb _ (by simp)), hf.restore (hb _ (by simp)),
    hf.meter (hb _ (by simp))]

/-- Every command keeps the directory. -/
theorem exec_directoryKept {c : Instr} {s t : State} (e : exec c s = .next t) (h : s.DirectoryKept) (hm : s.MeterKept) :
    t.DirectoryKept := by
  by_cases hb : ∀ b ∈ [Block.chip, .apertures, .store, .restore, .meter], b ∉ touches c
  · exact h.sameBut (exec_sameBut e) hb
  · have take {c : Instr} {d : Bool} {body : State → Reply}
        (hbody : s.Taken c → (s.chip.inInit = true → d = true) → (body s).state.DirectoryKept) :
        (s.take c d body).DirectoryKept := State.take_keeps h State.DirectoryKept.respond hbody
    cases c with
    | powerOn pins =>
      cases e
      exact .of_init ⟨pins, rfl⟩ rfl rfl rfl rfl rfl
    | resetEngine =>
      cases e
      refine take fun _ _ => ?_
      split
      · exact .of_init h.strips.size rfl rfl rfl rfl rfl
      · exact h
    | resetPinAssert => cases e; exact h.congr rfl
    | initBuildAppend =>
      cases e
      refine State.live_keeps h fun _ => ?_
      split
      · next hi =>
        dsimp only
        split
        · next hl => exact h.append hi rfl rfl (decide_eq_false (Nat.not_lt.2 hl)).symm
        · next hl => exact h.append hi (by rfl) rfl (hi.trans (decide_eq_true (Nat.not_le.1 hl)).symm)
      · exact h
    | lineRead | lineWrite | archiveLinkDown =>
      cases e
      refine State.live_keeps h fun _ => ?_
      (repeat' split) <;> exact h.congr rfl
    | readDecode tag =>
      cases e
      refine State.live_keeps h fun _ => ?_
      split
      · rcases s.decodeRead_cases tag rfl rfl with e | ⟨reason, e⟩ | e | ⟨c, -, -, -, hc, e⟩ <;> rw [e]
        · exact h.congr rfl
        · exact (h.withhold _ reason).congr rfl
        · exact h.walkRead _ _ _
        · exact (h.charge hm (State.affords_of_charged hc)).walkRead _ _ _
      · exact h
    | writeDisposal =>
      cases e
      refine State.live_keeps h fun _ => ?_
      (repeat' split)
      · exact h
      · exact h.dispose (s.disposeHead_disposed _)
      · exact h
    | copySegmentIssue slot =>
      cases e
      refine State.live_keeps h fun _ => ?_
      split
      · exact h
      · next c hc =>
        split
        · exact h.issueCopy hc
        · exact h
    | commitSegmentIssue =>
      cases e
      refine State.live_keeps h fun _ => ?_
      dsimp only
      split
      · exact h
      · next hr =>
        split
        · next hp => exact h.examine (not_not.1 hr) hp
        · split
          · exact h.issueCommit
          · exact h
    | rowCycleExpiry | minimumOpenExpiry | writeRecoveryExpiry | turnaroundExpiry =>
      cases e
      exact State.live_keeps h fun _ => h.congr rfl
    | quietTimerExpiry | agingClockExpiry =>
      cases e
      refine State.live_keeps h fun _ => ?_
      split <;> exact h.congr rfl
    | openDelayExpiry | closeDelayExpiry =>
      cases e
      refine State.live_keeps h fun _ => ?_
      dsimp only
      split <;> exact h.congr rfl
    | transferEnd =>
      cases e
      refine State.live_keeps h fun _ => ?_
      split
      · next a rest _ _ =>
        exact State.DirectoryKept.carryOut (s := s.setPort (s.port.endTransfer s.chip.now a rest)) (h.congr rfl) a
      · exact h.arriveAll.testClosing
    | setAperture aperture state kind selector restored job fill =>
      cases e
      refine take fun _ hi => Reply.of_check h fun _ => ?_
      split
      · exact h
      · exact Reply.of_check h fun _ => h.setApertures (Bool.eq_false_iff.2 fun h => absurd (hi h) nofun) _
    | createPage page kind rateClass day edition loading =>
      cases e
      refine take fun _ _ => ?_
      split
      · exact h
      · next k l _ =>
        refine Reply.of_check h fun hs => Reply.of_check h fun _ => ?_
        have hempty := h.pages.absent page (not_not.1 hs)
        refine h.setPage (p := page) rfl rfl ?_
        rw [hempty]
        refine ⟨⟨rfl, rfl, rfl, fun ha => absurd rfl ha⟩, ⟨rfl, rfl, ?_⟩⟩
        cases l <;> nofun
    | finishLoad page =>
      cases e
      exact take fun _ _ => Reply.of_check h fun _ => Reply.of_check h fun _ => Reply.of_check h fun _ => h.finishLoad page
    | setEmbargo page day =>
      cases e
      refine take fun _ _ => Reply.of_check h fun _ => ?_
      split
      · exact h
      · exact Reply.of_check h fun hp => h.setPage (p := page) rfl rfl ⟨⟨rfl, rfl, rfl, id⟩, ⟨rfl, rfl, fun ha => absurd ha hp⟩⟩
    | setRateClass page rateClass =>
      cases e
      exact take fun _ _ => Reply.of_check h fun _ => Reply.of_check h fun hp =>
        h.setPage (p := page) rfl rfl ⟨⟨rfl, rfl, rfl, id⟩, ⟨rfl, rfl, fun ha => absurd ha hp⟩⟩
    | openEdition edition =>
      cases e
      exact take fun _ _ => Reply.of_check h fun _ => Reply.of_check h fun _ => Reply.of_check h fun _ => h.congr rfl
    | discardVersion page version =>
      cases e
      refine take fun _ _ => Reply.of_check h fun _ => Reply.of_check h fun hpresent => ?_
      split
      · exact h
      · next v hv =>
        refine Reply.of_check h fun hpage => Reply.of_check h fun hlock => Reply.of_check h fun hpins => Reply.of_check h fun _ => ?_
        exact h.discard hv (not_not.1 hpage) (not_not.1 hlock) hpresent (by simpa using (not_or.1 hpins).2)
    | retirePage page =>
      cases e
      refine take fun _ _ => Reply.of_check h fun _ => Reply.of_check h fun _ => Reply.of_check h fun _ =>
        Reply.of_check h fun hpins => Reply.of_check h fun hcopies => ?_
      exact h.retire (not_not.1 (not_or.1 hpins).1) (not_not.1 (not_or.1 hcopies).1) (by simpa using (not_or.1 hpins).2)
    | setStoreReserve reserve =>
      cases e
      refine take fun _ _ => Reply.of_check h fun _ => State.DirectoryKept.resumeCommit ?_
      exact h.congr ((State.judgeStoreLow_directory _ _).trans rfl)
    | commitRestoration page =>
      cases e
      refine take fun _ hi => ?_
      refine Reply.of_check h fun _ => Reply.of_check h fun hidle => Reply.of_check h fun habsent => Reply.of_check h fun _ =>
        Reply.of_check h fun hlength => ?_
      split
      · exact h
      · next n hn =>
        split
        · exact h
        · next head _ =>
          split
          · dsimp only
            obtain ⟨-, -, hfree, -⟩ := Table.lowestFree_spec _ _ _ _ hn
            exact h.startCommit (Bool.eq_false_iff.2 fun h => absurd (hi h) nofun) (not_not.1 hidle) (not_or.1 habsent).1
              (Nat.not_le.1 hlength) hfree head
          · exact h
    | closeEdition =>
      cases e
      refine take fun _ _ => ?_
      split
      · exact State.DirectoryKept.testClosing (s := s.setStore { s.store with edition := .closing _ }) (h.congr rfl)
      · exact h
    | abortCommit =>
      cases e
      refine take fun _ _ => ?_
      split
      · exact h
      · exact h
      · next hq => exact h.settleStrip.abortCommit (State.settleStrip_busy (by rw [hq]; nofun))
      · next hq => exact h.abortCommit (by rw [hq]; nofun)
    | writeRestoration page width pitch height black white curve =>
      cases e
      refine take fun _ _ => Reply.of_check h fun _ => Reply.of_check h fun hp => Reply.of_check h fun _ => ?_
      split
      · exact Reply.of_check h fun _ => h.congr rfl
      · split
        · exact h
        · exact h.setPage (p := page) rfl rfl ⟨⟨rfl, rfl, rfl, id⟩, ⟨rfl, rfl, fun ha => absurd ha hp⟩⟩
    | detachRestoration page =>
      cases e
      refine take fun _ _ => Reply.of_check h fun _ => Reply.of_check h fun hp => ?_
      split
      · exact h
      · exact Reply.of_check h fun _ =>
          h.setPage (p := page) rfl rfl ⟨⟨rfl, rfl, rfl, id⟩, ⟨rfl, rfl, fun ha => absurd ha hp⟩⟩
    | addDefect | clearDefects =>
      cases e
      refine take fun _ _ => ?_
      (repeat' split) <;> exact h.congr rfl
    | loadCurve curve quarter values =>
      cases e
      refine take fun _ _ => Reply.of_check h fun _ => ?_
      refine h.congr (t := s.setRestore (s.restore.setCurve curve (64 * quarter) values)) ?_
      unfold State.directory
      rw [(Restore.setCurve_frame s.restore curve (64 * quarter) values).2]
      rfl
    | openAccount | setDate | setBands | setRate | setSurcharge =>
      cases e
      refine take fun _ _ => ?_
      (repeat' split) <;> exact h.congr rfl
    | creditAccount | suspendAccount | resumeAccount | setDiscount | closeAccount =>
      cases e
      refine take fun _ _ => ?_
      dsimp only
      (repeat' split) <;> exact h.congr rfl
    | openJob job account ceiling =>
      cases e
      refine take fun _ _ => Reply.of_check h fun _ => Reply.of_check h fun _ => Reply.of_check h fun hf =>
        Reply.of_check h fun _ => Reply.of_check h fun _ => ?_
      exact (h.setJob (x := { state := .opened, account := account, ceiling := ceiling, openingDay := s.meter.date })
        (hm.free job (not_not.1 hf)).symm).congr rfl
    | closeJob job =>
      cases e
      exact take fun _ _ => Reply.of_check h fun _ => Reply.of_check h fun _ => h.setJob rfl
    | freeJob job =>
      cases e
      refine take fun _ _ => Reply.of_check h fun hj => Reply.of_check h fun _ => Reply.of_check h fun _ => ?_
      refine h.freeJob hm (Nat.not_le.1 hj) rfl rfl rfl rfl fun i => ?_
      show ((Meter.setJob _ job {}).job i).purchases = _
      rw [Meter.job_setJob]
      split <;> rfl
    | _ => simp [touches] at hb

end Sys2Proof.Machine
end

section
/-! # Every step keeps a sound state sound -/

namespace Sys2Proof.Machine

/-- Soundness is that of the link and the port, the management link, the accounts and jobs, the log, the settings, the
directory, and the bounds and forms of the rest. -/
theorem State.sound_iff (s : State) : s.Sound ↔
    s.Traffic ∧ s.ResponseKept ∧ s.MeterKept ∧ s.log.Kept ∧ s.SettingsInRange ∧ s.DirectoryKept ∧ s.EditionSound ∧
      s.DefectsBounded ∧ s.reports.faults.length ≤ 32 ∧ Memory.wf s.memory := by
  rw [s.meterKept_iff]
  constructor
  · intro h
    have hcredits := h.credits
    exact ⟨⟨h.bounded.writeBuffer, hcredits.2, h.bounded.carried, h.bounded.issueList, h.engineQueue,
        fun hd => (h.down hd).1, fun hd => (h.down hd).2.1, fun hd => (h.down hd).2.2.1, fun hd => (h.down hd).2.2.2.1,
        fun hd => (h.down hd).2.2.2.2.1, fun hd => (h.down hd).2.2.2.2.2⟩, h.response,
      ⟨h.bounded.purchases, h.solvent, h.sets, h.jobs⟩, ⟨h.bounded.charges, h.numbered⟩, h.settings,
      ⟨⟨h.chained, h.strips, h.cursor⟩, h.pages⟩, ⟨h.bounded.holdQueue, h.edition⟩, h.bounded.defects, h.bounded.faults,
      h.memory⟩
  · rintro ⟨ht, hresponse, ⟨hpurchases, hsolvent, hsets, hjobs⟩, hlog, hsettings, hdirectory, hedition, hdefects, hfaults,
      hmemory⟩
    exact {
      memory := hmemory
      bounded := ⟨ht.buffer, hedition.holdQueue, hdefects, hpurchases, hlog.length, ht.carried, ht.issued, hfaults⟩
      credits := ⟨ht.buffer, ht.credits⟩
      engineQueue := ht.engine
      down := fun hd => ⟨ht.tags hd, ht.order hd, ht.sending hd, ht.arriving hd, ht.queued hd, ht.started hd⟩
      solvent := hsolvent
      sets := hsets
      jobs := hjobs
      numbered := hlog.numbered
      edition := hedition.edition
      settings := hsettings
      chained := hdirectory.chained
      strips := hdirectory.strips
      cursor := hdirectory.cursor
      pages := hdirectory.pages
      response := hresponse }

/-- Every command keeps a sound state sound. -/
theorem exec_sound {c : Instr} {s t : State} (e : exec c s = .next t) (h : s.Sound) : t.Sound := by
  rw [State.sound_iff] at h ⊢
  obtain ⟨ht, hresponse, hmeter, hlog, hsettings, hdirectory, hedition, hdefects, hfaults, hmemory⟩ := h
  exact ⟨exec_traffic e ht, exec_responseKept e hresponse, exec_meterKept e hmeter, exec_logKept e hlog,
    exec_settingsInRange e hsettings, exec_directoryKept e hdirectory hmeter, exec_editionSound e hedition,
    exec_defects e hdefects, exec_faults e hfaults, exec_memory_wf e hmemory⟩

/-- The commands that wait and the time do not bear on soundness. -/
theorem State.Sound.clock {s : State} (h : s.Sound) (now : Nat) (commands : List Instr) :
    State.Sound { s with chip := { s.chip with now := now }, pending := commands } := by
  rw [State.sound_iff] at h ⊢
  obtain ⟨ht, hresponse, hmeter, hlog, hsettings, hdirectory, hedition, hdefects, hfaults, hmemory⟩ := h
  obtain ⟨reserve, discounts, date, bands, rates, surcharge, threshold, quietTime, agingLimit, timing⟩ := hsettings
  exact ⟨ht, hresponse, hmeter, hlog,
    ⟨reserve, discounts, date, bands, rates, surcharge, threshold, quietTime, agingLimit, timing⟩,
    hdirectory.congr rfl, hedition, hdefects, hfaults, hmemory⟩

/-- Settles O58: a step runs a command, and each command keeps every invariant; on an empty queue the time alone goes on. -/
theorem everyStepKeepsSound : Obligations.EveryStepKeepsSound := by
  intro s t h e
  unfold step at e
  split at e
  · cases e
    exact h.clock (s.chip.now + 1) s.pending
  · next c rest _ => exact exec_sound e (h.clock s.chip.now rest)

end Sys2Proof.Machine
end

section
/-! # Write disposal of a fresh strip: its tests and its start (R58 to R60) -/

namespace Sys2Proof.Machine

/-! ### The tests (R58) -/

theorem Store.freeVersion_eq_none (st : Store) :
    st.freeVersion = none ↔ ∀ n, n < 8192 → Table.has st.versions n = true := by
  refine (Table.lowestFree_eq_none _ _ _).trans ⟨fun h n hn => h n (Nat.zero_le n) ?_, fun h n _ hn => h n ?_⟩
  · simpa [Config.versionCount] using hn
  · simpa [Config.versionCount] using hn

/-- The page's OPEN head serves the write, with `n` none, or record `n` is free for a new version and its chain has room
(R58, tests 1 and 2). -/
inductive State.VersionFor (s : State) (p : Nat) : Option Nat → Prop
  | head (h : s.store.needsVersion p = false) : s.VersionFor p none
  | fresh (n : Nat) (h : s.store.needsVersion p = true) (room : (s.store.page p).versionCount < 16)
      (free : s.store.freeVersion = some n) : s.VersionFor p (some n)

section
variable {s : State} {w : HostWrite} (kind : ApertureKind)

theorem State.disposeFresh_chainFull (h : s.store.needsVersion (addressKey w.address).page = true)
    (hc : 16 ≤ (s.store.page (addressKey w.address).page).versionCount) :
    s.disposeFresh w kind = s.dropHead w .chainFull := by
  unfold State.disposeFresh
  exact if_pos ⟨h, hc⟩

theorem State.disposeFresh_poolEmpty (h : s.store.needsVersion (addressKey w.address).page = true)
    (hc : (s.store.page (addressKey w.address).page).versionCount < 16) (hn : s.store.freeVersion = none) :
    s.disposeFresh w kind = s.dropHead w .poolEmpty := by
  unfold State.disposeFresh
  dsimp only
  rw [if_neg fun hx => absurd hc (Nat.not_lt.2 hx.2), if_pos h, hn]
  rfl

variable {n : Option Nat} (hv : s.VersionFor (addressKey w.address).page n)
include hv

/-- The version's tests passed, those of the strip follow. -/
theorem State.disposeFresh_storeFull (hq : s.store.freeQueue = []) : s.disposeFresh w kind = s.dropHead w .storeFull := by
  unfold State.disposeFresh
  cases hv with
  | head h => simp [h, hq]
  | fresh n h room free => simp [h, hq, free, Nat.not_le.2 room, Config.chainCapacity]

theorem State.disposeFresh_reserve {strip : Nat} {queue : List Nat} (hq : s.store.freeQueue = strip :: queue)
    (hr : s.store.aboveReserve = false) : s.disposeFresh w .load = s.dropHead w .reserve := by
  unfold State.disposeFresh
  cases hv with
  | head h => simp [h, hq, hr]
  | fresh n h room free => simp [h, hq, hr, free, Nat.not_le.2 room, Config.chainCapacity]

variable {strip : Nat} {queue : List Nat} (hq : s.store.freeQueue = strip :: queue)
  (hr : kind = .load → s.store.aboveReserve = true)
include hq hr

theorem State.disposeFresh_waits (hx : s.store.idleSlot = none ∨ s.store.holdFree = false) :
    s.disposeFresh w kind = s.headWaits := by
  have hr : ¬ (kind = .load ∧ s.store.aboveReserve = false) := fun ⟨hk, ha⟩ => absurd (ha.symm.trans (hr hk)) nofun
  unfold State.disposeFresh
  cases hv with
  | head h =>
    simp only [h, hq, hr]
    rcases hx with hx | hx <;> simp [hx]
  | fresh n h room free =>
    simp only [h, hq, hr, free, Nat.not_le.2 room, Config.chainCapacity]
    rcases hx with hx | hx <;> simp [hx]

theorem State.disposeFresh_starts {slot : Fin 4} (hi : s.store.idleSlot = some slot) (hh : s.store.holdFree = true) :
    s.disposeFresh w kind = s.startFresh w kind n slot strip := by
  have hr : ¬ (kind = .load ∧ s.store.aboveReserve = false) := fun ⟨hk, ha⟩ => absurd (ha.symm.trans (hr hk)) nofun
  unfold State.disposeFresh
  cases hv with
  | head h => simp [h, hq, hr, hi, hh]
  | fresh n h room free => simp [h, hq, hr, hi, hh, free, Nat.not_le.2 room, Config.chainCapacity]

end

/-- When the tests of the version are passed, one of the two serves (R58). -/
theorem State.exists_versionFor {s : State} {p : Nat}
    (h : s.store.needsVersion p = true →
      (s.store.page p).versionCount < 16 ∧ ∃ n, n < 8192 ∧ Table.has s.store.versions n = false) :
    ∃ n, s.VersionFor p n := by
  cases hneeds : s.store.needsVersion p with
  | false => exact ⟨none, .head hneeds⟩
  | true =>
    obtain ⟨room, n, hn, hfree⟩ := h hneeds
    cases hv : s.store.freeVersion with
    | none =>
      rw [s.store.freeVersion_eq_none.1 hv n hn] at hfree
      cases hfree
    | some m => exact ⟨some m, .fresh m hneeds room hv⟩

/-- Past the first six checks the write meets the tests of a fresh strip. -/
theorem exec_writeDisposal_fresh {s : State} {w : HostWrite} {rest : List HostWrite} {kind : ApertureKind}
    (ha : s.Attempted w rest) (hp : s.Passes w kind) (he : w.enables ≠ 0) (hn : s.NeedsFresh (addressKey w.address)) :
    exec .writeDisposal s = .next (s.disposeFresh w kind) :=
  (execWriteDisposal_of_attempted ha).trans (congrArg _ (State.disposeHead_of_needsFresh hp he rfl hn))

theorem Store.holdFree_eq_false {st : Store} (h : 16 ≤ st.holdQueue.length) : st.holdFree = false :=
  decide_eq_false (Nat.not_lt.2 h)

/-- Settles O20: each test of R58 that fails drops the head or makes it wait, in their order. -/
theorem disposalFreshTests : Obligations.DisposalFreshTests := by
  intro s w rest kind k need ha hp he hk hn hneed
  subst hk
  have drop := State.dropHead_spec (w := w) ha.2.1
  have hneeds : need = true ↔ s.store.needsVersion (addressKey w.address).page = true :=
    hneed.trans (s.store.needsVersion_iff _).symm
  refine ⟨_, exec_writeDisposal_fresh ha hp he hn, fun h hc => ?_, fun h hc hpool => ?_, fun hversion => ?_⟩
  · rw [State.disposeFresh_chainFull kind (hneeds.1 h) hc]
    exact drop .chainFull
  · rw [State.disposeFresh_poolEmpty kind (hneeds.1 h) hc (s.store.freeVersion_eq_none.2 hpool)]
    exact drop .poolEmpty
  · obtain ⟨n, hv⟩ := State.exists_versionFor fun h => hversion (hneeds.2 h)
    refine ⟨fun hq => ?_, fun hq => ?_⟩
    · rw [State.disposeFresh_storeFull kind hv hq]
      exact drop .storeFull
    · obtain ⟨strip, queue, hq⟩ := List.exists_cons_of_ne_nil hq
      refine ⟨fun hk hr => ?_, fun hk hw => ?_⟩
      · subst hk
        rw [State.disposeFresh_reserve hv hq (s.store.aboveReserve_false.2 hr)]
        exact drop .reserve
      · refine State.disposeFresh_waits kind hv hq (fun hl => ?_) (hw.imp Store.idleSlot_eq_none Store.holdFree_eq_false)
        exact s.store.aboveReserve_iff.2 (hk.resolve_left (by rw [hl]; nofun))

/-! ### The start (R59, R60) -/

/-- STORE LOW is set when the free count was above the reserve and is not any more (R50). -/
theorem State.judgeStoreLow_reports (s : State) (b : Bool) :
    (s.judgeStoreLow b).reports = { s.reports with statuses := { s.reports.statuses with
      storeLow := s.reports.statuses.storeLow || b && decide (s.store.freeQueue.length ≤ s.store.reserve) } } := by
  unfold State.judgeStoreLow
  split
  · next h => simp [h]
  · next h => simp [h]

/-- A held write whose slot still copies leaves the buffer for the hold queue alone (R57, R66). -/
theorem State.holdHead_spec {s : State} {w : HostWrite} {rest : List HostWrite} (h : s.link.writeBuffer = w :: rest)
    (k : Fin 4) (strip : Nat) :
    s.HeadLeft (s.holdHead w k strip false) rest ∧
    s.holdHead w k strip false = { s with
      link := (s.holdHead w k strip false).link
      store := { s.store with holdQueue := s.store.holdQueue ++ [⟨w, k, false⟩] } } :=
  ⟨(State.headLeaves_spec (s := s.setStore { s.store with holdQueue := s.store.holdQueue ++ [⟨w, k, false⟩] }) h).1, rfl⟩

/-- The start of a fresh strip, over the store with its new version or as it was: the store's change, the judgement of
STORE LOW, and the write's hold (R59). -/
theorem State.startFresh_eq (s : State) (w : HostWrite) (kind : ApertureKind) (n : Option Nat) (slot : Fin 4) (strip : Nat)
    {k : Key} {st su : Store} (hk : k = addressKey w.address)
    (hst : st = n.elim s.store (s.store.linkVersion kind k.page))
    (hsu : su = st.freshStrip k (s.store.copySource kind k.page k.strip) slot strip ((st.page k.page).chain.headD 0)) :
    s.startFresh w kind n slot strip =
      ((s.setStore su).setReports ((s.setStore su).judgeStoreLow s.store.aboveReserve).reports).holdHead w slot strip false := by
  subst hk hst hsu
  rw [← State.judgeStoreLow_eq]
  cases n <;> rfl

/-- The store after the start of a fresh strip. -/
theorem State.startFresh_store (s : State) (w : HostWrite) (kind : ApertureKind) (n : Option Nat) (slot : Fin 4)
    (strip : Nat) {k : Key} {st : Store} (hk : k = addressKey w.address)
    (hst : st = n.elim s.store (s.store.linkVersion kind k.page)) :
    (s.startFresh w kind n slot strip).store =
      { st.freshStrip k (s.store.copySource kind k.page k.strip) slot strip ((st.page k.page).chain.headD 0) with
        holdQueue := st.holdQueue ++ [⟨w, slot, false⟩] } := by
  rw [s.startFresh_eq w kind n slot strip hk hst rfl]
  rfl

/-- The start of a fresh strip takes the head from the buffer, and changes the store and STORE LOW besides (R50, R59). -/
theorem State.startFresh_spec {s : State} {w : HostWrite} {rest : List HostWrite} (h : s.link.writeBuffer = w :: rest)
    {strip : Nat} {queue : List Nat} (hq : s.store.freeQueue = strip :: queue) (kind : ApertureKind) (n : Option Nat)
    (slot : Fin 4) {t : State} (ht : t = s.startFresh w kind n slot strip) :
    s.HeadLeft t rest ∧
    t.reports = { s.reports with statuses := { s.reports.statuses with
      storeLow := s.reports.statuses.storeLow || decide (s.store.freeQueue.length = s.store.reserve + 1) } } ∧
    t = { s with link := t.link, store := t.store, reports := t.reports } := by
  obtain ⟨st, hst⟩ : ∃ st, st = n.elim s.store (s.store.linkVersion kind (addressKey w.address).page) := ⟨_, rfl⟩
  obtain ⟨su, hsu⟩ : ∃ su, su = st.freshStrip (addressKey w.address)
      (s.store.copySource kind (addressKey w.address).page (addressKey w.address).strip) slot strip
      ((st.page (addressKey w.address).page).chain.headD 0) := ⟨_, rfl⟩
  have hheld := s.startFresh_eq w kind n slot strip rfl hst hsu
  obtain ⟨left, frame⟩ := State.holdHead_spec (s := (s.setStore su).setReports
    ((s.setStore su).judgeStoreLow s.store.aboveReserve).reports) h slot strip
  rw [← hheld, ← ht] at left frame
  have hfree : su.freeQueue = queue ∧ su.reserve = s.store.reserve := by
    subst hsu hst
    cases n <;> exact ⟨congrArg List.tail hq, rfl⟩
  refine ⟨left, ?_, by rw [frame]⟩
  rw [frame]
  show ((s.setStore su).judgeStoreLow s.store.aboveReserve).reports = _
  rw [State.judgeStoreLow_reports]
  have low : (s.store.aboveReserve && decide (su.freeQueue.length ≤ su.reserve)) =
      decide (s.store.freeQueue.length = s.store.reserve + 1) := by
    rw [hfree.1, hfree.2, hq, Store.aboveReserve, Store.freeCount, hq, ← Bool.decide_and]
    exact decide_eq_decide.2 (by simp only [List.length_cons]; omega)
  rw [low]

/-- `su` is `st` with `chain` for page `p`, at whose head stands the version `v` in record `owner` (R59, step 1). -/
structure Store.Headed (st su : Store) (p owner : Nat) (v : Version) (chain : List Nat) : Prop where
  page : su.page p = { st.page p with chain := chain }
  pages : ∀ q, q ≠ p → su.page q = st.page q
  head : (su.page p).chain.headD 0 = owner
  version : Table.read su.versions owner = some v
  versions : ∀ n, n ≠ owner → Table.read su.versions n = Table.read st.versions n
  frame : su = { st with pages := su.pages, versions := su.versions }

/-- The head serves as it is. -/
theorem Store.headed_self {st : Store} {p owner : Nat} {v : Version} (hh : (st.page p).chain.head? = some owner)
    (hv : Table.read st.versions owner = some v) : st.Headed st p owner v (st.page p).chain :=
  ⟨rfl, fun _ _ => rfl, by simp [List.headD_eq_head?_getD, hh], hv, fun _ _ => rfl, rfl⟩

/-- A new version heads the chain. -/
theorem Store.headed_linkVersion (st : Store) (kind : ApertureKind) (p n : Nat) :
    st.Headed (st.linkVersion kind p n) p n (st.newVersion kind p) (n :: (st.page p).chain) where
  page := Store.page_setPage_self _ _ _
  pages q hq := (Store.page_setPage _ _ _ q).trans (if_neg hq)
  head := congrArg (fun pg : Page => pg.chain.headD 0) (Store.page_setPage_self _ _ _)
  version := Table.read_write_self _ _ _
  versions _ hm := Table.read_write_other _ _ _ hm
  frame := rfl

/-- The version that the write needs heads the page's chain: a new one in the lowest free record, or the head as it is
(R27, R58, R59). -/
theorem State.exists_headed {s : State} {kind : ApertureKind} {k : Key} {owner : Nat} {old : Version} {need : Bool}
    (hneed : need = true ↔ s.store.needsVersion k.page = true)
    (hfresh : need = true → (s.store.page k.page).versionCount < 16 ∧ owner < 8192 ∧
      Table.has s.store.versions owner = false ∧ (∀ m, m < owner → Table.has s.store.versions m = true) ∧
      old = s.store.newVersion kind k.page)
    (hhead : need = false → (s.store.page k.page).chain.head? = some owner ∧ Table.read s.store.versions owner = some old) :
    ∃ n st, s.VersionFor k.page n ∧ st = n.elim s.store (s.store.linkVersion kind k.page) ∧
      s.store.Headed st k.page owner old
        (if need then owner :: (s.store.page k.page).chain else (s.store.page k.page).chain) := by
  cases need with
  | false =>
    obtain ⟨hh, ho⟩ := hhead rfl
    exact ⟨none, _, .head (Bool.eq_false_iff.2 fun h => absurd (hneed.2 h) nofun), rfl, Store.headed_self hh ho⟩
  | true =>
    obtain ⟨hroom, hlt, hfree, hlower, rfl⟩ := hfresh rfl
    have hlowest : s.store.freeVersion = some owner :=
      Table.lowestFree_eq_some (Nat.zero_le _) (by simpa [Config.versionCount] using hlt) hfree fun j _ hj => hlower j hj
    exact ⟨some owner, _, .fresh owner (hneed.1 rfl) hroom hlowest, rfl, s.store.headed_linkVersion kind k.page owner⟩

/-- Settles O21: the version and its chain by `Store.Headed`, then each table as the one strip, version and slot written. -/
theorem disposalStartsCopy : Obligations.DisposalStartsCopy := by
  intro s w rest kind k owner strip old queue slot need ha hp he hk hn hneed hfresh hhead hq hr hslot hslots hroom
  obtain ⟨n, st, hv, hst, headed⟩ := State.exists_headed (kind := kind) (hneed.trans (s.store.needsVersion_iff _).symm)
    (fun h => by
      obtain ⟨hroom, hlt, hfree, hlower, hold⟩ := hfresh h
      exact ⟨hroom, hlt, hfree, hlower, hold.trans (by cases kind <;> rfl)⟩) hhead
  obtain ⟨t, ht⟩ : ∃ t, t = s.startFresh w kind n slot strip := ⟨_, rfl⟩
  have hstart : exec .writeDisposal s = .next t := by
    rw [exec_writeDisposal_fresh ha hp he (hk ▸ hn), State.disposeFresh_starts kind (hk ▸ hv) hq
      (fun hl => s.store.aboveReserve_iff.2 (hr hl)) (Store.idleSlot_eq_some hslot hslots) (decide_eq_true hroom), ht]
  obtain ⟨left, reports, frame⟩ := State.startFresh_spec ha.2.1 hq kind n slot ht
  have store := s.startFresh_store w kind n slot strip hk hst
  rw [← ht, headed.head, headed.frame] at store
  have page : ∀ q, t.store.page q = if q = k.page then { st.page k.page with copies := (st.page k.page).copies + 1 }
      else st.page q := by
    intro q
    rw [store]
    exact Store.page_setPage _ _ _ q
  have versions : ∀ m, Table.read t.store.versions m = if m = owner
      then (Table.read st.versions m).map fun v => { v with delta := Table.write v.delta k.strip strip }
      else Table.read st.versions m := by
    intro m
    rw [store]
    exact Table.read_adjust st.versions owner (fun v => { v with delta := Table.write v.delta k.strip strip }) m
  have free : t.store.freeQueue = queue := by
    rw [store]
    exact congrArg List.tail hq
  have hself := page k.page
  rw [if_pos rfl, headed.page] at hself
  refine ⟨t, hstart, left, free, ?_, ?_, fun q hne => ?_, ?_, fun m hm => ?_, ?_, fun m hm => ?_, ?_, fun j hj => ?_, ?_, ?_,
    ?_, reports, frame⟩
  · rw [hself]
  · rw [hself]
  · rw [page, if_neg hne, headed.pages q hne]
  · rw [versions, if_pos rfl, headed.version]
    rfl
  · rw [versions, if_neg hm, headed.versions m hm]
  · rw [store]
    exact Table.read_write_self _ _ _
  · rw [store]
    exact Table.read_write_other _ _ _ hm
  · rw [store]
    refine (Table.read_write_self _ _ _).trans ?_
    cases kind <;> rfl
  · rw [store]
    exact Table.read_write_other _ _ _ fun e => hj (Fin.ext e)
  · rw [store]
    rfl
  · rw [store]
  · rw [← free, store]
    rfl

end Sys2Proof.Machine
end

section
/-! # A LOCKED version stays as it is (R28)

Followed for one record of the version pool: what it reads as changes only by its own release, by a rule that finds the
version OPEN, or by the sequencer that builds it. -/

namespace Sys2Proof

/-- An entry changed in place leaves the others as they were. -/
theorem Table.read_adjust_other {α : Type} (t : Table α) (k : Nat) (f : α → α) {i : Nat} (hi : i ≠ k) :
    Table.read (Table.adjust t k f) i = Table.read t i := by
  rw [Table.read_adjust, if_neg hi]

end Sys2Proof

namespace Sys2Proof.Machine

/-! ### One record of the version pool -/

/-- A release leaves every other record as it was (R29). -/
theorem Store.read_release_other (st : Store) {m i : Nat} (hi : i ≠ m) :
    Table.read (st.release m).versions i = Table.read st.versions i := by
  cases hv : Table.read st.versions m with
  | none => rw [Store.release_free hv]
  | some v => exact (Store.release_spec hv).1.2.2.2.2 i hi

/-- Record `n` of the version pool reads as `x`, and the commit sequencer is not building it. -/
structure State.RecordStands (n : Nat) (x : Option Version) (s : State) : Prop where
  reads : Table.read s.store.versions n = x
  unbuilt : s.restore.sequencer.state ≠ .idle → s.restore.sequencer.building ≠ n

/-- The sequencer builds no LOCKED version (R92). -/
theorem State.Chained.recordStands {s : State} (h : s.Chained) {n : Nat} {v : Version}
    (hv : Table.read s.store.versions n = some v) (hl : v.lock = .locked) : s.RecordStands n (some v) where
  reads := hv
  unbuilt hq hn := by
    obtain ⟨-, -, -, w, hw, -, hb, -⟩ := h.building hq
    rw [hn, hv] at hw
    cases hw
    rw [hl] at hb
    cases hb

namespace State.RecordStands

variable {s t : State} {n : Nat} {x : Option Version}

/-- A change of other records, under a sequencer that is IDLE now or builds what it built. -/
theorem change (h : s.RecordStands n x) (hr : Table.read t.store.versions n = Table.read s.store.versions n)
    (hq : t.restore.sequencer.state ≠ .idle →
      s.restore.sequencer.state ≠ .idle ∧ t.restore.sequencer.building = s.restore.sequencer.building) :
    t.RecordStands n x where
  reads := hr.trans h.reads
  unbuilt ht := by
    obtain ⟨hbusy, hbuilding⟩ := hq ht
    rw [hbuilding]
    exact h.unbuilt hbusy

theorem congr (h : s.RecordStands n x) (hv : t.store.versions = s.store.versions)
    (hq : t.restore.sequencer = s.restore.sequencer) : t.RecordStands n x :=
  h.change (by rw [hv]) (by rw [hq]; exact fun hb => ⟨hb, rfl⟩)

theorem respond (u : State) (status : Status) (fields : List Byte) (h : u.RecordStands n x) :
    (u.respond status fields).RecordStands n x := h.congr rfl rfl

/-! ### The sequencer's work (R94 to R102) -/

theorem setSequencer (h : s.RecordStands n x) {q : Sequencer} (hq : s.restore.sequencer.state ≠ .idle)
    (hb : q.building = s.restore.sequencer.building) : (s.setSequencer q).RecordStands n x :=
  h.change rfl fun _ => ⟨hq, hb⟩

theorem completeCommit (h : s.RecordStands n x) (hq : s.restore.sequencer.state ≠ .idle) :
    s.completeCommit.RecordStands n x :=
  h.change (Table.read_adjust_other s.store.versions _ (fun v => { v with lock := .locked }) (h.unbuilt hq).symm)
    fun hi => absurd rfl hi

theorem endAbort (h : s.RecordStands n x) (hq : s.restore.sequencer.state ≠ .idle) : s.endAbort.RecordStands n x :=
  h.change (s.store.read_release_other (h.unbuilt hq).symm) fun hi => absurd rfl hi

theorem takeCommitStrip (h : s.RecordStands n x) (hq : s.restore.sequencer.state ≠ .idle) (source : Nat) :
    (s.takeCommitStrip source).RecordStands n x := by
  unfold State.takeCommitStrip
  dsimp only
  split
  · exact h
  · next strip rest _ =>
    have others := Table.read_adjust_other s.store.versions _
      (fun v => { v with delta := Table.write v.delta s.restore.sequencer.cursor strip }) (h.unbuilt hq).symm
    rw [State.judgeStoreLow_eq]
    exact h.change others fun _ => ⟨hq, rfl⟩

theorem waitCommit (h : s.RecordStands n x) (hq : s.restore.sequencer.state ≠ .idle) : s.waitCommit.RecordStands n x :=
  h.change rfl fun _ => ⟨hq, rfl⟩

theorem examine (h : s.RecordStands n x) (hq : s.restore.sequencer.state ≠ .idle) : s.examine.RecordStands n x := by
  unfold State.examine
  split
  · exact h.completeCommit hq
  · next index source _ =>
    have moved := h.setSequencer (q := { s.restore.sequencer with cursor := index }) hq rfl
    dsimp only
    split
    · exact moved.takeCommitStrip hq source
    · exact moved.waitCommit hq

theorem examineDue (h : s.RecordStands n x) (hq : s.restore.sequencer.state ≠ .idle) : s.examineDue.RecordStands n x := by
  unfold State.examineDue
  dsimp only
  split
  · exact h.completeCommit hq
  · next index source _ =>
    have moved := h.setSequencer (q := { s.restore.sequencer with cursor := index }) hq rfl
    rw [State.nowOrLater_eq]
    split
    · exact moved.congr rfl rfl
    · exact examine (moved.congr rfl rfl) hq

theorem resumeCommit (h : s.RecordStands n x) : s.resumeCommit.RecordStands n x := by
  unfold State.resumeCommit
  split
  · next hw =>
    exact (h.setSequencer (q := { s.restore.sequencer with state := .running }) (by rw [hw.1]; nofun) rfl).examineDue nofun
  · exact h

theorem settleStrip (h : s.RecordStands n x) (hq : s.restore.sequencer.state ≠ .idle) :
    s.settleStrip.RecordStands n x := by
  unfold State.settleStrip
  split
  · exact h.examine hq
  · exact h

theorem finishCommitStrip (h : s.RecordStands n x) (hq : s.restore.sequencer.state ≠ .idle) :
    s.finishCommitStrip.RecordStands n x := by
  have ready : (s.setStore { s.store with
      strips := Table.adjust s.store.strips s.restore.sequencer.target
        fun e => { e with state := .ready } }).RecordStands n x := h.congr rfl rfl
  unfold State.finishCommitStrip
  exact (ready.setSequencer (q := { s.restore.sequencer with
    cursor := s.restore.sequencer.cursor + 1, nextLine := 1024, inProgress := false, phase := .none, held := none })
    hq rfl).examineDue hq

theorem commitRead (h : s.RecordStands n x) (bytes : List Byte) : (s.commitRead bytes).RecordStands n x := by
  unfold State.commitRead
  dsimp only
  split
  · exact h
  · exact h
  · next hq => exact h.endAbort (by rw [hq]; nofun)
  · next hq => exact h.setSequencer (by rw [hq]; nofun) rfl

theorem commitWritten (h : s.RecordStands n x) : s.commitWritten.RecordStands n x := by
  unfold State.commitWritten
  dsimp only
  split
  · exact h
  · exact h
  · next hq => exact h.endAbort (by rw [hq]; nofun)
  · next hq =>
    have hbusy : s.restore.sequencer.state ≠ .idle := by rw [hq]; nofun
    split
    · exact h.finishCommitStrip hbusy
    · exact h.setSequencer hbusy rfl

theorem issueCommit (h : s.RecordStands n x) (hq : s.restore.sequencer.state ≠ .idle) : s.issueCommit.RecordStands n x := by
  unfold State.issueCommit
  dsimp only
  (repeat' split) <;> exact h.change rfl fun _ => ⟨hq, rfl⟩

/-- A commit begins in a free record (R92). -/
theorem startCommit (h : s.RecordStands n x) {p m : Nat} (hm : m ≠ n) (head : Version) :
    (s.startCommit p m head).RecordStands n x :=
  examineDue ⟨(Table.read_write_other _ _ _ hm.symm).trans h.reads, fun _ => hm⟩ nofun

theorem abortCommit (h : s.RecordStands n x) (hq : s.restore.sequencer.state ≠ .idle) : s.abortCommit.RecordStands n x := by
  have aborting := h.setSequencer (q := { s.restore.sequencer with state := .aborting }) hq rfl
  unfold State.abortCommit
  dsimp only
  split
  · exact aborting.congr rfl rfl
  · exact endAbort (aborting.congr rfl rfl) nofun

/-! ### The end of a transfer (R54, R63 to R65, R162) -/

/-- A rule that locks OPEN versions leaves a version that is not OPEN as it was. -/
theorem relock {v : Version} (h : s.RecordStands n (some v)) (hl : v.lock ≠ .openLock) {f : Version → Version}
    (hf : v.lock ≠ .openLock → f v = v)
    (hr : Table.read t.store.versions n = (Table.read s.store.versions n).map f)
    (hq : t.restore.sequencer = s.restore.sequencer) : t.RecordStands n (some v) := by
  refine h.change (hr.trans ?_) (by rw [hq]; exact fun hb => ⟨hb, rfl⟩)
  rw [h.reads]
  exact congrArg some (hf hl)

section
variable {v : Version} (hl : v.lock ≠ .openLock)
include hl

theorem testClosing (h : s.RecordStands n (some v)) : s.testClosing.RecordStands n (some v) := by
  rcases s.testClosing_cases with e | ⟨-, e⟩ <;> rw [e]
  · exact h
  · exact h.relock hl (f := fun v => if v.lock = .openLock ∧ v.origin = .edition then { v with lock := .locked } else v)
      (fun hl => if_neg fun hc => hl hc.1) (lockEditions_read s.store.versions n) rfl

theorem slotIdle (h : s.RecordStands n (some v)) (k : Fin 4) (c : Copy) : (s.slotIdle k c).RecordStands n (some v) := by
  obtain ⟨u, hu, e⟩ := (s.freeSlot k c).testClosingDue_cases
  have freed : (s.freeSlot k c).RecordStands n (some v) := h.congr rfl rfl
  have hstands : u.RecordStands n (some v) := freed.congr (by rw [hu]) (by rw [hu])
  unfold State.slotIdle
  rcases e with e | e <;> rw [e]
  · exact hstands
  · exact hstands.testClosing hl

theorem heldCarriedOut (h : s.RecordStands n (some v)) (k : Fin 4) : (s.heldCarriedOut k).RecordStands n (some v) := by
  have gone : ∀ queue settling, ((s.setStore { s.store with
      holdQueue := queue, settling := settling }).attemptHead).RecordStands n (some v) := fun _ _ => h.congr rfl rfl
  unfold State.heldCarriedOut
  dsimp only
  split
  · exact gone _ _
  · split
    · exact (gone _ _).slotIdle hl k _
    · exact gone _ _

end

theorem unblock (h : s.RecordStands n x) : s.unblock.RecordStands n x := h.change rfl fun hq => ⟨hq, rfl⟩

theorem arriveAll (h : s.RecordStands n x) : s.arriveAll.RecordStands n x := by
  rw [State.arriveAll_frame_eq]
  exact h.congr rfl rfl

theorem lineReadDone (h : s.RecordStands n x) (tag : Fin 32) (strip line : Nat) (eligible abandoned : Bool) :
    (s.lineReadDone tag strip line eligible abandoned).RecordStands n x := by
  unfold State.lineReadDone
  dsimp only
  split
  · exact h
  · split
    · rw [State.nowOrLater_eq]
      split
      · exact h.congr rfl rfl
      · exact arriveAll (h.congr rfl rfl)
    · exact h.congr rfl rfl

theorem copyRead (h : s.RecordStands n x) (k : Fin 4) (bytes : List Byte) : (s.copyRead k bytes).RecordStands n x := by
  unfold State.copyRead
  split <;> exact h.congr rfl rfl

theorem copyWritten (h : s.RecordStands n x) (k : Fin 4) : (s.copyWritten k).RecordStands n x := by
  unfold State.copyWritten
  dsimp only
  (repeat' split) <;> exact h.congr rfl rfl

/-- What the end of a transfer hands on leaves a LOCKED version as it is. -/
theorem carryOut {v : Version} (h : s.RecordStands n (some v)) (hl : v.lock ≠ .openLock) (a : Access) :
    (s.carryOut a).RecordStands n (some v) := by
  cases a with
  | lineRead tag strip line eligible abandoned => exact h.lineReadDone tag strip line eligible abandoned
  | lineWrite strip line data enables holder =>
    have written : (s.setMemory
        (Memory.storeEnabled s.memory (lineAddress strip line) 0 enables data)).unblock.RecordStands n (some v) :=
      unblock (h.congr rfl rfl)
    cases holder with
    | none => exact written
    | some k => exact written.heldCarriedOut hl k
  | readSegment engine strip line dropped =>
    unfold State.carryOut State.readSegmentDone
    dsimp only
    split
    · exact h
    · split
      · exact h.copyRead _ _
      · exact h.commitRead _
  | writeSegment engine strip line data dropped =>
    have written : (s.setMemory (Memory.store s.memory (lineAddress strip line) data)).RecordStands n (some v) :=
      h.congr rfl rfl
    unfold State.carryOut State.writeSegmentDone
    dsimp only
    split
    · exact written
    · split
      · exact written.copyWritten _
      · exact written.commitWritten

/-! ### The start of a fresh strip (R58 to R60) -/

/-- The strip joins an OPEN version, and a new version takes a free record (R58, R59). -/
theorem startFresh {v : Version} (h : s.RecordStands n (some v)) (hl : v.lock ≠ .openLock) {w : HostWrite} {m : Option Nat}
    {slot : Fin 4} {strip : Nat} (hs : s.StartsFresh w m slot strip) (kind : ApertureKind) :
    (s.startFresh w kind m slot strip).RecordStands n (some v) := by
  obtain ⟨st, hst⟩ : ∃ st, st = m.elim s.store (s.store.linkVersion kind (addressKey w.address).page) := ⟨_, rfl⟩
  have linked : Table.read st.versions n = some v ∧ n ≠ (st.page (addressKey w.address).page).chain.headD 0 := by
    rcases hs.version with ⟨rfl, hneeds⟩ | ⟨m, rfl, -, -, hfree⟩
    · subst hst
      refine ⟨h.reads, fun hn => ?_⟩
      unfold Store.needsVersion at hneeds
      split at hneeds
      · next u hu =>
        obtain ⟨owner, ho, hr⟩ := Option.bind_eq_some_iff.1 hu
        have hn : n = owner := by rw [hn]; simp [List.headD_eq_head?_getD, ho]
        rw [← hn, h.reads] at hr
        cases hr
        exact hl (by simpa using hneeds)
      · cases hneeds
    · obtain ⟨-, -, hnone, -⟩ := Table.lowestFree_spec _ _ _ _ hfree
      have hne : n ≠ m := fun e => by rw [← e, h.reads] at hnone; cases hnone
      subst hst
      refine ⟨(Table.read_write_other _ _ _ hne).trans h.reads, ?_⟩
      show n ≠ ((Store.setPage _ _ _).page _).chain.headD 0
      rw [Store.page_setPage_self]
      exact hne
  have hrestore : (s.startFresh w kind m slot strip).restore = s.restore := by simp
  refine h.change ?_ (by rw [hrestore]; exact fun hq => ⟨hq, rfl⟩)
  rw [s.startFresh_store w kind m slot strip rfl hst, h.reads, ← linked.1]
  exact Table.read_adjust_other st.versions _
    (fun u => { u with delta := Table.write u.delta (addressKey w.address).strip strip }) linked.2

/-- A disposal leaves a LOCKED version as it is (R56 to R59). -/
theorem dispose {v : Version} (h : s.RecordStands n (some v)) (hl : v.lock ≠ .openLock) {w : HostWrite}
    (hd : s.Disposed w t) : t.RecordStands n (some v) := by
  cases hd with
  | dropped kind => exact h.congr rfl rfl
  | left => exact h.congr rfl rfl
  | carried strip => exact h.congr rfl rfl
  | held k strip released room => cases released <;> exact h.congr rfl rfl
  | waits => exact h.congr rfl rfl
  | fresh kind m slot strip start => exact h.startFresh hl start kind

/-! ### The commands on pages and versions (R38, R42, R44) -/

theorem finishLoad {v : Version} (h : s.RecordStands n (some v)) (hl : v.lock ≠ .openLock) (p : Nat) :
    (s.setStore ({ s.store with versions := lockHead s.store.versions (s.store.page p).chain }.setPage p
      { s.store.page p with state := .live })).RecordStands n (some v) :=
  h.relock hl (f := fun v => if (s.store.page p).chain.head? = some n ∧ v.lock = .openLock
      then { v with lock := .locked } else v)
    (fun hl => if_neg fun hc => hl hc.2) (lockHead_read s.store.versions _ n) rfl

/-- DISCARD VERSION empties its own record alone (R42). -/
theorem discard (h : s.RecordStands n x) (p m : Nat) : (s.discard p m).RecordStands n (if n = m then none else x) := by
  unfold State.discard
  refine resumeCommit ⟨?_, h.unbuilt⟩
  show Table.read (s.store.release m).versions n = _
  split
  · next e =>
    rw [e]
    cases hv : Table.read s.store.versions m with
    | none => rw [Store.release_free hv, hv]
    | some v => exact (Store.release_spec hv).1.2.2.2.1
  · next e => exact (s.store.read_release_other e).trans h.reads

/-- RETIRE PAGE empties the records of the page's chain alone (R44). -/
theorem retire (h : s.RecordStands n x) {p : Nat} (hn : (s.store.page p).chain.Nodup) :
    (s.retire p).RecordStands n (if n ∈ (s.store.page p).chain then none else x) := by
  obtain ⟨-, gone, stay, -⟩ := foldl_release (s.store.page p).chain hn s.store
  unfold State.retire
  refine resumeCommit ⟨?_, h.unbuilt⟩
  show Table.read ((s.store.page p).chain.foldl Store.release s.store).versions n = _
  split
  · next e => exact gone n e
  · next e => exact (stay n e).trans h.reads

end State.RecordStands

/-! ### Every command -/

/-- The commands by which version `v`, held in record `n`, may leave the pool (R28). -/
def Releases (c : Instr) (n : Nat) (v : Version) : Prop :=
  c = .discardVersion v.page n ∨ c = .retirePage v.page ∨ c = .resetEngine ∨ ∃ pins, c = .powerOn pins

/-- What leaves the store and the restoration unit as they were leaves every record as it was. -/
theorem State.RecordStands.sameBut {s t : State} {n : Nat} {x : Option Version} {blocks : List Block}
    (h : s.RecordStands n x) (hf : s.SameBut blocks t) (hs : .store ∉ blocks) (hr : .restore ∉ blocks) :
    t.RecordStands n x :=
  h.congr (by rw [hf.store hs]) (by rw [hf.restore hr])

/-- Every command that does not release a LOCKED version leaves its record as it was. -/
theorem exec_recordStands {c : Instr} {s t : State} (e : exec c s = .next t) (hc : s.Chained) {n : Nat} {v : Version}
    (h : s.RecordStands n (some v)) (hlock : v.lock = .locked) (hr : ¬ Releases c n v) :
    t.RecordStands n (some v) := by
  have hl : v.lock ≠ .openLock := by rw [hlock]; nofun
  by_cases hb : .store ∉ touches c ∧ .restore ∉ touches c
  · exact h.sameBut (exec_sameBut e) hb.1 hb.2
  · have take {c : Instr} {d : Bool} {body : State → Reply} (hbody : (body s).state.RecordStands n (some v)) :
        (s.take c d body).RecordStands n (some v) := State.take_keeps h State.RecordStands.respond fun _ _ => hbody
    cases c with
    | powerOn pins => exact absurd (.inr (.inr (.inr ⟨pins, rfl⟩))) hr
    | resetEngine => exact absurd (.inr (.inr (.inl rfl))) hr
    | initBuildAppend =>
      cases e
      refine State.live_keeps h fun _ => ?_
      dsimp only
      (repeat' split) <;> exact h.congr rfl rfl
    | lineRead | lineWrite | archiveLinkDown =>
      cases e
      refine State.live_keeps h fun _ => ?_
      (repeat' split) <;> exact h.congr rfl rfl
    | readDecode tag =>
      cases e
      refine State.live_keeps h fun _ => ?_
      split
      · rcases s.decodeRead_cases tag rfl rfl with e | ⟨reason, e⟩ | e | ⟨c, -, -, -, -, e⟩ <;> rw [e]
        · exact h.congr rfl rfl
        · exact h.congr rfl rfl
        · rw [State.walkRead_frame_eq]
          exact h.congr rfl rfl
        · rw [State.walkRead_frame_eq]
          exact h.congr rfl rfl
      · exact h
    | writeDisposal =>
      cases e
      refine State.live_keeps h fun _ => ?_
      (repeat' split)
      · exact h
      · exact h.dispose hl (s.disposeHead_disposed _)
      · exact h
    | copySegmentIssue slot =>
      cases e
      refine State.live_keeps h fun _ => ?_
      unfold State.issueCopy
      (repeat' split) <;> exact h.congr rfl rfl
    | commitSegmentIssue =>
      cases e
      refine State.live_keeps h fun _ => ?_
      dsimp only
      split
      · exact h
      · next hr =>
        have hbusy : s.restore.sequencer.state ≠ .idle := by rw [not_not.1 hr]; nofun
        split
        · exact h.examine hbusy
        · split
          · exact h.issueCommit hbusy
          · exact h
    | transferEnd =>
      cases e
      refine State.live_keeps h fun _ => ?_
      split
      · next a rest _ _ =>
        have ended : (s.setPort (s.port.endTransfer s.chip.now a rest)).RecordStands n (some v) := h.congr rfl rfl
        exact ended.carryOut hl a
      · exact h.arriveAll.testClosing hl
    | createPage | openEdition | addDefect | clearDefects =>
      cases e
      refine take ?_
      (repeat' split) <;> exact h.congr rfl rfl
    | setEmbargo | setRateClass | writeRestoration | detachRestoration =>
      cases e
      refine take ?_
      dsimp only
      (repeat' split) <;> exact h.congr rfl rfl
    | finishLoad page =>
      cases e
      exact take (Reply.of_check h fun _ => Reply.of_check h fun _ => Reply.of_check h fun _ => h.finishLoad hl page)
    | discardVersion page version =>
      cases e
      refine take (Reply.of_check h fun _ => Reply.of_check h fun _ => ?_)
      split
      · exact h
      · next u hu =>
        refine Reply.of_check h fun hpage => Reply.of_check h fun _ => Reply.of_check h fun _ => Reply.of_check h fun _ => ?_
        have hne : n ≠ version := by
          rintro rfl
          rw [h.reads] at hu
          cases hu
          exact hr (.inl (by rw [not_not.1 hpage]))
        have discarded := h.discard page version
        rw [if_neg hne] at discarded
        exact discarded
    | retirePage page =>
      cases e
      refine take (Reply.of_check h fun _ => Reply.of_check h fun _ => Reply.of_check h fun _ => Reply.of_check h fun _ =>
        Reply.of_check h fun _ => ?_)
      have hne : n ∉ (s.store.page page).chain := by
        intro hn
        obtain ⟨u, hu, hpage, -⟩ := hc.linked page n hn
        rw [h.reads] at hu
        cases hu
        exact hr (.inr (.inl (by rw [hpage])))
      have retired := h.retire (hc.nodup page)
      rw [if_neg hne] at retired
      exact retired
    | setStoreReserve reserve =>
      cases e
      refine take (Reply.of_check h fun _ => State.RecordStands.resumeCommit ?_)
      rw [State.judgeStoreLow_eq]
      exact h.congr rfl rfl
    | commitRestoration page =>
      cases e
      refine take (Reply.of_check h fun _ => Reply.of_check h fun _ => Reply.of_check h fun _ => Reply.of_check h fun _ =>
        Reply.of_check h fun _ => ?_)
      split
      · exact h
      · next m hm =>
        obtain ⟨-, -, hfree, -⟩ := Table.lowestFree_spec _ _ _ _ hm
        have hne : m ≠ n := fun e => by rw [e, h.reads] at hfree; cases hfree
        split
        · exact h
        · next head _ =>
          split
          · dsimp only
            exact h.startCommit hne head
          · exact h
    | closeEdition =>
      cases e
      refine take ?_
      split
      · next m _ =>
        have closing : (s.setStore { s.store with edition := .closing m }).RecordStands n (some v) := h.congr rfl rfl
        exact closing.testClosing hl
      · exact h
    | abortCommit =>
      cases e
      refine take ?_
      split
      · exact h
      · exact h
      · next hq =>
        have hbusy : s.restore.sequencer.state ≠ .idle := by rw [hq]; nofun
        exact (h.settleStrip hbusy).abortCommit (State.settleStrip_busy hbusy)
      · next hq => exact h.abortCommit (by rw [hq]; nofun)
    | loadCurve curve quarter values =>
      cases e
      exact take (Reply.of_check h fun _ => h.congr (t := s.setRestore (s.restore.setCurve curve (64 * quarter) values)) rfl
        (Restore.setCurve_frame s.restore curve (64 * quarter) values).2)
    | freeJob job =>
      cases e
      refine take (Reply.of_check h fun _ => Reply.of_check h fun _ => Reply.of_check h fun _ => ?_)
      have unpinned := foldl_unpin_frame (s.meter.job job).purchases s.store
      exact h.congr (congrArg Store.versions unpinned :) rfl
    | _ => simp [touches] at hb

/-- Record `n` reads as `x`, or is free. -/
def State.RecordKeptOrFree (n : Nat) (x : Option Version) (s : State) : Prop :=
  Table.read s.store.versions n = x ∨ Table.read s.store.versions n = none

/-- A command that may release the version leaves its record as it was, or free. -/
theorem exec_releases {c : Instr} {s t : State} (e : exec c s = .next t) (hc : s.Chained) {n : Nat} {v : Version}
    (h : s.RecordStands n (some v)) (hr : Releases c n v) : t.RecordKeptOrFree n (some v) := by
  have kept : s.RecordKeptOrFree n (some v) := .inl h.reads
  have take {c : Instr} {d : Bool} {body : State → Reply} (hbody : (body s).state.RecordKeptOrFree n (some v)) :
      (s.take c d body).RecordKeptOrFree n (some v) := State.take_keeps kept (fun _ _ _ hu => hu) fun _ _ => hbody
  rcases hr with rfl | rfl | rfl | ⟨pins, rfl⟩ <;> cases e
  · have discarded := (h.discard v.page n).reads
    rw [if_pos rfl] at discarded
    refine take (Reply.of_check kept fun _ => Reply.of_check kept fun _ => ?_)
    split
    · exact kept
    · exact Reply.of_check kept fun _ => Reply.of_check kept fun _ => Reply.of_check kept fun _ =>
        Reply.of_check kept fun _ => .inr discarded
  · have retired := (h.retire (hc.nodup v.page)).reads
    refine take (Reply.of_check kept fun _ => Reply.of_check kept fun _ => Reply.of_check kept fun _ =>
      Reply.of_check kept fun _ => Reply.of_check kept fun _ => ?_)
    split at retired
    · exact .inr retired
    · exact .inl retired
  · refine take ?_
    split
    · exact .inr rfl
    · exact kept
  · exact .inr rfl

/-- Settles O59: a command releases the version or leaves its record as it was. -/
theorem lockedVersionsStay : Obligations.LockedVersionsStay := by
  intro c s t n v hc e hv hl
  have h := hc.recordStands hv hl
  by_cases hr : Releases c n v
  · exact (exec_releases e hc h hr).imp id fun hnone => ⟨hnone, hr⟩
  · exact .inl (exec_recordStands e hc h hl hr).reads

end Sys2Proof.Machine
end

section
/-! # The commands on the page directory and on versions (R36 to R45) -/

namespace Sys2Proof.Machine

/-! ### Answers of a rule that writes one entry -/

/-- A rule that answers OK: its effect, and the response (R184). -/
theorem State.take_ok {s u : State} {c : Instr} {body : State → Reply} (h : s.Ready c) (hb : body s = u.ok)
    (hm : u.management = s.management) (d : Bool) :
    s.take c d body = { u with management := s.answered .ok [] } := by
  rw [State.take_ready_eq h, hb]
  show { u with management := u.answered .ok [] } = _
  rw [State.answered, hm]
  rfl

/-- A rule that writes one entry of the directory changes nothing else. -/
theorem State.take_setPage {s : State} {c : Instr} {body : State → Reply} (h : s.Ready c) {p : Nat} {x : Page}
    (hb : body s = (s.setStore (s.store.setPage p x)).ok) (d : Bool) {t : State} (ht : t = s.take c d body) :
    t.store.page p = x ∧ (∀ q, q ≠ p → t.store.page q = s.store.page q) ∧
      t = { s with store := { s.store with pages := t.store.pages }, management := s.answered .ok [] } := by
  rw [State.take_ok h hb rfl d] at ht
  subst ht
  exact ⟨Store.page_setPage_self _ _ _, fun q hq => (Store.page_setPage _ _ _ q).trans (if_neg hq), rfl⟩

/-! ### CREATE PAGE (R36) -/

theorem pageKindOf_above {kind : Nat} (h : 1 < kind) : pageKindOf kind = none := by
  obtain ⟨n, rfl⟩ := Nat.exists_eq_add_of_le' h
  rfl

theorem pageKindOf_code {kind : Nat} (h : kind ≤ 1) : pageKindOf kind = some (if kind = 0 then .page else .photo) := by
  obtain rfl | rfl : kind = 0 ∨ kind = 1 := by omega
  all_goals rfl

/-- A field outside its range gives no entry (R36, check 1). -/
theorem pageFieldsOf_eq_none {p kind rateClass day edition loading : Nat}
    (h : 65536 ≤ p ∨ 1 < kind ∨ 32 ≤ rateClass ∨ 131071 < day ∨ edition < 1 ∨ 16777215 < edition ∨ 1 < loading) :
    pageFieldsOf p kind rateClass day edition loading = none := by
  have hp : Config.pageCount = 65536 := rfl
  have hd : Config.maxDay = 131071 := rfl
  have he : Config.maxEdition = 16777215 := rfl
  unfold pageFieldsOf
  split
  · split
    · next hk hl =>
      rcases h with h | h | h | h | h | h | h
      · omega
      · rw [pageKindOf_above h] at hk
        cases hk
      · omega
      · omega
      · omega
      · omega
      · rw [flagOf_above h] at hl
        cases hl
    · rfl
  · rfl

/-- The kind and the start-LOADING flag of fields in their ranges. -/
theorem pageFieldsOf_eq_some {p kind rateClass day edition loading : Nat} (hp : p < 65536) (hk : kind ≤ 1)
    (hr : rateClass < 32) (hd : day ≤ 131071) (he : 1 ≤ edition) (hm : edition ≤ 16777215) (hl : loading ≤ 1) :
    pageFieldsOf p kind rateClass day edition loading =
      some (if kind = 0 then .page else .photo, decide (loading = 1)) := by
  unfold pageFieldsOf
  rw [if_pos ⟨hp, hr, hd, he, hm⟩, pageKindOf_code hk, flagOf_code hl]

theorem Store.loadsTooLate_iff (st : Store) (edition : Nat) :
    st.loadsTooLate edition = true ↔
      st.lastEdition < edition ∨ edition = st.lastEdition ∧ st.edition ≠ .none := by
  simp [Store.loadsTooLate]

/-! ### FINISH LOAD (R38) -/

/-- The version at the head of the chain becomes LOCKED if it is OPEN, and no other changes. -/
theorem lockHead_read_ite (versions : Table Version) (chain : List Nat) (n : Nat) :
    Table.read (lockHead versions chain) n =
      if chain.head? = some n then
        (Table.read versions n).map fun v => if v.lock = .openLock then { v with lock := .locked } else v
      else Table.read versions n := by
  rw [lockHead_read]
  split
  · next h => simp only [h, true_and]
  · next h => cases Table.read versions n <;> simp [h]

/-- FINISH LOAD with its checks passed: the page is LIVE, and the OPEN version at its head LOCKED. -/
theorem exec_finishLoad {s : State} {p : Nat} (h : s.Ready (.finishLoad p)) (hp : p < 65536)
    (hs : (s.store.page p).state = .loading) (hb : (s.store.page p).copies = 0) :
    exec (.finishLoad p) s = .next { s with
      store := { s.store with versions := lockHead s.store.versions (s.store.page p).chain }.setPage p
        { s.store.page p with state := .live }
      management := s.answered .ok [] } :=
  congrArg _ (State.take_ok h
    (u := s.setStore ({ s.store with versions := lockHead s.store.versions (s.store.page p).chain }.setPage p
      { s.store.page p with state := .live }))
    ((if_neg (Nat.not_le.2 hp)).trans ((if_neg (not_not.2 hs)).trans (if_neg (not_not.2 hb)))) rfl false)

/-! ### SET EMBARGO (R39) -/

theorem embargoOf_eq_none {day : Nat} (h : 131071 < day ∧ day ≠ 16777215) : embargoOf day = none := by
  unfold embargoOf
  exact (if_neg h.2).trans (if_neg (Nat.not_le.2 h.1))

theorem embargoOf_eq_some {day : Nat} (h : day ≤ 131071 ∨ day = 16777215) :
    embargoOf day = some (if day = 16777215 then none else some day) := by
  unfold embargoOf
  by_cases hd : day = 16777215
  · rw [if_pos hd]
    exact if_pos hd
  · rw [if_neg hd]
    exact (if_neg hd).trans (if_pos (h.resolve_right hd))

/-- Settles O42: for each command its checks in their order, and the one entry that it writes. -/
theorem directoryCommands : Obligations.DirectoryCommands := by
  intro p kind rateClass day edition loading s pg hpg
  subst hpg
  refine ⟨fun h => ⟨_, rfl, fun hr => ?_, fun hp hk hc hd he hm hl => ?_⟩,
    fun h => ⟨_, rfl, fun hp => ?_, fun hp hs => ?_, fun hp hs hb => ?_, fun hp hs hb => ?_⟩,
    fun h => ⟨_, rfl, fun hr => ?_, fun hp hd ha => ?_, fun hp hd ha => ?_⟩,
    fun h => ⟨_, rfl, fun hr => ?_, fun hp hc ha => ?_, fun hp hc ha => ?_⟩⟩
  · exact State.take_refused h (by rw [pageFieldsOf_eq_none hr]) false
  · have fields := pageFieldsOf_eq_some hp hk hc hd he hm hl
    refine ⟨fun hs => State.take_refused h (by rw [fields]; exact if_pos hs) false, fun hs hl ho => ?_, fun hs ho => ?_⟩
    · refine State.take_refused h ?_ false
      rw [fields]
      have late : (decide (loading = 1) && s.store.loadsTooLate edition) = true :=
        Bool.and_eq_true_iff.2 ⟨decide_eq_true hl, (s.store.loadsTooLate_iff edition).2 ho⟩
      exact (if_neg (not_not.2 hs)).trans (if_pos late)
    · refine State.take_setPage h ?_ false rfl
      rw [fields]
      have notLate : ¬ (decide (loading = 1) && s.store.loadsTooLate edition) = true := by
        rw [Bool.and_eq_true_iff, decide_eq_true_eq, s.store.loadsTooLate_iff]
        rintro ⟨hloading, hlate⟩
        obtain ⟨hle, hnone⟩ := ho.resolve_left (by omega)
        rcases hlate with hlt | ⟨heq, hopen⟩
        · omega
        · exact hopen (hnone heq)
      refine (if_neg (not_not.2 hs)).trans ((if_neg notLate).trans ?_)
      simp only [decide_eq_true_eq]
  · exact State.take_refused h (if_pos hp) false
  · exact State.take_refused h ((if_neg (Nat.not_le.2 hp)).trans (if_pos hs)) false
  · exact State.take_refused h ((if_neg (Nat.not_le.2 hp)).trans ((if_neg (not_not.2 hs)).trans (if_pos hb))) false
  · rw [Host.Outcome.next.inj (exec_finishLoad h hp hs hb)]
    exact ⟨Store.page_setPage_self _ _ _, fun q hq => (Store.page_setPage _ _ _ q).trans (if_neg hq),
      fun n => lockHead_read_ite _ _ n, rfl⟩
  · refine State.take_refused h ?_ false
    rcases hr with hp | hd
    · exact if_pos hp
    · rw [embargoOf_eq_none hd]
      exact ite_self _
  · refine State.take_refused h ?_ false
    rw [embargoOf_eq_some hd]
    exact (if_neg (Nat.not_le.2 hp)).trans (if_pos ha)
  · refine State.take_setPage h ?_ false rfl
    rw [embargoOf_eq_some hd]
    exact (if_neg (Nat.not_le.2 hp)).trans (if_neg ha)
  · exact State.take_refused h (if_pos hr) false
  · exact State.take_refused h ((if_neg (not_or.2 ⟨Nat.not_le.2 hp, Nat.not_le.2 hc⟩)).trans (if_pos ha)) false
  · exact State.take_setPage h ((if_neg (not_or.2 ⟨Nat.not_le.2 hp, Nat.not_le.2 hc⟩)).trans (if_neg ha)) false rfl

end Sys2Proof.Machine
end

section
/-! # DISCARD VERSION, READ PAGE and RETIRE PAGE (R41 to R45) -/

namespace Sys2Proof.Machine

/-! ### What the checks look at -/

/-- The store port holds an access to a store strip of the version (R41). -/
theorem Port.holdsVersion_iff (p : Port) (v : Version) :
    p.holdsVersion v = true ↔ ∃ i ∈ v.delta.map Prod.snd, p.holds i = true := by
  simp only [Port.holdsVersion, List.any_eq_true, List.mem_map, exists_exists_and_eq_and]

theorem Port.holdsVersion_eq_false {p : Port} {v : Version} (h : ∀ i ∈ v.delta.map Prod.snd, p.holds i = false) :
    ¬ p.holdsVersion v = true := by
  rw [Port.holdsVersion_iff]
  rintro ⟨i, hi, hp⟩
  rw [h i hi] at hp
  cases hp

/-- The chain holds an OPEN EDITION version (R43). -/
theorem Store.hasOpenEdition_iff (st : Store) (pg : Page) :
    st.hasOpenEdition pg = true ↔
      ∃ n ∈ pg.chain, ∃ v, Table.read st.versions n = some v ∧ v.lock = .openLock ∧ v.origin = .edition := by
  rw [Store.hasOpenEdition, List.any_eq_true]
  refine exists_congr fun n => and_congr_right fun _ => ?_
  cases Table.read st.versions n <;> simp

/-- The store port holds an access to a store strip of one of the page's versions (R43). -/
theorem State.portHoldsPage_iff (s : State) (pg : Page) :
    s.portHoldsPage pg = true ↔ ∃ n ∈ pg.chain, ∃ v, Table.read s.store.versions n = some v ∧
      ∃ i ∈ v.delta.map Prod.snd, s.port.holds i = true := by
  rw [State.portHoldsPage, List.any_eq_true]
  refine exists_congr fun n => and_congr_right fun _ => ?_
  cases Table.read s.store.versions n with
  | none => simp
  | some v => simp [Port.holdsVersion_iff]

/-! ### The effects -/

/-- The state after DISCARD VERSION's release, before a WAITING commit is looked at again (R42). -/
def State.discarded (s : State) (p n : Nat) : State :=
  s.setStore ((s.store.release n).setPage p
    { (s.store.release n).page p with chain := ((s.store.release n).page p).chain.filter (· != n) })

theorem State.discard_eq (s : State) (p n : Nat) : s.discard p n = (s.discarded p n).resumeCommit := rfl

/-- The version is released and leaves the chain, and nothing else changes (R42). -/
theorem State.discarded_spec {s : State} {n : Nat} {v : Version} (hv : Table.read s.store.versions n = some v) (p : Nat)
    {u : State} (hu : u = s.discarded p n) :
    s.store.Released u.store n v ∧
    u.store.page p = { s.store.page p with chain := (s.store.page p).chain.filter (· != n) } ∧
    (∀ q, q ≠ p → u.store.page q = s.store.page q) ∧
    u = { s with store := { s.store with
      pages := u.store.pages, versions := u.store.versions, strips := u.store.strips, freeQueue := u.store.freeQueue } } := by
  have page : ∀ q, u.store.page q =
      if q = p then { s.store.page p with chain := (s.store.page p).chain.filter (· != n) } else s.store.page q := by
    intro q
    rw [hu, State.discarded, State.setStore_store, Store.page_setPage, Store.page_release, Store.page_release]
  refine ⟨?_, (page p).trans (if_pos rfl), fun q hq => (page q).trans (if_neg hq), ?_⟩
  · subst hu
    exact (Store.release_spec hv).1
  · subst hu
    rw [State.discarded, s.store.release_frame n]
    rfl

/-- The state after RETIRE PAGE's releases, before a WAITING commit is looked at again (R44). -/
def State.retired (s : State) (p : Nat) : State :=
  (s.setStore (((s.store.page p).chain.foldl Store.release s.store).setPage p {})).setRestore { s.restore with
    records := match (s.store.page p).record with
      | some r => Table.remove s.restore.records r
      | none => s.restore.records }

theorem State.retire_eq (s : State) (p : Nat) : s.retire p = (s.retired p).resumeCommit := rfl

theorem State.retired_records (s : State) (p r : Nat) :
    Table.read (s.retired p).restore.records r =
      if (s.store.page p).record = some r then none else Table.read s.restore.records r := by
  unfold State.retired
  cases (s.store.page p).record with
  | none => rfl
  | some m =>
    refine (Table.read_remove s.restore.records m r).trans ?_
    simp [eq_comm]

/-- Beside the versions of its chain and its record, the page's entry alone changes (R44). -/
theorem State.retired_frame (s : State) (p : Nat) {u : State} (hu : u = s.retired p) :
    u.store.page p = {} ∧ (∀ q, q ≠ p → u.store.page q = s.store.page q) ∧
    u = { s with
      store := { s.store with
        pages := u.store.pages, versions := u.store.versions, strips := u.store.strips, freeQueue := u.store.freeQueue }
      restore := { s.restore with records := u.restore.records } } := by
  have frame := foldl_release_frame (s.store.page p).chain s.store
  have page : ∀ q, u.store.page q = if q = p then {} else s.store.page q := by
    intro q
    rw [hu]
    refine (Store.page_setPage _ _ _ _).trans ?_
    rw [frame]
    rfl
  refine ⟨(page p).trans (if_pos rfl), fun q hq => (page q).trans (if_neg hq), ?_⟩
  subst hu
  unfold State.retired
  rw [frame]
  rfl

/-- A command that ends with the look at a WAITING commit answers OK with the management link as it was (R95). -/
theorem State.take_resumed {s u : State} {c : Instr} {body : State → Reply} (h : s.Ready c)
    (hb : body s = u.resumeCommit.ok) (hm : u.management = s.management) (d : Bool) :
    s.take c d body = { u.resumeCommit with management := s.answered .ok [] } :=
  State.take_ok h hb (by simpa using hm) d

/-- A command answers by what its rule says of the state. -/
theorem State.take_congr {s : State} {c : Instr} {d : Bool} {body rule : State → Reply} (hb : body s = rule s) :
    s.take c d body = s.take c d rule := by
  unfold State.take
  rw [hb]

/-- The rule of DISCARD VERSION once the page and its version are found (R41, checks 3 to 5). -/
def State.discardFound (s : State) (p n : Nat) (v : Version) : Reply :=
  if v.lock ≠ .locked then s.refuse .state
  else if (s.store.page p).pins ≠ 0 ∨ (s.store.page p).committing = true then s.refuse .pinned
  else if (s.store.page p).copies ≠ 0 ∨ s.port.holdsVersion v = true then s.refuse .busy
  else (s.discard p n).ok

theorem exec_discardVersion_found {s : State} {p n : Nat} {v : Version} (hp : p < 65536) (hn : n < 8192)
    (ha : (s.store.page p).state ≠ .absent) (hv : Table.read s.store.versions n = some v) (hpage : v.page = p) :
    exec (.discardVersion p n) s = .next (s.take (.discardVersion p n) false fun s => s.discardFound p n v) := by
  refine congrArg _ (State.take_congr ?_)
  refine (if_neg (not_or.2 ⟨Nat.not_le.2 hp, Nat.not_le.2 hn⟩)).trans ((if_neg ha).trans ?_)
  rw [hv]
  exact if_neg (not_not.2 hpage)

/-! ### The commands -/

/-- Settles O43: the checks of DISCARD VERSION in their order and its effect; the report of READ PAGE. -/
theorem versionCommands : Obligations.VersionCommands := by
  intro p n s pg hpg
  subst hpg
  refine ⟨fun h => ⟨_, rfl, fun hr => ?_, fun hp hn => ⟨fun ha => ?_, fun v ha hv hpage => ?_⟩⟩,
    fun h => ⟨_, rfl, fun hp => ?_, fun hp version hversion => ?_⟩⟩
  · exact State.take_refused h (if_pos hr) false
  · refine State.take_refused h ((if_neg (not_or.2 ⟨Nat.not_le.2 hp, Nat.not_le.2 hn⟩)).trans ?_) false
    split
    · rfl
    · next hs =>
      split
      · rfl
      · next v hv => exact if_pos (ha.resolve_left hs v hv)
  · rw [Host.Outcome.next.inj (exec_discardVersion_found hp hn ha hv hpage)]
    refine ⟨fun hl => ?_, fun hl hpins => ?_, fun hl hpins hcommit hbusy => ?_, fun hl hpins hcommit hcopies hport => ?_⟩
    · exact State.take_refused h (if_pos hl) false
    · exact State.take_refused h ((if_neg (not_not.2 hl)).trans (if_pos hpins)) false
    · refine State.take_refused h ((if_neg (not_not.2 hl)).trans ((if_neg (by simp [hpins, hcommit])).trans (if_pos ?_))) false
      exact hbusy.imp id (s.port.holdsVersion_iff v).2
    · refine ⟨s.discarded p n, State.take_resumed (u := s.discarded p n) h ?_ rfl false, State.discarded_spec hv p rfl⟩
      refine (if_neg (not_not.2 hl)).trans ((if_neg (by simp [hpins, hcommit])).trans (if_neg ?_))
      exact not_or.2 ⟨not_not.2 hcopies, Port.holdsVersion_eq_false hport⟩
  · exact State.take_refused h (if_pos hp) false
  · refine (State.take_ready_eq h false _).trans ?_
    obtain rfl : version = s.store.versionFields := by
      funext m
      exact (hversion m).trans rfl
    rw [if_neg (Nat.not_le.2 hp)]
    show s.respond .ok (s.store.pageFields (s.store.page p)) = _
    rw [Store.pageFields]
    cases (s.store.page p).embargo <;> rfl

/-- Settles O44: the checks in their order; then the fold of the releases over a chain that holds no version twice. -/
theorem pageRetired : Obligations.PageRetired := by
  intro p s pg hpg h hc
  subst hpg
  refine ⟨_, rfl, fun hp => State.take_refused h (if_pos hp) false, fun hp => ⟨fun ha => ?_, fun ha => ⟨fun hopen => ?_,
    fun hopen => ?_⟩⟩⟩
  all_goals have hp := Nat.not_le.2 hp
  · exact State.take_refused h ((if_neg hp).trans (if_pos ha)) false
  · have hopen := (s.store.hasOpenEdition_iff (s.store.page p)).2 hopen
    exact State.take_refused h ((if_neg hp).trans ((if_neg ha).trans (if_pos hopen))) false
  · have hopen : ¬ s.store.hasOpenEdition (s.store.page p) = true := by
      rw [Store.hasOpenEdition_iff]
      rintro ⟨n, hn, v, hv, hlock, horigin⟩
      exact hopen n hn v hv hlock horigin
    refine ⟨fun hpins => ?_, fun hpins hcommit => ⟨fun hbusy => ?_, fun hcopies hport => ?_⟩⟩
    · exact State.take_refused h
        ((if_neg hp).trans ((if_neg ha).trans ((if_neg hopen).trans (if_pos hpins)))) false
    all_goals have hpins : ¬ ((s.store.page p).pins ≠ 0 ∨ (s.store.page p).committing = true) := by simp [hpins, hcommit]
    · refine State.take_refused h
        ((if_neg hp).trans ((if_neg ha).trans ((if_neg hopen).trans ((if_neg hpins).trans (if_pos ?_))))) false
      exact hbusy.imp id (s.portHoldsPage_iff _).2
    · obtain ⟨queue, gone, stay, -, freed, kept, -, -⟩ := foldl_release (s.store.page p).chain (hc.nodup p) s.store
      obtain ⟨hself, hothers, hframe⟩ := s.retired_frame p rfl
      refine ⟨s.retired p, State.take_resumed (u := s.retired p) h ?_ rfl false, queue, gone, stay, freed, kept, hself, hothers,
        s.retired_records p, hframe⟩
      refine (if_neg hp).trans ((if_neg ha).trans ((if_neg hopen).trans ((if_neg hpins).trans (if_neg ?_))))
      rintro (hx | hx)
      · exact hx hcopies
      · obtain ⟨n, hn, v, hv, i, hi, hheld⟩ := (s.portHoldsPage_iff _).1 hx
        rw [hport n hn v hv i hi] at hheld
        cases hheld

end Sys2Proof.Machine
end

section
/-! # Every command completes; power-on is sound; the build of the free strip queue (R48, R61, R149, R185) -/

namespace Sys2Proof.Machine

/-! ### Every command completes -/

/-- A command runs to a next state: none faults and none is refused (R61, R185). -/
theorem exec_completes (c : Instr) (s : State) : ∃ t, exec c s = .next t := by
  cases c <;> exact ⟨_, rfl⟩

/-- A command leaves the commands that wait behind it as they are. -/
theorem exec_pending {c : Instr} {s t : State} (e : exec c s = .next t) : t.pending = s.pending := by
  cases c with
  | powerOn | resetPinAssert => cases e; rfl
  | managementTransactionStart | commandFrame | responseTransaction | otherTransaction =>
    cases e
    try dsimp only
    (repeat' split) <;> simp
  | initBuildAppend | lineRead | lineWrite | readDecode | writeDisposal | archiveLinkDown | archiveLinkUp | readDataStart
  | readDataEnd | copySegmentIssue | commitSegmentIssue | arbiterIssue | quietTimerExpiry | agingClockExpiry
  | bankOpenStart | rowCycleExpiry | openDelayExpiry | bankCloseStart | minimumOpenExpiry | writeRecoveryExpiry
  | closeDelayExpiry | turnaroundExpiry | transferStart | transferEnd =>
    cases e
    refine State.live_keeps (P := fun u => u.pending = s.pending) rfl fun _ => ?_
    try dsimp only
    (repeat' split) <;> simp
  | readFaults =>
    cases e
    exact State.take_keeps (P := fun u => u.pending = s.pending) rfl (fun _ _ _ h => h) fun _ _ => rfl
  | _ =>
    cases e
    refine State.take_keeps (P := fun u => u.pending = s.pending) rfl (fun _ _ _ h => h) fun _ _ => ?_
    try dsimp only
    (repeat' split) <;> simp

/-- Settles O2: each command has a next state with the same queue; on an empty queue a step lets 1 ns pass. -/
theorem everyStepCompletes : Obligations.EveryStepCompletes := by
  refine fun s => ⟨fun c => ?_, fun h => ?_⟩
  · obtain ⟨t, e⟩ := exec_completes c s
    exact ⟨t, e, exec_pending e⟩
  · unfold step
    split
    · rfl
    · next hc => exact nomatch h.symm.trans hc

/-! ### Power-on -/

/-- The block right after power-on with the given pins. The time, the count of power-ons, the counts of the model's free
choices and the waiting commands go on from before. -/
def State.poweredOn (pins : Fin 4) (now powerOns occasions tests : Nat) (commands : List Instr) : State :=
  { State.powerOn (Config.stripsOfPins pins) now powerOns with
    restore := { occasions := occasions }
    store := { reserve := Config.stripsOfPins pins / 16, closingTests := tests }
    pending := commands }

theorem exec_powerOn (pins : Fin 4) (s : State) : exec (.powerOn pins) s =
    .next (.poweredOn pins s.chip.now (s.chip.powerOns + 1) s.restore.occasions s.store.closingTests s.pending) := rfl

/-- A meter as power-on leaves it: every account CLOSED with its figures 0 and every job FREE (R105, R113). -/
theorem Meter.kept_empty : Meter.Kept {} where
  solvent _ := ⟨rfl, Nat.zero_le _, Nat.two_pow_pos 64⟩
  sets _ := Job.setKept_empty rfl rfl
  counted _ := rfl
  closed _ _ := rfl
  free _ _ := rfl
  numbered _ _ := rfl

/-- With the link down and every queue empty the traffic is kept (R9, R149). -/
theorem TrafficKept.empty (quiet : QuietTimer) : TrafficKept {} [] { quiet := quiet } where
  buffer := Nat.zero_le _
  credits := nofun
  carried := Nat.zero_le _
  issued := Nat.zero_le _
  engine := nofun
  tags _ := rfl
  order _ := rfl
  sending _ := rfl
  arriving _ := rfl
  queued _ := nofun
  started _ := nofun

theorem State.poweredOn_sound (pins : Fin 4) (now powerOns occasions tests : Nat) (commands : List Instr) :
    (State.poweredOn pins now powerOns occasions tests commands).Sound :=
  (State.sound_iff _).2 ⟨TrafficKept.empty _, ⟨nofun, fun _ => rfl, nofun⟩, Meter.kept_empty, ChargeLog.kept_of_nil rfl,
    (State.powerOn_settingsInRange _ now powerOns).congr rfl, .of_init ⟨pins, rfl⟩ rfl rfl rfl rfl rfl,
    ⟨Nat.zero_le _, Nat.zero_le _, trivial⟩, fun _ _ h => (nomatch h), Nat.zero_le _, Table.wf_nil⟩

/-- Settles O57: the state after reset is that after power-on with the pins at 0. -/
theorem resetIsSound : Obligations.ResetIsSound := by
  refine ⟨State.poweredOn_sound 0 0 0 0 0 [], fun pins s t e => ?_⟩
  rw [exec_powerOn] at e
  cases e
  exact State.poweredOn_sound ..

/-! ### The build of the free strip queue (R48) -/

theorem exec_initBuildAppend {s : State} (hp : s.chip.resetPin = false) (hi : s.chip.inInit = true) :
    exec .initBuildAppend s = .next
      (if s.store.freeQueue.length + 1 < s.chip.strips then
        { s with store := { s.store with freeQueue := s.store.freeQueue ++ [s.store.freeQueue.length] } }
      else { s with
        chip := { s.chip with inInit := false }
        store := { s.store with freeQueue := s.store.freeQueue ++ [s.store.freeQueue.length] }
        reports := { s.reports with statuses := { s.reports.statuses with initDone := true } } }) := by
  refine congrArg _ ((State.live_released hp _).trans ((if_pos hi).trans ?_))
  by_cases h : s.store.freeQueue.length + 1 < s.chip.strips
  · exact (if_neg (Nat.not_le.2 h)).trans (if_pos h).symm
  · exact (if_pos (Nat.not_lt.1 h)).trans (if_neg h).symm

/-- After power-on with `n` strips and `k` appends of the build. -/
def State.built (n now k : Nat) : State :=
  { State.powerOn n now 0 with
    chip := { now := now, strips := n, inInit := decide (k < n) }
    store := { reserve := n / 16, freeQueue := List.range k }
    reports := { statuses := { initDone := decide (k = n) } } }

/-- The build begins with an empty queue. -/
theorem State.built_zero {n : Nat} (hn : 0 < n) (now : Nat) : State.built n now 0 = State.powerOn n now 0 := by
  simp [State.built, State.powerOn, hn, hn.ne]

/-- An append goes on with the build; the last one ends it. -/
theorem exec_initBuildAppend_built {n k : Nat} (hk : k < n) (now : Nat) :
    exec .initBuildAppend (State.built n now k) = .next (State.built n now (k + 1)) := by
  rw [exec_initBuildAppend rfl (decide_eq_true hk)]
  have hlength : (State.built n now k).store.freeQueue.length = k := List.length_range
  have hqueue : (State.built n now k).store.freeQueue ++ [k] = List.range (k + 1) := List.range_succ.symm
  rw [hlength, hqueue]
  by_cases h : k + 1 < n
  · rw [if_pos (show k + 1 < (State.built n now k).chip.strips from h)]
    simp [State.built, h, hk, hk.ne, h.ne]
  · obtain rfl : k + 1 = n := by omega
    rw [if_neg (show ¬ k + 1 < (State.built (k + 1) now k).chip.strips from h)]
    simp [State.built]

theorem runAll_initBuildAppend {n i k : Nat} (h : i + k ≤ n) (now : Nat) :
    runAll (List.replicate k .initBuildAppend) (State.built n now i) = some (State.built n now (i + k)) := by
  induction k generalizing i with
  | zero => rfl
  | succ k ih =>
    rw [List.replicate_succ, runAll, exec_initBuildAppend_built (by omega)]
    exact (ih (by omega)).trans (by rw [Nat.add_right_comm, Nat.add_assoc])

/-- Settles O5: one append by its branches, and the build by induction on the number of appends. -/
theorem initBuildsQueue : Obligations.InitBuildsQueue := by
  refine ⟨fun s hp => ⟨fun hi => ?_, fun hi => ⟨_, exec_initBuildAppend hp hi, ?_⟩⟩, fun pins now k _ hk => ?_⟩
  · exact congrArg _ ((State.live_released hp _).trans (if_neg (by simp [hi])))
  · by_cases h : s.store.freeQueue.length + 1 < s.chip.strips
    · rw [if_pos h, if_pos h]
      exact ⟨rfl, rfl⟩
    · rw [if_neg h, if_neg h]
      exact ⟨rfl, rfl⟩
  · have hrun := runAll_initBuildAppend (i := 0) ((Nat.zero_add k).trans_le hk) now
    rw [State.built_zero (by positivity), Nat.zero_add] at hrun
    exact ⟨_, hrun, rfl, rfl, rfl, rfl⟩

end Sys2Proof.Machine
end

section
/-! # Write disposal to a strip that the OPEN head holds (R57, R64, R68) -/

namespace Sys2Proof.Machine

section
variable {s : State} {w : HostWrite} {rest : List HostWrite} {kind : ApertureKind} {k : Key} {v : Version} {strip : Nat}

/-- The sixth check finds the strip that the OPEN head holds (R57). -/
theorem exec_writeDisposal_held (ha : s.Attempted w rest) (hp : s.Passes w kind) (he : w.enables ≠ 0)
    (hk : k = addressKey w.address) (hv : s.store.head k.page = some v) (hl : v.lock = .openLock)
    (hd : Table.read v.delta k.strip = some strip) : exec .writeDisposal s = .next (s.disposeHeld w strip) := by
  subst hk
  have htarget : s.disposeTarget w kind = s.disposeHeld w strip := by
    unfold State.disposeTarget
    dsimp only
    rw [if_neg he, hv]
    simp only [hl, hd, decide_true]
  exact (execWriteDisposal_of_attempted ha).trans (congrArg _ ((State.disposeHead_of_passes hp).1.trans htarget))

theorem State.disposeHeld_ready {o i : Nat} (h : Table.read s.store.strips strip = some ⟨.ready, o, i⟩) (w : HostWrite) :
    s.disposeHeld w strip = s.carryHead w strip := by
  rw [State.disposeHeld, h]

/-- A write for a FILLING strip is held, when the hold queue has a place (R57, R64). -/
theorem State.disposeHeld_holds {j : Fin 4} {o i : Nat} {c : Copy}
    (h : Table.read s.store.strips strip = some ⟨.filling (.slot j), o, i⟩) (hc : Table.read s.store.copies j.val = some c)
    (hr : s.store.holdQueue.length < 16) (w : HostWrite) :
    s.disposeHeld w strip = s.holdHead w j strip (decide (c.nextLine = 1024)) := by
  have hfree : s.store.holdFree = true := decide_eq_true hr
  rw [State.disposeHeld, h]
  dsimp only
  rw [hc, hfree]
  rfl

/-- A write for a FILLING strip waits while the hold queue is full (R57). -/
theorem State.disposeHeld_waits {j : Fin 4} {o i : Nat}
    (h : Table.read s.store.strips strip = some ⟨.filling (.slot j), o, i⟩) (hr : 16 ≤ s.store.holdQueue.length)
    (w : HostWrite) : s.disposeHeld w strip = s.headWaits := by
  rw [State.disposeHeld, h]
  dsimp only
  rw [Store.holdFree_eq_false hr]
  split
  · next hf => cases hf
  · rfl

/-- A write that is carried joins the link-side queue and leaves the buffer (R57, R156). -/
theorem State.carryHead_spec (h : s.link.writeBuffer = w :: rest) (strip : Nat) :
    s.HeadLeft (s.carryHead w strip) rest ∧ s.carryHead w strip = { s with
      link := (s.carryHead w strip).link
      port := s.port.joinLink (.lineWrite strip (addressKey w.address).line w.data w.enables none) } :=
  ⟨(State.headLeaves_spec (s := s.setPort (s.port.joinLink
    (.lineWrite strip (addressKey w.address).line w.data w.enables none))) h).1, rfl⟩

/-- A write that is held when its slot has written its last segment is released at once (R64). -/
theorem State.holdHead_released_spec (h : s.link.writeBuffer = w :: rest) (j : Fin 4) (strip : Nat) :
    s.HeadLeft (s.holdHead w j strip true) rest ∧ s.holdHead w j strip true = { s with
      link := (s.holdHead w j strip true).link
      store := { s.store with holdQueue := s.store.holdQueue ++ [⟨w, j, true⟩] }
      port := s.port.joinLink (.lineWrite strip (addressKey w.address).line w.data w.enables (some j)) } :=
  ⟨(State.headLeaves_spec (s := (s.setStore { s.store with holdQueue := s.store.holdQueue ++ [⟨w, j, true⟩] }).setPort
    (s.port.joinLink (.lineWrite strip (addressKey w.address).line w.data w.enables (some j)))) h).1, rfl⟩

end

/-- Settles O19: the head is carried, held (released or not by the slot's next line) or waits. -/
theorem disposalToHeldStrip : Obligations.DisposalToHeldStrip := by
  intro s w rest kind k v strip ha hp he hk hv hl hd
  rw [exec_writeDisposal_held ha hp he hk hv hl hd]
  have hbuffer := ha.2.1
  subst hk
  refine ⟨fun o i h => ?_, fun j o i c h hc => ⟨fun hr => ?_, fun hr => ?_⟩⟩
  · rw [State.disposeHeld_ready h]
    obtain ⟨hleft, hframe⟩ := State.carryHead_spec hbuffer strip
    exact ⟨_, rfl, hleft, rfl, hframe⟩
  · rw [State.disposeHeld_holds h hc hr]
    by_cases hn : c.nextLine = 1024
    · rw [decide_eq_true hn]
      obtain ⟨hleft, hframe⟩ := State.holdHead_released_spec hbuffer j strip
      exact ⟨_, rfl, hleft, rfl, fun _ => rfl, fun h => absurd hn h, hframe⟩
    · rw [decide_eq_false hn]
      obtain ⟨hleft, hframe⟩ := State.holdHead_spec hbuffer j strip
      exact ⟨_, rfl, hleft, rfl, fun h => absurd h hn, fun _ => rfl, hframe⟩
  · rw [State.disposeHeld_waits h hr]
    rfl

end Sys2Proof.Machine
end

section
/-! # The engine's requests and the order of the engine-side queue (R63, R97, R154, R157) -/

namespace Sys2Proof.Machine

/-! ### The order of the engine-side queue (R154) -/

/-- A request takes one place in the queue, and the others keep theirs. -/
theorem insertRequest_split (order : List (Fin 4)) (a : Access) (queue : List Access) :
    ∃ front back, queue = front ++ back ∧ insertRequest order a queue = front ++ a :: back := by
  induction queue with
  | nil => exact ⟨[], [], rfl, rfl⟩
  | cons b queue ih =>
    by_cases h : a.rank order < b.rank order
    · exact ⟨[], b :: queue, rfl, if_pos h⟩
    · obtain ⟨front, back, hq, hi⟩ := ih
      exact ⟨b :: front, back, congrArg _ hq, (if_neg h).trans (congrArg _ hi)⟩

/-- The ranks that are at most the number of slots in start order are those of the slots' requests. -/
theorem Access.rank_le_iff (order : List (Fin 4)) (a : Access) :
    a.rank order ≤ order.length ↔ ∃ i, a.engine = some (.slot i) := by
  unfold Access.rank
  cases a.engine with
  | none => simp
  | some e =>
    cases e with
    | slot k => simpa [engineRank] using List.idxOf_le_length
    | sequencer => simp [engineRank]

theorem Access.rank_of_slot (order : List (Fin 4)) {a : Access} {i : Fin 4} (h : a.engine = some (.slot i)) :
    a.rank order = order.idxOf i := by
  rw [Access.rank, h]
  rfl

/-- The queue is ordered when no request stands behind one of a greater rank, the ranks of slots alone compared. -/
theorem requestsOrdered_iff (order : List (Fin 4)) (queue : List Access) :
    RequestsOrdered order queue ↔
      queue.Pairwise fun x y => y.rank order ≤ order.length → x.rank order ≤ y.rank order := by
  have key : ∀ x y : Access, (∀ j, y.engine = some (.slot j) →
      ∃ i, x.engine = some (.slot i) ∧ order.idxOf i ≤ order.idxOf j) ↔
        (y.rank order ≤ order.length → x.rank order ≤ y.rank order) := by
    refine fun x y => ⟨fun h hy => ?_, fun h j hj => ?_⟩
    · obtain ⟨j, hj⟩ := (y.rank_le_iff order).1 hy
      obtain ⟨i, hi, hle⟩ := h j hj
      rwa [Access.rank_of_slot order hi, Access.rank_of_slot order hj]
    · have hy := (y.rank_le_iff order).2 ⟨j, hj⟩
      obtain ⟨i, hi⟩ := (x.rank_le_iff order).1 ((h hy).trans hy)
      exact ⟨i, hi, by simpa only [Access.rank_of_slot order hi, Access.rank_of_slot order hj] using h hy⟩
  simp only [RequestsOrdered, key]

/-- A request that takes its place keeps the order. -/
theorem RequestsOrdered.insertRequest {order : List (Fin 4)} {queue : List Access} (h : RequestsOrdered order queue)
    (a : Access) : RequestsOrdered order (insertRequest order a queue) := by
  rw [requestsOrdered_iff] at h ⊢
  induction queue with
  | nil => exact List.pairwise_singleton _ _
  | cons b queue ih =>
    obtain ⟨hb, hqueue⟩ := List.pairwise_cons.1 h
    by_cases hr : a.rank order < b.rank order
    · rw [Machine.insertRequest, if_pos hr]
      refine List.pairwise_cons.2 ⟨fun y hy hle => ?_, h⟩
      rcases List.mem_cons.1 hy with rfl | hy
      · exact hr.le
      · exact hr.le.trans (hb y hy hle)
    · rw [Machine.insertRequest, if_neg hr]
      refine List.pairwise_cons.2 ⟨fun y hy hle => ?_, ih hqueue⟩
      rcases mem_insertRequest hy with rfl | hy
      · exact Nat.not_lt.1 hr
      · exact hb y hy hle

/-! ### The issue of a slot's segment (R63) -/

theorem exec_copySegmentIssue {s : State} {k : Fin 4} {c : Copy} (hp : s.chip.resetPin = false)
    (hc : Table.read s.store.copies k.val = some c) (hphase : c.phase = .none) (hblocked : c.blocked = false)
    (hline : c.nextLine < 1024) : exec (.copySegmentIssue k) s = .next (s.issueCopy k c) := by
  refine congrArg _ ((State.live_released hp _).trans ?_)
  rw [hc]
  exact if_pos ⟨hphase, hblocked, hline⟩

/-- Slot `k`'s record is `c` in `t`, and the port apart nothing else differs from `s`. -/
structure State.SlotWritten (s t : State) (k : Fin 4) (c : Copy) : Prop where
  written : Table.read t.store.copies k.val = some c
  others : ∀ j, j ≠ k.val → Table.read t.store.copies j = Table.read s.store.copies j
  store : t.store = { s.store with copies := t.store.copies }
  frame : t = { s with store := t.store, port := t.port }

theorem State.setCopy_slotWritten (s : State) (k : Fin 4) (c : Copy) : s.SlotWritten (s.setCopy k c) k c where
  written := (s.read_setCopy k c _).trans (if_pos rfl)
  others j hj := (s.read_setCopy k c j).trans (if_neg hj)
  store := rfl
  frame := rfl

/-- A request that joins the engine-side queue leaves the slots alone. -/
theorem State.SlotWritten.joinEngine {s t : State} {k : Fin 4} {c : Copy} (h : s.SlotWritten t k c) (a : Access) :
    s.SlotWritten (t.joinEngine a) k c where
  written := h.written
  others := h.others
  store := h.store
  frame := congrArg (·.setPort (t.joinEngine a).port) h.frame

section
variable {s : State} {k : Fin 4} {c : Copy}

theorem State.issueCopy_blank (hs : c.source = none) : s.issueCopy k c =
    (s.setCopy k { c with phase := .write }).joinEngine
      (.writeSegment (.slot k) c.target c.nextLine (List.replicate 256 255) false) := by
  rw [State.issueCopy, hs]
  rfl

theorem State.issueCopy_held {src : Nat} {bytes : List Byte} (hs : c.source = some src) (hh : c.held = some bytes) :
    s.issueCopy k c = (s.setCopy k { c with phase := .write, held := none }).joinEngine
      (.writeSegment (.slot k) c.target c.nextLine bytes false) := by
  rw [State.issueCopy, hs, hh]

theorem State.issueCopy_waits {src : Nat} (hs : c.source = some src) (hh : c.held = none)
    (hl : s.port.linkWrites src c.nextLine = true) : s.issueCopy k c = s.setCopy k { c with blocked := true } := by
  rw [State.issueCopy, hs, hh]
  exact if_pos hl

theorem State.issueCopy_reads {src : Nat} (hs : c.source = some src) (hh : c.held = none)
    (hl : s.port.linkWrites src c.nextLine = false) : s.issueCopy k c =
      (s.setCopy k { c with phase := .read }).joinEngine (.readSegment (.slot k) src c.nextLine false) := by
  rw [State.issueCopy, hs, hh]
  exact if_neg (by simp [hl])

end

/-! ### The issue of the sequencer's segment (R94, R97) -/

theorem exec_commitSegmentIssue {s : State} (hp : s.chip.resetPin = false) : exec .commitSegmentIssue s = .next
    (if s.restore.sequencer.state ≠ .running then s
    else if s.restore.sequencer.inProgress = false then s.examine
    else if s.restore.sequencer.phase = .none ∧ s.restore.sequencer.blocked = false then s.issueCommit
    else s) := congrArg _ (State.live_released hp _)

section
variable {s : State}

theorem State.issueCommit_held {bytes : List Byte} (hh : s.restore.sequencer.held = some bytes) : s.issueCommit =
    (s.setSequencer { s.restore.sequencer with phase := .write, held := none }).joinEngine
      (.writeSegment .sequencer s.restore.sequencer.target s.restore.sequencer.nextLine bytes false) := by
  unfold State.issueCommit
  dsimp only
  rw [hh]

theorem State.issueCommit_waits (hh : s.restore.sequencer.held = none)
    (hl : s.port.linkWrites s.restore.sequencer.source s.restore.sequencer.nextLine = true) :
    s.issueCommit = s.setSequencer { s.restore.sequencer with blocked := true } := by
  unfold State.issueCommit
  dsimp only
  rw [hh]
  exact if_pos hl

theorem State.issueCommit_reads (hh : s.restore.sequencer.held = none)
    (hl : s.port.linkWrites s.restore.sequencer.source s.restore.sequencer.nextLine = false) : s.issueCommit =
      (s.setSequencer { s.restore.sequencer with phase := .read }).joinEngine
        (.readSegment .sequencer s.restore.sequencer.source s.restore.sequencer.nextLine false) := by
  unfold State.issueCommit
  dsimp only
  rw [hh]
  exact if_neg (by simp [hl])

end

/-- Settles O23: the place of a request, the branches of a slot's issue, those of the sequencer's, and its other cases. -/
theorem segmentsIssue : Obligations.SegmentsIssue := by
  refine ⟨fun order a queue => ⟨insertRequest_split order a queue, fun h => h.insertRequest a⟩,
    fun k c s hp hc hphase hblocked hline => ?_, fun q s hp hq hrun hi hphase hblocked => ?_, fun q s hp hq => ?_⟩
  · rw [exec_copySegmentIssue hp hc hphase hblocked hline]
    obtain hs | ⟨src, hs⟩ := Option.eq_none_or_eq_some c.source
    · obtain ⟨written, others, store, frame⟩ := (s.setCopy_slotWritten k { c with phase := .write }).joinEngine
        (.writeSegment (.slot k) c.target c.nextLine (List.replicate 256 255) false)
      rw [State.issueCopy_blank hs]
      exact ⟨_, _, rfl, written, others, store, fun _ => ⟨rfl, State.joinEngine_spec _ _⟩,
        fun _ _ hx => (nomatch hs.symm.trans hx), fun _ hx => (nomatch hs.symm.trans hx), frame⟩
    · obtain hh | ⟨bytes, hh⟩ := Option.eq_none_or_eq_some c.held
      · cases hl : s.port.linkWrites src c.nextLine with
        | true =>
          obtain ⟨written, others, store, frame⟩ := s.setCopy_slotWritten k { c with blocked := true }
          rw [State.issueCopy_waits hs hh hl]
          refine ⟨_, _, rfl, written, others, store, fun hx => (nomatch hs.symm.trans hx),
            fun _ _ _ hx => (nomatch hh.symm.trans hx), fun x hx _ => ?_, frame⟩
          obtain rfl := Option.some.inj (hs.symm.trans hx)
          exact ⟨fun _ => ⟨rfl, rfl⟩, fun h => (nomatch hl.symm.trans h)⟩
        | false =>
          obtain ⟨written, others, store, frame⟩ := (s.setCopy_slotWritten k { c with phase := .read }).joinEngine
            (.readSegment (.slot k) src c.nextLine false)
          rw [State.issueCopy_reads hs hh hl]
          refine ⟨_, _, rfl, written, others, store, fun hx => (nomatch hs.symm.trans hx),
            fun _ _ _ hx => (nomatch hh.symm.trans hx), fun x hx _ => ?_, frame⟩
          obtain rfl := Option.some.inj (hs.symm.trans hx)
          exact ⟨fun h => (nomatch hl.symm.trans h), fun _ => ⟨rfl, State.joinEngine_spec _ _⟩⟩
      · obtain ⟨written, others, store, frame⟩ := (s.setCopy_slotWritten k { c with phase := .write, held := none }).joinEngine
          (.writeSegment (.slot k) c.target c.nextLine bytes false)
        rw [State.issueCopy_held hs hh]
        refine ⟨_, _, rfl, written, others, store, fun hx => (nomatch hs.symm.trans hx), fun _ x _ hx => ?_,
          fun _ _ hx => (nomatch hh.symm.trans hx), frame⟩
        obtain rfl := Option.some.inj (hh.symm.trans hx)
        exact ⟨rfl, State.joinEngine_spec _ _⟩
  · subst hq
    rw [exec_commitSegmentIssue hp, if_neg (not_not.2 hrun), if_neg (by simp [hi]), if_pos ⟨hphase, hblocked⟩]
    refine ⟨_, rfl, fun bytes hh => ?_, fun hh => ⟨fun hl => ?_, fun hl => ?_⟩, ?_⟩
    · rw [State.issueCommit_held hh]
      exact ⟨rfl, State.joinEngine_spec _ _⟩
    · rw [State.issueCommit_waits hh hl]
      exact ⟨rfl, rfl⟩
    · rw [State.issueCommit_reads hh hl]
      exact ⟨rfl, State.joinEngine_spec _ _⟩
    · unfold State.issueCommit
      dsimp only
      split
      · rfl
      · split <;> rfl
  · subst hq
    rw [exec_commitSegmentIssue hp]
    refine ⟨fun hrun hi => ?_, fun h => congrArg _ ?_⟩
    · rw [if_neg (not_not.2 hrun), if_pos hi]
    · rcases h with hrun | ⟨hi, hbusy⟩
      · rw [if_pos hrun]
      · have hidle : ¬ (s.restore.sequencer.phase = .none ∧ s.restore.sequencer.blocked = false) := by
          rintro ⟨hphase, hblocked⟩
          simp [hphase, hblocked] at hbusy
        rw [if_neg hidle]
        simp [hi]

end Sys2Proof.Machine
end

section
/-! # The end of a transfer: the port, the bytes written and the waits it ends (R151, R157, R160 to R162, R168) -/

namespace Sys2Proof.Machine

/-! ### The bank machine (R160, R162) -/

theorem Bank.endTransfer_frame (b : Bank) (a : Access) (rest : List Access) (t : StoreTiming) (policy : PagePolicy)
    (now : Nat) {e : Bank} (he : e = b.endTransfer a rest t policy now) :
    e = { b with lastWrite := e.lastWrite, closeDue := e.closeDue, writeRecoveryUntil := e.writeRecoveryUntil } := by
  subst he
  unfold Bank.endTransfer
  cases a.direction <;> rfl

theorem Bank.endTransfer_write (b : Bank) {a : Access} (h : a.direction = .write) (rest : List Access) (t : StoreTiming)
    (policy : PagePolicy) (now : Nat) : (b.endTransfer a rest t policy now).lastWrite = some now ∧
      (b.endTransfer a rest t policy now).writeRecoveryUntil = now + t.writeRecovery := by
  unfold Bank.endTransfer
  rw [h]
  exact ⟨rfl, rfl⟩

theorem Bank.endTransfer_read (b : Bank) {a : Access} (h : a.direction = .read) (rest : List Access) (t : StoreTiming)
    (policy : PagePolicy) (now : Nat) : (b.endTransfer a rest t policy now).lastWrite = b.lastWrite ∧
      (b.endTransfer a rest t policy now).writeRecoveryUntil = b.writeRecoveryUntil := by
  unfold Bank.endTransfer
  rw [h]
  exact ⟨rfl, rfl⟩

/-- Under CLOSE AFTER a close becomes due unless the bank's next access is for the same row (R160). -/
theorem Bank.endTransfer_closeDue (b : Bank) (a : Access) (rest : List Access) (t : StoreTiming) (policy : PagePolicy)
    (now : Nat) : (b.endTransfer a rest t policy now).closeDue =
      if b.closeDue = .none ∧ policy = .closeAfter ∧ nextForRow a rest = false then .byTransfer else b.closeDue := by
  unfold Bank.endTransfer
  cases a.direction <;> rfl

/-! ### The port (R157, R161, R168) -/

theorem Port.allIdle_iff (p : Port) : p.allIdle = true ↔ ∀ b, b < 8 → (p.bank b).state = .idle := by
  simp [Port.allIdle]

/-- The aging clock restarts when no engine segment is left in progress and the engine-side queue is not empty (R157;
assumption 25). -/
theorem Port.endTransfer_aging (p : Port) (now : Nat) (a : Access) (rest : List Access) :
    (p.endTransfer now a rest).aging =
      if a.isSegment = true ∧ rest.any Access.isSegment = false ∧ p.engineQueue ≠ [] then .running now else p.aging := by
  have hcond : (a.isSegment && !rest.any Access.isSegment && !p.engineQueue.isEmpty) = true ↔
      a.isSegment = true ∧ rest.any Access.isSegment = false ∧ p.engineQueue ≠ [] := by
    simp [and_assoc]
  rw [← if_congr hcond rfl rfl]
  unfold Port.endTransfer
  dsimp only
  split
  · next h => exact (if_pos h).symm
  · next h => exact (if_neg h).symm

/-- The closing after an engine reset is over when the issue list is empty and all banks are IDLE (R168). -/
theorem Port.endTransfer_resetClosing (p : Port) (now : Nat) (a : Access) (rest : List Access) :
    (p.endTransfer now a rest).resetClosing = true ↔
      p.resetClosing = true ∧ (rest ≠ [] ∨ ∃ b, b < 8 ∧ ((p.endTransfer now a rest).bank b).state ≠ .idle) := by
  have hidle : (p.endTransfer now a rest).resetClosing =
      (p.resetClosing && !(rest.isEmpty && (p.endTransfer now a rest).allIdle)) := by
    unfold Port.endTransfer
    dsimp only
    split <;> rfl
  rw [hidle]
  have hall : (p.endTransfer now a rest).allIdle = false ↔ ∃ b, b < 8 ∧ ((p.endTransfer now a rest).bank b).state ≠ .idle := by
    simp [← Bool.not_eq_true, Port.allIdle_iff]
  simp [← hall]

/-- What the end of a transfer leaves of the port. -/
theorem Port.endTransfer_rest (p : Port) (now : Nat) (a : Access) (rest : List Access) {q : Port}
    (hq : q = p.endTransfer now a rest) : q = { p with
      issueList := rest, transferring := false, lastDirection := some a.direction, turnaroundUntil := q.turnaroundUntil
      banks := q.banks, aging := q.aging, resetClosing := q.resetClosing } := by
  subst hq
  unfold Port.endTransfer
  dsimp only
  split <;> rfl

/-! ### What the access hands on (R63, R97, R151, R162) -/

/-- The bytes after an access has been carried out: a line write stores the enabled bytes of its line, a write segment all its
bytes, and every other byte reads as before (R151). -/
theorem State.read_carryOut (s : State) (a : Access) (i : Nat) : Memory.read (s.carryOut a).memory i =
    match a with
    | .lineRead .. => Memory.read s.memory i
    | .readSegment .. => Memory.read s.memory i
    | .lineWrite strip line data enables _ =>
      if lineAddress strip line ≤ i ∧ i < lineAddress strip line + data.length ∧
          enables.getLsbD (i - lineAddress strip line) = true then data[i - lineAddress strip line]?
      else Memory.read s.memory i
    | .writeSegment _ strip line data _ =>
      if lineAddress strip line ≤ i ∧ i < lineAddress strip line + data.length then data[i - lineAddress strip line]?
      else Memory.read s.memory i := by
  rw [State.carryOut_memory]
  cases a with
  | lineRead => rfl
  | readSegment => rfl
  | lineWrite strip line data enables holder =>
    have h := Memory.read_storeEnabled s.memory (lineAddress strip line) 0 enables data i
    rw [Nat.add_zero] at h
    exact h
  | writeSegment engine strip line data dropped => exact Memory.read_store s.memory (lineAddress strip line) data i

/-- A line read whose bytes are discarded, or a read segment whose result is not used, hands nothing on (R8, R22, R104,
R168). -/
theorem State.carryOut_dropped (s : State) (a : Access)
    (h : (∃ t r l e, a = .lineRead t r l e true) ∨ ∃ g r l, a = .readSegment g r l true) : s.carryOut a = s := by
  rcases h with ⟨t, r, l, e, rfl⟩ | ⟨g, r, l, rfl⟩
  · rfl
  · rfl

@[simp] theorem State.testClosing_copies (s : State) : s.testClosing.store.copies = s.store.copies := by
  rcases s.testClosing_cases with h | ⟨-, h⟩ <;> rw [h]

@[simp] theorem State.testClosingDue_copies (s : State) : s.testClosingDue.store.copies = s.store.copies := by
  obtain ⟨u, rfl, h | h⟩ := s.testClosingDue_cases <;> rw [h]
  rw [State.testClosing_copies]

/-- A held write that has been carried out frees its slot or leaves the slots alone (R64, R65). -/
theorem State.copies_heldCarriedOut (s : State) (k : Fin 4) : (s.heldCarriedOut k).store.copies = s.store.copies ∨
    (s.heldCarriedOut k).store.copies = Table.remove s.store.copies k.val := by
  unfold State.heldCarriedOut
  dsimp only
  split
  · exact .inl rfl
  · split
    · exact .inr (State.testClosingDue_copies _)
    · exact .inl rfl

/-- The end of a line write's waits: no slot and not the sequencer is blocked any more (R63, R97). -/
theorem State.read_copies_unblock (s : State) (j : Nat) :
    Table.read s.unblock.store.copies j = (Table.read s.store.copies j).map fun c => { c with blocked := false } := by
  have h := Table.read_map s.store.copies (fun _ (c : Copy) => { c with blocked := false }) j
  exact h

/-- What the end of a line write does to the waits of the slots and the sequencer (R63, R97). -/
theorem State.carryOut_lineWrite (s : State) (strip line : Nat) (data : List Byte) (enables : Enables)
    (holder : Option (Fin 4)) {t : State} (ht : t = s.carryOut (.lineWrite strip line data enables holder)) :
    t.restore = { s.restore with sequencer := { s.restore.sequencer with blocked := false } } ∧
    (∀ j c, Table.read t.store.copies j = some c → c.blocked = false) ∧
    (holder = none →
      (∀ j, Table.read t.store.copies j = (Table.read s.store.copies j).map fun c => { c with blocked := false }) ∧
      t = { s with
        store := { s.store with copies := t.store.copies }, restore := t.restore, port := t.port, memory := t.memory }) := by
  obtain ⟨u, hu⟩ : ∃ u, u = (s.setMemory (Memory.storeEnabled s.memory (lineAddress strip line) 0 enables data)).unblock :=
    ⟨_, rfl⟩
  have hcopies : ∀ j, Table.read u.store.copies j = (Table.read s.store.copies j).map fun c => { c with blocked := false } := by
    rw [hu]
    exact State.read_copies_unblock _
  have hfree : ∀ j c, Table.read u.store.copies j = some c → c.blocked = false := by
    intro j c hc
    rw [hcopies] at hc
    obtain ⟨x, -, rfl⟩ := Option.map_eq_some_iff.1 hc
    rfl
  have hrestore : u.restore = { s.restore with sequencer := { s.restore.sequencer with blocked := false } } := by
    rw [hu]
    rfl
  cases holder with
  | none =>
    obtain rfl : t = u := ht.trans hu.symm
    exact ⟨hrestore, hfree, fun _ => ⟨hcopies, by rw [hu]; rfl⟩⟩
  | some k =>
    obtain rfl : t = u.heldCarriedOut k := by rw [ht, hu]; rfl
    refine ⟨by simpa using hrestore, fun j c hc => ?_, nofun⟩
    rcases u.copies_heldCarriedOut k with h | h
    · exact hfree j c (h ▸ hc)
    · rw [h, Table.read_remove] at hc
      split at hc
      · cases hc
      · exact hfree j c hc

/-- What the end of an access hands on leaves the rest of the block as it was (R162). -/
theorem State.carryOut_frame_eq (s : State) (a : Access) {t : State} (ht : t = s.carryOut a) : t = { s with
    link := t.link, store := t.store, restore := t.restore, port := t.port, memory := t.memory, reports := t.reports } := by
  have h := s.carryOut_onlyCarried a
  rw [← ht] at h
  unfold State.OnlyCarried at h
  rw [h]

/-- Settles O28: the port as the end of the transfer leaves it, then what the access hands on. -/
theorem transferEnds : Obligations.TransferEnds := by
  intro a rest s hp ht hq
  obtain ⟨e, he⟩ : ∃ e, e = s.port.endTransfer s.chip.now a rest := ⟨_, rfl⟩
  obtain ⟨t, hcarry⟩ : ∃ t, t = (s.setPort e).carryOut a := ⟨_, rfl⟩
  have hexec : exec .transferEnd s = .next t := by
    rw [exec_transferEnd_first hp ht hq, hcarry, he]
  obtain ⟨quiet, queue, hport⟩ := (s.setPort e).carryOut_port a
  rw [← hcarry, State.setPort_port] at hport
  have hbank : ∀ b, t.port.bank b =
      if b = a.bank then (s.port.bank a.bank).endTransfer a rest s.port.timing s.port.policy s.chip.now
      else s.port.bank b := by
    intro b
    rw [← Port.bank_endTransfer, ← he]
    exact Port.bank_congr (by rw [hport]) b
  have hself := (hbank a.bank).trans (if_pos rfl)
  have hdue := (s.port.bank a.bank).endTransfer_closeDue a rest s.port.timing s.port.policy s.chip.now
  rw [← hself] at hdue
  have hnext := nextForRow_iff a rest
  obtain ⟨hissue, hfree, hdirection, hturnaround, -, -, -, -, -, hlink, hquiet⟩ := s.port.endTransfer_frame s.chip.now a rest
  have hreset := s.port.endTransfer_resetClosing s.chip.now a rest
  have haging := s.port.endTransfer_aging s.chip.now a rest
  have hrest := s.port.endTransfer_rest s.chip.now a rest he
  rw [← he] at hissue hfree hdirection hturnaround hlink hquiet hreset haging
  refine ⟨t, hexec, by rw [hport, hissue], by rw [hport, hfree], by rw [hport, hdirection], by rw [hport, hturnaround],
    Bank.endTransfer_frame _ _ _ _ _ _ hself, fun h => ?_, fun h => ?_, fun hpolicy hnone hrow => ?_, fun h => ?_,
    fun b hb => (hbank b).trans (if_neg hb), by rw [hport, haging], ?_, fun hw => ?_, ?_, ?_, ?_, ?_, ?_, ?_⟩
  · rw [hself]
    exact Bank.endTransfer_write _ h _ _ _ _
  · rw [hself]
    exact Bank.endTransfer_read _ h _ _ _ _
  · refine hdue.trans (if_pos ⟨hnone, hpolicy, Bool.eq_false_iff.2 fun h => ?_⟩)
    obtain ⟨c, more, hc, hs⟩ := hnext.1 h
    exact hrow c more hc hs
  · refine hdue.trans (if_neg ?_)
    rintro ⟨hnone, hpolicy, hrow⟩
    rcases h with h | h | h
    · exact nomatch h.symm.trans hpolicy
    · exact h hnone
    · exact nomatch hrow.symm.trans (hnext.2 h)
  · have hbanks : ∀ b, t.port.bank b = e.bank b := fun b => Port.bank_congr (by rw [hport]) b
    have hclosing : t.port.resetClosing = e.resetClosing := by rw [hport]
    rw [hclosing]
    simpa only [hbanks] using hreset
  · have hsame : t.port = e := hcarry ▸ (s.setPort e).carryOut_port_of_ne a hw
    rw [hsame]
    exact ⟨hlink, hquiet⟩
  · rw [hport, hrest]
  · rw [hcarry]
    exact State.read_carryOut _ a
  · rintro strip line data enables holder rfl
    exact (s.setPort e).carryOut_lineWrite strip line data enables holder hcarry
  · intro h
    rw [hcarry, State.carryOut_dropped _ a h]
  · rintro ⟨g, r, l, bytes, rfl⟩
    rw [hcarry]
    rfl
  · exact (s.setPort e).carryOut_frame_eq a hcarry

end Sys2Proof.Machine
end

section
/-! # SET STORE RESERVE and the WAITING commit; OPEN EDITION and CLOSE EDITION (R49 to R54, R94, R95) -/

namespace Sys2Proof.Machine

/-! ### A WAITING commit (R94, R95) -/

/-- Above the reserve a WAITING sequencer is RUNNING again and its examination falls due (R95). -/
theorem State.resumeCommit_resumes {s : State} (hw : s.restore.sequencer.state = .waiting)
    (ha : s.store.reserve < s.store.freeQueue.length) :
    s.resumeCommit = (s.setSequencer { s.restore.sequencer with state := .running }).examineDue :=
  if_pos ⟨hw, s.store.aboveReserve_iff.2 ha⟩

theorem State.resumeCommit_same {s : State}
    (h : s.restore.sequencer.state ≠ .waiting ∨ s.store.freeQueue.length ≤ s.store.reserve) : s.resumeCommit = s :=
  if_neg fun ⟨hw, ha⟩ => h.elim (fun h => h hw) fun h => Nat.not_lt.2 h (s.store.aboveReserve_iff.1 ha)

/-- At the reserve the sequencer waits at the strip index that resolves (R94). -/
theorem State.examine_waits {s : State} {i source : Nat} (h : s.store.nextStrip s.restore.sequencer = some (i, source))
    (hr : s.store.freeQueue.length ≤ s.store.reserve) :
    s.examine = (s.setSequencer { s.restore.sequencer with cursor := i }).waitCommit := by
  unfold State.examine
  rw [h]
  exact if_neg (by simpa [Store.aboveReserve] using hr)

/-- The reserve is set, and STORE LOW judged by the free count against the reserve before and after (R49, R50). -/
def State.withReserve (s : State) (reserve : Nat) : State :=
  (s.setStore { s.store with reserve := reserve }).judgeStoreLow s.store.aboveReserve

theorem State.withReserve_eq (s : State) (reserve : Nat) : s.withReserve reserve = { s with
    store := { s.store with reserve := reserve }
    reports := { s.reports with statuses := { s.reports.statuses with
      storeLow := s.reports.statuses.storeLow ||
        decide (s.store.reserve < s.store.freeQueue.length ∧ s.store.freeQueue.length ≤ reserve) } } } := by
  unfold State.withReserve
  rw [State.judgeStoreLow_eq, State.judgeStoreLow_reports, Bool.decide_and]
  rfl

/-- Settles O45: the look at a WAITING commit by its condition, the wait at the cursor, and the command's two answers. -/
theorem waitingCommitResumes : Obligations.WaitingCommitResumes := by
  refine fun s => ⟨fun hw ha => ?_, fun i source hp hrun hi hcursor hlt hresolves hr => ?_, State.resumeCommit_same,
    fun reserve h => ⟨_, rfl, fun hr => State.take_refused h (if_pos hr) false, fun hr => ?_⟩⟩
  · rw [State.resumeCommit_resumes hw ha]
    exact State.examineDue_spec _
  · have hnext : s.store.nextStrip s.restore.sequencer = some (i, source) :=
      Store.nextStrip_eq_some hcursor.le hlt hresolves fun j hj hji => absurd (hcursor ▸ hj) (Nat.not_le.2 hji)
    rw [exec_commitSegmentIssue hp, if_neg (not_not.2 hrun), if_pos hi, State.examine_waits hnext hr]
    subst hcursor
    rfl
  · exact ⟨s.withReserve reserve, State.take_resumed h (if_neg (Nat.not_lt.2 hr)) (by rw [State.withReserve_eq]) false,
      s.withReserve_eq reserve⟩

/-! ### The edition machine (R52 to R54) -/

/-- An edition number from 1 to 16,777,215 passes the check of its range (R51, R52). -/
theorem edition_inRange {n : Nat} (h1 : 1 ≤ n) (h2 : n ≤ 16777215) : ¬ (n < 1 ∨ Config.maxEdition < n) :=
  not_or.2 ⟨Nat.not_lt.2 h1, Nat.not_lt.2 h2⟩

/-- CLOSE EDITION tests the end of CLOSING at once (R53). -/
theorem exec_closeEdition_opened {s : State} {m : Nat} (h : s.Ready .closeEdition) (hm : s.store.edition = .opened m)
    {u : State} (hu : u = (s.setStore { s.store with edition := .closing m }).testClosing) :
    exec .closeEdition s = .next { u with management := s.answered .accepted [] } := by
  refine congrArg _ ((State.take_ready_eq h false _).trans ?_)
  simp only [hm, ← hu]
  have hmanagement : u.management = s.management := by simp [hu]
  simp only [State.answered, hmanagement]

/-- Settles O46: for each command its checks in their order; the end of CLOSING by its test. -/
theorem editionCommands : Obligations.EditionCommands := by
  refine fun n s => ⟨fun h => ⟨_, rfl, fun hr => State.take_refused h (if_pos hr) false, fun h1 h2 he => ?_,
    fun h1 h2 he hl => ?_, fun h1 h2 he hl => ?_⟩, fun h => ?_⟩
  · exact State.take_refused h ((if_neg (edition_inRange h1 h2)).trans (if_pos he)) false
  · exact State.take_refused h ((if_neg (edition_inRange h1 h2)).trans ((if_neg (not_not.2 he)).trans (if_pos hl))) false
  · refine State.take_ok (u := s.setStore { s.store with edition := .opened n, lastEdition := n }) h ?_ rfl false
    exact (if_neg (edition_inRange h1 h2)).trans ((if_neg (not_not.2 he)).trans (if_neg (Nat.not_le.2 hl)))
  · by_cases hopen : ∃ m, s.store.edition = .opened m
    · obtain ⟨m, hm⟩ := hopen
      obtain ⟨u, hu⟩ : ∃ u, u = (s.setStore { s.store with edition := .closing m }).testClosing := ⟨_, rfl⟩
      obtain ⟨hends, hstays⟩ := (s.setStore { s.store with edition := .closing m }).testClosing_spec
      rw [← hu] at hends hstays
      refine ⟨_, exec_closeEdition_opened h hm hu, fun hnone => absurd hm (hnone m), fun x hx => ⟨fun hc => ?_, fun hc => ?_⟩⟩
      · obtain rfl : m = x := by simpa [hm] using hx
        rw [hstays (.inr hc)]
      · obtain ⟨hversions, hframe⟩ := hends m rfl hc
        refine ⟨hversions, ?_⟩
        rw [hframe]
    · have hnone : ∀ m, s.store.edition ≠ .opened m := not_exists.1 hopen
      refine ⟨_, rfl, fun _ => State.take_refused h ?_ false, fun x hx => absurd hx (hnone x)⟩
      split
      · next m hm => exact absurd hm (hnone m)
      · rfl

end Sys2Proof.Machine
end

section
/-! # The restoration records, the curves and the transform of a byte (R71 to R85) -/

namespace Sys2Proof.Machine

/-! ### The output for a byte (R84, R85) -/

theorem Defect.covers_iff (e : Defect) (x y : Nat) :
    e.covers x y = true ↔ e.x0 ≤ x ∧ x ≤ e.x1 ∧ e.y0 ≤ y ∧ y ≤ e.y1 := by
  simp [Defect.covers, and_assoc]

/-- Outside the page's rectangle every byte is 255 (R84). -/
theorem Restore.transformByte_margin (r : Restore) {rec : Restoration} {o : Nat}
    (h : rec.height ≤ o / rec.pitch ∨ rec.width ≤ o % rec.pitch) (b : Byte) : r.transformByte rec o b = 255 :=
  if_pos h

/-- Within the rectangle the first defect that covers the byte decides, and without one its tone (R84, R85). -/
theorem Restore.transformByte_inside (r : Restore) {rec : Restoration} {o : Nat} (hy : o / rec.pitch < rec.height)
    (hx : o % rec.pitch < rec.width) (b : Byte) : r.transformByte rec o b =
      ((rec.defects.find? fun e => e.covers (o % rec.pitch) (o / rec.pitch)).map Defect.fill).getD
        (r.curveEntry rec.curve (rec.tone b.toNat)) := by
  refine (if_neg (not_or.2 ⟨Nat.not_le.2 hy, Nat.not_le.2 hx⟩)).trans ?_
  cases rec.defects.find? fun e => e.covers (o % rec.pitch) (o / rec.pitch) <;> rfl

/-- At or below the black level the tone is 0 (R85). -/
theorem Restoration.tone_of_le_black {rec : Restoration} {v : Nat} (h : v ≤ rec.black) : rec.tone v = 0 := if_pos h

/-- At or above the white level the tone is 255 (R85). -/
theorem Restoration.tone_of_white_le {rec : Restoration} {v : Nat} (hl : rec.black < rec.white) (h : rec.white ≤ v) :
    rec.tone v = 255 :=
  (if_neg (by omega)).trans (if_pos h)

/-- Between the levels the tone is rounded to the nearest, a half up (R85). -/
theorem Restoration.tone_between {rec : Restoration} {v : Nat} (hb : rec.black < v) (hw : v < rec.white) :
    rec.tone v = ((v - rec.black) * 255 + (rec.white - rec.black) / 2) / (rec.white - rec.black) :=
  (if_neg (Nat.not_le.2 hb)).trans (if_neg (Nat.not_le.2 hw))

/-- A value strictly between two levels at most 255 apart is never rounded to one of the ends. -/
theorem rounded_strictly_between {a d : Nat} (ha : 1 ≤ a) (had : a < d) (hd : d ≤ 255) :
    1 ≤ (a * 255 + d / 2) / d ∧ (a * 255 + d / 2) / d ≤ 254 := by
  have hpos : 0 < d := by omega
  exact ⟨(Nat.le_div_iff_mul_le hpos).2 (by omega), Nat.le_of_lt_succ ((Nat.div_lt_iff_lt_mul hpos).2 (by omega))⟩

/-- Settles O33: the margin, then the first covering entry of the list, then the tone by the levels. -/
theorem byteTransformed : Obligations.ByteTransformed := by
  rintro r rec o _ _ _ b rfl rfl rfl hl hw
  refine ⟨fun h => r.transformByte_margin h b, fun hy hx => ⟨fun front e back hlist he hfront => ?_, fun hnone => ?_⟩⟩
  · have hfind : (rec.defects.find? fun e => e.covers (o % rec.pitch) (o / rec.pitch)) = some e := by
      refine List.find?_eq_some_iff_append.2 ⟨(e.covers_iff _ _).2 he, front, back, hlist, fun f hf => ?_⟩
      simpa using fun hc => hfront f hf ((f.covers_iff _ _).1 hc)
    rw [r.transformByte_inside hy hx, hfind]
    rfl
  · have hfind : (rec.defects.find? fun e => e.covers (o % rec.pitch) (o / rec.pitch)) = none :=
      List.find?_eq_none.2 fun f hf hc => hnone f hf ((f.covers_iff _ _).1 hc)
    have htone : rec.black < b.toNat → b.toNat < rec.white → 1 ≤ rec.tone b.toNat ∧ rec.tone b.toNat ≤ 254 := by
      intro hb hv
      rw [Restoration.tone_between hb hv]
      exact rounded_strictly_between (by omega) (by omega) (by omega)
    refine ⟨rec.tone b.toNat, by rw [r.transformByte_inside hy hx, hfind]; rfl, ?_, Restoration.tone_of_le_black,
      Restoration.tone_of_white_le hl, fun hb hv => ⟨(htone hb hv).1, (htone hb hv).2, Restoration.tone_between hb hv⟩⟩
    rcases Nat.lt_or_ge rec.black b.toNat with hb | hb
    · rcases Nat.lt_or_ge b.toNat rec.white with hv | hv
      · exact (htone hb hv).2.trans (by decide)
      · exact (Restoration.tone_of_white_le hl hv).le
    · exact (Restoration.tone_of_le_black hb).trans_le (Nat.zero_le _)

/-! ### The record of a page (R24, R71, R72) -/

theorem State.recordEntry_eq_some {s : State} {p n : Nat} {r : Restoration} (hn : (s.store.page p).record = some n)
    (hr : Table.read s.restore.records n = some r) : s.recordEntry p = some (n, r) := by
  unfold State.recordEntry
  rw [hn]
  exact congrArg (Option.map _) hr

theorem State.recordEntry_eq_none {s : State} {p : Nat} (h : (s.store.page p).record = none) : s.recordEntry p = none := by
  unfold State.recordEntry
  rw [h]

/-- The rule of a command that asks for the record of a page: ABSENT without the page or without its record (R77, R78, R81;
check 2). -/
def State.onRecord (s : State) (p : Nat) (rule : Nat → Restoration → Reply) : Reply :=
  if (s.store.page p).state = .absent then s.refuse .absent
  else
    match s.recordEntry p with
    | none => s.refuse .absent
    | some (n, r) => rule n r

theorem State.onRecord_absent {s : State} {p : Nat} (h : (s.store.page p).state = .absent ∨ (s.store.page p).record = none)
    (rule : Nat → Restoration → Reply) : s.onRecord p rule = s.refuse .absent := by
  unfold State.onRecord
  split
  · rfl
  · next ha => rw [State.recordEntry_eq_none (h.resolve_left ha)]

theorem State.onRecord_found {s : State} {p n : Nat} {r : Restoration} (ha : (s.store.page p).state ≠ .absent)
    (hn : (s.store.page p).record = some n) (hr : Table.read s.restore.records n = some r)
    (rule : Nat → Restoration → Reply) : s.onRecord p rule = rule n r := by
  unfold State.onRecord
  rw [if_neg ha, State.recordEntry_eq_some hn hr]

/-! ### Rules that write the table of records -/

/-- A rule that writes one record changes nothing else. -/
theorem State.take_setRecord {s : State} {c : Instr} {body : State → Reply} (h : s.Ready c) {n : Nat} {r : Restoration}
    (hb : body s = (s.setRecord n r).ok) (d : Bool) {t : State} (ht : t = s.take c d body) :
    Table.read t.restore.records n = some r ∧
      (∀ m, m ≠ n → Table.read t.restore.records m = Table.read s.restore.records m) ∧
      t = { s with restore := { s.restore with records := t.restore.records }, management := s.answered .ok [] } := by
  rw [State.take_ok h hb rfl d] at ht
  subst ht
  exact ⟨Table.read_write_self _ _ _, fun m hm => Table.read_write_other _ _ _ hm, rfl⟩

/-- A rule that writes or empties record `n` and sets one entry of the directory changes nothing else. -/
theorem State.take_setRecords_setPage {s : State} {c : Instr} {body : State → Reply} (h : s.Ready c)
    {records : Table Restoration} {p n : Nat} {x : Page} {r : Option Restoration}
    (hb : body s = ((s.setRestore { s.restore with records := records }).setStore (s.store.setPage p x)).ok)
    (hself : Table.read records n = r) (hothers : ∀ m, m ≠ n → Table.read records m = Table.read s.restore.records m)
    (d : Bool) {t : State} (ht : t = s.take c d body) :
    Table.read t.restore.records n = r ∧
      (∀ m, m ≠ n → Table.read t.restore.records m = Table.read s.restore.records m) ∧
      t.store.page p = x ∧ (∀ q, q ≠ p → t.store.page q = s.store.page q) ∧
      t = { s with
        restore := { s.restore with records := t.restore.records }, store := { s.store with pages := t.store.pages }
        management := s.answered .ok [] } := by
  rw [State.take_ok h hb rfl d] at ht
  subst ht
  exact ⟨hself, hothers, Store.page_setPage_self _ _ _, fun q hq => (Store.page_setPage _ _ _ q).trans (if_neg hq), rfl⟩

/-! ### WRITE RESTORATION (R72, R75, R76) -/

theorem geometryInRange_iff (p w pitch h k wt curve : Nat) : geometryInRange p w pitch h k wt curve = true ↔
    p < 65536 ∧ 64 ≤ pitch ∧ pitch ≤ 65536 ∧ pitch % 64 = 0 ∧ 1 ≤ w ∧ w ≤ pitch ∧ 1 ≤ h ∧ h ≤ 524288 ∧
      h * pitch ≤ 33554432 ∧ k ≤ 254 ∧ k < wt ∧ wt ≤ 255 ∧ curve < 8 := by
  simp [geometryInRange, Config.pageCount, Config.curveCount, and_assoc]

theorem defectsOutside_iff (defects : List Defect) (w h : Nat) :
    defectsOutside defects w h = true ↔ ∃ e ∈ defects, w ≤ e.x1 ∨ h ≤ e.y1 := by
  simp [defectsOutside]

/-- The rule of WRITE RESTORATION once the geometry is in range and the page is there, with no commit under way (R75 checks 4
and 5, R76). -/
def State.writeGeometry (s : State) (page width pitch height black white curve : Nat) : Reply :=
  match s.recordEntry page with
  | some (n, r) =>
    if defectsOutside r.defects width height then s.refuse .range
    else
      (s.setRecord n { r with
        width := width, pitch := pitch, height := height, black := black, white := white, curve := curve }).ok
  | none =>
    match Table.lowestFree s.restore.records Config.recordCount 0 with
    | none => s.refuse .full
    | some n =>
      ((s.setRecord n ⟨page, width, pitch, height, black, white, curve, []⟩).setStore
        (s.store.setPage page { s.store.page page with record := some n })).ok

/-- WRITE RESTORATION with its first three checks passed (R75). -/
theorem exec_writeRestoration_checked {p w pitch h k wt curve : Nat} {s : State}
    (hin : geometryInRange p w pitch h k wt curve = true) (ha : (s.store.page p).state ≠ .absent)
    (hc : (s.store.page p).committing = false) : exec (.writeRestoration p w pitch h k wt curve) s =
      .next (s.take (.writeRestoration p w pitch h k wt curve) false fun s => s.writeGeometry p w pitch h k wt curve) := by
  refine congrArg _ (State.take_congr ?_)
  exact (if_neg (by rw [hin]; nofun)).trans ((if_neg ha).trans (if_neg (Bool.eq_false_iff.1 hc)))

theorem State.writeGeometry_attached {s : State} {p n : Nat} {r : Restoration} (hn : (s.store.page p).record = some n)
    (hr : Table.read s.restore.records n = some r) (w pitch h k wt curve : Nat) :
    s.writeGeometry p w pitch h k wt curve =
      if defectsOutside r.defects w h then s.refuse .range
      else (s.setRecord n ⟨r.owner, w, pitch, h, k, wt, curve, r.defects⟩).ok := by
  unfold State.writeGeometry
  rw [State.recordEntry_eq_some hn hr]

theorem State.writeGeometry_full {s : State} {p : Nat} (hn : (s.store.page p).record = none)
    (hfull : ∀ n, n < 1024 → Table.has s.restore.records n = true) (w pitch h k wt curve : Nat) :
    s.writeGeometry p w pitch h k wt curve = s.refuse .full := by
  have hfree : Table.lowestFree s.restore.records Config.recordCount 0 = none :=
    (Table.lowestFree_eq_none _ _ _).2 fun n _ hlt => hfull n (by simpa [Config.recordCount] using hlt)
  unfold State.writeGeometry
  rw [State.recordEntry_eq_none hn, hfree]

theorem State.writeGeometry_attaches {s : State} {p n : Nat} (hn : (s.store.page p).record = none) (hlt : n < 1024)
    (hfree : Table.has s.restore.records n = false) (hlower : ∀ m, m < n → Table.has s.restore.records m = true)
    (w pitch h k wt curve : Nat) :
    s.writeGeometry p w pitch h k wt curve =
      ((s.setRestore { s.restore with
        records := Table.write s.restore.records n ⟨p, w, pitch, h, k, wt, curve, []⟩ }).setStore
        (s.store.setPage p { s.store.page p with record := some n })).ok := by
  have hlowest : Table.lowestFree s.restore.records Config.recordCount 0 = some n :=
    Table.lowestFree_eq_some (Nat.zero_le n) (by simpa [Config.recordCount] using hlt) hfree fun m _ hm => hlower m hm
  unfold State.writeGeometry
  rw [State.recordEntry_eq_none hn, hlowest]
  rfl

/-- Settles O47: the first three checks in their order, then the page's record or a free one. -/
theorem restorationWritten : Obligations.RestorationWritten := by
  intro p w pitch h k wt curve s pg hpg hready
  subst hpg
  have hrange := geometryInRange_iff p w pitch h k wt curve
  refine ⟨_, rfl, fun hr => ?_, fun hp hlow hhigh halign hw hfits hh hrows harea hk hlevels hwt hcurve => ?_⟩
  · have hout : geometryInRange p w pitch h k wt curve = false :=
      Bool.eq_false_iff.2 fun hin => by have := hrange.1 hin; omega
    exact State.take_refused hready (if_pos hout) false
  have hin := hrange.2 ⟨hp, hlow, hhigh, halign, hw, hfits, hh, hrows, harea, hk, hlevels, hwt, hcurve⟩
  have hpass : ¬ geometryInRange p w pitch h k wt curve = false := by simp [hin]
  refine ⟨fun ha => State.take_refused hready ((if_neg hpass).trans (if_pos ha)) false,
    fun ha hc => State.take_refused hready ((if_neg hpass).trans ((if_neg ha).trans (if_pos hc))) false, fun ha hc => ?_⟩
  rw [Host.Outcome.next.inj (exec_writeRestoration_checked hin ha hc)]
  refine ⟨fun n r hn hr => ?_, fun hn => ⟨fun hfull => ?_, fun n hlt hfree hlower => ?_⟩⟩
  · have hrule := State.writeGeometry_attached hn hr w pitch h k wt curve
    have houtside := defectsOutside_iff r.defects w h
    refine ⟨fun hout => State.take_refused hready (hrule.trans (if_pos (houtside.2 hout))) false, fun hinside => ?_⟩
    refine State.take_setRecord hready (hrule.trans (if_neg fun hout => ?_)) false rfl
    obtain ⟨e, he, hx⟩ := houtside.1 hout
    have := hinside e he
    omega
  · exact State.take_refused hready (State.writeGeometry_full hn hfull w pitch h k wt curve) false
  · exact State.take_setRecords_setPage hready (State.writeGeometry_attaches hn hlt hfree hlower w pitch h k wt curve)
      (Table.read_write_self _ _ _) (fun m hm => Table.read_write_other _ _ _ hm) false rfl

/-! ### ADD DEFECT, CLEAR DEFECTS, READ RESTORATION and DETACH RESTORATION (R73, R77 to R79, R81) -/

/-- The rule of ADD DEFECT once the record is found (R77, checks 3 and 4). -/
def State.addDefectTo (s : State) (x0 y0 x1 y1 fill n : Nat) (r : Restoration) : Reply :=
  if x1 < x0 ∨ r.width ≤ x1 ∨ y1 < y0 ∨ r.height ≤ y1 then s.refuse .range
  else if 32 ≤ r.defects.length then s.refuse .full
  else (s.setRecord n { r with defects := r.defects ++ [⟨x0, y0, x1, y1, BitVec.ofNat 8 fill⟩] }).ok

theorem exec_addDefect_eq (p x0 y0 x1 y1 fill : Nat) (s : State) : exec (.addDefect p x0 y0 x1 y1 fill) s =
    .next (s.take (.addDefect p x0 y0 x1 y1 fill) false fun s =>
      if 65536 ≤ p ∨ 65535 < x0 ∨ 65535 < x1 ∨ 524287 < y0 ∨ 524287 < y1 ∨ 255 < fill then s.refuse .range
      else s.onRecord p (s.addDefectTo x0 y0 x1 y1 fill)) := rfl

theorem exec_clearDefects_eq (p : Nat) (s : State) : exec (.clearDefects p) s =
    .next (s.take (.clearDefects p) false fun s =>
      if 65536 ≤ p then s.refuse .range
      else s.onRecord p fun n r => (s.setRecord n { r with defects := [] }).ok) := rfl

theorem exec_readRestoration_eq (p : Nat) (s : State) : exec (.readRestoration p) s =
    .next (s.take (.readRestoration p) false fun s =>
      if 65536 ≤ p then s.refuse .range else s.onRecord p fun n r => s.report (r.fields n)) := rfl

/-- The rule of DETACH RESTORATION once the page is found (R79). -/
def State.detach (s : State) (p : Nat) : Option Nat → Reply
  | none => s.refuse .absent
  | some n =>
    if (s.store.page p).committing then s.refuse .busy
    else
      ((s.setRestore { s.restore with records := Table.remove s.restore.records n }).setStore
        (s.store.setPage p { s.store.page p with record := none })).ok

theorem exec_detachRestoration_eq (p : Nat) (s : State) : exec (.detachRestoration p) s =
    .next (s.take (.detachRestoration p) false fun s =>
      if 65536 ≤ p then s.refuse .range
      else if (s.store.page p).state = .absent then s.refuse .absent
      else s.detach p (s.store.page p).record) := rfl

/-! ### LOAD CURVE (R80) -/

theorem Restore.setCurve_curves_only (r : Restore) (c i : Nat) (vs : List Byte) :
    r.setCurve c i vs = { r with curves := (r.setCurve c i vs).curves } := by
  induction vs generalizing r i with
  | nil => rfl
  | cons v vs ih =>
    rw [Restore.setCurve, ih]
    rfl

/-- LOAD CURVE with its checks passed writes the quarter of the curve. -/
theorem exec_loadCurve_inRange {s : State} {curve quarter : Nat} {values : List Byte}
    (h : s.Ready (.loadCurve curve quarter values)) (hc : curve < 8) (hq : quarter < 4) (hv : values.length = 64) :
    exec (.loadCurve curve quarter values) s = .next { s with
      restore := s.restore.setCurve curve (64 * quarter) values, management := s.answered .ok [] } :=
  congrArg _ (State.take_ok (u := s.setRestore (s.restore.setCurve curve (64 * quarter) values)) h
    (if_neg (by simp [Config.curveCount, hc, hq, hv])) rfl false)

/-- Settles O48: the checks in their order, then the record by `State.onRecord`; the quarter of a curve. -/
theorem recordsAndCurves : Obligations.RecordsAndCurves := by
  refine ⟨fun p x0 y0 x1 y1 fill s pg hpg => ?_, fun p curve quarter values s pg hpg => ?_⟩
  all_goals subst hpg
  · refine ⟨fun h => ⟨_, exec_addDefect_eq p x0 y0 x1 y1 fill s, fun hr => State.take_refused h (if_pos hr) false,
        fun hp hx0 hx1 hy0 hy1 hf => ?_⟩,
      fun h => ⟨_, exec_clearDefects_eq p s, fun hp => State.take_refused h (if_pos hp) false, fun hp ha => ?_,
        fun n r hp ha hn hr => ?_⟩,
      fun h => ⟨_, exec_readRestoration_eq p s, fun hp => State.take_refused h (if_pos hp) false, fun hp ha => ?_,
        fun n r hp ha hn hr => ?_⟩⟩
    · have hin : ¬ (65536 ≤ p ∨ 65535 < x0 ∨ 65535 < x1 ∨ 524287 < y0 ∨ 524287 < y1 ∨ 255 < fill) := by omega
      refine ⟨fun ha => State.take_refused h ((if_neg hin).trans (State.onRecord_absent ha _)) false,
        fun n r ha hn hr => ?_⟩
      have hfound := State.onRecord_found ha hn hr (s.addDefectTo x0 y0 x1 y1 fill)
      refine ⟨fun hout => State.take_refused h ((if_neg hin).trans (hfound.trans (if_pos hout))) false,
        fun hxs hw hys hh => ?_⟩
      have hinside : ¬ (x1 < x0 ∨ r.width ≤ x1 ∨ y1 < y0 ∨ r.height ≤ y1) := by omega
      refine ⟨fun hfull => State.take_refused h
          ((if_neg hin).trans (hfound.trans ((if_neg hinside).trans (if_pos hfull)))) false, fun hroom => ?_⟩
      exact State.take_setRecord h
        ((if_neg hin).trans (hfound.trans ((if_neg hinside).trans (if_neg (Nat.not_le.2 hroom))))) false rfl
    · exact State.take_refused h ((if_neg (Nat.not_le.2 hp)).trans (State.onRecord_absent ha _)) false
    · exact State.take_setRecord h ((if_neg (Nat.not_le.2 hp)).trans (State.onRecord_found ha hn hr _)) false rfl
    · exact State.take_refused h ((if_neg (Nat.not_le.2 hp)).trans (State.onRecord_absent ha _)) false
    · rw [State.take_ready_eq h, if_neg (Nat.not_le.2 hp), State.onRecord_found ha hn hr]
      rfl
  · refine ⟨fun h => ⟨_, exec_detachRestoration_eq p s, fun hp => State.take_refused h (if_pos hp) false, fun hp ha => ?_,
        fun n hp ha hn hc => ?_, fun n hp ha hn hc => ?_⟩,
      fun h => ⟨_, rfl, fun hr => State.take_refused h (if_pos hr) false, fun hc hq hv => ?_⟩⟩
    · refine State.take_refused h ((if_neg (Nat.not_le.2 hp)).trans ?_) false
      split
      · rfl
      · next hs => rw [ha.resolve_left hs]; rfl
    · have hfound := congrArg (s.detach p) hn
      exact State.take_refused h
        ((if_neg (Nat.not_le.2 hp)).trans ((if_neg ha).trans (hfound.trans (if_pos hc)))) false
    · have hfound := congrArg (s.detach p) hn
      exact State.take_setRecords_setPage h
        ((if_neg (Nat.not_le.2 hp)).trans ((if_neg ha).trans (hfound.trans (if_neg (Bool.eq_false_iff.1 hc)))))
        ((Table.read_remove _ _ _).trans (if_pos rfl)) (fun m hm => (Table.read_remove _ _ _).trans (if_neg hm)) false rfl
    · rw [Host.Outcome.next.inj (exec_loadCurve_inRange h hc hq hv)]
      refine ⟨fun c i _ hi => ?_, ?_⟩
      · have hentry := s.restore.curveEntry_setCurve curve (64 * quarter) values c i (by omega) hi
        rw [hv] at hentry
        exact hentry
      · rw [s.restore.setCurve_curves_only]

end Sys2Proof.Machine
end

section
/-! # The commit sequencer's cursor and the ends of its segments (R93 to R102) -/

namespace Sys2Proof.Machine

/-! ### The examination of the cursor (R94, R96, R100) -/

/-- With nothing left that resolves the commit completes (R100). -/
theorem State.examine_completes {s : State} (h : s.store.nextStrip s.restore.sequencer = none) :
    s.examine = s.completeCommit := by
  unfold State.examine
  rw [h]

theorem State.page_completeCommit (s : State) (p : Nat) : s.completeCommit.store.page p =
    if p = s.restore.sequencer.page then { s.store.page s.restore.sequencer.page with
      chain := linkAbove s.restore.sequencer.building s.restore.sequencer.snapshot
        (s.store.page s.restore.sequencer.page).chain
      building := none, committing := false }
    else s.store.page p := Store.page_setPage _ _ _ _

theorem State.version_completeCommit (s : State) (n : Nat) : Table.read s.completeCommit.store.versions n =
    if n = s.restore.sequencer.building then (Table.read s.store.versions n).map fun v => { v with lock := .locked }
    else Table.read s.store.versions n := by
  have h := Table.read_adjust s.store.versions s.restore.sequencer.building (fun v => { v with lock := .locked }) n
  exact h

/-- The strip leaves the head of the free strip queue for the building version, and STORE LOW is set when the free count
reaches the reserve (R47, R50, R96). -/
theorem State.takeCommitStrip_eq {s : State} {strip : Nat} {queue : List Nat} (hq : s.store.freeQueue = strip :: queue)
    (hr : s.store.reserve < s.store.freeQueue.length) (source : Nat) : s.takeCommitStrip source = { s with
      store := { s.store with
        freeQueue := queue
        strips := Table.write s.store.strips strip
          ⟨.filling .sequencer, s.restore.sequencer.building, s.restore.sequencer.cursor⟩
        versions := Table.adjust s.store.versions s.restore.sequencer.building fun v =>
          { v with delta := Table.write v.delta s.restore.sequencer.cursor strip } }
      restore := { s.restore with sequencer := { s.restore.sequencer with
        source := source, target := strip, nextLine := 0, inProgress := true, phase := .none, held := none
        blocked := false } }
      reports := { s.reports with statuses := { s.reports.statuses with
        storeLow := s.reports.statuses.storeLow || decide (s.store.freeQueue.length = s.store.reserve + 1) } } } := by
  have low : decide (s.store.freeQueue.length = s.store.reserve + 1) =
      (s.store.aboveReserve && decide (queue.length ≤ s.store.reserve)) := by
    rw [s.store.aboveReserve_iff.2 hr, Bool.true_and]
    rw [hq] at hr ⊢
    exact decide_eq_decide.2 (by simp only [List.length_cons] at hr ⊢; omega)
  unfold State.takeCommitStrip
  rw [low]
  simp only [hq]
  rw [State.judgeStoreLow_eq, State.judgeStoreLow_reports]
  simp only [Store.allocate, hq]
  rfl

/-- Above the reserve the sequencer takes a strip for the strip index that resolves (R94, R96). -/
theorem State.examine_takes {s : State} {i source strip : Nat} {queue : List Nat}
    (h : s.store.nextStrip s.restore.sequencer = some (i, source)) (hq : s.store.freeQueue = strip :: queue)
    (hr : s.store.reserve < s.store.freeQueue.length) {t : State} (ht : t = s.examine) :
    Table.read t.store.strips strip = some ⟨.filling .sequencer, s.restore.sequencer.building, i⟩ ∧
    (∀ n, n ≠ strip → Table.read t.store.strips n = Table.read s.store.strips n) ∧
    Table.read t.store.versions s.restore.sequencer.building =
      (Table.read s.store.versions s.restore.sequencer.building).map (fun v =>
        { v with delta := Table.write v.delta i strip }) ∧
    (∀ n, n ≠ s.restore.sequencer.building → Table.read t.store.versions n = Table.read s.store.versions n) ∧
    t = { s with
      store := { s.store with freeQueue := queue, strips := t.store.strips, versions := t.store.versions }
      restore := { s.restore with sequencer := { s.restore.sequencer with
        cursor := i, source := source, target := strip, nextLine := 0, inProgress := true, phase := .none
        held := none, blocked := false } }
      reports := { s.reports with statuses := { s.reports.statuses with
        storeLow := s.reports.statuses.storeLow || decide (s.store.freeQueue.length = s.store.reserve + 1) } } } := by
  have taken : s.examine = (s.setSequencer { s.restore.sequencer with cursor := i }).takeCommitStrip source := by
    unfold State.examine
    rw [h]
    exact if_pos (s.store.aboveReserve_iff.2 hr)
  rw [State.takeCommitStrip_eq (by exact hq) (by exact hr)] at taken
  have versions := Table.read_adjust s.store.versions s.restore.sequencer.building fun v =>
    { v with delta := Table.write v.delta i strip }
  rw [← ht] at taken
  subst taken
  refine ⟨Table.read_write_self _ _ _, fun n hn => Table.read_write_other _ _ _ hn, (versions _).trans (if_pos rfl),
    fun n hn => (versions n).trans (if_neg hn), ?_⟩
  rfl

/-- Settles O32: the commit completes, waits or takes a strip, as the first strip index that resolves has it. -/
theorem cursorExamined : Obligations.CursorExamined := by
  rintro s q rfl
  refine ⟨fun hblank => ?_, fun i source hi hlt hresolves hblank => ⟨fun hr => ?_, fun strip queue hq hr => ?_⟩⟩
  · rw [State.examine_completes (Store.nextStrip_eq_none.2 hblank)]
    have hself := (s.page_completeCommit s.restore.sequencer.page).trans (if_pos rfl)
    refine ⟨fun front back hchain hsnapshot => ?_, by rw [hself], fun p hp => (s.page_completeCommit p).trans (if_neg hp),
      (s.version_completeCommit _).trans (if_pos rfl), fun n hn => (s.version_completeCommit n).trans (if_neg hn), rfl⟩
    rw [hself, hchain]
    exact linkAbove_append hsnapshot
  · rw [State.examine_waits (Store.nextStrip_eq_some hi hlt hresolves hblank) hr]
    rfl
  · exact State.examine_takes (Store.nextStrip_eq_some hi hlt hresolves hblank) hq hr rfl

/-! ### The ends of its segments (R97 to R99, R101) -/

section
variable {s : State} (strip line : Nat) (data : List Byte)

/-- A read segment of the RUNNING sequencer hands it the segment's bytes, transformed (R97, R98). -/
theorem State.carryOut_commitRead (h : s.restore.sequencer.state = .running) :
    s.carryOut (.readSegment .sequencer strip line false) = s.setSequencer { s.restore.sequencer with
      phase := .none
      held := some (s.restoreBytes s.restore.sequencer.page s.restore.sequencer.cursor s.restore.sequencer.nextLine
        (Memory.bytesAt s.memory s.chip.powerOns (lineAddress strip line) 256)) } := by
  simp [State.carryOut, State.readSegmentDone, State.commitRead, h]

/-- A write segment of the RUNNING sequencer raises next line, and the strip's last ends the strip (R97, R99). -/
theorem State.carryOut_commitWritten (h : s.restore.sequencer.state = .running) :
    s.carryOut (.writeSegment .sequencer strip line data false) =
      if s.restore.sequencer.nextLine + 4 = 1024 then
        (s.setMemory (Memory.store s.memory (lineAddress strip line) data)).finishCommitStrip
      else (s.setMemory (Memory.store s.memory (lineAddress strip line) data)).setSequencer
        { s.restore.sequencer with nextLine := s.restore.sequencer.nextLine + 4, phase := .none } := by
  simp [State.carryOut, State.writeSegmentDone, State.commitWritten, h, Config.stripLines]

/-- The end of either segment of the ABORTING sequencer ends the abort (R101, R102). -/
theorem State.carryOut_commitAborted (h : s.restore.sequencer.state = .aborting) {a : Access}
    (ha : a = .readSegment .sequencer strip line false ∨ a = .writeSegment .sequencer strip line data false) :
    ∃ m, s.carryOut a = (s.setMemory m).endAbort := by
  rcases ha with rfl | rfl
  · exact ⟨s.memory, by simp [State.carryOut, State.readSegmentDone, State.commitRead, h]⟩
  · exact ⟨Memory.store s.memory (lineAddress strip line) data, by
      simp [State.carryOut, State.writeSegmentDone, State.commitWritten, h]⟩

end

/-- The sequencer's strip is READY and its cursor one further; the examination of the cursor has not been made (R99). -/
def State.stripBuilt (s : State) : State :=
  (s.setStore { s.store with
    strips := Table.adjust s.store.strips s.restore.sequencer.target fun e => { e with state := .ready } }).setSequencer
    { s.restore.sequencer with
      cursor := s.restore.sequencer.cursor + 1, nextLine := 1024, inProgress := false, phase := .none, held := none }

theorem State.finishCommitStrip_eq (s : State) : s.finishCommitStrip = s.stripBuilt.examineDue := rfl

theorem State.strip_stripBuilt (s : State) (n : Nat) : Table.read s.stripBuilt.store.strips n =
    if n = s.restore.sequencer.target then (Table.read s.store.strips n).map fun e => { e with state := .ready }
    else Table.read s.store.strips n := by
  have h := Table.read_adjust s.store.strips s.restore.sequencer.target (fun e => { e with state := .ready }) n
  exact h

/-- Each of the 256 bytes of a segment is transformed at its own page byte offset (R83, R98). -/
theorem State.restoreBytes_segment {s : State} {p n : Nat} {r : Restoration} (hn : (s.store.page p).record = some n)
    (hr : Table.read s.restore.records n = some r) (index nextLine address : Nat) {bytes : List Byte}
    (hb : bytes = s.restoreBytes p index nextLine (Memory.bytesAt s.memory s.chip.powerOns address 256)) :
    bytes.length = 256 ∧ ∀ i, i < 256 → bytes[i]? = some (s.restore.transformByte r (index * 65536 + nextLine * 64 + i)
      ((Memory.read s.memory (address + i)).getD (Config.storePowerOn s.chip.powerOns (address + i)))) := by
  rw [State.restoreBytes_of_some hn hr] at hb
  subst hb
  refine ⟨by simp, fun i hi => Restore.getElem_transform _ _ _ _ ?_⟩
  exact Memory.getElem_bytesAt _ _ _ _ i hi

/-- Settles O31: a segment of the RUNNING sequencer by its direction, and either of the ABORTING one. -/
theorem commitSegmentEnds : Obligations.CommitSegmentEnds := by
  rintro rest strip line q s hp ht rfl
  refine ⟨fun n r hq hrun hn hr => ?_, fun data hq hrun => ?_, fun data hq habort => ?_⟩
  · obtain ⟨hlength, hbytes⟩ := State.restoreBytes_segment hn hr s.restore.sequencer.cursor s.restore.sequencer.nextLine
      (lineAddress strip line) rfl
    exact ⟨_, _, (exec_transferEnd_first hp ht hq).trans (congrArg _ (State.carryOut_commitRead strip line (by exact hrun))),
      rfl, hlength, hbytes, rfl⟩
  · have hexec := (exec_transferEnd_first hp ht hq).trans
      (congrArg _ (State.carryOut_commitWritten strip line data (by exact hrun)))
    exact ⟨fun hn => ⟨_, hexec.trans (congrArg _ (if_neg hn)), rfl⟩, fun hn => ⟨State.stripBuilt _, _,
      hexec.trans (congrArg _ ((if_pos hn).trans (State.finishCommitStrip_eq _))), State.examineDue_spec _,
      fun n hne => (State.strip_stripBuilt _ n).trans (if_neg hne), (State.strip_stripBuilt _ _).trans (if_pos rfl), rfl⟩⟩
  · obtain ⟨a, hlist, ha⟩ : ∃ a, s.port.issueList = a :: rest ∧
        (a = .readSegment .sequencer strip line false ∨ a = .writeSegment .sequencer strip line data false) :=
      hq.elim (fun h => ⟨_, h, .inl rfl⟩) fun h => ⟨_, h, .inr rfl⟩
    obtain ⟨m, hm⟩ := State.carryOut_commitAborted (s := s.setPort (s.port.endTransfer s.chip.now a rest)) strip line data
      habort ha
    exact ⟨_, (exec_transferEnd_first hp ht hlist).trans (congrArg _ hm), State.endAbort_spec _,
      by rw [State.endAbort_onlyCommit _]⟩

end Sys2Proof.Machine
end

section
/-! # COMMIT RESTORATION and ABORT COMMIT (R91, R92, R101, R102) -/

namespace Sys2Proof.Machine

/-- A rule that answers ACCEPTED: its effect, and the response (R184). -/
theorem State.take_accepted {s u : State} {c : Instr} {body : State → Reply} (h : s.Ready c)
    (hb : body s = ⟨.accepted, [], u⟩) (hm : u.management = s.management) (d : Bool) :
    s.take c d body = { u with management := s.answered .accepted [] } := by
  rw [State.take_ready_eq h, hb, State.answered, State.answered, hm]

/-! ### COMMIT RESTORATION (R91, R92) -/

theorem Store.anyResolves_iff (st : Store) (p : Nat) : st.anyResolves p = true ↔
    ∃ i, i < 512 ∧ walk st.versions none false i (st.page p).chain ≠ none := by
  simp [Store.anyResolves, Config.frameStrips, Option.isSome_iff_ne_none]

theorem Store.headOpen_iff (st : Store) (p : Nat) :
    (st.head p).any (fun v => v.lock == .openLock) = true ↔ ∃ v, st.head p = some v ∧ v.lock = .openLock := by
  simp [Option.any_eq_true]

/-- The rule of COMMIT RESTORATION once the page is found LIVE, with a record, no OPEN head and room in its chain (R91, checks
6 and 7; R92). -/
def State.commitPage (s : State) (p : Nat) : Reply :=
  match s.store.freeVersion with
  | none => s.refuse .poolEmpty
  | some n =>
    match s.store.head p with
    | none => s.refuse .emptyPage
    | some head =>
      if s.store.anyResolves p then ⟨.accepted, [], s.startCommit p n head⟩ else s.refuse .emptyPage

/-- The rule of COMMIT RESTORATION, its checks in their order (R91). -/
def State.commitRule (s : State) (p : Nat) : Reply :=
  if 65536 ≤ p then s.refuse .range
  else if s.restore.sequencer.state ≠ .idle then s.refuse .busy
  else if (s.store.page p).state = .absent ∨ (s.store.page p).record = none then s.refuse .absent
  else if (s.store.page p).state = .loading ∨ (s.store.head p).any (fun v => v.lock == .openLock) = true then
    s.refuse .state
  else if 16 ≤ (s.store.page p).chain.length then s.refuse .chainFull
  else s.commitPage p

theorem exec_commitRestoration_eq (p : Nat) (s : State) : exec (.commitRestoration p) s =
    .next (s.take (.commitRestoration p) false fun s => s.commitRule p) := rfl

section
variable {s : State} {p : Nat}

theorem State.commitPage_poolEmpty (h : ∀ n, n < 8192 → Table.has s.store.versions n = true) :
    s.commitPage p = s.refuse .poolEmpty := by
  unfold State.commitPage
  rw [s.store.freeVersion_eq_none.2 h]

variable {n : Nat} (hn : s.store.freeVersion = some n)
include hn

theorem State.commitPage_emptyPage
    (h : s.store.head p = none ∨ ∀ i, i < 512 → walk s.store.versions none false i (s.store.page p).chain = none) :
    s.commitPage p = s.refuse .emptyPage := by
  unfold State.commitPage
  rw [hn]
  cases hhead : s.store.head p with
  | none => rfl
  | some head =>
    have hblank := h.resolve_left (by rw [hhead]; nofun)
    refine if_neg fun hx => ?_
    obtain ⟨i, hi, hwalk⟩ := (s.store.anyResolves_iff p).1 hx
    exact hwalk (hblank i hi)

theorem State.commitPage_starts {head : Version} {i : Nat} (hh : s.store.head p = some head) (hi : i < 512)
    (hw : walk s.store.versions none false i (s.store.page p).chain ≠ none) :
    s.commitPage p = ⟨.accepted, [], s.startCommit p n head⟩ := by
  unfold State.commitPage
  rw [hn, hh]
  exact if_pos ((s.store.anyResolves_iff p).2 ⟨i, hi, hw⟩)

end

/-- What a commit sets before its first examination (R92). -/
theorem State.beginCommit_spec {s : State} {p snapshot : Nat} (hc : (s.store.page p).chain.head? = some snapshot) (n : Nat)
    (head : Version) {u : State} (hu : u = s.beginCommit p n head) :
    Table.read u.store.versions n = some ⟨p, .restored, head.edition, .building, []⟩ ∧
    (∀ m, m ≠ n → Table.read u.store.versions m = Table.read s.store.versions m) ∧
    u.store.page p = { s.store.page p with building := some n, committing := true } ∧
    (∀ q, q ≠ p → u.store.page q = s.store.page q) ∧
    u.restore.sequencer =
      ⟨.running, p, snapshot, n, 0, 0, 0, 0, false, .none, none, false, s.restore.sequencer.outcome⟩ ∧
    u = { s with
      store := { s.store with pages := u.store.pages, versions := u.store.versions }
      restore := { s.restore with sequencer := u.restore.sequencer } } := by
  have hsnapshot : (s.store.page p).chain.headD 0 = snapshot := by rw [List.headD_eq_head?_getD, hc]; rfl
  subst hu hsnapshot
  exact ⟨Table.read_write_self _ _ _, fun m hm => Table.read_write_other _ _ _ hm, Store.page_setPage_self _ _ _,
    fun q hq => (Store.page_setPage _ _ _ q).trans (if_neg hq), rfl, rfl⟩

/-! ### ABORT COMMIT (R101, R102) -/

/-- The sequencer is ABORTING and its request that has not started withdrawn (R101). -/
def State.abortBegun (s : State) : State :=
  (s.setSequencer { s.restore.sequencer with state := .aborting }).setPort (s.port.withdraw .sequencer)

/-- The abort goes on while a segment of the sequencer is in progress at the store port, and ends at once without one (R101,
R102). -/
theorem State.abortCommit_cases (s : State) :
    ((∃ a ∈ s.port.issueList, a.engine = some .sequencer ∧ a.isDropped = false) → s.abortCommit = s.abortBegun) ∧
    ((∀ a ∈ s.port.issueList, a.engine = some .sequencer → a.isDropped = true) →
      s.abortCommit = s.abortBegun.endAbort) := by
  have hany : (s.port.issueList.any fun a => a.engine == some .sequencer && !a.isDropped) = true ↔
      ∃ a ∈ s.port.issueList, a.engine = some .sequencer ∧ a.isDropped = false := by simp
  refine ⟨fun h => if_pos (hany.2 h), fun h => if_neg fun hx => ?_⟩
  obtain ⟨a, ha, he, hd⟩ := hany.1 hx
  exact nomatch hd.symm.trans (h a ha he)

/-- The port after the withdrawal of the sequencer's request (R101, R157). -/
theorem State.abortCommit_port (s : State) : s.abortCommit.port = { s.port with
    engineQueue := s.port.engineQueue.filter fun a => a.engine != some .sequencer
    aging := if (s.port.engineQueue.filter fun a => a.engine != some .sequencer) = [] then .stopped
      else s.port.aging } := by
  have hport : s.abortCommit.port = s.port.withdraw .sequencer := by
    unfold State.abortCommit
    dsimp only
    split
    · rfl
    · simp
  simp [hport, Port.withdraw]

/-- A WAITING sequencer owes no allocation, so that the abort of either finds what is owed made (R94, R101). -/
theorem exec_abortCommit_busy {s : State} (h : s.Ready .abortCommit)
    (hq : s.restore.sequencer.state = .running ∨ s.restore.sequencer.state = .waiting) :
    exec .abortCommit s = .next { s.settleStrip.abortCommit with management := s.answered .accepted [] } := by
  refine congrArg _ (State.take_accepted h ?_ (by simp) false)
  rcases hq with hq | hq
  · simp only [hq]
  · have hnone : s.settleStrip = s := s.settleStrip_spec.2 fun ho => nomatch ho.1.symm.trans hq
    simp only [hq, hnone]

/-- Settles O49: the checks of COMMIT RESTORATION in their order and the commit's start; the abort by the sequencer's state. -/
theorem commitStartsAndAborts : Obligations.CommitStartsAndAborts := by
  refine ⟨?_, fun s h => ?_⟩
  · rintro p s pg rfl h
    refine ⟨_, exec_commitRestoration_eq p s, fun hp => State.take_refused h (if_pos hp) false, fun hp => ?_⟩
    have hp := Nat.not_le.2 hp
    refine ⟨fun hq => State.take_refused h ((if_neg hp).trans (if_pos hq)) false, fun hq => ?_⟩
    have hq := not_not.2 hq
    refine ⟨fun ha => State.take_refused h ((if_neg hp).trans ((if_neg hq).trans (if_pos ha))) false, fun ha hr => ?_⟩
    have ha := not_or.2 ⟨ha, hr⟩
    refine ⟨fun hl => State.take_refused h ((if_neg hp).trans ((if_neg hq).trans ((if_neg ha).trans
      (if_pos (hl.imp_right (s.store.headOpen_iff p).2))))) false, fun hlive hopen => ?_⟩
    have hl : ¬ ((s.store.page p).state = .loading ∨ (s.store.head p).any (fun v => v.lock == .openLock) = true) := by
      rw [hlive, s.store.headOpen_iff]
      rintro (hx | ⟨v, hv, hx⟩)
      · cases hx
      · exact hopen v hv hx
    refine ⟨fun hc => State.take_refused h ((if_neg hp).trans ((if_neg hq).trans ((if_neg ha).trans ((if_neg hl).trans
      (if_pos hc))))) false, fun hc => ?_⟩
    have checked : s.commitRule p = s.commitPage p :=
      (if_neg hp).trans ((if_neg hq).trans ((if_neg ha).trans ((if_neg hl).trans (if_neg (Nat.not_le.2 hc)))))
    refine ⟨fun hfull => State.take_refused h (checked.trans (State.commitPage_poolEmpty hfull)) false,
      fun n hlt hfree hlower => ?_⟩
    have hn : s.store.freeVersion = some n :=
      Table.lowestFree_eq_some (Nat.zero_le n) (by simpa [Config.versionCount] using hlt) hfree fun m _ hm => hlower m hm
    refine ⟨fun hblank => State.take_refused h (checked.trans (State.commitPage_emptyPage hn hblank)) false,
      fun head snapshot i hh hs hi hw => ⟨s.beginCommit p n head, s.startCommit p n head, State.examineDue_spec _, ?_,
        State.beginCommit_spec hs n head rfl⟩⟩
    exact State.take_accepted h (checked.trans (State.commitPage_starts hn hh hi hw)) (by simp) false
  · by_cases hbusy : s.restore.sequencer.state = .running ∨ s.restore.sequencer.state = .waiting
    · obtain ⟨hgoes, hends⟩ := s.settleStrip.abortCommit_cases
      have hport := s.settleStrip.abortCommit_port
      have hsame : s.settleStrip.port = s.port := by simp
      rw [hsame] at hport hgoes hends
      refine ⟨_, exec_abortCommit_busy h hbusy, fun hq => ?_, fun hq => ?_, fun _ => ⟨s.settleStrip, s.settleStrip_spec.1,
        s.settleStrip_spec.2, rfl, ?_, ?_, fun hsegment => ?_, fun hnone => ⟨?_, ?_⟩⟩⟩
      · simp [hq] at hbusy
      · simp [hq] at hbusy
      · simp only [hport]
      · simp only [hport]
      · rw [hgoes hsegment]
        rfl
      · rw [hends hnone]
        exact s.settleStrip.abortBegun.endAbort_spec
      · rw [hends hnone, State.endAbort_onlyCommit _]
        rfl
    · obtain ⟨hrun, hwait⟩ := not_or.1 hbusy
      cases hq : s.restore.sequencer.state with
      | idle => exact ⟨_, rfl, fun _ => State.take_refused h (by simp only [hq]) false, nofun, nofun⟩
      | aborting => exact ⟨_, rfl, nofun, fun _ => State.take_accepted h (by simp only [hq]) rfl false, nofun⟩
      | running => exact absurd hq hrun
      | waiting => exact absurd hq hwait

end Sys2Proof.Machine
end

section
/-! # The reprint meter: the metering decision, the fee's inputs, withheld and charged reads (R119 to R123, R129 to R142) -/

namespace Sys2Proof.Machine

/-! ### The metering decision (R120) -/

/-- Settles O12: the checks are passed one by one, in their order. -/
theorem meteringDecisionOrder : Obligations.MeteringDecisionOrder := by
  intro s restored j p job account page f hjob haccount hpage hf
  subst hjob haccount hpage hf
  have inSet : ((s.meter.job j).purchases.any fun e => e.page == p) = true ↔
      ∃ e ∈ (s.meter.job j).purchases, e.page = p := by
    simp
  have embargoed := (s.store.page p).embargoed_iff s.meter.date
  unfold State.meterDecision
  dsimp only
  refine ⟨fun ho => if_pos ho, fun ho ha => ?_, fun ho hp => ?_⟩
  · rw [if_neg (not_not.2 ho), if_pos ha]
  rw [if_neg (not_not.2 ho), if_neg hp]
  refine ⟨fun hs => if_pos (inSet.2 hs), fun hs => ?_⟩
  rw [if_neg fun h => (inSet.1 h).elim fun e ⟨he, h⟩ => hs e he h]
  refine ⟨fun he => if_pos (embargoed.2 he), fun he => ?_⟩
  rw [if_neg fun h => (embargoed.1 h).elim fun day ⟨hd, h⟩ => Nat.not_le.2 (he day hd) h]
  refine ⟨fun ha => if_pos ha, fun ha => ?_⟩
  rw [if_neg ha]
  refine ⟨fun hn => if_pos hn, fun hn => ?_⟩
  rw [if_neg (Nat.not_le.2 hn)]
  refine ⟨fun hc => if_pos hc, fun hc => ?_⟩
  rw [if_neg (Nat.not_lt.2 hc)]
  refine ⟨fun hb => if_pos hb, fun hb => ?_⟩
  rw [if_neg (Nat.not_lt.2 hb)]
  exact ⟨fun hl => if_pos hl, fun hl => if_neg (Nat.not_le.2 hl)⟩

/-! ### The inputs of a fee (R121, R129 to R135) -/

/-- A page published after the archive date has age 0 (R129). -/
theorem feeAge_eq (date day : Nat) : feeAge date day = if day ≤ date then (date - day) / 365 else 0 := by
  unfold feeAge
  split
  · rfl
  · next h => rw [Nat.sub_eq_zero_of_le (Nat.le_of_not_le h), Nat.zero_div]

theorem Store.hasRestored_iff (st : Store) (p : Nat) : st.hasRestored p = true ↔
    ∃ v ∈ (st.page p).chain, ∃ r, Table.read st.versions v = some r ∧ r.origin = .restored := by
  rw [Store.hasRestored, List.any_eq_true]
  refine exists_congr fun v => and_congr_right fun _ => ?_
  cases Table.read st.versions v <;> simp

theorem Store.restorable_iff (st : Store) (p : Nat) : st.restorable p = true ↔ (st.page p).record ≠ none ∨
    ∃ v ∈ (st.page p).chain, ∃ r, Table.read st.versions v = some r ∧ r.origin = .restored := by
  rw [Store.restorable, Bool.or_eq_true, st.hasRestored_iff, Option.isSome_iff_ne_none]

/-- Settles O16: the fee's inputs are those of `State.chargeFor`, the age by its case. -/
theorem feeInputs : Obligations.FeeInputs := by
  intro s restored j p age band account n haccount hn hage hband
  have hage : feeAge s.meter.date (s.store.page p).day = age := (feeAge_eq _ _).trans hage.symm
  have hband : s.meter.bands.band age = band := hband.symm
  subst haccount hn
  refine ⟨s.store.restorable p, s.store.restorable_iff p, ?_⟩
  rw [← hband, ← hage]
  rfl

/-! ### A withheld read (R122) -/

theorem Reason.limits_eq (reason : Reason) : reason.limits = decide (reason = .setFull ∨ reason = .ceiling) := by
  cases reason <;> rfl

/-- What a withheld read leaves in its job, in the job's statuses and in every other. -/
theorem State.withhold_spec (s : State) (j : Nat) (reason : Reason) {u : State} (hu : u = s.withhold j reason) :
    u.meter.job j = { s.meter.job j with withheld := min 4294967295 ((s.meter.job j).withheld + 1), reason := reason } ∧
    (∀ i, i ≠ j → u.meter.job i = s.meter.job i) ∧ u.meter = { s.meter with jobs := u.meter.jobs } ∧
    u.reports.jobOf j = { s.reports.jobOf j with
      withheld := true, limit := (s.reports.jobOf j).limit || decide (reason = .setFull ∨ reason = .ceiling) } ∧
    (∀ i, i ≠ j → u.reports.jobOf i = s.reports.jobOf i) ∧
    u.reports = { s.reports with jobEvents := u.reports.jobEvents } := by
  subst hu
  have job := s.meter.job_setJob j
  have events := s.reports.jobOf_setJob j
  refine ⟨(job _ j).trans (if_pos rfl), fun i hi => (job _ i).trans (if_neg hi), rfl, ?_,
    fun i hi => (events _ i).trans (if_neg hi), rfl⟩
  rw [← reason.limits_eq]
  exact (events _ j).trans (if_pos rfl)

section
variable {s : State} {tag : Fin 32} {ap : Aperture} (hi : s.chip.inInit = false)
  (hap : ap = s.aperture (addressAperture (s.link.tag tag).address)) (hs : ap.state = .enabled) (hk : ap.kind = .reprint)
include hi hap hs hk

theorem State.decodeRead_withheld {reason : Reason}
    (h : s.meterDecision ap.restored ap.job (addressKey (s.link.tag tag).address).page = .withheld reason) :
    s.decodeRead tag = (s.withhold ap.job reason).answerRead tag (fillAnswer .withheld ap.fill) := by
  unfold State.decodeRead
  simp only [← hap, hi, hs, hk, h, Bool.false_eq_true, reduceCtorEq, if_false, if_true]

theorem State.decodeRead_charged {c : Charge}
    (h : s.meterDecision ap.restored ap.job (addressKey (s.link.tag tag).address).page = .charged c) :
    s.decodeRead tag = (s.charge ap.job (addressKey (s.link.tag tag).address).page c).walkRead tag ap
      (addressKey (s.link.tag tag).address) := by
  unfold State.decodeRead
  simp only [← hap, hi, hs, hk, h, Bool.false_eq_true, reduceCtorEq, if_false, if_true]

end

/-- Settles O13: the decode withholds the read and answers it with the fill byte. -/
theorem readDecodeWithheld : Obligations.ReadDecodeWithheld := by
  intro tag s ap reason hp hd hi hap hs hk hm
  obtain ⟨hjob, hjobs, hmeter, hevents, hothers, hreports⟩ := s.withhold_spec ap.job reason rfl
  refine ⟨(s.withhold ap.job reason).answerRead tag (fillAnswer .withheld ap.fill), ?_, s.link.answer_spec tag _,
    hjob, hjobs, hmeter, hevents, hothers, hreports, rfl⟩
  rw [exec_readDecode_decoding hp hd, State.decodeRead_withheld hi hap hs hk hm]

/-! ### A charged read (R123, R142) -/

/-- The meter after a charge: the account is debited, and the page joins the charged set at its end (R119, R123). -/
theorem State.charge_meter (s : State) (j p : Nat) (c : Charge) {m : Meter} (hm : m = (s.charge j p c).meter) :
    m.account (s.meter.job j).account = { s.meter.account (s.meter.job j).account with
      balance := (s.meter.account (s.meter.job j).account).balance - c.fee
      charged := (s.meter.account (s.meter.job j).account).charged + c.fee } ∧
    (∀ a, a ≠ (s.meter.job j).account → m.account a = s.meter.account a) ∧
    m.job j = { s.meter.job j with
      total := (s.meter.job j).total + c.fee, purchases := (s.meter.job j).purchases ++ [⟨p, c.fee, c.ordinal⟩] } ∧
    (∀ i, i ≠ j → m.job i = s.meter.job i) ∧ m = { s.meter with accounts := m.accounts, jobs := m.jobs } := by
  subst hm
  have account := s.meter.account_setAccount (s.meter.job j).account
  have job := (s.meter.setAccount (s.meter.job j).account { s.meter.account (s.meter.job j).account with
    balance := (s.meter.account (s.meter.job j).account).balance - c.fee
    charged := (s.meter.account (s.meter.job j).account).charged + c.fee }).job_setJob j
  exact ⟨(account _ _).trans (if_pos rfl), fun a ha => (account _ a).trans (if_neg ha), (job _ j).trans (if_pos rfl),
    fun i hi => (job _ i).trans (if_neg hi), rfl⟩

/-- The statuses after a record has joined the log (R144, R146). -/
theorem Statuses.afterAppend_append (st : Statuses) (l : ChargeLog) (r : ChargeRecord) :
    st.afterAppend (l.append r) = { st with
      logReady := st.logReady || decide (l.threshold ≤ l.charges.length + 1)
      logFull := st.logFull || decide (l.charges.length + 1 = 1024) } := by
  simp [Statuses.afterAppend, ChargeLog.append, Config.logCapacity, beq_eq_decide]

/-- The reports after a charge: CHARGED of the job, LOG READY and LOG FULL (R123, R144, R146). -/
theorem State.charge_reports (s : State) (j p : Nat) (c : Charge) {r : Reports} (hr : r = (s.charge j p c).reports) :
    r.jobOf j = { s.reports.jobOf j with charged := true } ∧ (∀ i, i ≠ j → r.jobOf i = s.reports.jobOf i) ∧
    r.statuses = { s.reports.statuses with
      logReady := s.reports.statuses.logReady || decide (s.log.threshold ≤ s.log.charges.length + 1)
      logFull := s.reports.statuses.logFull || decide (s.log.charges.length + 1 = 1024) } ∧
    r.enables = s.reports.enables ∧ r.faults = s.reports.faults := by
  subst hr
  have events := s.reports.jobOf_setJob j { s.reports.jobOf j with charged := true }
  exact ⟨(events j).trans (if_pos rfl), fun i hi => (events i).trans (if_neg hi),
    s.reports.statuses.afterAppend_append s.log (s.recordFor j p c), rfl, rfl⟩

/-- A walked read is QUEUED or answered BLANK, by a change of link and port alone (R19, R32). -/
theorem State.walkRead_ends (s : State) (tag : Fin 32) (ap : Aperture) (k : Key) :
    ∃ link port, s.walkRead tag ap k = { s with link := link, port := port } ∧
      ((link.tag tag).state = .queued ∨
        (link.tag tag).state = .ready ∧ (link.tag tag).answer = some ⟨.blank, List.replicate 64 255⟩) := by
  refine ⟨_, _, s.walkRead_frame_eq tag ap k, ?_⟩
  rcases s.walkRead_cases tag ap k with blank | ⟨strip, eligible, queued⟩
  · obtain ⟨-, htag, -⟩ := s.link.answer_spec tag blankAnswer
    rw [blank]
    exact .inr ⟨congrArg TagEntry.state htag, congrArg TagEntry.answer htag⟩
  · obtain ⟨⟨-, htag, -⟩, -⟩ := s.queueRead_spec tag strip k.line eligible
    rw [queued]
    exact .inl (congrArg TagEntry.state htag)

/-- Settles O14: the decode charges the read, each block by its lemma, and then walks it. -/
theorem readDecodeCharged : Obligations.ReadDecodeCharged := by
  intro tag s ap p job account c hp hd hi hap hs hk hpage hjob haccount hm
  subst hpage hjob haccount
  obtain ⟨link, port, hwalk, hend⟩ :=
    (s.charge ap.job (addressKey (s.link.tag tag).address).page c).walkRead_ends tag ap (addressKey (s.link.tag tag).address)
  obtain ⟨hdebited, haccounts, hset, hjobs, hmeter⟩ :=
    s.charge_meter ap.job (addressKey (s.link.tag tag).address).page c rfl
  obtain ⟨hcharged, hevents, hstatuses, henables, hfaults⟩ :=
    s.charge_reports ap.job (addressKey (s.link.tag tag).address).page c rfl
  have hordinal := (State.affords_of_charged hm).ordinal
  rw [hordinal] at hset
  refine ⟨_, (exec_readDecode_decoding hp hd).trans (congrArg _ ((State.decodeRead_charged hi hap hs hk hm).trans hwalk)),
    hdebited, haccounts, hset, hjobs, hmeter, Store.page_setPage_self _ _ _,
    fun q hq => (Store.page_setPage _ _ _ q).trans (if_neg hq), rfl, ?_, hcharged, hevents, hstatuses, henables, hfaults,
    hend, rfl⟩
  rw [← hordinal]
  rfl

end Sys2Proof.Machine
end

section
/-! # The commands on accounts and jobs (R105 to R118) -/

namespace Sys2Proof.Machine

/-! ### Answers of a rule -/

/-- A rule that reports answers OK with its fields and changes nothing else (R184). -/
theorem State.take_reported {s : State} {c : Instr} {body : State → Reply} {fields : List Byte} (h : s.Ready c)
    (hb : body s = s.report fields) (d : Bool) : s.take c d body = { s with management := s.answered .ok fields } := by
  rw [State.take_ready_eq h, hb]
  rfl

/-- A rule that writes one account changes nothing else. -/
theorem State.take_setAccount {s : State} {c : Instr} {body : State → Reply} (h : s.Ready c) {a : Nat} {x : Account}
    (hb : body s = (s.setAccount a x).ok) (d : Bool) {t : State} (ht : t = s.take c d body) :
    t.meter.account a = x ∧ s.OnlyAccount t a := by
  rw [State.take_ok h hb rfl d] at ht
  subst ht
  have account := s.meter.account_setAccount a x
  exact ⟨(account a).trans (if_pos rfl), fun b hb => (account b).trans (if_neg hb), rfl⟩

/-- A rule that writes one job changes nothing else. -/
theorem State.take_setJob {s : State} {c : Instr} {body : State → Reply} (h : s.Ready c) {j : Nat} {x : Job}
    (hb : body s = (s.setJob j x).ok) (d : Bool) {t : State} (ht : t = s.take c d body) :
    t.meter.job j = x ∧ (∀ i, i ≠ j → t.meter.job i = s.meter.job i) ∧
      t = { s with meter := { s.meter with jobs := t.meter.jobs }, management := s.answered .ok [] } := by
  rw [State.take_ok h hb rfl d] at ht
  subst ht
  have job := s.meter.job_setJob j x
  exact ⟨(job j).trans (if_pos rfl), fun i hi => (job i).trans (if_neg hi), rfl⟩

/-! ### Accounts (R107 to R112) -/

/-- A rule that asks for a known account in one state and writes it: OPEN, SUSPEND and RESUME ACCOUNT (R107, R109). -/
theorem State.take_accountInState {s : State} {c : Instr} {body : State → Reply} (h : s.Ready c) {a : Nat} {x : Account}
    {state : AccountState} (hb : body s = if Config.accountCount ≤ a then s.refuse .range
      else if (s.meter.account a).state ≠ state then s.refuse .state else (s.setAccount a x).ok)
    (d : Bool) {t : State} (ht : t = s.take c d body) :
    (256 ≤ a → s.Refused t .range) ∧ (a < 256 → (s.meter.account a).state ≠ state → s.Refused t .state) ∧
      (a < 256 → (s.meter.account a).state = state → t.meter.account a = x ∧ s.OnlyAccount t a) := by
  subst ht
  refine ⟨fun ha => State.take_refused h (hb.trans (if_pos ha)) d, fun ha hs => ?_, fun ha hs => ?_⟩
  · exact State.take_refused h (hb.trans ((if_neg (Nat.not_le.2 ha)).trans (if_pos hs))) d
  · exact State.take_setAccount h (hb.trans ((if_neg (Nat.not_le.2 ha)).trans (if_neg (not_not.2 hs)))) d rfl

/-- Discounts above 100 are stored as 100 (R110). -/
theorem min_hundred_eq (d : Nat) : min 100 d = if 100 < d then 100 else d := by
  split <;> omega

/-- Settles O50: for each command its checks in their order, and the one account that it writes. -/
theorem accountsKept : Obligations.AccountsKept := by
  refine ⟨fun a amount s x hx => ?_, fun a t1 t2 d1 d2 s x hx => ?_⟩
  all_goals
    subst hx
    have known : a < 256 → ¬ Config.accountCount ≤ a := Nat.not_le.2
  · refine ⟨fun h => ⟨_, rfl, State.take_accountInState h rfl false rfl⟩,
      fun h => ⟨_, rfl, fun hr => ?_, fun ha hlow hhigh => ?_⟩,
      fun h => ⟨_, rfl, State.take_accountInState h rfl false rfl⟩,
      fun h => ⟨_, rfl, State.take_accountInState h rfl false rfl⟩⟩
    · refine State.take_refused h ?_ false
      by_cases ha : 256 ≤ a
      · exact if_pos ha
      · exact (if_neg ha).trans (if_pos (hr.resolve_left ha))
    · have hin : ¬ (amount < 1 ∨ Config.maxUnits < amount) := not_or.2 ⟨Nat.not_lt.2 hlow, Nat.not_lt.2 hhigh⟩
      refine ⟨fun hs => State.take_refused h ((if_neg (known ha)).trans ((if_neg hin).trans (if_pos hs))) false,
        fun hs ho => State.take_refused h ((if_neg (known ha)).trans ((if_neg hin).trans ((if_neg hs).trans
          (if_pos ho)))) false,
        fun hs hb hc => State.take_setAccount h ((if_neg (known ha)).trans ((if_neg hin).trans ((if_neg hs).trans
          (if_neg (not_or.2 ⟨Nat.not_lt.2 hb, Nat.not_lt.2 hc⟩))))) false rfl⟩
  · refine ⟨fun h => ⟨_, rfl, fun hr => ?_, fun ha hlow hord hhigh hs => ?_, fun ha hlow hord hhigh hs => ?_⟩,
      fun h => ⟨_, rfl, fun ha => State.take_refused h (if_pos ha) false, fun ha hs => ?_, fun ha hs hj => ?_,
        fun ha hs hj => ?_⟩,
      fun h => ⟨_, rfl, fun ha => State.take_refused h (if_pos ha) false, fun ha => ?_⟩⟩
    · refine State.take_refused h ?_ false
      by_cases ha : 256 ≤ a
      · exact if_pos ha
      by_cases hbounds : t1 < 1 ∨ 128 < t1 ∨ t2 < 1 ∨ 128 < t2
      · exact (if_neg ha).trans (if_pos hbounds)
      · exact (if_neg ha).trans ((if_neg hbounds).trans (if_pos (by omega)))
    · have hbounds : ¬ (t1 < 1 ∨ 128 < t1 ∨ t2 < 1 ∨ 128 < t2) := by omega
      exact State.take_refused h ((if_neg (known ha)).trans ((if_neg hbounds).trans
        ((if_neg (Nat.not_le.2 hord)).trans (if_pos hs)))) false
    · have hbounds : ¬ (t1 < 1 ∨ 128 < t1 ∨ t2 < 1 ∨ 128 < t2) := by omega
      rw [← min_hundred_eq, ← min_hundred_eq]
      exact State.take_setAccount h ((if_neg (known ha)).trans ((if_neg hbounds).trans
        ((if_neg (Nat.not_le.2 hord)).trans (if_neg hs)))) false rfl
    · exact State.take_refused h ((if_neg (known ha)).trans (if_pos hs)) false
    · exact State.take_refused h ((if_neg (known ha)).trans ((if_neg hs).trans (if_pos hj))) false
    · exact State.take_setAccount h ((if_neg (known ha)).trans ((if_neg hs).trans (if_neg (not_not.2 hj)))) false rfl
    · exact State.take_reported h (if_neg (known ha)) false

/-! ### Jobs (R115 to R118) -/

/-- An aperture names the job (R117). -/
theorem State.jobNamed_iff (s : State) (j : Nat) :
    s.jobNamed j = true ↔ ∃ e ∈ s.apertures, e.2.kind = .reprint ∧ e.2.job = j := by
  simp [State.jobNamed]

/-- A job opened for an account, before the answer (R115). -/
def State.jobOpened (s : State) (j a ceiling : Nat) : State :=
  (s.setJob j { state := .opened, account := a, ceiling := ceiling, openingDay := s.meter.date }).setAccount a
    { s.meter.account a with jobs := (s.meter.account a).jobs + 1 }

/-- The job stands as OPEN JOB says, its account counts one job more, and nothing else changes (R115). -/
theorem State.jobOpened_spec (s : State) (j a ceiling : Nat) {u : State} (hu : u = s.jobOpened j a ceiling) :
    u.meter.job j = ⟨.opened, a, ceiling, 0, [], 0, .none, s.meter.date⟩ ∧
    (∀ i, i ≠ j → u.meter.job i = s.meter.job i) ∧
    u.meter.account a = { s.meter.account a with jobs := (s.meter.account a).jobs + 1 } ∧
    (∀ b, b ≠ a → u.meter.account b = s.meter.account b) ∧
    u = { s with meter := { s.meter with accounts := u.meter.accounts, jobs := u.meter.jobs } } := by
  subst hu
  have job := s.meter.job_setJob j { state := .opened, account := a, ceiling := ceiling, openingDay := s.meter.date }
  have account := s.meter.account_setAccount a { s.meter.account a with jobs := (s.meter.account a).jobs + 1 }
  exact ⟨(job j).trans (if_pos rfl), fun i hi => (job i).trans (if_neg hi), (account a).trans (if_pos rfl),
    fun b hb => (account b).trans (if_neg hb), rfl⟩

/-- A job freed, before the answer (R117). -/
def State.jobFreed (s : State) (j : Nat) : State :=
  (((s.setStore ((s.meter.job j).purchases.foldl Store.unpin s.store)).setAccount (s.meter.job j).account
    { s.meter.account (s.meter.job j).account with
      jobs := (s.meter.account (s.meter.job j).account).jobs - 1 }).setJob j {}).setReports
    (s.reports.setJob j (s.reports.jobOf j).freed)

/-- The job is FREE, its account counts one job less, the pages of its charged set lose its pins, and its three statuses are
clear; nothing else changes (R117). -/
theorem State.jobFreed_spec (s : State) (j : Nat) {u : State} (hu : u = s.jobFreed j) :
    u.meter.job j = ⟨.free, 0, 0, 0, [], 0, .none, 0⟩ ∧ (∀ i, i ≠ j → u.meter.job i = s.meter.job i) ∧
    u.meter.account (s.meter.job j).account = { s.meter.account (s.meter.job j).account with
      jobs := (s.meter.account (s.meter.job j).account).jobs - 1 } ∧
    (∀ b, b ≠ (s.meter.job j).account → u.meter.account b = s.meter.account b) ∧
    (∀ p, u.store.page p = { s.store.page p with
      pins := (s.store.page p).pins - ((s.meter.job j).purchases.filter (fun e => e.page = p)).length }) ∧
    u.reports.jobOf j = { s.reports.jobOf j with charged := false, withheld := false, limit := false } ∧
    (∀ i, i ≠ j → u.reports.jobOf i = s.reports.jobOf i) ∧
    u = { s with
      meter := { s.meter with accounts := u.meter.accounts, jobs := u.meter.jobs }
      store := { s.store with pages := u.store.pages }
      reports := { s.reports with jobEvents := u.reports.jobEvents } } := by
  subst hu
  have job := s.meter.job_setJob j {}
  have account := s.meter.account_setAccount (s.meter.job j).account { s.meter.account (s.meter.job j).account with
    jobs := (s.meter.account (s.meter.job j).account).jobs - 1 }
  have events := s.reports.jobOf_setJob j (s.reports.jobOf j).freed
  refine ⟨(job j).trans (if_pos rfl), fun i hi => (job i).trans (if_neg hi), (account _).trans (if_pos rfl),
    fun b hb => (account b).trans (if_neg hb), page_foldl_unpin _ _, (events j).trans (if_pos rfl),
    fun i hi => (events i).trans (if_neg hi), ?_⟩
  unfold State.jobFreed
  rw [foldl_unpin_frame]
  rfl

/-- Settles O51: for each command its checks in their order, then what it leaves of the job and of what counts it. -/
theorem jobCommands : Obligations.JobCommands := by
  intro j a ceiling portion s x y hx
  subst hx
  have known : j < 64 → ¬ Config.jobCount ≤ j := Nat.not_le.2
  refine ⟨fun h hy => ⟨_, rfl, fun hr => ?_, fun hj ha hc => ?_⟩,
    fun h => ⟨_, rfl, fun hj => State.take_refused h (if_pos hj) false, fun hj hs => ?_, fun hj hs => ?_⟩,
    fun h hy => ⟨_, rfl, fun hj => State.take_refused h (if_pos hj) false, fun hj hs => ?_, fun hj hs => ?_⟩,
    fun h => ⟨_, rfl, fun hr => ?_, fun hj hp => ?_⟩⟩
  · refine State.take_refused h ?_ false
    by_cases hj : 64 ≤ j
    · exact if_pos hj
    · exact (if_neg hj).trans (if_pos (hr.resolve_left hj))
  · subst hy
    have hin : ¬ (Config.accountCount ≤ a ∨ Config.maxUnits < ceiling) :=
      not_or.2 ⟨Nat.not_le.2 ha, Nat.not_lt.2 hc⟩
    refine ⟨fun hs => State.take_refused h ((if_neg (known hj)).trans ((if_neg hin).trans (if_pos hs))) false,
      fun hs hclosed => ?_, fun hs hsuspended => ?_, fun hs hactive => ?_⟩
    · exact State.take_refused h ((if_neg (known hj)).trans ((if_neg hin).trans ((if_neg (not_not.2 hs)).trans
        (if_pos hclosed)))) false
    · exact State.take_refused h ((if_neg (known hj)).trans ((if_neg hin).trans ((if_neg (not_not.2 hs)).trans
        ((if_neg (by rw [hsuspended]; nofun)).trans (if_pos hsuspended))))) false
    · obtain ⟨hjob, hjobs, haccount, haccounts, hframe⟩ := s.jobOpened_spec j a ceiling rfl
      rw [State.take_ok (u := s.jobOpened j a ceiling) h ((if_neg (known hj)).trans ((if_neg hin).trans
        ((if_neg (not_not.2 hs)).trans ((if_neg (by rw [hactive]; nofun)).trans
          (if_neg (by rw [hactive]; nofun)))))) rfl false]
      exact ⟨hjob, hjobs, haccount, haccounts,
        congrArg (fun u : State => { u with management := s.answered .ok [] }) hframe⟩
  · exact State.take_refused h ((if_neg (known hj)).trans (if_pos hs)) false
  · exact State.take_setJob h ((if_neg (known hj)).trans (if_neg (not_not.2 hs))) false rfl
  · exact State.take_refused h ((if_neg (known hj)).trans (if_pos hs)) false
  · subst hy
    refine ⟨fun hn => State.take_refused h ((if_neg (known hj)).trans ((if_neg (not_not.2 hs)).trans
      (if_pos ((s.jobNamed_iff j).2 hn)))) false, fun hn => ?_⟩
    have hfree : ¬ s.jobNamed j = true := fun hx =>
      ((s.jobNamed_iff j).1 hx).elim fun e ⟨he, hk, hj⟩ => hn e he hk hj
    obtain ⟨hjob, hjobs, haccount, haccounts, hpages, hevents, hothers, hframe⟩ := s.jobFreed_spec j rfl
    rw [State.take_ok (u := s.jobFreed j) h ((if_neg (known hj)).trans ((if_neg (not_not.2 hs)).trans
      (if_neg hfree))) rfl false]
    exact ⟨hjob, hjobs, haccount, haccounts, hpages, hevents, hothers,
      congrArg (fun u : State => { u with management := s.answered .ok [] }) hframe⟩
  · refine State.take_refused h ?_ false
    by_cases hj : 64 ≤ j
    · exact if_pos hj
    · exact (if_neg hj).trans (if_pos (hr.resolve_left hj))
  · exact State.take_reported h ((if_neg (known hj)).trans (if_neg (Nat.not_le.2 hp))) false

end Sys2Proof.Machine
end

section
/-! # The fee's rounding and the tariff's settings (R128 to R136, R139) -/

namespace Sys2Proof.Machine

/-! ### The fee (R136) -/

/-- The exact product of a fee is greatest at the highest rate and surcharge with no discount. -/
theorem feeProduct_le {b r : Nat} (hb : b ≤ 65535) (hr : r ≤ 100) (d : Nat) :
    b * (100 + r) * (100 - d) ≤ 1310700000 :=
  calc b * (100 + r) * (100 - d)
    _ ≤ 65535 * 200 * 100 :=
      Nat.mul_le_mul (Nat.mul_le_mul hb (Nat.add_le_add_left hr 100)) (Nat.sub_le 100 d)
    _ = 1310700000 := rfl

/-- A half added before the division rounds to the nearest whole unit, an exact half up: 10,000 times the fee is at most
5,000 above the product and less than 5,000 below it. -/
theorem feeOf_nearest (b r d : Nat) : 10000 * feeOf b r d ≤ b * (100 + r) * (100 - d) + 5000 ∧
    b * (100 + r) * (100 - d) < 10000 * feeOf b r d + 5000 := by
  unfold feeOf
  omega

/-- A product of less than half a unit is rounded to 0. -/
theorem feeOf_eq_zero {b r d : Nat} (h : b * (100 + r) * (100 - d) < 5000) : feeOf b r d = 0 := by
  obtain ⟨hlow, -⟩ := feeOf_nearest b r d
  omega

/-- A rate of 0 and a discount of 100 make the product 0. -/
theorem feeProduct_eq_zero {b d : Nat} (h : b = 0 ∨ d = 100) (r : Nat) : b * (100 + r) * (100 - d) = 0 := by
  obtain rfl | rfl := h
  · rw [Nat.zero_mul, Nat.zero_mul]
  · exact Nat.mul_zero _

/-- Settles O15: the bounds of the fee from those of the product, and its zeros from the rounding. -/
theorem feeRoundsOnce : Obligations.FeeRoundsOnce := by
  refine ⟨fun b r d hb hr _ => ?_, rfl⟩
  have hproduct := feeProduct_le hb hr d
  obtain ⟨hlow, hhigh⟩ := feeOf_nearest b r d
  refine ⟨hproduct, rfl, hlow, hhigh, by omega, fun hzero => feeOf_eq_zero ?_⟩
  rcases hzero with hb | hd | hsmall
  · rw [feeProduct_eq_zero (.inl hb)]; decide
  · rw [feeProduct_eq_zero (.inr hd)]; decide
  · exact hsmall

/-! ### The settings (R128, R131 to R133, R139) -/

/-- The four rates of a class are written, and those of every other class stay (R132). -/
theorem Meter.rate_setRow (m : Meter) (c r0 r1 r2 r3 d : Nat) {b : Nat} (hb : b < 4) :
    (m.setRow c r0 r1 r2 r3).rate d b =
      if d = c then (if b = 0 then r0 else if b = 1 then r1 else if b = 2 then r2 else r3) else m.rate d b := by
  unfold Meter.setRow
  iterate 4 rw [Meter.rate_setRate _ _ _ _ _ _ (by decide) hb]
  by_cases hd : d = c
  · obtain rfl | rfl | rfl | rfl : b = 0 ∨ b = 1 ∨ b = 2 ∨ b = 3 := by omega
    all_goals simp [hd]
  · simp [hd]

/-- A rule that writes a setting of the meter changes nothing else. -/
theorem State.take_setMeter {s : State} {c : Instr} {body : State → Reply} (h : s.Ready c) {m : Meter}
    (hb : body s = (s.setMeter m).ok) (d : Bool) :
    s.take c d body = { s with meter := m, management := s.answered .ok [] } :=
  State.take_ok h hb rfl d

/-- A rule that writes the four rates of a class changes nothing else. -/
theorem State.take_setRow {s : State} {c : Instr} {body : State → Reply} (h : s.Ready c) {k r0 r1 r2 r3 : Nat}
    (hb : body s = (s.setMeter (s.meter.setRow k r0 r1 r2 r3)).ok) (d : Bool) {t : State} (ht : t = s.take c d body) :
    t.meter.rate k 0 = r0 ∧ t.meter.rate k 1 = r1 ∧ t.meter.rate k 2 = r2 ∧ t.meter.rate k 3 = r3 ∧
      (∀ e b, e ≠ k → b < 4 → t.meter.rate e b = s.meter.rate e b) ∧
      t = { s with meter := { s.meter with rates := t.meter.rates }, management := s.answered .ok [] } := by
  rw [State.take_setMeter h hb d] at ht
  subst ht
  have written {b : Nat} (hb : b < 4) := (s.meter.rate_setRow k r0 r1 r2 r3 k hb).trans (if_pos rfl)
  have kept {e b : Nat} (he : e ≠ k) (hb : b < 4) := (s.meter.rate_setRow k r0 r1 r2 r3 e hb).trans (if_neg he)
  exact ⟨written (by decide), written (by decide), written (by decide), written (by decide), fun _ _ => kept, rfl⟩

/-- Settles O52: for each command its checks in their order, then the one setting that it writes. -/
theorem tariffCommands : Obligations.TariffCommands := by
  intro day a1 a2 a3 c r0 r1 r2 r3 surcharge s
  refine ⟨fun h => ⟨_, rfl, fun hday => State.take_refused h (if_pos hday) false, fun hday hback => ?_,
      fun hday hforward => ?_⟩,
    fun h => ⟨_, rfl, fun hr => State.take_refused h ?_ false, fun h12 h23 h3 => ?_⟩,
    fun h => ⟨_, rfl, fun hr => State.take_refused h (if_pos hr) false, fun hc h0 h1 h2 h3 => ?_⟩,
    fun h => ⟨_, rfl, fun hs => State.take_refused h (if_pos hs) false, fun hs => ?_⟩,
    fun h => ⟨_, rfl, fun hc => State.take_refused h (if_pos hc) false, fun hc => ?_⟩⟩
  · exact State.take_refused h ((if_neg (Nat.not_lt.2 hday)).trans (if_pos hback)) false
  · exact State.take_setMeter h ((if_neg (Nat.not_lt.2 hday)).trans (if_neg (Nat.not_lt.2 hforward))) false
  · by_cases hwidth : 255 < a1 ∨ 255 < a2 ∨ 255 < a3
    · exact if_pos hwidth
    · exact (if_neg hwidth).trans (if_pos (by omega))
  · exact State.take_setMeter h ((if_neg (by omega)).trans (if_neg (by omega))) false
  · have hin : ¬ (32 ≤ c ∨ 65535 < r0 ∨ 65535 < r1 ∨ 65535 < r2 ∨ 65535 < r3) := by omega
    exact State.take_setRow h (if_neg hin) false rfl
  · rw [← min_hundred_eq]
    exact State.take_setMeter h (if_neg (Nat.not_lt.2 hs)) false
  · exact State.take_reported h (if_neg (Nat.not_le.2 hc)) false

end Sys2Proof.Machine
end

section
/-! # The charge log's commands (R143 to R145) -/

namespace Sys2Proof.Machine

/-! ### Records drained from a queue -/

/-- What the removed records leave of a count is the length of what is left. -/
theorem length_sub_length_take {α : Type} (l : List α) (n : Nat) : l.length - (l.take n).length = (l.drop n).length := by
  rw [List.length_take, List.length_drop]
  omega

/-! ### READ CHARGES (R143, R144) -/

/-- The response counts the records that stay in the drained log (R143). -/
theorem ChargeLog.drainFields_eq (l : ChargeLog) (most : Nat) :
    l.drainFields most = bytesOf 1 (l.charges.take most).length ++ (l.charges.take most).flatMap ChargeRecord.fields ++
      bytesOf 2 (l.drain most).charges.length ++ bytesOf 4 l.nextSequence.toNat := by
  simp only [ChargeLog.drainFields, ChargeLog.drain, length_sub_length_take]

/-! ### SET LOG MODE (R145) -/

theorem clearModeOf_above {mode : Nat} (h : 1 < mode) : clearModeOf mode = none := by
  obtain ⟨n, rfl⟩ := Nat.exists_eq_add_of_le' h
  rfl

theorem clearModeOf_code {mode : Nat} (h : mode ≤ 1) : clearModeOf mode = some (if mode = 0 then .auto else .explicit) := by
  obtain rfl | rfl : mode = 0 ∨ mode = 1 := by omega
  all_goals rfl

/-- A log that has reached its threshold raises LOG READY (R145). -/
theorem Statuses.afterMode_reached {l : ChargeLog} (h : l.threshold ≤ l.charges.length) (st : Statuses) :
    (st.afterMode l).logReady = true := if_pos h

/-- Below the threshold AUTO mode clears LOG READY (R145). -/
theorem Statuses.afterMode_auto {l : ChargeLog} (h : l.charges.length < l.threshold) (hm : l.mode = .auto)
    (st : Statuses) : (st.afterMode l).logReady = false := (if_neg (Nat.not_le.2 h)).trans (if_pos hm)

/-- Below the threshold EXPLICIT mode keeps LOG READY (R145). -/
theorem Statuses.afterMode_explicit {l : ChargeLog} (h : l.charges.length < l.threshold) (hm : l.mode = .explicit)
    (st : Statuses) : (st.afterMode l).logReady = st.logReady :=
  (if_neg (Nat.not_le.2 h)).trans (if_neg (by rw [hm]; nofun))

/-- The threshold and the mode are stored together, and LOG READY follows the log that they make (R145). -/
theorem take_setLogMode {threshold mode : Nat} {s : State} {l : ChargeLog} (h : s.Ready (.setLogMode threshold mode))
    (hlow : 1 ≤ threshold) (hhigh : threshold ≤ 1024) (hmode : mode ≤ 1)
    (hl : l = { s.log with threshold := threshold, mode := if mode = 0 then .auto else .explicit }) :
    exec (.setLogMode threshold mode) s = .next { s with
      log := l, reports := { s.reports with statuses := s.reports.statuses.afterMode l }
      management := s.answered .ok [] } := by
  have hin : ¬ (threshold < 1 ∨ Config.logCapacity < threshold) := not_or.2 ⟨Nat.not_lt.2 hlow, Nat.not_lt.2 hhigh⟩
  subst hl
  refine congrArg _ ((State.take_ready_eq h false _).trans ?_)
  simp only [clearModeOf_code hmode, if_neg hin]
  rfl

/-- Settles O53: for each command its checks, then the log it leaves and LOG READY by the rule on that log. -/
theorem logCommands : Obligations.LogCommands := by
  intro most threshold mode s
  refine ⟨fun h => ⟨_, rfl, fun hr => State.take_refused h (if_pos hr) false, fun hlow hhigh => ?_⟩, fun h => ?_⟩
  · have hin : ¬ (most < 1 ∨ 8 < most) := by omega
    rw [State.take_ready_eq h, if_neg hin]
    exact ⟨(List.take_append_drop _ _).symm, List.length_drop, congrArg (s.answered .ok) (s.log.drainFields_eq most),
      rfl, rfl⟩
  · obtain ⟨t, ht⟩ : ∃ t, exec (.setLogMode threshold mode) s = .next t := ⟨_, rfl⟩
    refine ⟨t, ht, fun hr => ?_, fun hlow hhigh hmode => ?_⟩
    · cases ht
      refine State.take_refused h ?_ false
      have hc : Config.logCapacity = 1024 := rfl
      by_cases hm : 1 < mode
      · rw [clearModeOf_above hm]
      · rw [clearModeOf_code (Nat.not_lt.1 hm)]
        exact if_pos (by omega)
    · cases ht.symm.trans (take_setLogMode h hlow hhigh hmode rfl)
      exact ⟨fun hreached => Statuses.afterMode_reached hreached _,
        fun hbelow h0 => Statuses.afterMode_auto hbelow (if_pos h0) _,
        fun hbelow h1 => Statuses.afterMode_explicit hbelow (if_neg (by omega)) _, rfl⟩

end Sys2Proof.Machine
end

section
/-! # The fault queue and the commands on events (R172 to R181) -/

namespace Sys2Proof.Machine

/-! ### READ FAULTS (R172) -/

/-- The response counts the records that stay in the queue (R172). -/
theorem Reports.faultFields_eq (r : Reports) :
    r.faultFields = bytesOf 1 (r.faults.take 4).length ++ (r.faults.take 4).flatMap FaultRecord.fields ++
      bytesOf 1 (r.faults.drop 4).length := by
  simp only [Reports.faultFields, length_sub_length_take]

/-! ### The device events (R144, R175, R176) -/

theorem flagCode_testBit (mask i : Nat) : flagCode (mask.testBit i) = mask / 2 ^ i % 2 := by
  rw [← Nat.toNat_testBit]
  cases mask.testBit i <;> rfl

/-- The enables that a mask names make up its ten low bits (R176). -/
theorem mask_enablesOfMask (mask : Nat) : (enablesOfMask mask).mask = mask % 1024 := by
  unfold DeviceEnables.mask enablesOfMask
  simp only [flagCode_testBit]
  omega

/-- LOG READY stays in AUTO mode, whatever the mask (R144). -/
theorem Statuses.acknowledge_logReady (st : Statuses) (mask : Nat) (mode : ClearMode) :
    (st.acknowledge mask mode).logReady = (st.logReady && (decide (mode = .auto) || !mask.testBit 7)) := by
  unfold Statuses.acknowledge
  cases mode <;> simp

/-! ### The events of one job (R178) -/

/-- A rule that writes the events of one job changes nothing else. -/
theorem State.take_setJobEvents {s : State} {c : Instr} {body : State → Reply} (h : s.Ready c) {j : Nat} {e : JobEvents}
    (hb : body s = (s.setReports (s.reports.setJob j e)).ok) (d : Bool) {t : State} (ht : t = s.take c d body) :
    t.reports.jobOf j = e ∧ (∀ i, i ≠ j → t.reports.jobOf i = s.reports.jobOf i) ∧
      t = { s with reports := { s.reports with jobEvents := t.reports.jobEvents }, management := s.answered .ok [] } := by
  rw [State.take_ok h hb rfl d] at ht
  subst ht
  have events := s.reports.jobOf_setJob j e
  exact ⟨(events j).trans (if_pos rfl), fun i hi => (events i).trans (if_neg hi), rfl⟩

/-- Settles O55: the queue of faults and the report, the masks of the device, then those of one job. -/
theorem faultsAndEvents : Obligations.FaultsAndEvents := by
  refine ⟨fun s => ⟨fun h => ⟨_, rfl, ?_⟩, fun h => congrArg _ (State.take_of_taken h _)⟩, fun j mask s e he => ?_⟩
  · rw [State.take_ready_eq h]
    exact ⟨(List.take_append_drop _ _).symm, List.length_drop, congrArg (s.answered .ok) s.reports.faultFields_eq, rfl⟩
  · subst he
    have known : j < 64 → ¬ Config.jobCount ≤ j := Nat.not_le.2
    refine ⟨fun h => ?_, fun h => ⟨_, rfl, ?_⟩,
      fun h => ⟨_, rfl, fun hj => State.take_refused h (if_pos hj) false,
        fun hj => State.take_setJobEvents h (if_neg (known hj)) false rfl⟩,
      fun h => ⟨_, rfl, fun hj => State.take_refused h (if_pos hj) false,
        fun hj => State.take_setJobEvents h (if_neg (known hj)) false rfl⟩⟩
    · rw [← Statuses.acknowledge_logReady]
      exact congrArg _ (State.take_ready_eq h false _)
    · rw [State.take_of_taken h]
      exact ⟨mask_enablesOfMask mask, rfl⟩

end Sys2Proof.Machine
end

section
/-! # The store port: its timers, its arbiter, its bank machines and the start of a transfer (R153, R155 to R161, R168) -/

namespace Sys2Proof.Machine

/-! ### The timers (R156 to R158, R161) -/

theorem exec_quietTimerExpiry {s : State} (hp : s.chip.resetPin = false) {since : Nat}
    (h : s.port.quiet = .running since) : exec .quietTimerExpiry s =
      .next ((s.reach (since + s.port.quietTime)).setPort { s.port with quiet := .expired }) := by
  simp [exec, execQuietTimerExpiry, State.live_released hp, h]

theorem exec_agingClockExpiry {s : State} (hp : s.chip.resetPin = false) {since : Nat}
    (h : s.port.aging = .running since) : exec .agingClockExpiry s =
      .next ((s.reach (since + 1000 * s.port.agingLimit)).setPort { s.port with aging := .aged }) := by
  simp [exec, execAgingClockExpiry, State.live_released hp, h]

/-- Settles O25: the two running timers, then the five expiries that only bring the clock to their period's end. -/
theorem timersExpire : Obligations.TimersExpire := by
  intro s hp
  have live := State.live_released hp
  exact ⟨fun _ => exec_quietTimerExpiry hp, fun _ => exec_agingClockExpiry hp, congrArg _ (live _),
    fun b => ⟨congrArg _ (live _), congrArg _ (live _), congrArg _ (live _)⟩⟩

/-! ### The start of a transfer (R161) -/

/-- The four conditions of R161, for the front of the issue list. -/
theorem Port.mayTransfer_iff {p : Port} {a : Access} {rest : List Access} (h : p.issueList = a :: rest) (now : Nat) :
    p.mayTransfer now = true ↔ p.transferring = false ∧ (p.bank a.bank).state = .opened a.strip ∧
      ∀ d, p.lastDirection = some d → d ≠ a.direction → p.turnaroundUntil ≤ now := by
  unfold Port.mayTransfer
  rw [h]
  cases p.lastDirection with
  | none => simp
  | some d => simp [or_iff_not_imp_left]

theorem exec_transferStart {s : State} (hp : s.chip.resetPin = false) : exec .transferStart s =
    .next (if s.port.mayTransfer s.chip.now then s.setPort { s.port with transferring := true } else s) :=
  congrArg _ (State.live_released hp _)

/-- Settles O27: a transfer starts under the four conditions, and not without one of them. -/
theorem transferStarts : Obligations.TransferStarts := by
  intro a rest s hp hl
  have may := Port.mayTransfer_iff hl s.chip.now
  rw [exec_transferStart hp]
  refine ⟨fun hfree hopen hturn => congrArg _ (if_pos (may.2 ⟨hfree, hopen, hturn⟩)),
    fun h => congrArg _ (if_neg fun hmay => ?_)⟩
  obtain ⟨hfree, hopen, hturn⟩ := may.1 hmay
  rcases h with hbusy | hother | ⟨d, hd, hne, hearly⟩
  · exact absurd (hbusy.symm.trans hfree) nofun
  · exact hother hopen
  · exact Nat.not_le.2 hearly (hturn d hd hne)

/-! ### The arbiter (R153, R155 to R157) -/

theorem Port.choose_full {p : Port} (h : 8 ≤ p.issueList.length) : p.choose = .nothing := if_pos h

/-- With a free place and an empty link-side queue, the engine head goes when the quiet time has expired or the engine
side is aged (R155, R157). -/
theorem Port.choose_of_link_empty {p : Port} (h : p.issueList.length < 8) (hl : p.linkQueue = []) :
    p.choose = if p.engineQueue ≠ [] ∧ (p.quiet = .expired ∨ p.aging = .aged) then .engineHead else .nothing := by
  have hroom : ¬ Config.issueCapacity ≤ p.issueList.length := Nat.not_le.2 h
  simp [Port.choose, hroom, hl]

/-- With a free place, the head of a link-side queue that holds one goes first unless the engine side is aged and the
last issue was not the engine's (R155, R157). -/
theorem Port.choose_of_link_waits {p : Port} (h : p.issueList.length < 8) (hl : p.linkQueue ≠ []) :
    p.choose = if p.engineQueue ≠ [] ∧ p.aging = .aged ∧ p.lastIssueEngine = false then .engineHead else .linkHead := by
  have hroom : ¬ Config.issueCapacity ≤ p.issueList.length := Nat.not_le.2 h
  simp [Port.choose, hroom, hl, and_assoc]

/-- Whether an access has been issued does not depend on the queues, the timers and the last issue. -/
theorem Port.Issued.congr {p q r : Port} {a : Access} (h : p.Issued q a) (hr : r = { q with
    linkQueue := r.linkQueue, engineQueue := r.engineQueue, quiet := r.quiet, aging := r.aging
    lastIssueEngine := r.lastIssueEngine }) : p.Issued r a := by
  obtain ⟨hframe, hbanks⟩ := h
  have hbank : r.bank = q.bank := funext (Port.bank_congr (by rw [hr]))
  refine ⟨?_, hbank ▸ hbanks⟩
  rw [hr, hframe]

/-- The link head is issued; the quiet timer starts when its queue becomes empty (R155, R156). -/
theorem Port.issueLink_spec (p : Port) (now : Nat) (a : Access) (rest : List Access) {q : Port}
    (hq : q = p.issueLink now a rest) : p.Issued q a ∧ q.linkQueue = rest ∧ q.engineQueue = p.engineQueue ∧
      q.aging = p.aging ∧ q.lastIssueEngine = false ∧
      q.quiet = if rest = [] then (if p.quietTime = 0 then .expired else .running now) else p.quiet := by
  obtain ⟨hissued, -, hengine, hquiet, haging, htime⟩ := p.issue_spec a
  cases rest with
  | nil => subst hq; exact ⟨hissued.congr rfl, rfl, hengine, haging, rfl, by rw [← htime]; rfl⟩
  | cons => subst hq; exact ⟨hissued.congr rfl, rfl, hengine, haging, rfl, hquiet⟩

/-- The engine head is issued, which stops the aging clock (R155, R157). -/
theorem Port.issueEngine_spec (p : Port) (a : Access) (rest : List Access) {q : Port} (hq : q = p.issueEngine a rest) :
    p.Issued q a ∧ q.engineQueue = rest ∧ q.linkQueue = p.linkQueue ∧ q.aging = .stopped ∧ q.lastIssueEngine = true ∧
      q.quiet = p.quiet := by
  obtain ⟨hissued, hlink, -, hquiet, -, -⟩ := p.issue_spec a
  subst hq
  exact ⟨hissued.congr rfl, rfl, hlink, rfl, rfl, hquiet⟩

theorem exec_arbiterIssue_nothing {s : State} (hp : s.chip.resetPin = false) (h : s.port.choose = .nothing) :
    exec .arbiterIssue s = .next s := by
  simp [exec, execArbiterIssue, State.live_released hp, h]

/-- The issue of the link head: a carried write that leaves the last of its 64 places makes an attempt owed (R153). -/
theorem exec_arbiterIssue_link {s : State} (hp : s.chip.resetPin = false) (h : s.port.choose = .linkHead) {a : Access}
    {rest : List Access} (hl : s.port.linkQueue = a :: rest) : exec .arbiterIssue s = .next { s with
      port := s.port.issueLink s.chip.now a rest
      link := { s.link with
        attemptDue := s.link.attemptDue || decide (64 ≤ s.port.carriedCount) && a.isCarried } } := by
  simp only [exec, execArbiterIssue, State.live_released hp, h, hl]
  by_cases hdue : (decide (64 ≤ s.port.carriedCount) && a.isCarried) = true
  · rw [if_pos hdue, hdue, Bool.or_true]
    rfl
  · rw [if_neg hdue, Bool.eq_false_iff.2 hdue, Bool.or_false]

theorem exec_arbiterIssue_engine {s : State} (hp : s.chip.resetPin = false) (h : s.port.choose = .engineHead) {a : Access}
    {rest : List Access} (he : s.port.engineQueue = a :: rest) :
    exec .arbiterIssue s = .next (s.setPort (s.port.issueEngine a rest)) := by
  simp [exec, execArbiterIssue, State.live_released hp, h, he]

/-- Settles O24: with no place nothing is issued, and with one the arbiter's choice says which head. -/
theorem arbiterIssues : Obligations.ArbiterIssues := by
  refine fun s hp => ⟨fun hfull => exec_arbiterIssue_nothing hp (Port.choose_full hfull), fun hroom =>
    ⟨fun a rest hl hlink => ?_, fun a rest he hengine => ?_, fun hl hnone => ?_⟩⟩
  · have hc := (Port.choose_of_link_waits hroom (hl ▸ List.cons_ne_nil a rest)).trans (if_neg hlink)
    obtain ⟨hissued, hqueue, hengine, haging, hlast, hquiet⟩ := s.port.issueLink_spec s.chip.now a rest rfl
    exact ⟨_, exec_arbiterIssue_link hp hc hl, hissued, hqueue, hengine, haging, hlast, hquiet, rfl⟩
  · have hwaits : s.port.engineQueue ≠ [] := he ▸ List.cons_ne_nil a rest
    have hc : s.port.choose = .engineHead := by
      rcases hengine with ⟨hl, haged⟩ | ⟨hl, hdue⟩
      · exact (Port.choose_of_link_waits hroom hl).trans (if_pos ⟨hwaits, haged⟩)
      · exact (Port.choose_of_link_empty hroom hl).trans (if_pos ⟨hwaits, hdue⟩)
    obtain ⟨hissued, hqueue, hlink, haging, hlast, hquiet⟩ := s.port.issueEngine_spec a rest rfl
    exact ⟨_, exec_arbiterIssue_engine hp hc he, hissued, hqueue, hlink, haging, hlast, hquiet, rfl⟩
  · refine exec_arbiterIssue_nothing hp ((Port.choose_of_link_empty hroom hl).trans (if_neg ?_))
    rintro ⟨hwaits, hdue⟩
    rcases hnone with hempty | ⟨hquiet, haging⟩
    · exact hwaits hempty
    · exact hdue.elim hquiet haging

/-! ### The bank machines (R158 to R160, R163, R168) -/

/-- One bank machine is written, and the others stay. -/
theorem Port.setBank_spec (p : Port) (b : Nat) (k : Bank) {q : Port} (hq : q = p.setBank b k) :
    q.bank b = k ∧ (∀ c, c ≠ b → q.bank c = p.bank c) := by
  subst hq
  exact ⟨(p.bank_setBank b k b).trans (if_pos rfl), fun c hc => (p.bank_setBank b k c).trans (if_neg hc)⟩

theorem exec_bankOpenStart {s : State} (hp : s.chip.resetPin = false) {b : Fin 8} {a : Access} {rest : List Access}
    (hw : s.port.waitList b.val = a :: rest) : exec (.bankOpenStart b) s = .next
      (if (s.port.bank b.val).state = .idle ∧ (s.port.bank b.val).rowCycleUntil ≤ s.chip.now then
        s.setPort (s.port.setBank b.val ((s.port.bank b.val).startOpen s.port.timing s.chip.now a.strip))
      else s) := by
  simp only [exec, execBankOpenStart, State.live_released hp, hw]

theorem exec_bankOpenStart_stays {s : State} (hp : s.chip.resetPin = false) {b : Fin 8}
    (h : s.port.waitList b.val = [] ∨ (s.port.bank b.val).state ≠ .idle ∨
      s.chip.now < (s.port.bank b.val).rowCycleUntil) : exec (.bankOpenStart b) s = .next s := by
  cases hw : s.port.waitList b.val with
  | nil => simp only [exec, execBankOpenStart, State.live_released hp, hw]
  | cons a rest =>
    refine (exec_bankOpenStart hp hw).trans (congrArg _ (if_neg ?_))
    rintro ⟨hidle, hover⟩
    rcases h with hnone | hbusy | hearly
    · exact List.cons_ne_nil a rest (hw.symm.trans hnone)
    · exact hbusy hidle
    · exact Nat.not_le.2 hearly hover

theorem exec_openDelayExpiry {s : State} (hp : s.chip.resetPin = false) {b : Fin 8} {row : Nat}
    (h : (s.port.bank b.val).state = .opening row) : exec (.openDelayExpiry b) s = .next
      ((s.reach (s.port.bank b.val).delayUntil).setPort
        (s.port.setBank b.val { s.port.bank b.val with state := .opened row })) := by
  simp only [exec, execOpenDelayExpiry, State.live_released hp, h]

/-- A transfer to the bank is in progress when one is and the front access lies in the bank (R158). -/
theorem Port.transferringTo_iff (p : Port) (b : Nat) : p.transferringTo b = true ↔
    p.transferring = true ∧ ∃ a rest, p.issueList = a :: rest ∧ a.bank = b := by
  unfold Port.transferringTo
  cases p.issueList <;> simp

theorem Port.frontElsewhere_iff (p : Port) (b row : Nat) :
    p.frontElsewhere b row = true ↔ ∃ a rest, p.waitList b = a :: rest ∧ a.strip ≠ row := by
  rw [← Bool.not_eq_false, Port.frontElsewhere_false]
  push Not
  rfl

/-- The three causes of a close (R160, R164, R168). -/
theorem Port.closeIsDue_iff (p : Port) (b row : Nat) : p.closeIsDue b row = true ↔
    (p.bank b).closeDue ≠ .none ∨ (∃ a rest, p.waitList b = a :: rest ∧ a.strip ≠ row) ∨
      (p.resetClosing = true ∧ p.issueList = []) := by
  rw [← Port.frontElsewhere_iff]
  simp [Port.closeIsDue, or_assoc]

theorem exec_bankCloseStart {s : State} (hp : s.chip.resetPin = false) {b : Fin 8} {row : Nat}
    (h : (s.port.bank b.val).state = .opened row) : exec (.bankCloseStart b) s = .next
      (if s.port.closeIsDue b.val row = true ∧ (s.port.bank b.val).minimumOpenUntil ≤ s.chip.now ∧
          (s.port.bank b.val).writeRecoveryUntil ≤ s.chip.now ∧ s.port.transferringTo b.val = false then
        s.setPort (s.port.setBank b.val { s.port.bank b.val with
          state := .closing, closeDue := .none, delayUntil := s.chip.now + s.port.timing.closeDelay })
      else s) := by
  simp only [exec, execBankCloseStart, State.live_released hp, h]

theorem exec_closeDelayExpiry {s : State} (hp : s.chip.resetPin = false) {b : Fin 8}
    (h : (s.port.bank b.val).state = .closing) : exec (.closeDelayExpiry b) s = .next
      ((s.reach (s.port.bank b.val).delayUntil).setPort
        (s.port.setBank b.val { s.port.bank b.val with state := .idle }).settleReset) := by
  simp only [exec, execCloseDelayExpiry, State.live_released hp, h]

/-- The closing after an engine reset is over when the issue list is empty and all banks are IDLE (R168). -/
theorem Port.settleReset_resetClosing (p : Port) : p.settleReset.resetClosing = true ↔
    p.resetClosing = true ∧ (p.issueList ≠ [] ∨ ∃ b, b < 8 ∧ (p.bank b).state ≠ .idle) := by
  have hall : p.allIdle = false ↔ ∃ b, b < 8 ∧ (p.bank b).state ≠ .idle := by
    simp [← Bool.not_eq_true, Port.allIdle_iff]
  simp [Port.settleReset, ← hall]

/-- Settles O26: a bank opens, stays and is OPEN at its row; then the closing by its causes and the conditions on it. -/
theorem banksOpenAndClose : Obligations.BanksOpenAndClose := by
  constructor
  · rintro b k s hp rfl
    refine ⟨fun a rest hw hidle hover => ?_, exec_bankOpenStart_stays hp, fun row hrow => ?_⟩
    · obtain ⟨hbank, hothers⟩ := s.port.setBank_spec b.val
        ((s.port.bank b.val).startOpen s.port.timing s.chip.now a.strip) rfl
      exact ⟨_, (exec_bankOpenStart hp hw).trans (congrArg _ (if_pos ⟨hidle, hover⟩)), hbank, hothers, rfl⟩
    · obtain ⟨hbank, hothers⟩ := s.port.setBank_spec b.val { s.port.bank b.val with state := .opened row } rfl
      exact ⟨_, exec_openDelayExpiry hp hrow, hbank, hothers, rfl⟩
  · rintro b k row s hp rfl
    refine ⟨fun hrow hcause => ⟨fun hopen hrecovered hfree => ?_, fun hearly => ?_⟩,
      fun hrow hmark hfront hclosing => ?_, fun hstate => ?_⟩
    · have hdue := (s.port.closeIsDue_iff b.val row).2 hcause
      have hidle : s.port.transferringTo b.val = false := by
        rw [← Bool.not_eq_true, Port.transferringTo_iff]
        rintro ⟨hbusy, a, rest, hl, hb⟩
        exact hfree hbusy a rest hl hb
      obtain ⟨hbank, hothers⟩ := s.port.setBank_spec b.val { s.port.bank b.val with
        state := .closing, closeDue := .none, delayUntil := s.chip.now + s.port.timing.closeDelay } rfl
      exact ⟨_, (exec_bankCloseStart hp hrow).trans (congrArg _ (if_pos ⟨hdue, hopen, hrecovered, hidle⟩)),
        hbank, hothers, rfl⟩
    · refine (exec_bankCloseStart hp hrow).trans (congrArg _ (if_neg ?_))
      rintro ⟨-, hopen, hrecovered, hidle⟩
      rcases hearly with hearly | hearly | hbusy
      · exact Nat.not_le.2 hearly hopen
      · exact Nat.not_le.2 hearly hrecovered
      · exact absurd (hidle.symm.trans ((s.port.transferringTo_iff b.val).2 hbusy)) nofun
    · refine (exec_bankCloseStart hp hrow).trans (congrArg _ (if_neg ?_))
      rintro ⟨hdue, -⟩
      rcases (s.port.closeIsDue_iff b.val row).1 hdue with hmarked | ⟨a, rest, hw, hother⟩ | ⟨hreset, hempty⟩
      · exact hmarked hmark
      · exact hother (hfront a rest hw)
      · exact hclosing.elim (fun hno => absurd (hreset.symm.trans hno) nofun) fun hwork => hwork hempty
    · obtain ⟨hbank, hothers⟩ := s.port.setBank_spec b.val { s.port.bank b.val with state := .idle } rfl
      exact ⟨_, exec_closeDelayExpiry hp hstate, hbank, hothers, Port.settleReset_resetClosing _, rfl⟩

end Sys2Proof.Machine
end

section
/-! # The settings of the store port (R163 to R166) -/

namespace Sys2Proof.Machine

/-- A rule that writes the store port changes nothing else. -/
theorem State.take_setPort {s : State} {c : Instr} {body : State → Reply} (h : s.Ready c) {p : Port}
    (hb : body s = (s.setPort p).ok) (d : Bool) :
    s.take c d body = { s with port := p, management := s.answered .ok [] } :=
  State.take_ok h hb rfl d

/-! ### The timing and the arbiter's limits (R163, R165) -/

/-- Each timing is stored as the nearer end of its range (R163). -/
theorem storedTiming_eq (o c m r w d : Nat) : storedTiming o c m r w d =
    { openDelay := if o < 5 then 5 else if 100 < o then 100 else o
      closeDelay := if c < 5 then 5 else if 100 < c then 100 else c
      minimumOpen := if m < 10 then 10 else if 200 < m then 200 else m
      rowCycle := max (if r < 20 then 20 else if 300 < r then 300 else r)
        ((if m < 10 then 10 else if 200 < m then 200 else m) + (if c < 5 then 5 else if 100 < c then 100 else c))
      writeRecovery := if w < 5 then 5 else if 100 < w then 100 else w
      turnaround := if d < 1 then 1 else if 50 < d then 50 else d } := by
  have h5 := @clamp_eq 5 100 (by decide)
  have h10 := @clamp_eq 10 200 (by decide)
  have h20 := @clamp_eq 20 300 (by decide)
  have h1 := @clamp_eq 1 50 (by decide)
  simp only [← h5, ← h10, ← h20, ← h1]
  rfl

theorem exec_setStoreTiming {s : State} {o c m r w d : Nat} (h : s.Ready (.setStoreTiming o c m r w d)) :
    exec (.setStoreTiming o c m r w d) s = .next { s with
      port := { s.port with timing := storedTiming o c m r w d }, management := s.answered .ok [] } :=
  congrArg Host.Outcome.next
    (State.take_setPort (p := { s.port with timing := storedTiming o c m r w d }) h rfl false)

/-- The port with the arbiter's two limits stored, each as the nearer end of its range (R165). -/
def Port.withLimits (p : Port) (quiet aging : Nat) : Port :=
  { p with quietTime := min 10000 quiet, agingLimit := clamp 1 1000 aging }

/-- The limits are stored, and the running timers judged against them (R165). -/
theorem exec_setArbiter {s : State} {quiet aging : Nat} (h : s.Ready (.setArbiter quiet aging)) :
    exec (.setArbiter quiet aging) s = .next { s with
      port := (s.port.withLimits quiet aging).judgeTimers s.chip.now, management := s.answered .ok [] } :=
  congrArg Host.Outcome.next
    (State.take_setPort (p := (s.port.withLimits quiet aging).judgeTimers s.chip.now) h rfl false)

theorem min_ten_thousand_eq (quiet : Nat) : min 10000 quiet = if 10000 < quiet then 10000 else quiet := by
  split <;> omega

/-- A running quiet timer judged against the quiet time (R165). -/
theorem Port.judgeTimers_quiet_running (p : Port) {since : Nat} (h : p.quiet = .running since) (now : Nat) :
    (p.judgeTimers now).quiet = if since + p.quietTime ≤ now then .expired else p.quiet := by
  simp only [Port.judgeTimers, h]

theorem Port.judgeTimers_quiet_still (p : Port) (h : ∀ since, p.quiet ≠ .running since) (now : Nat) :
    (p.judgeTimers now).quiet = p.quiet := by
  unfold Port.judgeTimers
  cases hq : p.quiet with
  | running since => exact absurd hq (h since)
  | stopped | expired => rfl

/-- A running aging clock judged against the aging limit (R165). -/
theorem Port.judgeTimers_aging_running (p : Port) {since : Nat} (h : p.aging = .running since) (now : Nat) :
    (p.judgeTimers now).aging = if since + 1000 * p.agingLimit ≤ now then .aged else p.aging := by
  simp only [Port.judgeTimers, h]

theorem Port.judgeTimers_aging_still (p : Port) (h : ∀ since, p.aging ≠ .running since) (now : Nat) :
    (p.judgeTimers now).aging = p.aging := by
  unfold Port.judgeTimers
  cases hq : p.aging with
  | running since => exact absurd hq (h since)
  | stopped | aged => rfl

/-! ### The page policy (R164) -/

theorem pagePolicyOf_above {policy : Nat} (h : 1 < policy) : pagePolicyOf policy = none := by
  obtain ⟨n, rfl⟩ := Nat.exists_eq_add_of_le' h
  rfl

theorem pagePolicyOf_code {policy : Nat} (h : policy ≤ 1) :
    pagePolicyOf policy = some (if policy = 0 then .keepOpen else .closeAfter) := by
  obtain rfl | rfl : policy = 0 ∨ policy = 1 := by omega
  all_goals rfl

theorem Port.waitsFor_iff (p : Port) (b row : Nat) :
    p.waitsFor b row = true ↔ ∃ a ∈ p.waitList b, a.strip = row := by
  simp [Port.waitsFor, List.any_eq_true]

theorem exec_setPagePolicy {s : State} {policy : Nat} (h : s.Ready (.setPagePolicy policy)) (hin : policy ≤ 1) :
    exec (.setPagePolicy policy) s = .next { s with
      port := s.port.setPolicy (if policy = 0 then .keepOpen else .closeAfter), management := s.answered .ok [] } :=
  congrArg _ (State.take_setPort h (by rw [pagePolicyOf_code hin]) false)

theorem Port.policy_setPolicy (p : Port) (policy : PagePolicy) : (p.setPolicy policy).policy = policy := by
  unfold Port.setPolicy
  split
  · next h => exact h.symm
  · rw [foldl_setBank_frame]

/-- The policy in force, sent again, changes no bank (assumption 35). -/
theorem Port.bank_setPolicy_same {p : Port} {policy : PagePolicy} (h : (p.setPolicy policy).policy = p.policy) (b : Nat) :
    (p.setPolicy policy).bank b = p.bank b := by
  rw [Port.policy_setPolicy] at h
  rw [Port.setPolicy, if_pos h]

/-- Each bank changes with the policy (R164). -/
theorem Port.bank_setPolicy_new {p : Port} {policy : PagePolicy} (h : (p.setPolicy policy).policy ≠ p.policy) {b : Nat}
    (hb : b < 8) : (p.setPolicy policy).bank b = p.bankUnder policy b := by
  rw [Port.policy_setPolicy] at h
  rw [Port.setPolicy, if_neg h, bank_foldl_setBank _ _ List.nodup_range, if_pos (List.mem_range.2 hb)]

theorem Port.setPolicy_rest (p : Port) (policy : PagePolicy) {q : Port} (hq : q = p.setPolicy policy) :
    q = { p with policy := q.policy, banks := q.banks } := by
  obtain ⟨x, banks, h⟩ := p.setPolicy_frame policy
  rw [hq, h]

/-- Under CLOSE AFTER an OPEN bank closes unless an access waits for its row (R164). -/
theorem Port.bankUnder_closeAfter_opened {p : Port} {b row : Nat} (h : (p.bank b).state = .opened row) :
    p.bankUnder .closeAfter b =
      if ∃ a ∈ p.waitList b, a.strip = row then p.bank b else { p.bank b with closeDue := .byPolicy } := by
  simp only [Port.bankUnder, h, Port.waitsFor_iff]

theorem Port.bankUnder_closeAfter_other {p : Port} {b : Nat} (h : ∀ row, (p.bank b).state ≠ .opened row) :
    p.bankUnder .closeAfter b = p.bank b := by
  cases hs : (p.bank b).state with
  | opened row => exact absurd hs (h row)
  | idle | opening | closing => simp only [Port.bankUnder, hs]

/-! ### The report (R166) -/

/-- The report lists the banks from 0 to 7. -/
theorem flatMap_range_eight {α : Type} (f : Nat → List α) :
    (List.range 8).flatMap f = f 0 ++ f 1 ++ f 2 ++ f 3 ++ f 4 ++ f 5 ++ f 6 ++ f 7 := by
  simp [List.range_succ]

/-- A bank is reported by its state and, OPENING or OPEN, its row. -/
theorem Bank.fields_eq {k : Bank} {bytes : List Byte} (h : bytes = match k.state with
    | .idle => bytesOf 1 0
    | .opening row => bytesOf 1 1 ++ bytesOf 3 row
    | .opened row => bytesOf 1 2 ++ bytesOf 3 row
    | .closing => bytesOf 1 3) : k.fields = bytes := by
  subst h
  unfold Bank.fields
  cases k.state <;> rfl

/-- Settles O54: the timing, the arbiter's limits and timers, the policy with each bank under it, then the report. -/
theorem portSettings : Obligations.PortSettings := by
  refine ⟨fun o c m r w d quiet aging s => ⟨fun h => ⟨_, _, rfl, rfl, ?_⟩, fun h => ?_⟩,
    fun policy s => ⟨fun h => ?_, fun h bank hbank => ?_⟩⟩
  · rw [← storedTiming_eq, exec_setStoreTiming h]
  · exact ⟨_, exec_setArbiter h, min_ten_thousand_eq quiet, clamp_eq (by decide) aging,
      fun _ hq => (s.port.withLimits quiet aging).judgeTimers_quiet_running hq _,
      fun hq => (s.port.withLimits quiet aging).judgeTimers_quiet_still hq _,
      fun _ ha => (s.port.withLimits quiet aging).judgeTimers_aging_running ha _,
      fun ha => (s.port.withLimits quiet aging).judgeTimers_aging_still ha _, rfl⟩
  · by_cases hin : policy ≤ 1
    · refine ⟨_, exec_setPagePolicy h hin, fun hr => absurd hin (Nat.not_le.2 hr), fun _ =>
        ⟨Port.policy_setPolicy .., fun b hb => ⟨fun hsame => Port.bank_setPolicy_same hsame b, fun hnew h0 => ?_,
          fun hnew h1 => ?_⟩, ?_⟩⟩
      · exact (Port.bank_setPolicy_new hnew hb).trans (congrArg (s.port.bankUnder · b) (if_pos h0))
      · have hx : (if policy = 0 then PagePolicy.keepOpen else .closeAfter) = .closeAfter := if_neg (by omega)
        have hbank := (Port.bank_setPolicy_new hnew hb).trans (congrArg (s.port.bankUnder · b) hx)
        have opened {row : Nat} (hrow) := hbank.trans (Port.bankUnder_closeAfter_opened (row := row) hrow)
        refine ⟨fun row hrow hnone => (opened hrow).trans (if_neg ?_),
          fun row hrow hsome => (opened hrow).trans (if_pos hsome),
          fun hother => hbank.trans (Port.bankUnder_closeAfter_other hother)⟩
        rintro ⟨a, ha, hstrip⟩
        exact hnone a ha hstrip
      · exact congrArg (fun p => { s with port := p, management := s.answered .ok [] }) (Port.setPolicy_rest s.port _ rfl)
    · have habove := Nat.not_le.1 hin
      exact ⟨_, rfl, fun _ => State.take_refused h (by rw [pagePolicyOf_above habove]) false, fun hle => absurd hle hin⟩
  · have fields (b : Nat) : (s.port.bank b).fields = bank b := Bank.fields_eq (hbank b)
    refine congrArg _ ((State.take_reported h rfl false).trans ?_)
    rw [Port.fields, flatMap_range_eight]
    simp only [fields]

end Sys2Proof.Machine
end

section
/-! # The state after power-on (R149) -/

namespace Sys2Proof.Machine

/-- An engine reset finds every block as power-on left it (R149, R192). -/
theorem State.engineReset_poweredOn (pins : Fin 4) (now powerOns occasions tests : Nat) (commands : List Instr) :
    (State.poweredOn pins now powerOns occasions tests commands).engineReset =
      State.poweredOn pins now powerOns occasions tests commands := rfl

theorem State.poweredOn_values (pins : Fin 4) (now powerOns occasions tests : Nat) (commands : List Instr) :
    (State.poweredOn pins now powerOns occasions tests commands).PoweredOn (Config.stripsOfPins pins) where
  cleared := by
    rw [← State.engineReset_poweredOn]
    exact State.engineReset_cleared _ {}
  strips := rfl
  init := ⟨rfl, rfl⟩
  linkDown := ⟨rfl, rfl, rfl⟩
  tags _ := rfl
  wrapOrder := rfl
  reserve := rfl
  log := ⟨rfl, rfl⟩
  queues := ⟨rfl, rfl, rfl⟩
  dataPath := ⟨rfl, rfl⟩
  banks _ := ⟨rfl, rfl, rfl⟩
  timers := ⟨rfl, rfl⟩
  timing := rfl
  settings := ⟨rfl, rfl, rfl⟩
  management := ⟨rfl, rfl, rfl⟩
  alert := rfl
  memory _ := rfl

/-- Settles O3: the command leaves the power-on values for any pins, and the state after reset is that for pins at 0. -/
theorem powerOnValues : Obligations.PowerOnValues :=
  ⟨fun pins s => ⟨_, exec_powerOn pins s, State.poweredOn_values .., rfl, rfl⟩, State.poweredOn_values 0 0 0 0 0 [], rfl⟩

end Sys2Proof.Machine
end

section
/-! # The RESET pin (R180, R182) -/

namespace Sys2Proof.Machine

/-- How many zero bytes a row shifts out while the RESET pin is held: one for each byte of its transaction, and none when
it is not of the management link (R182). -/
def heldBytes : Instr → Option Nat
  | .managementTransactionStart _ => some 1
  | .commandFrame bytes => some (bytes.length + 1)
  | .responseTransaction clocked => some (clocked + 1)
  | .otherTransaction clocked => some (clocked + 1)
  | _ => none

/-- The state after a row while the RESET pin is held. -/
def State.afterHeld (s : State) (c : Instr) : State :=
  match heldBytes c with
  | none => s
  | some count => s.heldShift count

/-- While the RESET pin is held a row shifts out zero bytes or does nothing: no row of the archive link or of the engine
runs, and no management command is taken (R182, assumption 6). -/
theorem exec_held {s : State} (h : s.chip.resetPin = true) {c : Instr} (hon : ∀ pins, c ≠ .powerOn pins)
    (hassert : c ≠ .resetPinAssert) : exec c s = .next (s.afterHeld c) := by
  cases c with
  | powerOn pins => exact absurd rfl (hon pins)
  | resetPinAssert => exact absurd rfl hassert
  | managementTransactionStart | commandFrame | responseTransaction | otherTransaction => exact congrArg _ (if_pos h)
  | initBuildAppend | lineRead | lineWrite | readDecode | writeDisposal | archiveLinkDown | archiveLinkUp | readDataStart
  | readDataEnd | copySegmentIssue | commitSegmentIssue | arbiterIssue | quietTimerExpiry | agingClockExpiry
  | bankOpenStart | rowCycleExpiry | openDelayExpiry | bankCloseStart | minimumOpenExpiry | writeRecoveryExpiry
  | closeDelayExpiry | turnaroundExpiry | transferStart | transferEnd => exact congrArg _ (State.live_held h _)
  | _ => exact congrArg _ (State.take_held h _ _ _)

theorem State.afterHeld_frame (s : State) (c : Instr) :
    s.afterHeld c = { s with management := { s.management with shiftOut := (s.afterHeld c).management.shiftOut } } := by
  unfold State.afterHeld
  cases heldBytes c <;> rfl

/-- Settles O4: the assertion of the pin by its definition, every other command by `exec_held`. -/
theorem resetPinHeld : Obligations.ResetPinHeld := by
  refine fun s => ⟨⟨_, rfl, rfl, rfl, rfl, rfl, fun _ => rfl, rfl⟩, fun h c hon hassert => ⟨_, exec_held h hon hassert,
    ?_, ?_, ?_, ?_⟩⟩
  · rw [s.afterHeld_frame c]
  · rintro ⟨_, rfl⟩
    rfl
  · rintro _ rfl
    rfl
  · rintro _ (rfl | rfl) <;> rfl

end Sys2Proof.Machine
end

section
/-! # Offers to the fault queue (R171) -/

namespace Sys2Proof.Machine

/-- The fault comes from where the newest record of the queue does, so that the offer merges (R171). -/
def Reports.Merges (r : Reports) (f : FaultRecord) : Prop :=
  ∃ front newest, r.faults = front ++ [newest] ∧
    newest.kind = f.kind ∧ newest.aperture = f.aperture ∧ newest.page = f.page

theorem Reports.offer_merges {r : Reports} {f newest : FaultRecord} {front : List FaultRecord}
    (h : r.faults = front ++ [newest])
    (same : newest.kind = f.kind ∧ newest.aperture = f.aperture ∧ newest.page = f.page) :
    r.offer f = { r with faults := front ++ [{ newest with repeats := min 65535 (newest.repeats + 1) }] } := by
  simp [Reports.offer, h, same]

theorem Reports.offer_of_not_merges {r : Reports} {f : FaultRecord} (h : ¬ r.Merges f) :
    r.offer f =
      if r.faults.length < 32 then { r with faults := r.faults ++ [f], statuses := { r.statuses with fault := true } }
      else { r with statuses := { r.statuses with faultsLost := true } } := by
  unfold Reports.offer
  rcases List.eq_nil_or_concat' r.faults with hnil | ⟨front, newest, hlast⟩
  · rw [hnil]
    rfl
  · have differs : ¬ (newest.kind = f.kind ∧ newest.aperture = f.aperture ∧ newest.page = f.page) :=
      fun same => h ⟨front, newest, hlast, same⟩
    rw [hlast, List.getLast?_concat]
    exact if_neg differs

/-- Settles O22: an offer that merges, then one that does not, by the room in the queue. -/
theorem faultOfferTaken : Obligations.FaultOfferTaken := by
  refine fun r f _ => ⟨fun front newest h hkind haperture hpage => Reports.offer_merges h ⟨hkind, haperture, hpage⟩,
    fun hdiffer => ?_⟩
  have hnot : ¬ r.Merges f := by
    rintro ⟨front, newest, h, hkind, haperture, hpage⟩
    rcases hdiffer front newest h with hne | hne | hne
    · exact hne hkind
    · exact hne haperture
    · exact hne hpage
  rw [Reports.offer_of_not_merges hnot]
  exact ⟨fun hroom => if_pos hroom, fun hfull => if_neg (Nat.not_lt.2 hfull)⟩

end Sys2Proof.Machine
end

section
/-! # ALERT and the JOB status (R179, R180) -/

namespace Sys2Proof.Machine

/-! ### Masks of flags (§11.7) -/

/-- The mask with the flags of a list in its bits, from bit 0 on. -/
def flagsMask : List Bool → Nat
  | [] => 0
  | b :: flags => Nat.bit b (flagsMask flags)

theorem testBit_flagsMask (flags : List Bool) (i : Nat) : (flagsMask flags).testBit i = flags.getD i false := by
  induction flags generalizing i with
  | nil => simp [flagsMask]
  | cons b flags ih =>
    cases i with
    | zero => simp [flagsMask]
    | succ i => simp [flagsMask, Nat.testBit_bit_succ, ih]

theorem bit_eq_flagCode (b : Bool) (n : Nat) : Nat.bit b n = flagCode b + 2 * n := by
  cases b <;> simp [Nat.bit, flagCode, Nat.add_comm]

/-- The ten device statuses in the order of their bits (§11.7). -/
def Reports.statusFlags (r : Reports) : List Bool :=
  [r.statuses.initDone, r.statuses.editionClosed, r.statuses.commitDone, r.statuses.commitWaiting, r.statuses.storeLow,
   r.statuses.fault, r.statuses.faultsLost, r.statuses.logReady, r.statuses.logFull, r.job]

theorem Reports.statusMask_eq (r : Reports) : r.statusMask = flagsMask r.statusFlags := by
  simp only [Reports.statusMask, Reports.statusFlags, flagsMask, bit_eq_flagCode]
  ring

/-- The ten device enables in the order of their bits (§11.7). -/
def DeviceEnables.flags (e : DeviceEnables) : List Bool :=
  [e.initDone, e.editionClosed, e.commitDone, e.commitWaiting, e.storeLow, e.fault, e.faultsLost, e.logReady, e.logFull,
   e.job]

theorem DeviceEnables.mask_eq (e : DeviceEnables) : e.mask = flagsMask e.flags := by
  simp only [DeviceEnables.mask, DeviceEnables.flags, flagsMask, bit_eq_flagCode]
  ring

theorem JobEvents.mask_eq (e : JobEvents) :
    e.mask = flagsMask [e.charged, e.withheld, e.limit, e.enableCharged, e.enableWithheld, e.enableLimit] := by
  simp only [JobEvents.mask, flagsMask, bit_eq_flagCode]
  ring

/-- Two lists of flags that both hold at some place. -/
theorem any_zipWith_and (as bs : List Bool) : (List.zipWith and as bs).any id = true ↔
    ∃ i, i < as.length ∧ as.getD i false = true ∧ bs.getD i false = true := by
  induction as generalizing bs with
  | nil => simp
  | cons a as ih =>
    cases bs with
    | nil => simp
    | cons b bs =>
      rw [List.length_cons, Nat.exists_lt_succ_left]
      simp [ih]

/-! ### ALERT (R180) -/

theorem Reports.alert_eq (r : Reports) : r.alert = (List.zipWith and r.statusFlags r.enables.flags).any id := by
  simp [Reports.alert, Reports.statusFlags, DeviceEnables.flags, Bool.or_assoc]

/-- Some device event has its status and its enable both set exactly when the two masks meet in a bit (R180). -/
theorem Reports.alert_iff (r : Reports) : r.alert = true ↔
    ∃ i, i < 10 ∧ r.statusMask.testBit i = true ∧ r.enables.mask.testBit i = true := by
  simp only [r.statusMask_eq, r.enables.mask_eq, testBit_flagsMask]
  rw [r.alert_eq, any_zipWith_and]
  rfl

/-! ### The JOB status (R179) -/

/-- A job has a status and its enable both set exactly when the two halves of its mask meet in a bit (R179). -/
theorem JobEvents.raised_iff (e : JobEvents) : e.raised = true ↔
    ∃ k, k < 3 ∧ e.mask.testBit k = true ∧ e.mask.testBit (k + 3) = true := by
  simp only [Nat.exists_lt_succ_left, Nat.not_lt_zero, e.mask_eq, testBit_flagsMask]
  simp [JobEvents.raised, or_assoc]

theorem Reports.testBit_nine_statusMask (r : Reports) : r.statusMask.testBit 9 = r.job := by
  rw [r.statusMask_eq, testBit_flagsMask]
  rfl

/-- JOB stands exactly while some job has a status and its enable both set: a job that the table does not list has
neither (R177, R179). -/
theorem Reports.job_iff {r : Reports} (h : Table.wf r.jobEvents) : r.job = true ↔ ∃ j, (r.jobOf j).raised = true := by
  simp only [Reports.job, List.any_eq_true]
  constructor
  · rintro ⟨⟨j, e⟩, hmem, hraised⟩
    refine ⟨j, ?_⟩
    rwa [Reports.jobOf, Table.get, (Table.read_eq_some h j e).2 hmem]
  · rintro ⟨j, hraised⟩
    rw [Reports.jobOf, Table.get] at hraised
    cases hread : Table.read r.jobEvents j with
    | none =>
      rw [hread] at hraised
      exact absurd hraised (by decide)
    | some e =>
      rw [hread] at hraised
      exact ⟨(j, e), Table.mem_of_read hread, hraised⟩

/-- Settles O56: ALERT by the two masks of the device, and JOB by the masks of the jobs. -/
theorem alertFollowsEvents : Obligations.AlertFollowsEvents := by
  refine fun s => ⟨?_, fun h => ?_⟩
  · rw [State.alert, Bool.and_eq_true, Bool.not_eq_true', Reports.alert_iff]
  · rw [Reports.testBit_nine_statusMask, Reports.job_iff h]
    exact exists_congr fun j => JobEvents.raised_iff _

end Sys2Proof.Machine
end

section
/-! # The transactions of the management link (R183 to R187) -/

namespace Sys2Proof.Machine

/-! ### The link byte (R183) -/

theorem Phase.name_eq_idle (p : Phase) : p.name = .idle ↔ p = .idle := by
  cases p <;> simp [Phase.name]

/-- In a command transaction the link byte is OK or BUSY (R183). -/
theorem linkByte_command (phase : PhaseName) : linkByte 1 phase = if phase = .idle then 0 else 3 := by
  cases phase <;> rfl

/-- In any other transaction the link byte is the phase (R183). -/
theorem linkByte_phase {d : Byte} (h : d ≠ 1) (phase : PhaseName) :
    (phase = .idle → linkByte d phase = 0) ∧ (phase = .taking → linkByte d phase = 1) ∧
      (phase = .pending → linkByte d phase = 2) := by
  have hd : d ≠ commandDirection := h
  cases phase <;> simp [linkByte, hd]

/-! ### The start of a transaction, and its phase at the end -/

theorem exec_managementTransactionStart {d : Byte} {s : State} (hp : s.chip.resetPin = false)
    (ht : s.management.transaction = none) :
    exec (.managementTransactionStart d) s = .next { s with management := { s.management with
      transaction := some ⟨d, s.management.phase.name⟩, shiftOut := [linkByte d s.management.phase.name] } } := by
  show execManagementTransactionStart d s = _
  simp only [execManagementTransactionStart, hp, ht]
  rfl

/-- A transaction in progress ends by the phase at its start (R183). -/
theorem State.phaseAtStart_of_transaction {s : State} {d : Byte} {phase : PhaseName} {is : Byte → Bool}
    (ht : s.management.transaction = some ⟨d, phase⟩) (hd : is d = true) : s.phaseAtStart is = some phase := by
  simp [State.phaseAtStart, ht, hd]

/-! ### A transaction of another direction (R183) -/

theorem exec_otherTransaction {d : Byte} {n : Nat} {phase : PhaseName} {s : State} (hp : s.chip.resetPin = false)
    (ht : s.management.transaction = some ⟨d, phase⟩) (h1 : d ≠ 1) (h2 : d ≠ 2) :
    exec (.otherTransaction n) s =
      .next (s.setManagement (s.management.endTransaction (linkByte 0 phase :: List.replicate n 0))) := by
  have hphase : s.phaseAtStart (fun d => d != commandDirection && d != responseDirection) = some phase :=
    State.phaseAtStart_of_transaction ht (by rw [Bool.and_eq_true, bne_iff_ne, bne_iff_ne]; exact ⟨h1, h2⟩)
  show execOtherTransaction n s = _
  simp [execOtherTransaction, hp, hphase]

/-- Settles O34: the link byte by its direction and the phase; the end of a transaction of another direction. -/
theorem transactionBegins : Obligations.TransactionBegins := by
  refine fun d s hp => ⟨fun ht => ⟨_, _, exec_managementTransactionStart hp ht, rfl, ?_, fun hd => ?_, rfl⟩,
    fun n phase ht h1 h2 => ⟨_, exec_otherTransaction hp ht h1 h2, linkByte_phase (by decide) phase⟩⟩
  · rintro rfl
    simp only [linkByte_command, Phase.name_eq_idle]
  · obtain ⟨hidle, htaking, hpending⟩ := linkByte_phase hd s.management.phase.name
    refine ⟨fun h => hidle ?_, fun c h => htaking ?_, fun h => hpending ?_⟩
    all_goals rw [h]; rfl

/-! ### A command transaction (R184, R186) -/

section
variable {bytes : List Byte} {phase : PhaseName} {s : State}

/-- The management link once the command transaction in progress has ended, whatever its frame. -/
def Management.commandEnded (m : Management) (phase : PhaseName) : Management :=
  m.endTransaction [linkByte commandDirection phase]

/-- A frame sent in another phase than IDLE, or without a byte, is discarded (R186). -/
theorem exec_commandFrame_discarded (hp : s.chip.resetPin = false) (ht : s.management.transaction = some ⟨1, phase⟩)
    (h : phase ≠ .idle ∨ bytes = []) :
    exec (.commandFrame bytes) s = .next (s.setManagement (s.management.commandEnded phase)) := by
  have hphase : s.phaseAtStart (· == commandDirection) = some phase := State.phaseAtStart_of_transaction ht rfl
  show execCommandFrame bytes s = _
  simp only [execCommandFrame, hp, hphase]
  cases phase with
  | idle =>
    obtain rfl : bytes = [] := h.resolve_left (absurd rfl)
    rfl
  | taking | pending => rfl

/-- A frame with a byte, sent in phase IDLE, is judged (R184). -/
theorem exec_commandFrame_judged (hp : s.chip.resetPin = false) (ht : s.management.transaction = some ⟨1, .idle⟩)
    (hb : bytes ≠ []) :
    (frameCommand bytes = none → exec (.commandFrame bytes) s =
      .next ((s.setManagement (s.management.commandEnded .idle)).respond .malformed [])) ∧
    (∀ c, frameCommand bytes = some c → exec (.commandFrame bytes) s =
      .next (s.setManagement { s.management.commandEnded .idle with phase := .taking c })) := by
  have hphase : s.phaseAtStart (· == commandDirection) = some .idle := State.phaseAtStart_of_transaction ht rfl
  obtain ⟨b, rest, rfl⟩ := List.exists_cons_of_ne_nil hb
  refine ⟨fun hf => ?_, fun c hf => ?_⟩
  all_goals
    show execCommandFrame (b :: rest) s = _
    simp only [execCommandFrame, hp, hphase, hf]
    rfl

/-- Settles O35: a frame that is discarded, then a malformed one and one that is taken up. -/
theorem commandFrameJudged : Obligations.CommandFrameJudged := by
  intro bytes phase s hp ht
  by_cases hd : phase ≠ .idle ∨ bytes = []
  · refine ⟨_, exec_commandFrame_discarded hp ht hd, rfl, fun _ => ⟨rfl, rfl⟩, fun hi hb => ?_, rfl⟩
    exact absurd hd (not_or.2 ⟨not_not.2 hi, hb⟩)
  · obtain ⟨hi, hb⟩ := not_or.1 hd
    obtain rfl := not_not.1 hi
    obtain ⟨hmalformed, htaken⟩ := exec_commandFrame_judged hp ht hb
    cases hf : frameCommand bytes with
    | none => exact ⟨_, hmalformed hf, rfl, fun h => absurd h hd, fun _ _ => ⟨fun _ => ⟨rfl, rfl⟩, nofun⟩, rfl⟩
    | some c =>
      refine ⟨_, htaken c hf, rfl, fun h => absurd h hd, fun _ _ => ⟨nofun, fun d he => ?_⟩, rfl⟩
      cases he
      exact ⟨rfl, rfl⟩

end

/-! ### A response transaction (R187) -/

@[simp] theorem length_clockOut (n : Nat) (frame : List Byte) : (clockOut n frame).length = n := by
  simp only [clockOut, List.length_append, List.length_take, List.length_replicate]
  omega

/-- Zero bytes follow the end of a frame (R187). -/
theorem getElem?_clockOut {n i : Nat} (h : i < n) (frame : List Byte) :
    (clockOut n frame)[i]? = some (frame[i]?.getD 0) := by
  rw [clockOut]
  by_cases hi : i < frame.length
  · rw [List.getElem?_append_left (by rw [List.length_take]; omega), List.getElem?_take_of_lt h]
    simp [hi]
  · have hlen : (frame.take n).length = frame.length := by rw [List.length_take]; omega
    rw [List.getElem?_append_right (by omega), hlen, List.getElem?_replicate, if_pos (by omega),
      List.getElem?_eq_none (Nat.not_lt.1 hi)]
    rfl

theorem Management.responseBytes_eq (m : Management) (phase : PhaseName) :
    m.responseBytes phase = if phase = .pending then m.buffer else [2, 0, 0] := by
  cases phase <;> rfl

/-- The management link once the response transaction in progress has ended, but for the buffer that it empties. -/
def Management.responseEnded (m : Management) (phase : PhaseName) (n : Nat) : Management :=
  m.endTransaction (linkByte responseDirection phase :: clockOut n (m.responseBytes phase))

section
variable {n : Nat} {phase : PhaseName} {s : State}

/-- A response read in full leaves the buffer (R187). -/
theorem exec_responseTransaction_full (hp : s.chip.resetPin = false)
    (ht : s.management.transaction = some ⟨2, phase⟩) (h : phase = .pending ∧ (s.management.responseBytes phase).length ≤ n) :
    exec (.responseTransaction n) s =
      .next (s.setManagement { s.management.responseEnded phase n with phase := .idle, buffer := [] }) := by
  have hphase : s.phaseAtStart (· == responseDirection) = some phase := State.phaseAtStart_of_transaction ht rfl
  show execResponseTransaction n s = _
  simp only [execResponseTransaction, hp, hphase]
  rw [if_pos h]
  rfl

/-- NOT READY, and a response not read in full, leave the buffer whole (R187). -/
theorem exec_responseTransaction_kept (hp : s.chip.resetPin = false)
    (ht : s.management.transaction = some ⟨2, phase⟩)
    (h : ¬ (phase = .pending ∧ (s.management.responseBytes phase).length ≤ n)) :
    exec (.responseTransaction n) s = .next (s.setManagement (s.management.responseEnded phase n)) := by
  have hphase : s.phaseAtStart (· == responseDirection) = some phase := State.phaseAtStart_of_transaction ht rfl
  show execResponseTransaction n s = _
  simp only [execResponseTransaction, hp, hphase]
  rw [if_neg h]
  rfl

end

theorem Management.shiftOut_responseEnded {m : Management} {phase : PhaseName} {n : Nat} :
    (m.responseEnded phase n).shiftOut.length = n + 1 ∧
      ∀ i, i < n → (m.responseEnded phase n).shiftOut[i + 1]? = some ((m.responseBytes phase)[i]?.getD 0) := by
  refine ⟨?_, fun i hi => getElem?_clockOut hi _⟩
  rw [Management.responseEnded, Management.endTransaction, List.length_cons, length_clockOut]

/-- Settles O37: the layout of a frame, the codes of its status, and a response read in full or not. -/
theorem responseRead : Obligations.ResponseRead := by
  refine ⟨fun status fields hlen => ⟨BitVec.ofNat 8 (fields.length / 256), BitVec.ofNat 8 fields.length, ?_, ?_⟩, rfl,
    fun n phase frame s hp ht hframe => ?_⟩
  · simp [responseFrame, bytesOf]
  · simp only [BitVec.toNat_ofNat]
    omega
  · rw [← Management.responseBytes_eq] at hframe
    subst hframe
    obtain ⟨hlength, hbytes⟩ := s.management.shiftOut_responseEnded (phase := phase) (n := n)
    by_cases hfull : phase = .pending ∧ (s.management.responseBytes phase).length ≤ n
    · refine ⟨_, exec_responseTransaction_full hp ht hfull, rfl, hlength, hbytes, fun _ _ => ⟨rfl, rfl⟩, fun h => ?_, rfl⟩
      exact absurd hfull (not_and_or.2 (h.imp_right Nat.not_le.2))
    · exact ⟨_, exec_responseTransaction_kept hp ht hfull, rfl, hlength, hbytes, fun h hn => absurd ⟨h, hn⟩ hfull,
        fun _ => ⟨rfl, rfl⟩, rfl⟩

end Sys2Proof.Machine
end

section
/-! # What a refused command leaves (R185, R189)

Every management command is taken by a rule of its own, and no rule that refuses has an effect. -/

namespace Sys2Proof.Machine

/-! ### A rule's answer -/

/-- The answer is OK or ACCEPTED, or the rule leaves the state `s` as it was (R185). -/
def Reply.RefusalKeeps (r : Reply) (s : State) : Prop := r.status = .ok ∨ r.status = .accepted ∨ r.state = s

@[simp] theorem State.refuse_refusalKeeps (s : State) (status : Status) : (s.refuse status).RefusalKeeps s := .inr (.inr rfl)
@[simp] theorem State.ok_refusalKeeps (s t : State) : t.ok.RefusalKeeps s := .inl rfl
@[simp] theorem State.report_refusalKeeps (s t : State) (fields : List Byte) : (t.report fields).RefusalKeeps s := .inl rfl
@[simp] theorem Reply.ok_refusalKeeps (s t : State) (fields : List Byte) : (Reply.mk .ok fields t).RefusalKeeps s := .inl rfl
@[simp] theorem Reply.accepted_refusalKeeps (s t : State) (fields : List Byte) :
    (Reply.mk .accepted fields t).RefusalKeeps s := .inr (.inl rfl)

/-- A response with another status than OK and ACCEPTED comes with no change but in the management link (R185). -/
theorem State.take_refused_frame {s : State} {c : Instr} {d : Bool} {body : State → Reply}
    (hb : (body s).RefusalKeeps s) (hok : (s.take c d body).management.buffer.head? ≠ some 0)
    (haccepted : (s.take c d body).management.buffer.head? ≠ some 1) :
    s.take c d body = { s with management := (s.take c d body).management } := by
  rcases s.take_cases c d body with h | h | h
  · rw [h]
  · rw [h]; rfl
  · rw [h, State.respond_eq, State.answered, responseFrame_head] at hok haccepted
    rcases hb with hs | hs | hs
    · exact absurd (by rw [hs]; rfl) hok
    · exact absurd (by rw [hs]; rfl) haccepted
    · rw [h, hs]
      rfl

/-! ### Management commands are taken by their rules -/

/-- The four commands that INIT does not refuse (R189). -/
def answersInInit : Instr → Bool
  | .identify | .readStatus | .readEvents | .enableEvents _ => true
  | _ => false

/-- A management command is the taking of its rule, and a rule that refuses has no effect (R182, R185, R189). -/
theorem exec_management {c : Instr} (hm : isManagementCommand c = true) (s : State) :
    ∃ body, exec c s = .next (s.take c (answersInInit c) body) ∧ (body s).RefusalKeeps s := by
  cases c with
  | powerOn | resetPinAssert | initBuildAppend | lineRead | lineWrite | readDecode | writeDisposal | archiveLinkDown
  | archiveLinkUp | readDataStart | readDataEnd | copySegmentIssue | commitSegmentIssue | arbiterIssue | quietTimerExpiry
  | agingClockExpiry | bankOpenStart | rowCycleExpiry | openDelayExpiry | bankCloseStart | minimumOpenExpiry
  | writeRecoveryExpiry | closeDelayExpiry | turnaroundExpiry | transferStart | transferEnd | managementTransactionStart
  | commandFrame | responseTransaction | otherTransaction => cases hm
  | _ =>
    refine ⟨_, rfl, ?_⟩
    try dsimp only
    (repeat' split) <;> simp

/-- Settles O38: by the rule that takes the command; in INIT it is not looked at. -/
theorem refusalChangesNothing : Obligations.RefusalChangesNothing := by
  intro c s hm
  obtain ⟨body, he, hkeeps⟩ := exec_management hm s
  refine ⟨fun t ht hok haccepted => ?_, fun htaken hinit hidentify hstatus hevents henable => ⟨_, he, ?_⟩⟩
  · rw [he] at ht
    cases ht
    exact State.take_refused_frame hkeeps hok haccepted
  · have hc : answersInInit c = false := by
      cases c with
      | identify => exact absurd rfl hidentify
      | readStatus => exact absurd rfl hstatus
      | readEvents => exact absurd rfl hevents
      | enableEvents mask => exact absurd rfl (henable mask)
      | _ => rfl
    rw [hc]
    exact State.take_during_init htaken hinit body

end Sys2Proof.Machine
end

section
/-! # Command frames are read both ways (R184, R194) -/

namespace Sys2Proof.Laws.FrameCarriesCommand

/-- Each command agrees with the command index, by the lemma of its own. -/
theorem of_instr : ∀ i : Instr, Statement i
  | .powerOn .. => powerOn _ | .resetPinAssert => resetPinAssert | .initBuildAppend => initBuildAppend
  | .lineRead .. => lineRead _ _ _ | .lineWrite .. => lineWrite _ _ _ | .readDecode .. => readDecode _
  | .writeDisposal => writeDisposal | .archiveLinkDown => archiveLinkDown | .archiveLinkUp => archiveLinkUp
  | .readDataStart .. => readDataStart _ | .readDataEnd => readDataEnd | .copySegmentIssue .. => copySegmentIssue _
  | .commitSegmentIssue => commitSegmentIssue | .arbiterIssue => arbiterIssue | .quietTimerExpiry => quietTimerExpiry
  | .agingClockExpiry => agingClockExpiry | .bankOpenStart .. => bankOpenStart _
  | .rowCycleExpiry .. => rowCycleExpiry _ | .openDelayExpiry .. => openDelayExpiry _
  | .bankCloseStart .. => bankCloseStart _ | .minimumOpenExpiry .. => minimumOpenExpiry _
  | .writeRecoveryExpiry .. => writeRecoveryExpiry _ | .closeDelayExpiry .. => closeDelayExpiry _
  | .turnaroundExpiry => turnaroundExpiry | .transferStart => transferStart | .transferEnd => transferEnd
  | .managementTransactionStart .. => managementTransactionStart _ | .commandFrame .. => commandFrame _
  | .responseTransaction .. => responseTransaction _ | .otherTransaction .. => otherTransaction _
  | .identify => identify | .readStatus => readStatus | .resetEngine => resetEngine | .setLinkOrder .. => setLinkOrder _
  | .setAperture .. => setAperture _ _ _ _ _ _ _ | .readAperture .. => readAperture _
  | .createPage .. => createPage _ _ _ _ _ _ | .finishLoad .. => finishLoad _ | .setEmbargo .. => setEmbargo _ _
  | .setRateClass .. => setRateClass _ _ | .discardVersion .. => discardVersion _ _ | .retirePage .. => retirePage _
  | .readPage .. => readPage _ | .setStoreReserve .. => setStoreReserve _ | .openEdition .. => openEdition _
  | .closeEdition => closeEdition | .writeRestoration .. => writeRestoration _ _ _ _ _ _ _
  | .addDefect .. => addDefect _ _ _ _ _ _ | .clearDefects .. => clearDefects _
  | .detachRestoration .. => detachRestoration _ | .loadCurve .. => loadCurve _ _ _
  | .readRestoration .. => readRestoration _ | .commitRestoration .. => commitRestoration _
  | .abortCommit => abortCommit | .openAccount .. => openAccount _ | .creditAccount .. => creditAccount _ _
  | .suspendAccount .. => suspendAccount _ | .resumeAccount .. => resumeAccount _
  | .setDiscount .. => setDiscount _ _ _ _ _ | .readAccount .. => readAccount _ | .closeAccount .. => closeAccount _
  | .openJob .. => openJob _ _ _ | .closeJob .. => closeJob _ | .freeJob .. => freeJob _ | .readJob .. => readJob _ _
  | .setDate .. => setDate _ | .setBands .. => setBands _ _ _ | .setRate .. => setRate _ _ _ _ _
  | .setSurcharge .. => setSurcharge _ | .readTariff .. => readTariff _ | .readCharges .. => readCharges _
  | .setLogMode .. => setLogMode _ _ | .setStoreTiming .. => setStoreTiming _ _ _ _ _ _
  | .setPagePolicy .. => setPagePolicy _ | .setArbiter .. => setArbiter _ _ | .readStoreSettings => readStoreSettings
  | .readFaults => readFaults | .ackEvents .. => ackEvents _ | .enableEvents .. => enableEvents _
  | .enableJobEvents .. => enableJobEvents _ _ | .ackJobEvents .. => ackJobEvents _ _ | .readEvents => readEvents

end Sys2Proof.Laws.FrameCarriesCommand

namespace Sys2Proof.Machine

/-! ### The command index (§11.5) -/

section
variable {c : Instr} {code : Nat} {fields widths : List Nat} {values : List Byte}

theorem fieldWidths_bounds (h : fieldWidths code = some widths) : code < 256 ∧ widths.foldl (· + ·) 0 ≤ 14 := by
  unfold fieldWidths at h
  split at h <;> cases h <;> decide

/-- Only LOAD CURVE has values; its third field is their number. -/
theorem commandParts_values (h : commandParts c = some (code, fields, values)) :
    code ≠ loadCurveCode ∧ values = [] ∨
      ∃ a b, c = .loadCurve a b values ∧ code = loadCurveCode ∧ fields = [a, b, values.length] := by
  cases c <;> cases h
  case loadCurve a b => exact .inr ⟨a, b, rfl, rfl, rfl⟩
  all_goals exact .inl ⟨by decide, rfl⟩

/-- A command can be carried by its link exactly when its fields fit their widths. -/
theorem wellFormed_iff_of_commandParts (h : commandParts c = some (code, fields, values))
    (hw : fieldWidths code = some widths) : c.wellFormed = true ↔ ∀ e ∈ widths.zip fields, e.2 < 256 ^ e.1 := by
  cases c <;> cases h
  all_goals
    cases hw
    simp [Instr.wellFormed, and_assoc]

/-- A list is spelled by its entries, so that `rfl` reads one of known length entry by entry. -/
theorem exists_map_range_eq {n : Nat} (h : fields.length = n) : ∃ entry : Nat → Nat, fields = (List.range n).map entry := by
  refine ⟨fun i => fields.getD i 0, List.ext_getElem (by simp [h]) fun i hi _ => ?_⟩
  simp [hi]

/-- A code of the command index with as many fields as it has widths names one command, which has those parts; values
make a difference to LOAD CURVE alone. -/
theorem commandOf_of_fieldWidths (hw : fieldWidths code = some widths) (hl : fields.length = widths.length) :
    (∃ c, code ≠ loadCurveCode ∧ commandParts c = some (code, fields, []) ∧
      ∀ values, commandOf code fields values = some c) ∨
    (∃ a b n, code = loadCurveCode ∧ fields = [a, b, n] ∧
      ∀ values, commandOf code fields values = some (.loadCurve a b values)) := by
  obtain ⟨entry, rfl⟩ := exists_map_range_eq hl
  unfold fieldWidths at hw
  split at hw <;> cases hw
  case h_21 => exact .inr ⟨_, _, _, rfl, rfl, fun _ => rfl⟩
  all_goals exact .inl ⟨_, by decide, rfl, fun _ => rfl⟩

end

/-! ### The bytes of a frame (R184) -/

section
variable {c : Instr} {code : Nat} {fields widths : List Nat} {values body : List Byte}

/-- The frame of a code and the bytes of its fields (§11.7). -/
def frameBytes (code : Nat) (body : List Byte) : List Byte := bytesOf 1 code ++ bytesOf 2 body.length ++ body

theorem commandFrameOf_eq (h : commandParts c = some (code, fields, values)) (hw : fieldWidths code = some widths) :
    commandFrameOf c = some (frameBytes code (joinFields widths fields ++ values)) := by
  simp only [commandFrameOf, h, hw]
  rfl

/-- A frame whose length is that of its fields, and at most 512, is read by the command index (R184). -/
theorem frameCommand_frameBytes (hw : fieldWidths code = some widths) (hmost : body.length ≤ 512)
    (hlen : body.length = fieldLength code widths body) :
    frameCommand (frameBytes code body) = commandOf code (splitFields widths body) (body.drop 3) := by
  obtain ⟨hcode, -⟩ := fieldWidths_bounds hw
  have hframe : frameBytes code body =
      BitVec.ofNat 8 code :: BitVec.ofNat 8 (body.length / 256) :: BitVec.ofNat 8 body.length :: body := by
    simp [frameBytes, bytesOf]
  have hnumber : numberOf [BitVec.ofNat 8 (body.length / 256), BitVec.ofNat 8 body.length] = body.length := by
    have h : numberOf (bytesOf 2 body.length) = body.length := numberOf_bytesOf (by omega)
    simpa [bytesOf] using h
  have hbyte : (BitVec.ofNat 8 code).toNat = code := by
    rw [BitVec.toNat_ofNat]
    exact Nat.mod_eq_of_lt hcode
  simp [hframe, frameCommand, hnumber, hbyte, hw, ← hlen, hmost]

/-- A frame that is read as a command passes the four checks of R184. -/
theorem exists_frameBytes_of_frameCommand {bytes : List Byte} (h : frameCommand bytes = some c) :
    ∃ code widths body, bytes = frameBytes code body ∧ fieldWidths code = some widths ∧
      body.length = fieldLength code widths body ∧ commandOf code (splitFields widths body) (body.drop 3) = some c := by
  unfold frameCommand at h
  split at h
  case h_2 => cases h
  case h_1 code high low body =>
    dsimp only at h
    split at h
    · cases h
    next hnumber =>
    split at h
    · cases h
    split at h
    · cases h
    next widths hw =>
    split at h
    · cases h
    next hlen =>
    have hnumber := not_not.1 hnumber
    refine ⟨code.toNat, widths, body, ?_, hw, ?_, h⟩
    · have hcode : bytesOf 1 code.toNat = [code] := by simp [bytesOf]
      have hlength : bytesOf 2 body.length = [high, low] := by rw [hnumber]; exact bytesOf_numberOf [high, low]
      rw [frameBytes, hcode, hlength]
      rfl
    · rw [hnumber]
      exact not_not.1 hlen

end

/-! ### The field length (R184) -/

section
variable {widths : List Nat} {body : List Byte}

theorem fieldLength_of_ne {code : Nat} (h : code ≠ loadCurveCode) : fieldLength code widths body = widths.foldl (· + ·) 0 :=
  if_neg h

/-- LOAD CURVE's fields are as long as they need be when their third tells the number of the values after it (R184). -/
theorem length_eq_fieldLength_loadCurve : body.length = fieldLength loadCurveCode widths body ↔
    ∃ x y count values, body = x :: y :: count :: values ∧ count.toNat = values.length := by
  unfold fieldLength
  rw [if_pos rfl]
  split
  next x y count values =>
    simp only [List.length_cons, List.cons.injEq]
    constructor
    · exact fun h => ⟨x, y, count, values, ⟨rfl, rfl, rfl, rfl⟩, by omega⟩
    · rintro ⟨_, _, _, _, ⟨rfl, rfl, rfl, rfl⟩, h⟩
      omega
  next hshort =>
    constructor
    · intro h
      match body with
      | [_, _, count] => exact absurd rfl (hshort _ _ count [])
      | _ :: _ :: count :: _ :: _ => exact absurd rfl (hshort _ _ count _)
    · rintro ⟨x, y, count, values, rfl, -⟩
      exact absurd rfl (hshort x y count values)

end

/-! ### A command is read back from its frame, and a frame from its command -/

/-- The frame of a command that its link can carry is read as that command (R184, R194). -/
theorem frameCommand_commandFrameOf {c : Instr} (hwf : c.wellFormed = true) (hm : isManagementCommand c = true) :
    ∃ bytes, commandFrameOf c = some bytes ∧ frameCommand bytes = some c := by
  obtain ⟨⟨code, fields, values⟩, hparts⟩ := Option.isSome_iff_exists.1 hm
  obtain ⟨widths, hw, hl, hcommand, hfit⟩ := Laws.FrameCarriesCommand.of_instr c code fields values hparts
  refine ⟨_, commandFrameOf_eq hparts hw, ?_⟩
  have hsplit := splitFields_joinFields widths fields values hl (hfit hwf)
  have hjoin := length_joinFields widths fields hl
  obtain ⟨-, hsum⟩ := fieldWidths_bounds hw
  rcases commandParts_values hparts with ⟨hne, rfl⟩ | ⟨a, b, rfl, rfl, rfl⟩
  · rw [List.append_nil] at hsplit ⊢
    rw [frameCommand_frameBytes hw (by omega) (by rw [fieldLength_of_ne hne, hjoin]), hsplit]
    rcases commandOf_of_fieldWidths hw hl.symm with ⟨d, -, -, hd⟩ | ⟨_, _, _, h, -⟩
    · rw [hd, ← hd [], hcommand]
    · exact absurd h hne
  · cases hw
    have hcount : values.length < 256 := hfit hwf (1, values.length) (by simp)
    have hbody : joinFields [1, 1, 1] [a, b, values.length] ++ values =
        BitVec.ofNat 8 a :: BitVec.ofNat 8 b :: BitVec.ofNat 8 values.length :: values := by
      simp [joinFields, bytesOf]
    have hlen := (length_eq_fieldLength_loadCurve (widths := [1, 1, 1])).2 ⟨_, _, _, _, hbody, by
      rw [BitVec.toNat_ofNat]
      exact Nat.mod_eq_of_lt hcount⟩
    rw [frameCommand_frameBytes rfl (by rw [hbody]; simp only [List.length_cons]; omega) hlen, hsplit, hbody]
    rfl

/-- A frame that is read as a command is the frame of that command (R184, R194). -/
theorem commandFrameOf_frameCommand {bytes : List Byte} {c : Instr} (h : frameCommand bytes = some c) :
    commandFrameOf c = some bytes ∧ c.wellFormed = true := by
  obtain ⟨code, widths, body, rfl, hw, hlen, hcommand⟩ := exists_frameBytes_of_frameCommand h
  obtain ⟨values, hparts, hbody⟩ : ∃ values, commandParts c = some (code, splitFields widths body, values) ∧
      joinFields widths (splitFields widths body) ++ values = body := by
    rcases commandOf_of_fieldWidths hw (length_splitFields widths body) with ⟨d, hne, hparts, hd⟩ | ⟨a, b, n, rfl, hf, hd⟩
    · obtain rfl : d = c := Option.some.inj ((hd _).symm.trans hcommand)
      rw [fieldLength_of_ne hne] at hlen
      refine ⟨[], hparts, ?_⟩
      rw [List.append_nil, joinFields_splitFields _ _ hlen.ge, ← hlen, List.take_length]
    · cases hw
      obtain ⟨x, y, count, values, rfl, hcount⟩ := length_eq_fieldLength_loadCurve.1 hlen
      refine ⟨values, ?_, ?_⟩
      · obtain rfl : .loadCurve a b values = c := Option.some.inj ((hd _).symm.trans hcommand)
        have hn : numberOf [count] = n := by cases hf; rfl
        rw [hf, ← hn, numberOf_cons, hcount, numberOf_nil, List.length_nil, Nat.pow_zero, Nat.mul_one]
        rfl
      · rw [joinFields_splitFields _ _ (by simp)]
        rfl
  refine ⟨?_, (wellFormed_iff_of_commandParts hparts hw).2 (splitFields_lt widths body)⟩
  rw [commandFrameOf_eq hparts hw, hbody]

/-- Settles O36: a command from its frame, and a frame from its command. -/
theorem framesCarryCommands : Obligations.FramesCarryCommands :=
  ⟨fun _ => frameCommand_commandFrameOf, fun _ _ => commandFrameOf_frameCommand⟩

end Sys2Proof.Machine
end

section
/-! # The step on a queue that holds a command -/

namespace Sys2Proof.Machine

/-- Of two writes of the queue the later one stays. -/
@[simp] theorem State.setPending_setPending (s : State) (x y : List Instr) :
    (s.setPending x).setPending y = s.setPending y := rfl

/-- With a command in front of the queue, a step runs that command and leaves the rest waiting. -/
theorem step_of_pending_cons {s : State} {c : Instr} {rest : List Instr} (h : s.pending = c :: rest) :
    step s = exec c (s.setPending rest) := by
  unfold step
  split
  · next hnil => exact nomatch h.symm.trans hnil
  · next hcons =>
    obtain ⟨rfl, rfl⟩ := List.cons.inj (h.symm.trans hcons)
    rfl

/-- Settles O1: the queue that was put in place names the command, and taking it away overwrites that queue. -/
theorem stepRunsFrontCommand : Obligations.StepRunsFrontCommand := by
  intro c rest s
  rw [step_of_pending_cons (s.setPending_pending (c :: rest)), State.setPending_setPending]

end Sys2Proof.Machine
end
